-- ==== Sys2Proof/Word.lean ====
section
/-!
DEFINITION. The words of the Huffman codec core: the widths spec/00_scope.md rule R6 gives its values.
-/

namespace Sys2Proof

/-- A byte of the compressed stream, and a command word (`CMD_W` = 8, rules R6, R90). -/
abbrev Byte := BitVec 8

/-- A symbol (`SYM_W` = 16, rule R6). -/
abbrev Sym := BitVec 16

/-- One count of the frequency table (`COUNT_W` = 32, rule R6). -/
abbrev Count := BitVec 32

/-- A node's frequency, `TOTAL` and `REMAIN` (`NFREQ_W` = 48, rule R6). -/
abbrev Freq := BitVec 48

/-- A node index (`NIDX_W` = 17, rule R6). -/
abbrev NodeIx := BitVec 17

/-- A status-register value (`CSR_W` = 64, rule R6). -/
abbrev CsrVal := BitVec 64

/-- A code: the branch choices from the root to a leaf, the root's first; `false` is bit 0 and
`true` is bit 1 (spec/00_scope.md rule R9, spec/30_encoding.md rule R104). -/
abbrev Code := List Bool

end Sys2Proof
end

