-- ==== Sys2Proof/Syntax.lean ====
section
/-!
DEFINITION. The eight commands of spec/30_encoding.md rule R92, one constructor per row of
spec/opcode_table.json. No command takes an operand (rule R90).
-/

namespace Sys2Proof

/-- The commands of the HCC (spec/30_encoding.md rule R92). -/
inductive Instr
  /-- Clear all per-call state; the way out of `FAULTED` (spec/46_system_commands.md rule R211). -/
  | clr
  /-- Count the symbols of one `SSRC` pass (spec/40_frequency_counter.md rule R120). -/
  | count
  /-- Build the Huffman tree from the frequency table (spec/42_tree_builder.md rule R145). -/
  | build
  /-- Generate the code table from the tree (spec/43_code_generator.md rule R160). -/
  | gen
  /-- Write header and packed body to `BSNK` (spec/44_bitstream_encoder.md rule R170). -/
  | encode
  /-- Read a compressed stream from `BSRC` and write its symbols (spec/45_bitstream_decoder.md rule R190). -/
  | decode
  /-- CLR; COUNT; BUILD; GEN; ENCODE (spec/46_system_commands.md rule R212). -/
  | compress
  /-- CLR; DECODE (spec/46_system_commands.md rule R213). -/
  | decompress
  deriving DecidableEq, Repr

end Sys2Proof
end

