-- ==== Sys2Proof/WellFormed.lean ====
section
/-!
DEFINITION. Which words are command words, and which instructions are well-formed.

A command has no operand (spec/30_encoding.md rule R90), so every term of `Instr` is well-formed and
the only check there is falls on the WORD: eight words are commands, 248 are not (rule R93).
-/

namespace Sys2Proof

/-- The words of rule R92; the other 248 words are illegal (rule R93). -/
def legalWord (w : Byte) : Bool :=
  decide (1 ≤ w.toNat ∧ w.toNat ≤ 8)

/-- A command has no field that could be out of range (rule R90). -/
def Instr.wellFormed : Instr → Bool
  | .clr => true
  | .count => true
  | .build => true
  | .gen => true
  | .encode => true
  | .decode => true
  | .compress => true
  | .decompress => true

end Sys2Proof
end

