-- ==== Sys2Proof/Decode.lean ====
section
/-!
DEFINITION. The decoder of a command word, from the mask and match of each row of the command table
(spec/30_encoding.md rules R90 to R93, spec/opcode_table.json), and the encoder after it.
-/

namespace Sys2Proof

/-- One row of the command table: a word `w` selects it when `w & mask = pattern` (rule R92). -/
structure OpRow where
  pattern : Byte
  mask : Byte
  instr : Instr
  deriving DecidableEq, Repr

/-- What the decoder says of a word: the command it selects, or that it is none (rule R93). -/
inductive Decoded
  | command (i : Instr)
  | illegalWord (w : Byte)
  deriving DecidableEq, Repr

/-- The command table of rule R92. -/
def opTable : List OpRow :=
  [ ⟨0x01#8, 0xFF#8, .clr⟩,
    ⟨0x02#8, 0xFF#8, .count⟩,
    ⟨0x03#8, 0xFF#8, .build⟩,
    ⟨0x04#8, 0xFF#8, .gen⟩,
    ⟨0x05#8, 0xFF#8, .encode⟩,
    ⟨0x06#8, 0xFF#8, .decode⟩,
    ⟨0x07#8, 0xFF#8, .compress⟩,
    ⟨0x08#8, 0xFF#8, .decompress⟩ ]

/-- The row of a table that a word selects, or the word rejected by name. -/
def decodeIn (w : Byte) : List OpRow → Decoded
  | [] => .illegalWord w
  | r :: rs => if w &&& r.mask = r.pattern then .command r.instr else decodeIn w rs

/-- Decode a command word, total on all 256 words (rules R92, R93). -/
def decode (w : Byte) : Decoded := decodeIn w opTable

/-- The word of a command (rule R92). -/
def encode : Instr → Byte
  | .clr => 0x01#8
  | .count => 0x02#8
  | .build => 0x03#8
  | .gen => 0x04#8
  | .encode => 0x05#8
  | .decode => 0x06#8
  | .compress => 0x07#8
  | .decompress => 0x08#8

/-- The command word that `nbits` bits with value `w` stand for: one byte, the bits above `nbits` zero. -/
def tableWord (nbits w : Nat) : Byte := BitVec.ofNat 8 (w % 2 ^ nbits)

/-- The host's question: the instruction the decoder reads from a word of `nbits` bits. A command word
has 8 bits (rule R90), so a longer word is none. -/
def decodeTableWord (nbits w : Nat) : Option Instr :=
  if nbits ≤ 8 then
    match decode (tableWord nbits w) with
    | .command i => some i
    | .illegalWord _ => none
  else none

end Sys2Proof
end

