-- ==== Sys2Proof/Config.lean ====
section
/-!
DEFINITION. The parameters of spec/00_scope.md rule R6 and the one free value of the spec.
-/

namespace Sys2Proof

/-- The order of the two bytes of a header entry's symbol field. -/
inductive ByteOrder
  | big
  | little
  deriving DecidableEq, Repr

/-- The side on which the single leaf of a degenerate tree hangs. -/
inductive Side
  | left
  | right
  deriving DecidableEq, Repr

/-- `ALPHABET`: the number of symbol values, and of entries of `FT` and `CT` (rule R6). -/
abbrev Config.alphabet : Nat := 65536

/-- `COUNT_MAX` (rule R6). -/
abbrev Config.countMax : Count := 4294967295#32

/-- `DC_MAX`: the largest legal `distinctCount` (rule R6). -/
abbrev Config.dcMax : Nat := 65536

/-- `NODE_MAX`: the number of entries of `NS` (rule R6). -/
abbrev Config.nodeMax : Nat := 131071

/-- `NIL`, the absent-child link (rule R6). -/
abbrev Config.nil : NodeIx := 0x1FFFF#17

/-- `HEAP_CAP`: the number of entries of `HP` (rule R6). -/
abbrev Config.heapCap : Nat := 65536

/-- `SYM_BYTE_ORDER`, an OPEN parameter of spec/92_eei_decisions.md (D13) with default big.
DESIGN CHOICE: the model takes the default (log 11); unsafe for streams of another order. -/
def Config.symByteOrder : ByteOrder := .big

/-- `DEGENERATE_SIDE`, an OPEN parameter of spec/92_eei_decisions.md (D8) with default left.
DESIGN CHOICE: the model takes the default (log 11); unsafe for streams of another choice. -/
def Config.degenerateSide : Side := .left

/-- What a CSR read returns while `STATE = BUSY`, in every bit the spec leaves unspecified
(spec/10_state.md rule R46, "must treat those values as a draw"): a FREE VALUE, one per draw, with
no body, so that nothing can be proved of it (log 7). -/
opaque Config.freeCsr : Nat → CsrVal

end Sys2Proof
end

