-- ==== Sys2Proof/Machine/State.lean ====
section
/-!
DEFINITION. The state of one HCC instance (spec/10_state.md rule R20), the host's side of its ports
(spec/20_memory.md rules R66 to R74), the state after reset (spec/10_state.md rule R45), and the
reasons a step can stop.
-/

namespace Sys2Proof.Machine

/-- The control register `STATE`; the value 3 never occurs (spec/10_state.md rule R21). -/
inductive Ctrl
  | idle
  | busy
  | faulted
  deriving DecidableEq, Repr

/-- The eight fault kinds HCC raises (spec/60_exceptions.md rule R231); the reserved codes have no
constructor (spec/93_implementation_defined.md V4). -/
inductive FaultKind
  | ioError
  | corruptHeaderError
  | truncatedStreamError
  | illegalCommand
  | sequenceError
  | capacityError
  | noCodeError
  | invalidCodeError
  deriving DecidableEq, Repr

/-- The tag of a node-store entry (spec/10_state.md rule R36). -/
inductive Tag
  | leaf
  | internal
  deriving DecidableEq, Repr

/-- An entry of the node store `NS` (spec/10_state.md rule R36). -/
structure Node where
  tag : Tag
  freq : Freq
  sym : Sym
  left : NodeIx
  right : NodeIx
  deriving DecidableEq, Repr

/-- An internal memory: (index, entry) pairs, indexes strictly rising, no entry equal to what an
unlisted index reads as (log 9). -/
abbrev Store (α : Type) := List (Nat × α)

/-- How a source pass ends: `End` or `Err` (spec/20_memory.md rule R67). -/
inductive Terminator
  | eos
  | err
  deriving DecidableEq, Repr

/-- One pass of a source port: its items and its one terminator (spec/20_memory.md rules R67, R68). -/
structure Pass (α : Type) where
  items : List α
  term : Terminator
  deriving DecidableEq, Repr

/-- What `SrcSym()` and `SrcByte()` return (spec/00_scope.md rule R11). -/
inductive SrcEvent (α : Type)
  | item (v : α)
  | eos
  | err
  deriving DecidableEq, Repr

/-- A sink's answer (spec/00_scope.md rule R11). -/
inductive Answer
  | ok
  | err
  deriving DecidableEq, Repr

/-- An open sink transaction: the items accepted so far, and how many more the host takes before it
answers `Err` (`none`: it answers `Ok` for ever) (spec/20_memory.md rules R69, R72). -/
structure Txn (α : Type) where
  items : List α
  room : Option Nat
  deriving DecidableEq, Repr

/-- A source port: the passes the host will present, in order, and what is left of the open one. -/
structure SrcPort (α : Type) where
  passes : List (Pass α)
  cur : Option (Pass α)
  deriving DecidableEq, Repr

/-- A sink port: for each transaction to come how many items the host takes before `Err`, the open
transaction, and the outputs of the committed ones, oldest first. -/
structure SnkPort (α : Type) where
  scripts : List (Option Nat)
  cur : Option (Txn α)
  outputs : List (List α)
  deriving DecidableEq, Repr

/-- The four stream ports (spec/20_memory.md rule R66). -/
inductive Port
  | ssrc
  | bsrc
  | bsnk
  | ssnk
  deriving DecidableEq, Repr

/-- A port event (spec/20_memory.md rules R67 to R72). -/
inductive PortEvent
  | opened (p : Port)
  | released (p : Port)
  | committed (p : Port)
  | aborted (p : Port)
  | tookSym (e : SrcEvent Sym)
  | tookByte (e : SrcEvent Byte)
  | offeredByte (b : Byte) (a : Answer)
  | offeredSym (v : Sym) (a : Answer)
  deriving DecidableEq, Repr

/-- A command outcome (spec/00_scope.md rule R11). -/
inductive CmdOutcome
  | done
  | empty
  | fault (k : FaultKind)
  deriving DecidableEq, Repr

/-- A move of the host (spec/70_reset_and_hazards.md rule R272). -/
inductive HostMove
  /-- Present a command word (spec/30_encoding.md rule R91). -/
  | word (w : Byte)
  /-- Read a CSR (spec/10_state.md rule R27). -/
  | readCsr (n : Byte)
  /-- Assert reset between commands (spec/70_reset_and_hazards.md rule R260). -/
  | reset
  /-- Present a command word and assert reset when the command has made `k` port events
  (spec/70_reset_and_hazards.md rule R262: the stopping point is any point). -/
  | wordThenReset (w : Byte) (k : Nat)
  deriving DecidableEq, Repr

/-- The host's side: its moves to come, its streams, and the records of what it saw. None of it is
state of HCC (spec/10_state.md rule R20); logs 1, 2, 14. -/
structure Env where
  inbox : List HostMove
  ssrc : SrcPort Sym
  bsrc : SrcPort Byte
  bsnk : SnkPort Byte
  ssnk : SnkPort Sym
  trace : List PortEvent
  outcomes : List CmdOutcome
  csrReads : List (Byte × CsrVal)
  draws : Nat
  deriving DecidableEq, Repr

/-- The state of one HCC instance, exactly the list of spec/10_state.md rule R20, and the host's side. -/
structure State where
  /-- `STATE`, rule R21. -/
  ctrl : Ctrl
  /-- `FAULT`, rule R29. -/
  fault : BitVec 4
  /-- `FTV`, rule R25. -/
  ftv : Bool
  /-- `TRV`, rule R25. -/
  trv : Bool
  /-- `CTV`, rule R25. -/
  ctv : Bool
  /-- `DISTINCT`, rule R23. -/
  distinct : BitVec 17
  /-- `TOTAL`, rule R23. -/
  total : Freq
  /-- `BYTES_IN`, rule R34. -/
  bytesIn : BitVec 64
  /-- `BYTES_OUT`, rule R34. -/
  bytesOut : BitVec 64
  /-- `NNODES`, rule R23. -/
  nnodes : BitVec 17
  /-- `HSIZE`, rule R23. -/
  hsize : BitVec 17
  /-- `ROOT`, rule R23. -/
  root : NodeIx
  /-- `ACC`, rule R23. -/
  acc : Byte
  /-- `NBITS`, rule R23. -/
  nbits : BitVec 3
  /-- `SHIFT`, rule R23. -/
  shift : Byte
  /-- `NBITS_IN`, rule R23. -/
  nbitsIn : BitVec 4
  /-- `CUR`, rule R23. -/
  cur : NodeIx
  /-- `REMAIN`, rule R23. -/
  remain : Freq
  /-- The frequency table `FT`, rule R35; an unlisted symbol has count 0. -/
  ft : Store Count
  /-- The node store `NS`, rule R36; an unlisted node has no value. -/
  ns : Store Node
  /-- The heap array `HP`, rule R37; an unlisted position has no value. -/
  hp : Store NodeIx
  /-- The code table `CT`, rule R38; an unlisted symbol is absent. -/
  ct : Store Code
  /-- The host's side. -/
  env : Env
  deriving DecidableEq, Repr

/-- Why the machine stops. No state a run reaches gives one of these: HCC's own fault kinds are NEXT
states (spec/60_exceptions.md rule R240). -/
inductive Fault
  /-- Raised by `nsAppend`: a node would get the index 131071, which `NS` does not have
  (spec/20_memory.md rule R60). Safe. -/
  | noSuchNode
  /-- Raised by `hpWrite`: a heap position of 65536 or more, which `HP` does not have
  (spec/20_memory.md rule R63). Safe. -/
  | noSuchHeapPosition
  /-- Raised by `genLoop`: the traversal has popped as many entries as there are nodes and its stack
  is not empty, so the links are not a tree; a chip would be stuck (log 10). Safe. -/
  | traversalDoesNotEnd
  /-- Raised by the loops over a source pass when they have taken more events than the pass has; a
  pass that never ends is a stuck chip (spec/93_implementation_defined.md V15, log 10). Safe. -/
  | passDoesNotEnd
  deriving DecidableEq, Repr

/-- Why a step has no meaning. -/
inductive Refusal
  /-- Raised by `exec` for an instruction that has no meaning yet. Safe. -/
  | notModelled (mnemonic : String)
  /-- Raised by `nsRead`: `NS[n]` with `n >= NNODES` has no value, "a read would be a refuse"
  (spec/93_implementation_defined.md V7). Safe. -/
  | nodeNoValue
  /-- Raised by `hpRead`: `HP[i]` with `i >= HSIZE` has no value (spec/93_implementation_defined.md V7). Safe. -/
  | heapNoValue
  /-- Raised by `pqExtractMin` with `HSIZE = 0` (spec/41_priority_queue.md rule R140). Safe. -/
  | emptyQueue
  /-- Raised by the four transfer operations on a port that no command has opened: no rule does it
  (spec/20_memory.md rule R73). Safe. -/
  | portNotOpen
  deriving DecidableEq, Repr

/-- How a piece of pseudocode ends when it does not run to its end: an HCC fault raised in the state
it had reached, or a stop of the model. -/
inductive Exit
  | raised (k : FaultKind) (s : State)
  | fault (r : Fault)
  | refused (r : Refusal)
  deriving DecidableEq, Repr

/-- The result of a piece of pseudocode. -/
abbrev Run (α : Type) := Except Exit α

/-- A source port with no pass listed and none open. -/
def SrcPort.fresh {α : Type} : SrcPort α := { passes := [], cur := none }

/-- A sink port with no transaction listed, none open and no output. -/
def SnkPort.fresh {α : Type} : SnkPort α := { scripts := [], cur := none, outputs := [] }

/-- A host that has listed no move and no stream and has seen nothing (log 2). -/
def Env.fresh : Env :=
  { inbox := [], ssrc := .fresh, bsrc := .fresh, bsnk := .fresh, ssnk := .fresh,
    trace := [], outcomes := [], csrReads := [], draws := 0 }

/-- The state after reset (spec/10_state.md rule R45). The six scratch registers are unspecified
there: DESIGN CHOICE 0, unsafe (log 5); no rule reads them before it writes them. -/
def State.reset : State :=
  { ctrl := .idle, fault := 0#4, ftv := false, trv := false, ctv := false,
    distinct := 0#17, total := 0#48, bytesIn := 0#64, bytesOut := 0#64,
    nnodes := 0#17, hsize := 0#17, root := Config.nil,
    acc := 0#8, nbits := 0#3, shift := 0#8, nbitsIn := 0#4, cur := 0#17, remain := 0#48,
    ft := [], ns := [], hp := [], ct := [], env := Env.fresh }

end Sys2Proof.Machine
end

