-- ==== Sys2Proof/Machine/Ops.lean ====
section
/-!
DEFINITION. The named operations over memories, ports and registers, and fault entry, shared by every
command: spec/20_memory.md, spec/42_tree_builder.md rule R156, spec/43_code_generator.md rule R167,
spec/46_system_commands.md rule R211, spec/60_exceptions.md rule R240.
-/

namespace Sys2Proof.Machine

/-! ### Memories -/

/-- The entry a memory lists at an index. -/
def Store.get? {α : Type} : Store α → Nat → Option α
  | [], _ => none
  | (b, w) :: m, a => if a = b then some w else Store.get? m a

/-- List an entry at an index, keeping the indexes rising. -/
def Store.put {α : Type} : Store α → Nat → α → Store α
  | [], a, v => [(a, v)]
  | (b, w) :: m, a, v =>
    if a < b then (a, v) :: (b, w) :: m
    else if a = b then (a, v) :: m
    else (b, w) :: Store.put m a v

/-- List nothing at an index. -/
def Store.del {α : Type} : Store α → Nat → Store α
  | [], _ => []
  | (b, w) :: m, a => if a = b then m else (b, w) :: Store.del m a

/-- `FT[v]` (spec/20_memory.md rule R61): an unlisted symbol has count 0. -/
def ftRead (v : Sym) (s : State) : Count := (s.ft.get? v.toNat).getD 0#32

/-- `FT[v] <- c` (rule R61). -/
def ftWrite (v : Sym) (c : Count) (s : State) : State :=
  { s with ft := if c = 0#32 then s.ft.del v.toNat else s.ft.put v.toNat c }

/-- `NS[n]` (spec/20_memory.md rule R62): only the entries below `NNODES` have a value. -/
def nsRead (n : NodeIx) (s : State) : Run Node :=
  if n.toNat < s.nnodes.toNat then
    match s.ns.get? n.toNat with
    | some d => .ok d
    | none => .error (.refused .nodeNoValue)
  else .error (.refused .nodeNoValue)

/-- `NS[NNODES] <- d; NNODES <- NNODES + 1`, the only write to `NS` (rule R62); answers the index. -/
def nsAppend (d : Node) (s : State) : Run (NodeIx × State) :=
  if s.nnodes.toNat < Config.nodeMax then
    .ok (s.nnodes, { s with ns := s.ns.put s.nnodes.toNat d, nnodes := s.nnodes + 1#17 })
  else .error (.fault .noSuchNode)

/-- `HP[i]` (spec/20_memory.md rule R63): only the entries below `HSIZE` have a value. -/
def hpRead (i : Nat) (s : State) : Run NodeIx :=
  if i < s.hsize.toNat then
    match s.hp.get? i with
    | some n => .ok n
    | none => .error (.refused .heapNoValue)
  else .error (.refused .heapNoValue)

/-- `HP[i] <- n` (rule R63). -/
def hpWrite (i : Nat) (n : NodeIx) (s : State) : Run State :=
  if i < Config.heapCap then .ok { s with hp := s.hp.put i n }
  else .error (.fault .noSuchHeapPosition)

/-- `CT[v].bits` (spec/20_memory.md rule R64): an unlisted symbol is absent, the empty code. `CT[v].len`
is the length of this list (log 13). -/
def ctRead (v : Sym) (s : State) : Code := (s.ct.get? v.toNat).getD []

/-- `CT[v] <- (len(c), c)` (rule R64); the empty code is absence (spec/10_state.md rule R38). -/
def ctWrite (v : Sym) (c : Code) (s : State) : State :=
  { s with ct := if c = [] then s.ct.del v.toNat else s.ct.put v.toNat c }

/-! ### Dropping per-call state -/

/-- `drop_tree()` (spec/42_tree_builder.md rule R156). With `NNODES` and `HSIZE` 0 no entry of `NS` and
`HP` has a value (spec/93_implementation_defined.md V7), so nothing stays listed (log 6). -/
def dropTree (s : State) : State :=
  { s with trv := false, nnodes := 0#17, hsize := 0#17, root := Config.nil, ns := [], hp := [] }

/-- `drop_codes()` (spec/43_code_generator.md rule R167). -/
def dropCodes (s : State) : State :=
  { s with ctv := false, ct := [] }

/-- `FTV <- 0`, `drop_tree`, `drop_codes`, `FT[s] <- 0` for every `s`, `DISTINCT <- 0`, `TOTAL <- 0`: the
opening of COUNT, `parse_header`, CLR and fault entry (spec/40_frequency_counter.md rule R120). -/
def clearTables (s : State) : State :=
  { dropCodes (dropTree { s with ftv := false }) with ft := [], distinct := 0#17, total := 0#48 }

/-- CLR's pseudocode without its last line `STATE <- IDLE`, which a composite does not carry out:
`STATE` stays `BUSY` throughout it (spec/46_system_commands.md rules R211, R215; log 12). -/
def clearAll (s : State) : State :=
  { clearTables s with bytesIn := 0#64, bytesOut := 0#64, fault := 0#4 }

/-! ### Stream ports -/

/-- Record a port event. -/
def note (e : PortEvent) (s : State) : State :=
  { s with env := { s.env with trace := s.env.trace ++ [e] } }

/-- The pass a host that has listed none presents: an unreadable source, `Err` at once (log 2). -/
def unlistedPass {α : Type} : Pass α := { items := [], term := .err }

/-- `Open(P)` on a source port: the next listed pass begins, from its first item (rule R71). -/
def SrcPort.start {α : Type} (p : SrcPort α) : SrcPort α :=
  { passes := p.passes.tail, cur := some (p.passes.headD unlistedPass) }

/-- `Release(P)` (rule R71). -/
def SrcPort.stop {α : Type} (p : SrcPort α) : SrcPort α := { p with cur := none }

/-- The next event of the open pass (rules R67, R68); `none` when no pass is open. -/
def SrcPort.take {α : Type} (p : SrcPort α) : Option (SrcEvent α × SrcPort α) :=
  match p.cur with
  | none => none
  | some ⟨v :: vs, t⟩ => some (.item v, { p with cur := some ⟨vs, t⟩ })
  | some ⟨[], .eos⟩ => some (.eos, p)
  | some ⟨[], .err⟩ => some (.err, p)

/-- How many items of the open pass have not been taken. -/
def SrcPort.itemsLeft {α : Type} (p : SrcPort α) : Nat :=
  match p.cur with
  | none => 0
  | some q => q.items.length

/-- `Open(P)` on a sink port: an empty transaction (rule R72). A host that has listed none answers `Ok`
for ever (log 2). -/
def SnkPort.start {α : Type} (p : SnkPort α) : SnkPort α :=
  { p with scripts := p.scripts.tail, cur := some { items := [], room := p.scripts.headD none } }

/-- Offer one item (rules R69, R70): `Ok` and it is appended, or `Err`; `none` when no transaction is open. -/
def SnkPort.offer {α : Type} (v : α) (p : SnkPort α) : Option (Answer × SnkPort α) :=
  match p.cur with
  | none => none
  | some ⟨items, none⟩ => some (.ok, { p with cur := some ⟨items ++ [v], none⟩ })
  | some ⟨items, some (k + 1)⟩ => some (.ok, { p with cur := some ⟨items ++ [v], some k⟩ })
  | some ⟨_, some 0⟩ => some (.err, p)

/-- `Commit(P)` (rule R72): the transaction's items are an output. -/
def SnkPort.commit {α : Type} (p : SnkPort α) : SnkPort α :=
  match p.cur with
  | none => p
  | some t => { p with cur := none, outputs := p.outputs ++ [t.items] }

/-- `Abort(P)` (rule R72): no output. -/
def SnkPort.abort {α : Type} (p : SnkPort α) : SnkPort α := { p with cur := none }

/-- `Open(SSRC)`. -/
def openSsrc (s : State) : State :=
  note (.opened .ssrc) { s with env := { s.env with ssrc := s.env.ssrc.start } }

/-- `Open(BSRC)`. -/
def openBsrc (s : State) : State :=
  note (.opened .bsrc) { s with env := { s.env with bsrc := s.env.bsrc.start } }

/-- `Open(BSNK)`. -/
def openBsnk (s : State) : State :=
  note (.opened .bsnk) { s with env := { s.env with bsnk := s.env.bsnk.start } }

/-- `Open(SSNK)`. -/
def openSsnk (s : State) : State :=
  note (.opened .ssnk) { s with env := { s.env with ssnk := s.env.ssnk.start } }

/-- `Release(SSRC)`. -/
def releaseSsrc (s : State) : State :=
  note (.released .ssrc) { s with env := { s.env with ssrc := s.env.ssrc.stop } }

/-- `Release(BSRC)`. -/
def releaseBsrc (s : State) : State :=
  note (.released .bsrc) { s with env := { s.env with bsrc := s.env.bsrc.stop } }

/-- `Commit(BSNK)`. -/
def commitBsnk (s : State) : State :=
  note (.committed .bsnk) { s with env := { s.env with bsnk := s.env.bsnk.commit } }

/-- `Commit(SSNK)`. -/
def commitSsnk (s : State) : State :=
  note (.committed .ssnk) { s with env := { s.env with ssnk := s.env.ssnk.commit } }

/-- `Abort(BSNK)`. -/
def abortBsnk (s : State) : State :=
  note (.aborted .bsnk) { s with env := { s.env with bsnk := s.env.bsnk.abort } }

/-- `Abort(SSNK)`. -/
def abortSsnk (s : State) : State :=
  note (.aborted .ssnk) { s with env := { s.env with ssnk := s.env.ssnk.abort } }

/-- `SrcSym()` (rule R67). -/
def srcSym (s : State) : Run (SrcEvent Sym × State) :=
  match s.env.ssrc.take with
  | some (e, p) => .ok (e, note (.tookSym e) { s with env := { s.env with ssrc := p } })
  | none => .error (.refused .portNotOpen)

/-- `SrcByte()` (rule R68). -/
def srcByte (s : State) : Run (SrcEvent Byte × State) :=
  match s.env.bsrc.take with
  | some (e, p) => .ok (e, note (.tookByte e) { s with env := { s.env with bsrc := p } })
  | none => .error (.refused .portNotOpen)

/-- `SinkByte(b)` (rule R69). -/
def sinkByte (b : Byte) (s : State) : Run (Answer × State) :=
  match s.env.bsnk.offer b with
  | some (a, p) => .ok (a, note (.offeredByte b a) { s with env := { s.env with bsnk := p } })
  | none => .error (.refused .portNotOpen)

/-- `SinkSym(v)` (rule R70). -/
def sinkSym (v : Sym) (s : State) : Run (Answer × State) :=
  match s.env.ssnk.offer v with
  | some (a, p) => .ok (a, note (.offeredSym v a) { s with env := { s.env with ssnk := p } })
  | none => .error (.refused .portNotOpen)

/-! ### Fault entry and the end of a command -/

/-- The code written to `FAULT` (spec/60_exceptions.md rule R231). -/
def FaultKind.code : FaultKind → BitVec 4
  | .ioError => 1#4
  | .corruptHeaderError => 3#4
  | .truncatedStreamError => 4#4
  | .illegalCommand => 8#4
  | .sequenceError => 9#4
  | .capacityError => 10#4
  | .noCodeError => 11#4
  | .invalidCodeError => 12#4

/-- `Release(SSRC)`, if it is open. -/
def closeSsrc (s : State) : State := if s.env.ssrc.cur.isSome then releaseSsrc s else s

/-- `Release(BSRC)`, if it is open. -/
def closeBsrc (s : State) : State := if s.env.bsrc.cur.isSome then releaseBsrc s else s

/-- `Abort(BSNK)`, if it is open. -/
def closeBsnk (s : State) : State := if s.env.bsnk.cur.isSome then abortBsnk s else s

/-- `Abort(SSNK)`, if it is open. -/
def closeSsnk (s : State) : State := if s.env.ssnk.cur.isSome then abortSsnk s else s

/-- Close every open port: `Release` the sources, `Abort` the sinks. The spec gives no order among the
ports; its vectors V-EN8 and V-DE4 close the source first (DEDUCED, log 8). -/
def closePorts (s : State) : State := closeSsnk (closeBsnk (closeBsrc (closeSsrc s)))

/-- Fault entry, `raise K` (spec/60_exceptions.md rule R240), for every command alike. -/
def faultEntry (k : FaultKind) (s : State) : State :=
  { clearTables (closePorts s) with
    bytesIn := 0#64, bytesOut := 0#64, fault := k.code, ctrl := .faulted }

/-- Record the outcome of a command that was carried out (spec/70_reset_and_hazards.md rule R273). -/
def recordOutcome (o : CmdOutcome) (s : State) : State :=
  { s with env := { s.env with outcomes := s.env.outcomes ++ [o] } }

/-- The end of a command with outcome `Done` or `Empty`: `BUSY -> IDLE` (spec/10_state.md rule R21). -/
def finish (o : CmdOutcome) (s : State) : State :=
  recordOutcome o { s with ctrl := .idle }

/-- How a command's pseudocode ends the step: finished, in a fault of HCC (a next state), or stopped. -/
def conclude : Run (CmdOutcome × State) → Host.Outcome State Fault Refusal
  | .ok (o, s) => .next (finish o s)
  | .error (.raised k s) => .next (recordOutcome (.fault k) (faultEntry k s))
  | .error (.fault r) => .fault r
  | .error (.refused r) => .refused r

/-- Carry out a command that needs `STATE = IDLE` (spec/30_encoding.md rule R91): in `IDLE` it becomes
`BUSY` and runs; in `FAULTED` its word is dropped; in `BUSY` no word can be presented (log 4). -/
def runCommand (body : State → Run (CmdOutcome × State)) (s : State) :
    Host.Outcome State Fault Refusal :=
  match s.ctrl with
  | .idle => conclude (body { s with ctrl := .busy })
  | .faulted => .next s
  | .busy => .next s

end Sys2Proof.Machine
end

