-- ==== Sys2Proof/Machine/Flags.lean ====
section
/-!
DEFINITION. The computed status bit `EMPTY`, the `STATUS` word and the CSR map
(spec/10_state.md rules R25 to R29 and R46), and `require` (spec/00_scope.md rule R10).
-/

namespace Sys2Proof.Machine

/-- `EMPTY`, computed on every read (spec/10_state.md rule R26). -/
def emptyBit (s : State) : Bool := s.ftv && decide (s.distinct = 0#17)

/-- The two bits of `STATE` (spec/10_state.md rule R21). -/
def Ctrl.bits : Ctrl → BitVec 2
  | .idle => 0#2
  | .busy => 1#2
  | .faulted => 2#2

/-- CSR 0, `STATUS` (spec/10_state.md rule R28): bit 5 `EMPTY`, 4 `CTV`, 3 `TRV`, 2 `FTV`, 1..0 `STATE`. -/
def statusWord (s : State) : CsrVal :=
  0#58 ++ BitVec.ofBool (emptyBit s) ++ BitVec.ofBool s.ctv ++ BitVec.ofBool s.trv
    ++ BitVec.ofBool s.ftv ++ s.ctrl.bits

/-- The CSR map with `STATE` not `BUSY` (spec/10_state.md rule R27); 6..255 read 0. -/
def csrStable (n : Byte) (s : State) : CsrVal :=
  match n.toNat with
  | 0 => statusWord s
  | 1 => s.fault.setWidth 64
  | 2 => s.distinct.setWidth 64
  | 3 => s.total.setWidth 64
  | 4 => s.bytesIn
  | 5 => s.bytesOut
  | _ => 0#64

/-- A CSR read while `BUSY` (spec/10_state.md rule R46): bits 1..0 of CSR 0 are `BUSY`, all else is a
draw, the free value number `draws` (log 7). -/
def csrBusy (n : Byte) (s : State) : CsrVal :=
  if n.toNat = 0 then (Config.freeCsr s.env.draws).extractLsb' 2 62 ++ Ctrl.busy.bits
  else Config.freeCsr s.env.draws

/-- The value the CSR port answers (spec/10_state.md rules R27, R46). -/
def csrValue (n : Byte) (s : State) : CsrVal :=
  match s.ctrl with
  | .busy => csrBusy n s
  | .idle => csrStable n s
  | .faulted => csrStable n s

/-- A CSR read (spec/46_system_commands.md rule R214): it changes nothing of HCC; the host's record
gets the value, and a read that drew a free value advances the counter of draws. -/
def csrRead (n : Byte) (s : State) : State :=
  { s with env := { s.env with
      csrReads := s.env.csrReads ++ [(n, csrValue n s)],
      draws := if s.ctrl = .busy then s.env.draws + 1 else s.env.draws } }

/-- `require c` (spec/00_scope.md rule R10): a false `c` raises `SequenceError`. -/
def require (c : Bool) (s : State) : Run Unit :=
  if c then .ok () else .error (.raised .sequenceError s)

end Sys2Proof.Machine
end

