-- ==== Sys2Proof/Machine/Count.lean ====
section
/-!
DEFINITION. The Frequency Counter: the command COUNT (spec/40_frequency_counter.md).
-/

namespace Sys2Proof.Machine

/-- `count_step(v)` (spec/40_frequency_counter.md rules R121, R122, R123). -/
def countStep (v : Sym) (s : State) : Run State :=
  if ftRead v s = Config.countMax then .error (.raised .capacityError s)
  else
    let s := if ftRead v s = 0#32 then { s with distinct := s.distinct + 1#17 } else s
    let s := ftWrite v (ftRead v s + 1#32) s
    .ok { s with total := s.total + 1#48 }

/-- The loop of COUNT (spec/40_frequency_counter.md rule R120). The first argument bounds the events
taken; a pass has one more than its items. -/
def countLoop : Nat → State → Run State
  | 0, _ => .error (.fault .passDoesNotEnd)
  | n + 1, s => do
    let (e, s) ← srcSym s
    match e with
    | .err => .error (.raised .ioError s)
    | .eos => .ok s
    | .item v => do
      let s ← countStep v s
      countLoop n s

/-- COUNT's pseudocode (spec/40_frequency_counter.md rule R120). -/
def countBody (s : State) : Run (CmdOutcome × State) := do
  let s := clearTables (openSsrc s)
  let s ← countLoop (s.env.ssrc.itemsLeft + 1) s
  let s := { releaseSsrc s with ftv := true }
  .ok (if s.distinct = 0#17 then .empty else .done, s)

/-- COUNT (spec/40_frequency_counter.md rule R120). -/
def execCount (s : State) : Host.Outcome State Fault Refusal := runCommand countBody s

end Sys2Proof.Machine
end

