-- ==== Sys2Proof/Machine/Heap.lean ====
section
/-!
DEFINITION. The priority queue: the micro-operations `pq_insert` and `pq_extract_min` over `HP` and
`HSIZE` (spec/41_priority_queue.md).
-/

namespace Sys2Proof.Machine

/-- `less` on two nodes and their indices: lexicographic on `(freq, index)`
(spec/41_priority_queue.md rule R131, spec/00_scope.md rule R12). -/
def keyLess (a : NodeIx) (x : Node) (b : NodeIx) (y : Node) : Bool :=
  decide (x.freq.toNat < y.freq.toNat ∨ (x.freq = y.freq ∧ a.toNat < b.toNat))

/-- `less(a, b)` (spec/41_priority_queue.md rule R131). -/
def less (a b : NodeIx) (s : State) : Run Bool := do
  let x ← nsRead a s
  let y ← nsRead b s
  .ok (keyLess a x b y)

/-- `less(HP[i], HP[j])`. -/
def lessAt (i j : Nat) (s : State) : Run Bool := do
  let a ← hpRead i s
  let b ← hpRead j s
  less a b s

/-- `t <- HP[i]; HP[i] <- HP[j]; HP[j] <- t`. -/
def hpSwap (i j : Nat) (s : State) : Run State := do
  let a ← hpRead i s
  let b ← hpRead j s
  let s ← hpWrite i b s
  hpWrite j a s

/-- The sift-up loop of `pq_insert` (spec/41_priority_queue.md rules R132, R133), from position `i`.
The first argument bounds the rounds; `i` rounds are enough, the position falls in each. -/
def siftUp : Nat → Nat → State → Run State
  | 0, _, s => .ok s
  | n + 1, i, s =>
    if i = 0 then .ok s
    else do
      let c ← lessAt i ((i - 1) / 2) s
      if c then do
        let s ← hpSwap i ((i - 1) / 2) s
        siftUp n ((i - 1) / 2) s
      else .ok s

/-- `pq_insert(n)` (spec/41_priority_queue.md rule R133). -/
def pqInsert (n : NodeIx) (s : State) : Run State := do
  let i := s.hsize.toNat
  let s ← hpWrite i n s
  siftUp i i { s with hsize := s.hsize + 1#17 }

/-- The candidate `c`, if it is a position in use whose node is less than the node at `sm`; else `sm`
(spec/41_priority_queue.md rule R136). -/
def lesserOf (c sm : Nat) (s : State) : Run Nat :=
  if c < s.hsize.toNat then do
    let b ← lessAt c sm s
    .ok (if b then c else sm)
  else .ok sm

/-- `sift_down(i)` (spec/41_priority_queue.md rule R136). The first argument bounds the rounds; `HSIZE`
rounds are enough, the position rises in each. -/
def siftDown : Nat → Nat → State → Run State
  | 0, _, s => .ok s
  | n + 1, i, s => do
    let sm ← lesserOf (2 * i + 1) i s
    let sm ← lesserOf (2 * i + 2) sm s
    if sm = i then .ok s
    else do
      let s ← hpSwap i sm s
      siftDown n sm s

/-- `HSIZE <- last`: the entry at `last` goes out of use and has no value any more
(spec/41_priority_queue.md rule R135, spec/93_implementation_defined.md V11; log 6). -/
def hpShrink (last : Nat) (s : State) : State :=
  { s with hsize := BitVec.ofNat 17 last, hp := s.hp.del last }

/-- `pq_extract_min()` (spec/41_priority_queue.md rule R135); with `HSIZE = 0` it has no meaning
(rule R140). -/
def pqExtractMin (s : State) : Run (NodeIx × State) :=
  if s.hsize = 0#17 then .error (.refused .emptyQueue)
  else do
    let m ← hpRead 0 s
    let last := s.hsize.toNat - 1
    let s ← hpSwap 0 last s
    let s := hpShrink last s
    let s ← siftDown s.hsize.toNat 0 s
    .ok (m, s)

end Sys2Proof.Machine
end

