-- ==== Sys2Proof/Machine/Build.lean ====
section
/-!
DEFINITION. The Tree Builder: the command BUILD (spec/42_tree_builder.md).
-/

namespace Sys2Proof.Machine

/-- The entry `new_leaf(s, f)` writes (spec/42_tree_builder.md rule R146). -/
def leafNode (v : Sym) (f : Count) : Node :=
  { tag := .leaf, freq := f.setWidth 48, sym := v, left := Config.nil, right := Config.nil }

/-- The entry `new_internal(f, l, r)` writes (spec/42_tree_builder.md rule R147). -/
def internalNode (f : Freq) (l r : NodeIx) : Node :=
  { tag := .internal, freq := f, sym := 0#16, left := l, right := r }

/-- `new_leaf(s, f)` (spec/42_tree_builder.md rule R146). -/
def newLeaf (v : Sym) (f : Count) (s : State) : Run (NodeIx × State) := nsAppend (leafNode v f) s

/-- `new_internal(f, l, r)` (spec/42_tree_builder.md rule R147). -/
def newInternal (f : Freq) (l r : NodeIx) (s : State) : Run (NodeIx × State) :=
  nsAppend (internalNode f l r) s

/-- The leaf phase (spec/42_tree_builder.md rule R148): the symbols with `FT[s] != 0`, ascending, are
the entries `FT` lists, in their order (log 9). -/
def leafPhase : Store Count → State → Run State
  | [], s => .ok s
  | (k, f) :: m, s => do
    let (n, s) ← newLeaf (BitVec.ofNat 16 k) f s
    let s ← pqInsert n s
    leafPhase m s

/-- The degenerate path (spec/42_tree_builder.md rule R150): the one leaf under a wrapper, on the side
`DEGENERATE_SIDE`, the other child absent. -/
def wrapLeaf (s : State) : Run State := do
  let (l, s) ← pqExtractMin s
  let x ← nsRead l s
  let (m, s) ←
    match Config.degenerateSide with
    | .left => newInternal x.freq l Config.nil s
    | .right => newInternal x.freq Config.nil l s
  .ok { s with root := m }

/-- One merge (spec/42_tree_builder.md rule R149): first-extracted left, second-extracted right. -/
def mergeOnce (s : State) : Run State := do
  let (a, s) ← pqExtractMin s
  let (b, s) ← pqExtractMin s
  let x ← nsRead a s
  let y ← nsRead b s
  let (m, s) ← newInternal (x.freq + y.freq) a b s
  pqInsert m s

/-- The merge loop (spec/42_tree_builder.md rule R149). The first argument bounds the rounds; each round
lowers `HSIZE` by one. -/
def mergeLoop : Nat → State → Run State
  | 0, s => .ok s
  | n + 1, s =>
    if s.hsize.toNat > 1 then do
      let s ← mergeOnce s
      mergeLoop n s
    else .ok s

/-- The merge loop and the extraction of the root (spec/42_tree_builder.md rules R149, R152). -/
def mergeAll (s : State) : Run State := do
  let s ← mergeLoop s.hsize.toNat s
  let (r, s) ← pqExtractMin s
  .ok { s with root := r }

/-- BUILD's two phases for a table that is not empty (spec/42_tree_builder.md rules R145, R148): the
leaves, then the degenerate path for one symbol (rule R150) and the merge loop for more. -/
def growTree (s : State) : Run State := do
  let s ← leafPhase s.ft s
  if s.hsize = 1#17 then wrapLeaf s else mergeAll s

/-- BUILD's pseudocode (spec/42_tree_builder.md rule R145). -/
def buildBody (s : State) : Run (CmdOutcome × State) := do
  require s.ftv s
  let s := dropCodes (dropTree s)
  if s.distinct = 0#17 then .ok (.empty, s)
  else do
    let s ← growTree s
    .ok (.done, { s with trv := true })

/-- BUILD (spec/42_tree_builder.md rule R145). -/
def execBuild (s : State) : Host.Outcome State Fault Refusal := runCommand buildBody s

end Sys2Proof.Machine
end

