-- ==== Sys2Proof/Machine/Operands.lean ====
section
/-!
DEFINITION. HCC's only operand forms: the header fields and the code bits of the compressed stream
(spec/30_encoding.md rules R96, R97, R101, R104; spec/44_bitstream_encoder.md rules R174 to R177;
spec/45_bitstream_decoder.md rule R195).
-/

namespace Sys2Proof.Machine

/-! ### Bytes out -/

/-- `out_byte(x)` (spec/44_bitstream_encoder.md rule R176). -/
def outByte (x : Byte) (s : State) : Run State := do
  let (a, s) ← sinkByte x s
  match a with
  | .ok => .ok { s with bytesOut := s.bytesOut + 1#64 }
  | .err => .error (.raised .ioError s)

/-- Send bytes one after the other. -/
def outBytes : List Byte → State → Run State
  | [], s => .ok s
  | x :: xs, s => do
    let s ← outByte x s
    outBytes xs s

/-- The bytes of a 32-bit field, most significant first (spec/20_memory.md rule R75). -/
def bytes32 (v : BitVec 32) : List Byte :=
  [v.extractLsb' 24 8, v.extractLsb' 16 8, v.extractLsb' 8 8, v.extractLsb' 0 8]

/-- The bytes of the symbol field, in the order `SYM_BYTE_ORDER` (spec/20_memory.md rule R75). -/
def bytes16 (v : Sym) : List Byte :=
  match Config.symByteOrder with
  | .big => [v.extractLsb' 8 8, v.extractLsb' 0 8]
  | .little => [v.extractLsb' 0 8, v.extractLsb' 8 8]

/-- `put32be(v)` (spec/30_encoding.md rule R101). -/
def put32be (v : BitVec 32) (s : State) : Run State := outBytes (bytes32 v) s

/-- `put16be(v)` (spec/30_encoding.md rule R101). -/
def put16be (v : Sym) (s : State) : Run State := outBytes (bytes16 v) s

/-! ### Bytes in -/

/-- `hdr_byte()` (spec/30_encoding.md rule R101). -/
def hdrByte (s : State) : Run (Byte × State) := do
  let (e, s) ← srcByte s
  match e with
  | .item b => .ok (b, { s with bytesIn := s.bytesIn + 1#64 })
  | .eos => .error (.raised .corruptHeaderError s)
  | .err => .error (.raised .ioError s)

/-- `get32be()` (spec/30_encoding.md rule R101). -/
def get32be (s : State) : Run (BitVec 32 × State) := do
  let (b0, s) ← hdrByte s
  let (b1, s) ← hdrByte s
  let (b2, s) ← hdrByte s
  let (b3, s) ← hdrByte s
  .ok (b0 ++ b1 ++ b2 ++ b3, s)

/-- `get16be()` (spec/30_encoding.md rule R101), the bytes in the order `SYM_BYTE_ORDER`. -/
def get16be (s : State) : Run (Sym × State) := do
  let (b0, s) ← hdrByte s
  let (b1, s) ← hdrByte s
  match Config.symByteOrder with
  | .big => .ok (b0 ++ b1, s)
  | .little => .ok (b1 ++ b0, s)

/-! ### Code bits out -/

/-- `put_bit(b)` (spec/44_bitstream_encoder.md rule R174). -/
def putBit (b : Bool) (s : State) : Run State :=
  let t : Byte := s.acc.extractLsb' 0 7 ++ BitVec.ofBool b
  if s.nbits = 7#3 then do
    let s ← outByte t s
    .ok { s with acc := 0#8, nbits := 0#3 }
  else .ok { s with acc := t, nbits := s.nbits + 1#3 }

/-- `put_code((len, bits))` (spec/44_bitstream_encoder.md rule R175). -/
def putCode : Code → State → Run State
  | [], s => .ok s
  | b :: bs, s => do
    let s ← putBit b s
    putCode bs s

/-- `flush_bits()` (spec/44_bitstream_encoder.md rule R177). -/
def flushBits (s : State) : Run State :=
  if s.nbits = 0#3 then .ok s
  else do
    let s ← outByte (s.acc <<< (8 - s.nbits.toNat)) s
    .ok { s with acc := 0#8, nbits := 0#3 }

/-! ### Code bits in -/

/-- The part of `get_bit()` that delivers bit 7 of `SHIFT` (spec/45_bitstream_decoder.md rule R195). -/
def shiftOut (s : State) : Bool × State :=
  (s.shift.getLsbD 7, { s with shift := s.shift <<< 1, nbitsIn := s.nbitsIn - 1#4 })

/-- `get_bit()` (spec/45_bitstream_decoder.md rule R195). -/
def getBit (s : State) : Run (Bool × State) :=
  if s.nbitsIn = 0#4 then do
    let (e, s) ← srcByte s
    match e with
    | .item x => .ok (shiftOut { s with bytesIn := s.bytesIn + 1#64, shift := x, nbitsIn := 8#4 })
    | .eos => .error (.raised .truncatedStreamError s)
    | .err => .error (.raised .ioError s)
  else .ok (shiftOut s)

end Sys2Proof.Machine
end

