-- ==== Sys2Proof/Machine/Decoder.lean ====
section
/-!
DEFINITION. The Bitstream Decoder: the command DECODE (spec/45_bitstream_decoder.md).
-/

namespace Sys2Proof.Machine

/-- Whether `s <= prev` with `prev` present (spec/45_bitstream_decoder.md rule R191). -/
def notAscending (prev : Option Sym) (v : Sym) : Bool :=
  match prev with
  | none => false
  | some p => decide (v.toNat ≤ p.toNat)

/-- The entries of `parse_header()` (spec/45_bitstream_decoder.md rules R191, R192): the first argument is
how many are still to come, the second `prev`. -/
def headerEntries : Nat → Option Sym → State → Run State
  | 0, _, s => .ok s
  | n + 1, prev, s => do
    let (v, s) ← get16be s
    let (f, s) ← get32be s
    if notAscending prev v then .error (.raised .corruptHeaderError s)
    else if f = 0#32 then .error (.raised .corruptHeaderError s)
    else
      let s := ftWrite v f s
      headerEntries n (some v) { s with total := s.total + f.setWidth 48 }

/-- `parse_header()` (spec/45_bitstream_decoder.md rule R191). -/
def parseHeader (s : State) : Run State := do
  let (d, s) ← get32be (clearTables s)
  if d.toNat = 0 ∨ d.toNat > Config.dcMax then .error (.raised .corruptHeaderError s)
  else do
    let s ← headerEntries d.toNat none s
    .ok { s with distinct := d.setWidth 17, ftv := true }

/-- `out_sym(v)` (spec/45_bitstream_decoder.md rule R196). -/
def outSym (v : Sym) (s : State) : Run State := do
  let (a, s) ← sinkSym v s
  match a with
  | .ok => .ok s
  | .err => .error (.raised .ioError s)

/-- `walk_step(b)` (spec/45_bitstream_decoder.md rules R196, R199). -/
def walkStep (b : Bool) (s : State) : Run State := do
  let d ← nsRead s.cur s
  let nxt := if b then d.right else d.left
  if nxt = Config.nil then .error (.raised .invalidCodeError s)
  else do
    let s := { s with cur := nxt }
    let x ← nsRead nxt s
    match x.tag with
    | .leaf => do
      let s ← outSym x.sym s
      .ok { s with cur := s.root, remain := s.remain - 1#48 }
    | .internal => .ok s

/-- The loop of `walk_body()` (spec/45_bitstream_decoder.md rules R194, R197). The first argument bounds
the bits taken: when none is left the stream's `End` or `Err` has raised. -/
def walkLoop : Nat → State → Run State
  | 0, _ => .error (.fault .passDoesNotEnd)
  | n + 1, s =>
    if s.remain = 0#48 then .ok s
    else do
      let (b, s) ← getBit s
      let s ← walkStep b s
      walkLoop n s

/-- `walk_body()` (spec/45_bitstream_decoder.md rule R194). -/
def walkBody (s : State) : Run State :=
  walkLoop (8 * s.env.bsrc.itemsLeft + 1)
    { s with cur := s.root, remain := s.total, shift := 0#8, nbitsIn := 0#4 }

/-- DECODE's pseudocode (spec/45_bitstream_decoder.md rule R190). -/
def decodeBody (s : State) : Run (CmdOutcome × State) := do
  let s := { openSsnk (openBsrc s) with bytesIn := 0#64 }
  let s ← parseHeader s
  let (_, s) ← buildBody s
  let s ← walkBody s
  .ok (.done, commitSsnk (releaseBsrc s))

/-- DECODE (spec/45_bitstream_decoder.md rule R190). -/
def execDecode (s : State) : Host.Outcome State Fault Refusal := runCommand decodeBody s

end Sys2Proof.Machine
end

