-- ==== Sys2Proof/Machine/Encode.lean ====
section
/-!
DEFINITION. The Bitstream Encoder: the command ENCODE (spec/44_bitstream_encoder.md).
-/

namespace Sys2Proof.Machine

/-- The entries of `emit_header()` (spec/44_bitstream_encoder.md rule R172): the symbols with `FT[s] != 0`,
ascending, are the entries `FT` lists, in their order (log 9). -/
def emitEntries : Store Count → State → Run State
  | [], s => .ok s
  | (k, f) :: m, s => do
    let s ← put16be (BitVec.ofNat 16 k) s
    let s ← put32be f s
    emitEntries m s

/-- `emit_header()` (spec/44_bitstream_encoder.md rule R172). -/
def emitHeader (s : State) : Run State := do
  let s ← put32be (s.distinct.setWidth 32) s
  emitEntries s.ft s

/-- The loop of `pack_body()` (spec/44_bitstream_encoder.md rules R173, R179). The first argument bounds
the events taken. -/
def packLoop : Nat → State → Run State
  | 0, _ => .error (.fault .passDoesNotEnd)
  | n + 1, s => do
    let (e, s) ← srcSym s
    match e with
    | .err => .error (.raised .ioError s)
    | .eos => .ok s
    | .item v =>
      if ctRead v s = [] then .error (.raised .noCodeError s)
      else do
        let s ← putCode (ctRead v s) s
        packLoop n s

/-- `pack_body()` (spec/44_bitstream_encoder.md rule R173). -/
def packBody (s : State) : Run State := do
  let s ← packLoop (s.env.ssrc.itemsLeft + 1) { s with acc := 0#8, nbits := 0#3 }
  flushBits s

/-- ENCODE's pseudocode (spec/44_bitstream_encoder.md rule R170). -/
def encodeBody (s : State) : Run (CmdOutcome × State) := do
  require (s.ftv && s.ctv) s
  let s := { openBsnk (openSsrc s) with bytesOut := 0#64 }
  let s ← emitHeader s
  let s ← packBody s
  .ok (.done, commitBsnk (releaseSsrc s))

/-- ENCODE (spec/44_bitstream_encoder.md rule R170). -/
def execEncode (s : State) : Host.Outcome State Fault Refusal := runCommand encodeBody s

end Sys2Proof.Machine
end

