-- ==== Sys2Proof/Machine/Gen.lean ====
section
/-!
DEFINITION. The Code Generator: the command GEN (spec/43_code_generator.md).
-/

namespace Sys2Proof.Machine

/-- Push `(n, p)` unless the link is `NIL` (spec/43_code_generator.md rule R160). -/
def pushChild (n : NodeIx) (p : Code) (st : List (NodeIx × Code)) : List (NodeIx × Code) :=
  if n = Config.nil then st else (n, p) :: st

/-- GEN's traversal (spec/43_code_generator.md rules R160, R161): the stack's top is the list's head.
The first argument bounds the pops; a tree has one for each node, and a traversal that needs more is
over links that are not a tree (log 10). -/
def genLoop : Nat → List (NodeIx × Code) → State → Run State
  | _, [], s => .ok s
  | 0, _ :: _, _ => .error (.fault .traversalDoesNotEnd)
  | k + 1, (n, p) :: st, s => do
    let d ← nsRead n s
    match d.tag with
    | .leaf => genLoop k st (ctWrite d.sym p s)
    | .internal =>
      genLoop k (pushChild d.left (p ++ [false]) (pushChild d.right (p ++ [true]) st)) s

/-- GEN's pseudocode (spec/43_code_generator.md rule R160). -/
def genBody (s : State) : Run (CmdOutcome × State) := do
  require s.trv s
  let s := dropCodes s
  let s ← genLoop s.nnodes.toNat [(s.root, [])] s
  .ok (.done, { s with ctv := true })

/-- GEN (spec/43_code_generator.md rule R160). -/
def execGen (s : State) : Host.Outcome State Fault Refusal := runCommand genBody s

end Sys2Proof.Machine
end

