-- ==== Sys2Proof/Machine/System.lean ====
section
/-!
DEFINITION. The system commands CLR, COMPRESS and DECOMPRESS (spec/46_system_commands.md).
-/

namespace Sys2Proof.Machine

/-- CLR (spec/46_system_commands.md rule R211): in `IDLE` and in `FAULTED`; in `BUSY` no word can be
presented (spec/30_encoding.md rule R91). -/
def execClr (s : State) : Host.Outcome State Fault Refusal :=
  match s.ctrl with
  | .idle => .next (finish .done (clearAll s))
  | .faulted => .next (finish .done (clearAll s))
  | .busy => .next s

/-- COMPRESS's pseudocode (spec/46_system_commands.md rule R212). -/
def compressBody (s : State) : Run (CmdOutcome × State) := do
  let (_, s) ← countBody (clearAll s)
  if s.distinct = 0#17 then .ok (.empty, s)
  else do
    let (_, s) ← buildBody s
    let (_, s) ← genBody s
    encodeBody s

/-- COMPRESS (spec/46_system_commands.md rule R212). -/
def execCompress (s : State) : Host.Outcome State Fault Refusal := runCommand compressBody s

/-- DECOMPRESS's pseudocode (spec/46_system_commands.md rule R213). -/
def decompressBody (s : State) : Run (CmdOutcome × State) := decodeBody (clearAll s)

/-- DECOMPRESS (spec/46_system_commands.md rule R213). -/
def execDecompress (s : State) : Host.Outcome State Fault Refusal := runCommand decompressBody s

end Sys2Proof.Machine
end

