-- ==== Sys2Proof/Machine/Accept.lean ====
section
/-!
DEFINITION. The command port, the CSR port and reset: what each move of the host does
(spec/30_encoding.md rule R91, spec/10_state.md rule R27, spec/70_reset_and_hazards.md rules R260, R262).
-/

namespace Sys2Proof.Machine

/-- An illegal word (spec/30_encoding.md rules R91, R93): `IllegalCommand` in `IDLE`, dropped in
`FAULTED`, not presentable in `BUSY`. -/
def illegalWord (s : State) : Host.Outcome State Fault Refusal :=
  match s.ctrl with
  | .idle => .next (recordOutcome (.fault .illegalCommand) (faultEntry .illegalCommand s))
  | .faulted => .next s
  | .busy => .next s

/-- A command word is accepted (spec/30_encoding.md rule R91). -/
def acceptWord (w : Byte) (s : State) : Host.Outcome State Fault Refusal :=
  match decode w with
  | .command i => exec i s
  | .illegalWord _ => illegalWord s

/-- Reset (spec/70_reset_and_hazards.md rule R260): every register and memory takes its reset value. A
port that was open gets no closing bracket (rule R262); the host treats it as closed. -/
def resetCore (s : State) : State :=
  { State.reset with env := { s.env with
      ssrc := s.env.ssrc.stop, bsrc := s.env.bsrc.stop,
      bsnk := s.env.bsnk.abort, ssnk := s.env.ssnk.abort } }

/-- How many times a stretch of port events opens a port. -/
def opensOf (p : Port) (es : List PortEvent) : Nat := es.count (.opened p)

/-- The host's side after a command was cut off by reset when it had made `k` port events
(spec/70_reset_and_hazards.md rule R262): `b` is the host's side before the command and `a` what it
would be after the whole command. The first `k` events have happened, the passes and transactions they
opened are used up, and an output counts only if its `Commit` is among them.
DESIGN CHOICE (log 15): no outcome is recorded for a command cut off by reset, whatever `k`; the spec gives
it none of `Done`, `Empty`, `Fault(K)` (rules R262, R273). -/
def cutOff (k : Nat) (b a : Env) : Env :=
  let es := (a.trace.drop b.trace.length).take k
  { b with
    ssrc := { passes := b.ssrc.passes.drop (opensOf .ssrc es), cur := none },
    bsrc := { passes := b.bsrc.passes.drop (opensOf .bsrc es), cur := none },
    bsnk := { scripts := b.bsnk.scripts.drop (opensOf .bsnk es), cur := none,
              outputs := if PortEvent.committed .bsnk ∈ es then a.bsnk.outputs else b.bsnk.outputs },
    ssnk := { scripts := b.ssnk.scripts.drop (opensOf .ssnk es), cur := none,
              outputs := if PortEvent.committed .ssnk ∈ es then a.ssnk.outputs else b.ssnk.outputs },
    trace := b.trace ++ es }

/-- A command word cut off by reset after `k` port events (spec/70_reset_and_hazards.md rule R262). -/
def wordThenReset (w : Byte) (k : Nat) (s : State) : Host.Outcome State Fault Refusal :=
  match acceptWord w s with
  | .next t => .next (resetCore { s with env := cutOff k s.env t.env })
  | .fault r => .fault r
  | .refused r => .refused r

/-- What a move of the host does (spec/70_reset_and_hazards.md rule R272). -/
def hostMove (m : HostMove) (s : State) : Host.Outcome State Fault Refusal :=
  match m with
  | .word w => acceptWord w s
  | .readCsr n => .next (csrRead n s)
  | .reset => .next (resetCore s)
  | .wordThenReset w k => wordThenReset w k s

/-- Whether a move must wait: a word, while the command port is not ready (spec/30_encoding.md rule R91). -/
def mustWait (m : HostMove) (s : State) : Bool :=
  match m with
  | .word _ => decide (s.ctrl = .busy)
  | .wordThenReset _ _ => decide (s.ctrl = .busy)
  | .readCsr _ => false
  | .reset => false

/-- The host's next move and the state with it taken; none when the host makes no move or must wait. -/
def nextMove (s : State) : Option (HostMove × State) :=
  match s.env.inbox with
  | [] => none
  | m :: ms => if mustWait m s then none else some (m, { s with env := { s.env with inbox := ms } })

/-- The state with a command word presented as the host's next move. -/
def presentWord (w : Byte) (s : State) : State :=
  { s with env := { s.env with inbox := .word w :: s.env.inbox } }

end Sys2Proof.Machine
end

