-- ==== Sys2Proof/Machine/Step.lean ====
section
/-!
DEFINITION. One step: the host's next move is taken and answered, a command word to completion
(spec/00_scope.md rule R5). With no move HCC does nothing (spec/70_reset_and_hazards.md rule R260).
-/

namespace Sys2Proof.Machine

def step (s : State) : Host.Outcome State Fault Refusal :=
  match nextMove s with
  | none => .next s
  | some (m, t) => hostMove m t

/-- `s` with the word of `nbits` bits and value `w` presented as the host's next move, so that `step`
runs exactly it (log 3). -/
def State.withFetchWord (s : State) (nbits w : Nat) : State := presentWord (tableWord nbits w) s

end Sys2Proof.Machine
end

