-- ==== Sys2Proof/Safety.lean ====
section
/-!
DEFINITION. The terms claims are made in: the canonical form of the memories, the invariants the spec
states (spec/10_state.md rules R29, R35, R39, R44, R47), codes read off the tree, and the compressed
stream written down without the machine (spec/30_encoding.md rules R95 to R100, R108).
-/

namespace Sys2Proof.Machine

/-! ### The canonical form of a memory -/

/-- Indexes strictly rising. -/
abbrev Store.Sorted {α : Type} (m : Store α) : Prop := m.Pairwise (fun p q => p.1 < q.1)

/-- Every listed index is below `n`. -/
abbrev Store.Below {α : Type} (n : Nat) (m : Store α) : Prop := ∀ p ∈ m, p.1 < n

/-- The canonical form of `FT`: no entry for a symbol of count 0. -/
abbrev ftWf (m : Store Count) : Prop :=
  m.Sorted ∧ m.Below Config.alphabet ∧ ∀ p ∈ m, p.2 ≠ 0#32

/-- The canonical form of `CT`: no entry for an absent symbol. -/
abbrev ctWf (m : Store Code) : Prop :=
  m.Sorted ∧ m.Below Config.alphabet ∧ ∀ p ∈ m, p.2 ≠ []

/-- The canonical form of the four memories; nothing of `NS` and `HP` is listed out of use
(spec/93_implementation_defined.md V7). -/
abbrev Memory.wf (s : State) : Prop :=
  ftWf s.ft ∧ ctWf s.ct ∧
  (s.ns.Sorted ∧ s.ns.Below s.nnodes.toNat) ∧ (s.hp.Sorted ∧ s.hp.Below s.hsize.toNat)

/-! ### Ports -/

/-- No port is open. -/
abbrev PortsClosed (s : State) : Prop :=
  s.env.ssrc.cur = none ∧ s.env.bsrc.cur = none ∧ s.env.bsnk.cur = none ∧ s.env.ssnk.cur = none

/-! ### What reset, CLR and fault entry leave (spec/10_state.md rule R45) -/

/-- All per-call state is clear: every value of rule R45 but `STATE` and `FAULT`. -/
abbrev TablesClear (s : State) : Prop :=
  s.ftv = false ∧ s.trv = false ∧ s.ctv = false ∧ s.distinct = 0#17 ∧ s.total = 0#48 ∧
  s.bytesIn = 0#64 ∧ s.bytesOut = 0#64 ∧ s.nnodes = 0#17 ∧ s.hsize = 0#17 ∧ s.root = Config.nil ∧
  s.ft = [] ∧ s.ct = []

/-- Every value that rule R45 gives: the reset state, the registers it calls unspecified apart. -/
abbrev ResetValues (s : State) : Prop :=
  s.ctrl = .idle ∧ s.fault = 0#4 ∧ TablesClear s

/-- The state fault entry leaves (spec/60_exceptions.md rule R240): the reset state but for `STATE` and
`FAULT`, with every port closed. -/
abbrev FaultedWith (k : FaultKind) (s : State) : Prop :=
  s.ctrl = .faulted ∧ s.fault = k.code ∧ TablesClear s ∧ PortsClosed s

/-- The six registers that carry nothing from one command to the next (spec/10_state.md rule R23). -/
abbrev SameScratch (s t : State) : Prop :=
  t.acc = s.acc ∧ t.nbits = s.nbits ∧ t.shift = s.shift ∧ t.nbitsIn = s.nbitsIn ∧
  t.cur = s.cur ∧ t.remain = s.remain

/-! ### The frequency table (spec/10_state.md rule R35) -/

/-- The sum of the counts of a table. -/
def countSum (m : Store Count) : Nat := (m.map fun p => p.2.toNat).sum

/-- `DISTINCT` is the number of present symbols and `TOTAL` the sum of the counts (rule R35). -/
abbrev TableOk (s : State) : Prop :=
  s.distinct.toNat = s.ft.length ∧ s.total.toNat = countSum s.ft

/-! ### The tree (spec/10_state.md rules R39, R44) -/

/-- The link of a node that bit `b` takes (spec/30_encoding.md rule R104). -/
def childOf (b : Bool) (d : Node) : NodeIx := if b then d.right else d.left

/-- How many of a node's links lead to `m`. -/
def childCount (d : Node) (m : Nat) : Nat :=
  if d.tag = .internal then
    (if d.left.toNat = m then 1 else 0) + (if d.right.toNat = m then 1 else 0)
  else 0

/-- How many links of the node store lead to `m`. -/
def parentCount (s : State) (m : Nat) : Nat := (s.ns.map fun p => childCount p.2 m).sum

/-- Rule R39: `NNODES` and `ROOT`. -/
abbrev TreeSize (s : State) : Prop :=
  1 ≤ s.ft.length ∧
  s.nnodes.toNat = (if s.ft.length = 1 then 2 else 2 * s.ft.length - 1) ∧
  s.root.toNat + 1 = s.nnodes.toNat

/-- Rule R44 (b): entry `k` is the leaf of the `k`-th smallest present symbol. -/
abbrev TreeLeaves (s : State) : Prop :=
  ∀ k < s.ft.length,
    s.ns.get? k = (s.ft[k]?).map fun p => leafNode (BitVec.ofNat 16 p.1) p.2

/-- Rule R44 (a), (c), (d), (f): the entries from `DISTINCT` up. -/
abbrev TreeInternals (s : State) : Prop :=
  ∀ n < s.nnodes.toNat, s.ft.length ≤ n →
    ∃ d ∈ s.ns.get? n, d.tag = .internal ∧ d.sym = 0#16 ∧
      if s.ft.length = 1 then
        d.left = 0#17 ∧ d.right = Config.nil ∧ ∃ x ∈ s.ns.get? 0, d.freq = x.freq
      else
        d.left.toNat < n ∧ d.right.toNat < n ∧
        ∃ x ∈ s.ns.get? d.left.toNat, ∃ y ∈ s.ns.get? d.right.toNat,
          d.freq.toNat = x.freq.toNat + y.freq.toNat

/-- Rule R44 (e): every node but `ROOT` is the child of exactly one node, and `ROOT` of none. -/
abbrev TreeParents (s : State) : Prop :=
  ∀ m < s.nnodes.toNat, parentCount s m = if m = s.root.toNat then 0 else 1

/-- Rule R44 (g): the root's frequency is `TOTAL`. -/
abbrev TreeTotal (s : State) : Prop :=
  ∃ d ∈ s.ns.get? s.root.toNat, d.freq = s.total

/-- The tree invariants (rules R39, R44). -/
abbrev TreeOk (s : State) : Prop :=
  TreeSize s ∧ TreeLeaves s ∧ TreeInternals s ∧ TreeParents s ∧ TreeTotal s

/-- The node a path leads to from node `n`, bit 0 left and bit 1 right
(spec/43_code_generator.md rule R162); `none` when it leaves the tree. -/
def descend (s : State) (n : NodeIx) : Code → Option NodeIx
  | [] => some n
  | b :: p =>
    match s.ns.get? n.toNat with
    | none => none
    | some d =>
      if d.tag = .internal ∧ childOf b d ≠ Config.nil then descend s (childOf b d) p else none

/-- `p` is a path from the root to the leaf of symbol `v` (rule R162). -/
def CodeTo (s : State) (v : Sym) (p : Code) : Prop :=
  ∃ n, descend s s.root p = some n ∧ ∃ d ∈ s.ns.get? n.toNat, d.tag = .leaf ∧ d.sym = v

/-- `CT` is the code table of the tree (rule R162): the code of each symbol is its path, and a symbol
without a path is absent. -/
def CodesOk (s : State) : Prop :=
  ∀ v p, (p ≠ [] ∧ ctRead v s = p) ↔ CodeTo s v p

/-! ### The invariants between commands -/

/-- Rule R47: what the validity flags imply. -/
abbrev FlagsOk (s : State) : Prop :=
  (s.ctv = true → s.trv = true) ∧ (s.trv = true → s.ftv = true ∧ s.distinct ≠ 0#17) ∧
  (s.ctrl = .faulted → s.ftv = false ∧ s.trv = false ∧ s.ctv = false)

/-- Rules R29 and R231: `FAULT` is 0 in `IDLE` and a fault kind's code in `FAULTED`. -/
abbrev FaultOk (s : State) : Prop :=
  (s.ctrl = .idle → s.fault = 0#4) ∧
  (s.ctrl = .faulted → s.fault ∈ [FaultKind.ioError.code, FaultKind.corruptHeaderError.code,
    FaultKind.truncatedStreamError.code, FaultKind.illegalCommand.code, FaultKind.sequenceError.code,
    FaultKind.capacityError.code, FaultKind.noCodeError.code, FaultKind.invalidCodeError.code])

/-- What holds between commands, the shape of the tree and the codes apart: no command in progress, no
port open, memories in canonical form, flags and `FAULT` consistent, the table as rule R35 says, the
queue empty, and nothing left where a flag is 0 (rules R39, R264). -/
abbrev BaseOk (s : State) : Prop :=
  s.ctrl ≠ .busy ∧ PortsClosed s ∧ Memory.wf s ∧ FlagsOk s ∧ FaultOk s ∧ TableOk s ∧
  s.hsize = 0#17 ∧ (s.ftv = false → s.ft = []) ∧
  (s.trv = false → s.nnodes = 0#17 ∧ s.root = Config.nil) ∧ (s.ctv = false → s.ct = [])

/-- The whole invariant: with `TRV` the tree, and with `CTV` the code table. -/
def Inv (s : State) : Prop :=
  BaseOk s ∧ (s.trv = true → TreeOk s) ∧ (s.ctv = true → CodesOk s)

/-! ### The priority queue (spec/41_priority_queue.md) -/

/-- Node `a` is before node `b`: both are in use and `less(a, b)` (rule R131). -/
def nodeLess (s : State) (a b : NodeIx) : Bool :=
  match s.ns.get? a.toNat, s.ns.get? b.toNat with
  | some x, some y => keyLess a x b y
  | _, _ => false

/-- The nodes in the queue, by position. -/
def queueList (s : State) : List NodeIx :=
  (List.range s.hsize.toNat).filterMap fun i => s.hp.get? i

/-- The queue holds `HSIZE` nodes, all different and all in use, one at each position below `HSIZE`,
and each is after its parent (rules R130, R137). -/
abbrev HeapOk (s : State) : Prop :=
  s.hsize.toNat ≤ Config.heapCap ∧ s.hp.Sorted ∧ s.hp.Below s.hsize.toNat ∧
  (queueList s).length = s.hsize.toNat ∧ (queueList s).Nodup ∧
  (∀ n ∈ queueList s, n.toNat < s.nnodes.toNat ∧ (s.ns.get? n.toNat).isSome) ∧
  ∀ i < s.hsize.toNat, 1 ≤ i →
    ∃ a ∈ s.hp.get? ((i - 1) / 2), ∃ b ∈ s.hp.get? i, nodeLess s a b = true

/-- Rules R149, R138: every internal node joins the two least of the nodes that no earlier internal node
has taken, the lesser on the left. -/
abbrev TreeGreedy (s : State) : Prop :=
  ∀ n < s.nnodes.toNat, s.ft.length ≤ n → ∃ d ∈ s.ns.get? n,
    nodeLess s d.left d.right = true ∧
    ∀ x < n, x ≠ d.left.toNat → x ≠ d.right.toNat →
      (∀ j < n, s.ft.length ≤ j → ∃ c ∈ s.ns.get? j, childCount c x = 0) →
      nodeLess s d.right (BitVec.ofNat 17 x) = true

/-! ### The compressed stream (spec/30_encoding.md) -/

/-- A number as `n` bytes, the most significant first (rule R75). -/
def bytesBE : Nat → Nat → List Byte
  | 0, _ => []
  | n + 1, v => BitVec.ofNat 8 (v / 2 ^ (8 * n)) :: bytesBE n v

/-- The number that bytes stand for, the most significant first (rule R75). -/
def numBE (bs : List Byte) : Nat := bs.foldl (fun v b => v * 256 + b.toNat) 0

/-- The header of a frequency table (rules R95 to R98). -/
def headerBytes (m : Store Count) : List Byte :=
  bytesBE 4 m.length ++ m.flatMap fun p => bytesBE 2 p.1 ++ bytesBE 4 p.2.toNat

/-- Up to eight bits as a byte, the first at bit 7, the missing ones 0 (rules R76, R100). -/
def byteOfBits (bs : List Bool) : Byte :=
  BitVec.ofNat 8 ((List.range 8).map fun i => if bs[i]? = some true then 2 ^ (7 - i) else 0).sum

/-- Bits packed into bytes, MSB-first, zero-padded to a byte boundary (rules R99, R100). -/
def packBits : List Bool → List Byte
  | [] => []
  | b0 :: b1 :: b2 :: b3 :: b4 :: b5 :: b6 :: b7 :: bs =>
    byteOfBits [b0, b1, b2, b3, b4, b5, b6, b7] :: packBits bs
  | bs => [byteOfBits bs]

/-- The bits of a byte, bit 7 first (rule R76). -/
def bitsOfByte (b : Byte) : List Bool := (List.range 8).map fun i => b.getLsbD (7 - i)

/-- The bits of bytes in order. -/
def bitsOf (bs : List Byte) : List Bool := bs.flatMap bitsOfByte

/-- `get_bit()` `n` times (spec/45_bitstream_decoder.md rule R195). -/
def takeBits : Nat → State → Run (List Bool × State)
  | 0, s => .ok ([], s)
  | n + 1, s => do
    let (b, s) ← getBit s
    let (bs, s) ← takeBits n s
    .ok (b :: bs, s)

/-- The code bits of a symbol sequence under the code table of `s` (rule R99). -/
def codeBits (s : State) (vs : List Sym) : List Bool := vs.flatMap fun v => ctRead v s

/-- The compressed stream of a symbol sequence under the tables of `s` (rule R95). -/
def streamOf (s : State) (vs : List Sym) : List Byte :=
  headerBytes s.ft ++ packBits (codeBits s vs)

/-- The `distinctCount` field of a byte sequence (rule R96). -/
def hdrCount (bs : List Byte) : Nat := numBE (bs.take 4)

/-- The symbol field of entry `k` (rule R97). -/
def hdrSym (bs : List Byte) (k : Nat) : Nat := numBE ((bs.drop (4 + 6 * k)).take 2)

/-- The frequency field of entry `k` (rule R97). -/
def hdrFreq (bs : List Byte) (k : Nat) : Nat := numBE ((bs.drop (6 + 6 * k)).take 4)

/-- A byte sequence has a well-formed header (rule R108). -/
abbrev HeaderOk (bs : List Byte) : Prop :=
  4 ≤ bs.length ∧ 1 ≤ hdrCount bs ∧ hdrCount bs ≤ Config.dcMax ∧
  4 + 6 * hdrCount bs ≤ bs.length ∧
  (∀ k < hdrCount bs, 1 ≤ hdrFreq bs k) ∧
  ∀ k < hdrCount bs, 1 ≤ k → hdrSym bs (k - 1) < hdrSym bs k

/-- Entry `k` of a header fails a check: its frequency is 0, or its symbol is not greater than the one
before (spec/45_bitstream_decoder.md rule R192 (d), (e)). -/
abbrev EntryFails (bs : List Byte) (k : Nat) : Prop :=
  hdrFreq bs k = 0 ∨ 1 ≤ k ∧ hdrSym bs k ≤ hdrSym bs (k - 1)

/-- The first check that the header of a byte sequence fails is made when its first `n` bytes are taken:
`distinctCount` as soon as it is read, an entry after its six bytes
(spec/45_bitstream_decoder.md rule R192, spec/60_exceptions.md rule R243 (b)). -/
abbrev HeaderFailsAt (bs : List Byte) (n : Nat) : Prop :=
  n ≤ bs.length ∧
  (n = 4 ∧ (hdrCount bs = 0 ∨ Config.dcMax < hdrCount bs) ∨
    ∃ k < hdrCount bs, hdrCount bs ≤ Config.dcMax ∧ n = 10 + 6 * k ∧ EntryFails bs k ∧
      ∀ j < k, ¬ EntryFails bs j)

/-! ### Scripts (spec/30_encoding.md rule R106, spec/46_system_commands.md rule R215) -/

/-- Issue commands one after the other. -/
def execAll : List Instr → State → Host.Outcome State Fault Refusal
  | [], s => .next s
  | i :: is, s =>
    match exec i s with
    | .next t => execAll is t
    | .fault r => .fault r
    | .refused r => .refused r

/-- A state without the record of outcomes, the one thing in which a composite and its expansion
differ: one command against several (rule R215). -/
def forgetOutcomes (s : State) : State := { s with env := { s.env with outcomes := [] } }

/-- What comes of a step, but for the record of outcomes. -/
def forgetIn : Host.Outcome State Fault Refusal → Host.Outcome State Fault Refusal
  | .next t => .next (forgetOutcomes t)
  | .fault r => .fault r
  | .refused r => .refused r

/-- A state without the six registers that carry nothing from one command to the next (rule R23). -/
def forgetScratch (s : State) : State :=
  { s with acc := 0#8, nbits := 0#3, shift := 0#8, nbitsIn := 0#4, cur := 0#17, remain := 0#48 }

/-- What comes of a step, but for the six scratch registers. -/
def forgetScratchIn : Host.Outcome State Fault Refusal → Host.Outcome State Fault Refusal
  | .next t => .next (forgetScratch t)
  | .fault r => .fault r
  | .refused r => .refused r

/-! ### What a stretch of port events carries (spec/20_memory.md rules R67 to R70) -/

/-- The events taken from `SSRC`, in order. -/
def symsTaken (es : List PortEvent) : List (SrcEvent Sym) :=
  es.filterMap fun e => match e with | .tookSym x => some x | _ => none

/-- The events taken from `BSRC`, in order. -/
def bytesTaken (es : List PortEvent) : List (SrcEvent Byte) :=
  es.filterMap fun e => match e with | .tookByte x => some x | _ => none

/-- The bytes offered to `BSNK` and the host's answers, in order. -/
def bytesOffered (es : List PortEvent) : List (Byte × Answer) :=
  es.filterMap fun e => match e with | .offeredByte b a => some (b, a) | _ => none

/-- The symbols offered to `SSNK` and the host's answers, in order. -/
def symsOffered (es : List PortEvent) : List (Sym × Answer) :=
  es.filterMap fun e => match e with | .offeredSym v a => some (v, a) | _ => none

/-- A transaction in which the host takes `r` items before it answers `Err` has room for `n`. -/
abbrev Accepts (r : Option Nat) (n : Nat) : Prop := ∀ k ∈ r, n ≤ k

/-- The closing brackets of the ports that are open (spec/60_exceptions.md rule R240). -/
def closings (s : State) : List PortEvent :=
  (if s.env.ssrc.cur.isSome then [.released .ssrc] else []) ++
  (if s.env.bsrc.cur.isSome then [.released .bsrc] else []) ++
  (if s.env.bsnk.cur.isSome then [.aborted .bsnk] else []) ++
  (if s.env.ssnk.cur.isSome then [.aborted .ssnk] else [])

/-! ### Faults -/

/-- A command that began in `s` ended in the fault `k` in `t`: fault entry's state, the outcome, and no
output (spec/60_exceptions.md rule R240, spec/20_memory.md rule R72). -/
abbrev FaultOutcome (k : FaultKind) (s t : State) : Prop :=
  FaultedWith k t ∧ t.env.outcomes = s.env.outcomes ++ [.fault k] ∧
  t.env.bsnk.outputs = s.env.bsnk.outputs ∧ t.env.ssnk.outputs = s.env.ssnk.outputs

/-- The fault kinds a command can raise (spec/60_exceptions.md rule R231, column "raised by"). -/
def faultsOf : Instr → List FaultKind
  | .clr => []
  | .count => [.ioError, .capacityError]
  | .build => [.sequenceError]
  | .gen => [.sequenceError]
  | .encode => [.ioError, .sequenceError, .noCodeError]
  | .decode => [.ioError, .corruptHeaderError, .truncatedStreamError, .invalidCodeError]
  | .compress => [.ioError, .capacityError, .noCodeError]
  | .decompress => [.ioError, .corruptHeaderError, .truncatedStreamError, .invalidCodeError]

/-! ### BUILD and the walk -/

/-- BUILD finds a valid table that is not empty (spec/42_tree_builder.md rule R145). -/
abbrev BuildReady (s : State) : Prop :=
  s.ctrl = .idle ∧ s.ftv = true ∧ ftWf s.ft ∧ TableOk s ∧ s.distinct ≠ 0#17

/-- GEN finds a valid tree (spec/43_code_generator.md rule R160), its memories in canonical form. -/
abbrev GenReady (s : State) : Prop :=
  s.ctrl = .idle ∧ s.trv = true ∧ Memory.wf s ∧ TreeOk s

/-- `τ` is what BUILD makes of the table `m` (spec/45_bitstream_decoder.md rule R193). -/
def BuiltFrom (m : Store Count) (τ : State) : Prop :=
  ∃ b, BuildReady b ∧ b.ft = m ∧ exec .build b = .next τ

/-- The bits are the codes of the symbols, one after the other, in the tree of `τ`
(spec/30_encoding.md rule R99). -/
def Spells (τ : State) : List Sym → List Bool → Prop
  | [], bs => bs = []
  | v :: vs, bs => ∃ p q, CodeTo τ v p ∧ Spells τ vs q ∧ bs = p ++ q

/-- The bits end in the middle of a code, or between two codes, in the tree of `τ`: they lead from the
root to an internal node (spec/45_bitstream_decoder.md rule R198). -/
def MidCode (τ : State) (bs : List Bool) : Prop :=
  ∃ n, descend τ τ.root bs = some n ∧ ∃ d ∈ τ.ns.get? n.toNat, d.tag = .internal

/-- DECODE meets a well-formed header with the table `m`, whose tree `τ` holds, and a body that begins
with the codes `bits` of `vs`; `rest` are the bits after them, padding and further bytes alike
(spec/45_bitstream_decoder.md rules R191 to R200). -/
abbrev BodyStarts (m : Store Count) (τ : State) (body : List Byte) (vs : List Sym)
    (bits rest : List Bool) : Prop :=
  ftWf m ∧ m ≠ [] ∧ BuiltFrom m τ ∧ Spells τ vs bits ∧ bitsOf body = bits ++ rest

end Sys2Proof.Machine
end

