-- ==== Sys2Proof/Certificates/Slice0/Obligations.lean ====
section
/-!
DEFINITION. The statements for the provers. Each docstring names the rule of spec/ it formalises; where a
statement rests on a choice of the model, the docstring names the log entry.
-/

open Sys2Proof Sys2Proof.Machine

/-! ### The command word and the command port (spec/30_encoding.md) -/

/-- Rule R92: a word selects the row of the command table whose `match` it has under `mask`; and the
encoder writes exactly the word that decodes to its command. -/
def Obligations.CommandWords : Prop :=
  (∀ (i : Instr) (w : Byte), i.wellFormed = true → (decode w = .command i ↔ w = encode i)) ∧
  ∀ w : Byte,
    (w &&& 0xFF#8 = 0x01#8 ↔ decode w = .command .clr) ∧
    (w &&& 0xFF#8 = 0x02#8 ↔ decode w = .command .count) ∧
    (w &&& 0xFF#8 = 0x03#8 ↔ decode w = .command .build) ∧
    (w &&& 0xFF#8 = 0x04#8 ↔ decode w = .command .gen) ∧
    (w &&& 0xFF#8 = 0x05#8 ↔ decode w = .command .encode) ∧
    (w &&& 0xFF#8 = 0x06#8 ↔ decode w = .command .decode) ∧
    (w &&& 0xFF#8 = 0x07#8 ↔ decode w = .command .compress) ∧
    (w &&& 0xFF#8 = 0x08#8 ↔ decode w = .command .decompress)

/-- Rules R93, R237: the 248 words `0x00` and `0x09` to `0xFF` are illegal; in `IDLE` they raise
`IllegalCommand`, in `FAULTED` they are dropped. -/
def Obligations.IllegalWords : Prop :=
  (∀ w : Byte, decode w = .illegalWord w ↔ (w = 0x00#8 ∨ 9 ≤ w.toNat)) ∧
  ∀ (s : State) (w : Byte), (w = 0x00#8 ∨ 9 ≤ w.toNat) →
    (s.ctrl = .idle →
      ∃ t, step (presentWord w s) = .next t ∧ FaultOutcome .illegalCommand s t) ∧
    (s.ctrl = .faulted → step (presentWord w s) = .next s)

/-- Rules R5, R82, R91, R260: a step takes the host's next move; a command word is decoded and executed to
its end, and without a move, or while a word must wait, nothing happens (logs 3, 4). -/
def Obligations.StepRunsDecoded : Prop :=
  (∀ (s : State) (w : Byte) (i : Instr), s.ctrl ≠ .busy → decode w = .command i →
    step (presentWord w s) = exec i s) ∧
  (∀ (s : State) (nbits w : Nat) (i : Instr), s.ctrl ≠ .busy → decodeTableWord nbits w = some i →
    step (s.withFetchWord nbits w) = exec i s) ∧
  (∀ (s : State) (w : Byte), s.ctrl = .busy → step (presentWord w s) = .next (presentWord w s)) ∧
  ∀ s : State, s.env.inbox = [] → step s = .next s

/-- Rule R91: what becomes of a word in each value of `STATE`. The clause for `BUSY` is the model's reading
(log 4, DESIGN CHOICE): R91 says only that no word can be presented there, and in a `BUSY` state, which no
run reaches, the model lets the word wait and changes nothing. -/
def Obligations.WordAcceptance : Prop :=
  ∀ (s : State) (w : Byte) (ms : List HostMove), s.env.inbox = .word w :: ms →
    (s.ctrl = .busy → step s = .next s) ∧
    (s.ctrl = .faulted → w = 0x01#8 →
      step s = exec .clr { s with env := { s.env with inbox := ms } }) ∧
    (s.ctrl = .faulted → w ≠ 0x01#8 → step s = .next { s with env := { s.env with inbox := ms } }) ∧
    (∀ i, s.ctrl = .idle → decode w = .command i →
      step s = exec i { s with env := { s.env with inbox := ms } }) ∧
    (s.ctrl = .idle → decode w = .illegalWord w →
      ∃ t, step s = .next t ∧ FaultOutcome .illegalCommand s t ∧ t.env.inbox = ms)

/-! ### Reset and the CSR port (spec/10_state.md, spec/70_reset_and_hazards.md) -/

/-- Rule R45: the values after reset, CLR and fault entry. -/
def Obligations.ResetValuesHold : Prop :=
  (ResetValues State.reset ∧ emptyBit State.reset = false ∧
    (∀ v, ftRead v State.reset = 0#32) ∧ ∀ v, ctRead v State.reset = []) ∧
  (∀ s : State, s.ctrl ≠ .busy → ∃ t, exec .clr s = .next t ∧ ResetValues t ∧ emptyBit t = false) ∧
  ∀ (k : FaultKind) (s : State), TablesClear (faultEntry k s) ∧ emptyBit (faultEntry k s) = false

/-- Rule R260: reset, asserted in any state, gives every value of rule R45's table, and after it nothing
happens until a move of the host. The six scratch registers, which R45 leaves unspecified, are left out
(log 5); that `NS` and `HP` list nothing is log 6. The clauses on ports, events and outputs are rule R262's:
no closing bracket, and a transaction that was open is aborted. -/
def Obligations.ResetMove : Prop :=
  ∀ (s : State) (ms : List HostMove), s.env.inbox = .reset :: ms →
    ∃ t, step s = .next t ∧ ResetValues t ∧ t.ns = [] ∧ t.hp = [] ∧ PortsClosed t ∧
      t.env.inbox = ms ∧ t.env.bsnk.outputs = s.env.bsnk.outputs ∧
      t.env.ssnk.outputs = s.env.ssnk.outputs ∧ t.env.trace = s.env.trace ∧
      (ms = [] → step t = .next t)

/-- Rule R262, in the form the model gives it (DEDUCED, log 15: the stopping point is after any number
`k` of port events): a command cut off by reset leaves every value of rule R45's table, its first `k` port
events, no closing bracket and no output unless its `Commit` was among them. The six scratch registers are
left out (log 5); that `NS` and `HP` list nothing is log 6. -/
def Obligations.ResetCutsCommand : Prop :=
  ∀ (s t : State) (w : Byte) (k : Nat) (ms : List HostMove),
    s.env.inbox = .wordThenReset w k :: ms → s.ctrl ≠ .busy →
    acceptWord w { s with env := { s.env with inbox := ms } } = .next t →
    ∃ u es ds, step s = .next u ∧ ResetValues u ∧ u.ns = [] ∧ u.hp = [] ∧ PortsClosed u ∧
      t.env.trace = s.env.trace ++ es ++ ds ∧ u.env.trace = s.env.trace ++ es ∧
      es.length = min k (es ++ ds).length ∧
      (PortEvent.committed .bsnk ∉ es → u.env.bsnk.outputs = s.env.bsnk.outputs) ∧
      (PortEvent.committed .ssnk ∉ es → u.env.ssnk.outputs = s.env.ssnk.outputs) ∧
      (ds = [] → u.env.bsnk.outputs = t.env.bsnk.outputs ∧ u.env.ssnk.outputs = t.env.ssnk.outputs)

/-- Rules R21, R26, R27, R28: the CSR map with `STATE` not `BUSY`, and the fields of `STATUS`; a read
changes nothing of HCC, only the host's record of what it read. -/
def Obligations.CsrMap : Prop :=
  ∀ (s : State) (n : Byte) (ms : List HostMove), s.ctrl ≠ .busy → s.env.inbox = .readCsr n :: ms →
    ∃ v, step s = .next { s with env := { s.env with
        inbox := ms, csrReads := s.env.csrReads ++ [(n, v)] } } ∧
      (n.toNat = 0 →
        v.extractLsb' 0 2 = (if s.ctrl = .idle then 0#2 else 2#2) ∧ v.getLsbD 2 = s.ftv ∧
        v.getLsbD 3 = s.trv ∧ v.getLsbD 4 = s.ctv ∧
        (v.getLsbD 5 = true ↔ s.ftv = true ∧ s.distinct = 0#17) ∧ v.extractLsb' 6 58 = 0#58) ∧
      (n.toNat = 1 → v = 0#60 ++ s.fault) ∧
      (n.toNat = 2 → v = 0#47 ++ s.distinct) ∧ (n.toNat = 3 → v = 0#16 ++ s.total) ∧
      (n.toNat = 4 → v = s.bytesIn) ∧ (n.toNat = 5 → v = s.bytesOut) ∧ (6 ≤ n.toNat → v = 0#64) ∧
      statusWord State.reset = 0#64

/-- Rule R46: a CSR read while `BUSY` answers `BUSY` in bits 1..0 of CSR 0; every other bit is the free
value of that read (`Config.freeCsr`, log 7). Between steps `STATE` is never `BUSY` (log 4). -/
def Obligations.CsrWhileBusy : Prop :=
  ∀ (s : State) (n : Byte) (ms : List HostMove), s.ctrl = .busy → s.env.inbox = .readCsr n :: ms →
    ∃ v, step s = .next { s with env := { s.env with
        inbox := ms, csrReads := s.env.csrReads ++ [(n, v)], draws := s.env.draws + 1 } } ∧
      (n = 0#8 → v.extractLsb' 0 2 = 1#2)

/-- Rules R214, R26: the host reads the outcome of a command off `STATUS` and `FAULT`. The premise is the
flag invariant of rule R47. -/
def Obligations.OutcomeVisible : Prop :=
  ∀ (i : Instr) (s t : State), s.ctrl = .idle → FlagsOk s → exec i s = .next t →
    ∃ o, t.env.outcomes = s.env.outcomes ++ [o] ∧
      (o = .done ↔ t.ctrl = .idle ∧ emptyBit t = false) ∧
      (o = .empty ↔ t.ctrl = .idle ∧ emptyBit t = true) ∧
      ∀ k, o = .fault k ↔ t.ctrl = .faulted ∧ t.fault = k.code

/-! ### Memories and header fields (spec/20_memory.md, spec/30_encoding.md) -/

/-- Rules R61 to R64: a write of an entry is read back, and leaves every other entry alone. The premise
is the canonical form of the memories. -/
def Obligations.MemoryReadAfterWrite : Prop :=
  ∀ s : State, Memory.wf s →
    (∀ v w c, ftRead w (ftWrite v c s) = if w = v then c else ftRead w s) ∧
    (∀ v w c, ctRead w (ctWrite v c s) = if w = v then c else ctRead w s) ∧
    (∀ d, s.nnodes.toNat < Config.nodeMax → ∃ t, nsAppend d s = .ok (s.nnodes, t) ∧
      t.nnodes.toNat = s.nnodes.toNat + 1 ∧ nsRead s.nnodes t = .ok d ∧
      ∀ m, m.toNat < s.nnodes.toNat → nsRead m t = nsRead m s) ∧
    (∀ i n, i < s.hsize.toNat → i < Config.heapCap → ∃ t, hpWrite i n s = .ok t ∧
      hpRead i t = .ok n ∧ ∀ j, j ≠ i → hpRead j t = hpRead j s)

/-- Rule R101: the four helpers that take the header fields apart and put them together, the counters
they advance, and the faults they raise. -/
def Obligations.FieldAssembly : Prop :=
  (∀ s : State, emitHeader s = (put32be (0#15 ++ s.distinct) s >>= emitEntries s.ft)) ∧
  (∀ (s : State) (v : BitVec 32) (items : List Byte), s.env.bsnk.cur = some ⟨items, none⟩ →
    ∃ t, put32be v s = .ok t ∧ t.bytesOut = s.bytesOut + 4#64 ∧
      t.env.bsnk.cur = some ⟨items ++ [v.extractLsb' 24 8, v.extractLsb' 16 8, v.extractLsb' 8 8,
        v.extractLsb' 0 8], none⟩) ∧
  (∀ (s : State) (v : Sym) (items : List Byte), s.env.bsnk.cur = some ⟨items, none⟩ →
    ∃ t, put16be v s = .ok t ∧ t.bytesOut = s.bytesOut + 2#64 ∧
      t.env.bsnk.cur = some ⟨items ++ [v.extractLsb' 8 8, v.extractLsb' 0 8], none⟩) ∧
  (∀ (s : State) (b : Byte) (items : List Byte), s.env.bsnk.cur = some ⟨items, some 0⟩ →
    ∃ t, outByte b s = .error (.raised .ioError t) ∧ t.bytesOut = s.bytesOut) ∧
  (∀ (s : State) (b0 b1 b2 b3 : Byte) (bs : List Byte) (e : Terminator),
    s.env.bsrc.cur = some ⟨b0 :: b1 :: b2 :: b3 :: bs, e⟩ →
    ∃ v t, get32be s = .ok (v, t) ∧ t.bytesIn = s.bytesIn + 4#64 ∧ t.env.bsrc.cur = some ⟨bs, e⟩ ∧
      v.toNat = b0.toNat * 2 ^ 24 + b1.toNat * 2 ^ 16 + b2.toNat * 2 ^ 8 + b3.toNat) ∧
  (∀ (s : State) (b0 b1 : Byte) (bs : List Byte) (e : Terminator),
    s.env.bsrc.cur = some ⟨b0 :: b1 :: bs, e⟩ →
    ∃ v t, get16be s = .ok (v, t) ∧ t.bytesIn = s.bytesIn + 2#64 ∧ t.env.bsrc.cur = some ⟨bs, e⟩ ∧
      v.toNat = b0.toNat * 2 ^ 8 + b1.toNat) ∧
  (∀ s : State, s.env.bsrc.cur = some ⟨[], .eos⟩ →
    ∃ t, hdrByte s = .error (.raised .corruptHeaderError t) ∧ t.bytesIn = s.bytesIn) ∧
  ∀ s : State, s.env.bsrc.cur = some ⟨[], .err⟩ →
    ∃ t, hdrByte s = .error (.raised .ioError t) ∧ t.bytesIn = s.bytesIn

/-- Rules R108, R192: `parse_header` gets through a stream exactly when its header is well-formed; the
well-formed headers are exactly those of the tables in canonical form, one table each. -/
def Obligations.HeaderWellFormed : Prop :=
  (∀ (s : State) (bs : List Byte), s.env.bsrc.cur = some ⟨bs, .eos⟩ →
    ((∃ t, parseHeader s = .ok t) ↔ HeaderOk bs)) ∧
  (∀ bs : List Byte, HeaderOk bs ↔ ∃ m body, ftWf m ∧ m ≠ [] ∧ bs = headerBytes m ++ body) ∧
  ∀ (m m' : Store Count) (body body' : List Byte), ftWf m → ftWf m' →
    headerBytes m ++ body = headerBytes m' ++ body' → m = m' ∧ body = body'

/-! ### Faults (spec/60_exceptions.md) -/

/-- Rule R240: fault entry closes every open port, clears all per-call state, writes the code and
`FAULTED`, and nothing else. The order of the closing brackets is left open, as the rule leaves it. -/
def Obligations.FaultEntryRule : Prop :=
  ∀ (k : FaultKind) (s : State),
    FaultedWith k (faultEntry k s) ∧ SameScratch s (faultEntry k s) ∧
    (faultEntry k s).ns = [] ∧ (faultEntry k s).hp = [] ∧
    (∃ es, (faultEntry k s).env.trace = s.env.trace ++ es ∧ es.Perm (closings s)) ∧
    (faultEntry k s).env = { s.env with
      ssrc := { s.env.ssrc with cur := none }, bsrc := { s.env.bsrc with cur := none },
      bsnk := { s.env.bsnk with cur := none }, ssnk := { s.env.ssnk with cur := none },
      trace := (faultEntry k s).env.trace }

/-- Rule R231: the codes, and which command can raise which kind. -/
def Obligations.FaultTable : Prop :=
  (FaultKind.ioError.code = 1#4 ∧ FaultKind.corruptHeaderError.code = 3#4 ∧
    FaultKind.truncatedStreamError.code = 4#4 ∧ FaultKind.illegalCommand.code = 8#4 ∧
    FaultKind.sequenceError.code = 9#4 ∧ FaultKind.capacityError.code = 10#4 ∧
    FaultKind.noCodeError.code = 11#4 ∧ FaultKind.invalidCodeError.code = 12#4) ∧
  ∀ (i : Instr) (s t : State) (k : FaultKind), s.ctrl = .idle → exec i s = .next t →
    t.env.outcomes = s.env.outcomes ++ [.fault k] → k ∈ faultsOf i ∧ t.fault = k.code

/-- Rule R238: a failed `require` raises `SequenceError` before a port is opened. The premise that no
port is open between commands is part of `BaseOk`. -/
def Obligations.SequenceErrors : Prop :=
  ∀ (i : Instr) (s : State), s.ctrl = .idle → PortsClosed s →
    (i = .build ∧ s.ftv = false ∨ i = .gen ∧ s.trv = false ∨
      i = .encode ∧ (s.ftv = false ∨ s.ctv = false)) →
    ∃ t, exec i s = .next t ∧ FaultOutcome .sequenceError s t ∧ t.env.trace = s.env.trace ∧
      SameScratch s t

/-- Rules R245, R246: in `FAULTED` only CLR and reset do anything, and both leave the reset state. -/
def Obligations.WaysOutOfFaulted : Prop :=
  ∀ (s t : State) (m : HostMove) (ms : List HostMove), s.ctrl = .faulted → s.env.inbox = m :: ms →
    step s = .next t →
    (m = .word 0x01#8 ∨ m = .reset ∨ (∃ w k, m = .wordThenReset w k) → ResetValues t) ∧
    (m ≠ .word 0x01#8 → m ≠ .reset → (∀ w k, m ≠ .wordThenReset w k) →
      t.ctrl = .faulted ∧ { t with env := s.env } = s ∧ t.env.trace = s.env.trace ∧
      t.env.outcomes = s.env.outcomes)

/-- Rules R66, R71, R72, R201: every command closes on every exit each port it opened, and only an
outcome `Done` makes an output, at most one. -/
def Obligations.OutputsOnlyOnDone : Prop :=
  ∀ (i : Instr) (s t : State) (o : CmdOutcome), s.ctrl = .idle → PortsClosed s →
    exec i s = .next t → t.env.outcomes = s.env.outcomes ++ [o] →
    PortsClosed t ∧
    (o ≠ .done → t.env.bsnk.outputs = s.env.bsnk.outputs ∧
      t.env.ssnk.outputs = s.env.ssnk.outputs) ∧
    (o = .done → i = .encode ∨ i = .compress →
      (∃ y, t.env.bsnk.outputs = s.env.bsnk.outputs ++ [y]) ∧
      t.env.ssnk.outputs = s.env.ssnk.outputs) ∧
    (o = .done → i = .decode ∨ i = .decompress →
      (∃ y, t.env.ssnk.outputs = s.env.ssnk.outputs ++ [y]) ∧
      t.env.bsnk.outputs = s.env.bsnk.outputs)

/-! ### CLR and the frames of all commands (spec/46_system_commands.md, spec/10_state.md) -/

/-- Rule R211: CLR, in `IDLE` and in `FAULTED`. -/
def Obligations.ClrResult : Prop :=
  ∀ s : State, s.ctrl ≠ .busy →
    exec .clr s = .next { s with
      ctrl := .idle, fault := 0#4, ftv := false, trv := false, ctv := false, distinct := 0#17,
      total := 0#48, bytesIn := 0#64, bytesOut := 0#64, nnodes := 0#17, hsize := 0#17,
      root := 0x1FFFF#17, ft := [], ns := [], hp := [], ct := [],
      env := { s.env with outcomes := s.env.outcomes ++ [.done] } }

/-- Rule R23, the column "written by", and rules R125, R155, R166, R181, R204: what a command that ends
in `Done` or `Empty` leaves unchanged. -/
def Obligations.FrameOfRegisters : Prop :=
  ∀ (i : Instr) (s t : State), s.ctrl = .idle → exec i s = .next t → t.ctrl = .idle →
    (i = .count → { t with
      ftv := s.ftv, trv := s.trv, ctv := s.ctv, distinct := s.distinct,
      total := s.total, nnodes := s.nnodes, hsize := s.hsize, root := s.root, ft := s.ft, ns := s.ns,
      hp := s.hp, ct := s.ct, env := s.env } = s) ∧
    (i = .build → { t with
      trv := s.trv, ctv := s.ctv, nnodes := s.nnodes, hsize := s.hsize,
      root := s.root, ns := s.ns, hp := s.hp, ct := s.ct, env := s.env } = s) ∧
    (i = .gen → { t with ctv := s.ctv, ct := s.ct, env := s.env } = s) ∧
    (i = .encode → { t with
      acc := s.acc, nbits := s.nbits, bytesOut := s.bytesOut,
      env := s.env } = s) ∧
    (i = .decode → t.bytesOut = s.bytesOut ∧ t.fault = s.fault ∧ t.acc = s.acc ∧
      t.nbits = s.nbits) ∧
    (i = .compress → t.bytesIn = 0#64 ∧ t.fault = 0#4 ∧ t.shift = s.shift ∧
      t.nbitsIn = s.nbitsIn ∧ t.cur = s.cur ∧ t.remain = s.remain) ∧
    (i = .decompress → t.bytesOut = 0#64 ∧ t.fault = 0#4 ∧ t.acc = s.acc ∧ t.nbits = s.nbits)

/-- Rule R73: which command touches which port, on every exit; the host's moves and its record of CSR
reads are no command's business. The premise that no port is open is part of `BaseOk`. -/
def Obligations.FrameOfPorts : Prop :=
  ∀ (i : Instr) (s t : State), s.ctrl = .idle → PortsClosed s → exec i s = .next t →
    t.env.inbox = s.env.inbox ∧ t.env.csrReads = s.env.csrReads ∧ t.env.draws = s.env.draws ∧
    (i = .clr ∨ i = .build ∨ i = .gen →
      t.env = { s.env with outcomes := t.env.outcomes }) ∧
    (i = .count → t.env = { s.env with
      ssrc := t.env.ssrc, trace := t.env.trace, outcomes := t.env.outcomes }) ∧
    (i = .encode ∨ i = .compress → t.env = { s.env with
      ssrc := t.env.ssrc, bsnk := t.env.bsnk, trace := t.env.trace, outcomes := t.env.outcomes }) ∧
    (i = .decode ∨ i = .decompress → t.env = { s.env with
      bsrc := t.env.bsrc, ssnk := t.env.ssnk, trace := t.env.trace, outcomes := t.env.outcomes })

/-- Rule R264: the commands that begin afresh depend on nothing an earlier command left but the host's
side, the six scratch registers apart, which carry nothing (rule R23). -/
def Obligations.NoStaleState : Prop :=
  ∀ (i : Instr) (s s' : State), s.ctrl = .idle → s'.ctrl = .idle → s'.env = s.env →
    i = .clr ∨ i = .compress ∨ i = .decompress →
    forgetScratchIn (exec i s') = forgetScratchIn (exec i s)

/-! ### COUNT (spec/40_frequency_counter.md) -/

/-- Rules R121, R122, R123: `count_step`. -/
def Obligations.CountStepRule : Prop :=
  ∀ (v : Sym) (s : State),
    (ftRead v s = 0xFFFFFFFF#32 → countStep v s = .error (.raised .capacityError s)) ∧
    (ftRead v s ≠ 0xFFFFFFFF#32 → ∃ t, countStep v s = .ok t ∧
      (ftRead v t).toNat = (ftRead v s).toNat + 1 ∧ (∀ w, w ≠ v → ftRead w t = ftRead w s) ∧
      t.distinct = (if ftRead v s = 0#32 then s.distinct + 1#17 else s.distinct) ∧
      t.total = s.total + 1#48 ∧
      t = { s with ft := t.ft, distinct := t.distinct, total := t.total })

/-- Rules R124, R125: the state after a COUNT over a pass that ends in `End`, whatever was there before,
and that the order of the symbols has no effect on it. -/
def Obligations.CountResult : Prop :=
  ∀ (s : State) (vs : List Sym) (ps : List (Pass Sym)), s.ctrl = .idle →
    s.env.ssrc.passes = ⟨vs, .eos⟩ :: ps → (∀ v, vs.count v ≤ 4294967295) →
    ∃ t, exec .count s = .next t ∧
      (∀ v, (ftRead v t).toNat = vs.count v) ∧ t.distinct.toNat = vs.toFinset.card ∧
      t.total.toNat = vs.length ∧ (∀ v, ctRead v t = []) ∧
      t = { s with
        ftv := true, trv := false, ctv := false, distinct := t.distinct, total := t.total,
        nnodes := 0#17, hsize := 0#17, root := 0x1FFFF#17, ft := t.ft, ns := [], hp := [], ct := [],
        env := { s.env with
          ssrc := { passes := ps, cur := none },
          trace := s.env.trace ++ [.opened .ssrc] ++ (vs.map fun v => .tookSym (.item v)) ++
            [.tookSym .eos, .released .ssrc],
          outcomes := s.env.outcomes ++ [if vs = [] then .empty else .done] } } ∧
      ∀ ws, ws.Perm vs →
        ∃ u, exec .count { s with env := { s.env with ssrc := { s.env.ssrc with
            passes := ⟨ws, .eos⟩ :: ps } } } = .next u ∧ { u with env := t.env } = t

/-- Rules R74, R120: a pass of `SSRC` that ends in `Err` ends COUNT in `IOError`, after all its symbols. -/
def Obligations.CountIoError : Prop :=
  ∀ (s : State) (vs : List Sym) (ps : List (Pass Sym)), s.ctrl = .idle → PortsClosed s →
    s.env.ssrc.passes = ⟨vs, .err⟩ :: ps → (∀ v, vs.count v ≤ 4294967295) →
    ∃ t, exec .count s = .next t ∧ FaultOutcome .ioError s t ∧ SameScratch s t ∧
      t.env.ssrc.passes = ps ∧
      t.env.trace = s.env.trace ++ [.opened .ssrc] ++ (vs.map fun v => .tookSym (.item v)) ++
        [.tookSym .err, .released .ssrc]

/-- Rules R123, R239: one occurrence past `2^32 - 1` ends COUNT in `CapacityError` at that symbol,
whatever comes after it. -/
def Obligations.CountCapacity : Prop :=
  ∀ (s : State) (pre post : List Sym) (v : Sym) (e : Terminator) (ps : List (Pass Sym)),
    s.ctrl = .idle → PortsClosed s → s.env.ssrc.passes = ⟨pre ++ v :: post, e⟩ :: ps →
    pre.count v = 4294967295 → (∀ w, pre.count w ≤ 4294967295) →
    ∃ t, exec .count s = .next t ∧ FaultOutcome .capacityError s t ∧ SameScratch s t ∧
      t.env.ssrc.passes = ps ∧
      t.env.trace = s.env.trace ++ [.opened .ssrc] ++ (pre.map fun w => .tookSym (.item w)) ++
        [.tookSym (.item v), .released .ssrc]

/-- Log 2 (DESIGN CHOICE): a host that has listed no pass presents `Err` at once, and one that has
listed no transaction answers `Ok` for ever. -/
def Obligations.UnlistedStreams : Prop :=
  (∀ s : State, s.ctrl = .idle → s.env.ssrc.passes = [] →
    ∃ t, exec .count s = .next t ∧ FaultOutcome .ioError s t) ∧
  (∀ s : State, s.ctrl = .idle → s.env.bsrc.passes = [] →
    ∃ t, exec .decode s = .next t ∧ FaultOutcome .ioError s t) ∧
  (∀ s : State, s.env.ssrc.passes = [] → openSsrc s = openSsrc { s with env := { s.env with
    ssrc := { s.env.ssrc with passes := [⟨[], .err⟩] } } }) ∧
  (∀ s : State, s.env.bsrc.passes = [] → openBsrc s = openBsrc { s with env := { s.env with
    bsrc := { s.env.bsrc with passes := [⟨[], .err⟩] } } }) ∧
  (∀ s : State, s.env.bsnk.scripts = [] → openBsnk s = openBsnk { s with env := { s.env with
    bsnk := { s.env.bsnk with scripts := [none] } } }) ∧
  ∀ s : State, s.env.ssnk.scripts = [] → openSsnk s = openSsnk { s with env := { s.env with
    ssnk := { s.env.ssnk with scripts := [none] } } }

/-! ### The priority queue (spec/41_priority_queue.md) -/

/-- Rule R131: `less` is the order on `(freq, index)`, and a strict total order on nodes in use. -/
def Obligations.LessIsStrictTotal : Prop :=
  ∀ (s : State) (a b : NodeIx) (x y : Node), nsRead a s = .ok x → nsRead b s = .ok y →
    less a b s = .ok (nodeLess s a b) ∧
    (nodeLess s a b = true ↔
      x.freq.toNat < y.freq.toNat ∨ x.freq = y.freq ∧ a.toNat < b.toNat) ∧
    (a ≠ b → (nodeLess s a b = true ↔ nodeLess s b a = false)) ∧ nodeLess s a a = false ∧
    ∀ c, nodeLess s a b = true → nodeLess s b c = true → nodeLess s a c = true

/-- Rules R133, R137, R139: `pq_insert` adds one node, keeps the heap and writes only `HP` and `HSIZE`. -/
def Obligations.PqInsertKeepsHeap : Prop :=
  ∀ (s : State) (n : NodeIx), HeapOk s → s.hsize.toNat < 65536 → n.toNat < s.nnodes.toNat →
    (s.ns.get? n.toNat).isSome → n ∉ queueList s →
    ∃ t, pqInsert n s = .ok t ∧ HeapOk t ∧ t.hsize.toNat = s.hsize.toNat + 1 ∧
      (queueList t).Perm (n :: queueList s) ∧ t = { s with hp := t.hp, hsize := t.hsize }

/-- Rules R135, R137, R138: `pq_extract_min` takes out the least node, keeps the heap, and what it
returns depends only on which nodes are in the queue. -/
def Obligations.PqExtractsLeast : Prop :=
  ∀ s : State, HeapOk s → s.hsize ≠ 0#17 →
    ∃ m t, pqExtractMin s = .ok (m, t) ∧ HeapOk t ∧ t.hsize.toNat + 1 = s.hsize.toNat ∧
      (m :: queueList t).Perm (queueList s) ∧ (∀ n ∈ queueList t, nodeLess s m n = true) ∧
      t = { s with hp := t.hp, hsize := t.hsize } ∧
      ∀ s', HeapOk s' → s'.ns = s.ns → (queueList s').Perm (queueList s) →
        ∃ t', pqExtractMin s' = .ok (m, t')

/-! ### BUILD (spec/42_tree_builder.md) -/

/-- Rule R155 with the tree invariants of rules R39 and R44: the state after a BUILD of a table that is
not empty. -/
def Obligations.BuildResult : Prop :=
  ∀ s : State, BuildReady s →
    ∃ t, exec .build s = .next t ∧ TreeOk t ∧
      t = { s with
        trv := true, ctv := false, nnodes := t.nnodes, hsize := 0#17, root := t.root, ns := t.ns,
        hp := [], ct := [], env := { s.env with outcomes := s.env.outcomes ++ [.done] } }

/-- Rule R153: the shape of the tree. -/
def Obligations.BuildShape : Prop :=
  ∀ s : State, BuildReady s → ∃ t, exec .build s = .next t ∧
    (2 ≤ s.ft.length →
      t.nnodes.toNat = 2 * s.ft.length - 1 ∧ t.root.toNat = 2 * s.ft.length - 2 ∧
      (∀ k < s.ft.length,
        t.ns.get? k = (s.ft[k]?).map fun p => leafNode (BitVec.ofNat 16 p.1) p.2) ∧
      (∀ n < t.nnodes.toNat, s.ft.length ≤ n → ∃ d ∈ t.ns.get? n, d.tag = .internal) ∧
      ∃ d ∈ t.ns.get? t.root.toNat, d.freq = s.total) ∧
    (∀ p, s.ft = [p] → t.nnodes = 2#17 ∧ t.root = 1#17 ∧
      t.ns = [(0, leafNode (BitVec.ofNat 16 p.1) p.2),
        (1, internalNode (p.2.setWidth 48) 0#17 0x1FFFF#17)] ∧
      descend t t.root [false] = some 0#17) ∧
    (∀ k < s.ft.length, ∃! p, descend t t.root p = some (BitVec.ofNat 17 k)) ∧
    (∀ m n, s.ft.length ≤ m → m ≤ n → n < t.nnodes.toNat →
      ∃ x ∈ t.ns.get? m, ∃ y ∈ t.ns.get? n, x.freq.toNat ≤ y.freq.toNat) ∧
    (∀ p q, s.ft = [p, q] → ∃ d ∈ t.ns.get? 2,
      (p.2.toNat ≤ q.2.toNat → d.left = 0#17 ∧ d.right = 1#17) ∧
      (q.2.toNat < p.2.toNat → d.left = 1#17 ∧ d.right = 0#17)) ∧
    (∀ p n, descend t t.root p = some n → p.length ≤ max 1 (s.ft.length - 1)) ∧
    TreeOk t

/-- Rules R138, R149: every internal node joins, first-extracted left and second-extracted right, the
two least of the nodes that no earlier internal node has taken. -/
def Obligations.BuildMergesLeast : Prop :=
  ∀ s : State, BuildReady s → 2 ≤ s.ft.length → ∃ t, exec .build s = .next t ∧ TreeGreedy t

/-- Rule R151: BUILD of an empty, valid table. -/
def Obligations.BuildEmpty : Prop :=
  ∀ s : State, s.ctrl = .idle → s.ftv = true → s.distinct = 0#17 →
    exec .build s = .next { s with
      trv := false, ctv := false, nnodes := 0#17, hsize := 0#17, root := 0x1FFFF#17, ns := [],
      hp := [], ct := [], env := { s.env with outcomes := s.env.outcomes ++ [.empty] } }

/-- Rule R150: a table of exactly one symbol gives the wrapper, and GEN gives the symbol the code `"0"`. -/
def Obligations.BuildDegenerate : Prop :=
  ∀ (s : State) (v : Sym) (f : Count), s.ctrl = .idle → s.ftv = true → s.distinct = 1#17 →
    s.ft = [(v.toNat, f)] →
    ∃ t u, exec .build s = .next t ∧ t.nnodes = 2#17 ∧ t.root = 1#17 ∧ t.hsize = 0#17 ∧
      t.ns = [(0, { tag := .leaf, freq := f.setWidth 48, sym := v, left := 0x1FFFF#17,
                    right := 0x1FFFF#17 }),
              (1, { tag := .internal, freq := f.setWidth 48, sym := 0#16, left := 0#17,
                    right := 0x1FFFF#17 })] ∧
      exec .gen t = .next u ∧ ∀ w, ctRead w u = if w = v then [false] else []

/-- Rule R154: the tree is a function of the frequency table alone. -/
def Obligations.BuildReproducible : Prop :=
  ∀ s s' : State, BuildReady s → BuildReady s' → s'.ft = s.ft →
    ∃ t t', exec .build s = .next t ∧ exec .build s' = .next t' ∧
      t'.ns = t.ns ∧ t'.nnodes = t.nnodes ∧ t'.root = t.root

/-! ### GEN (spec/43_code_generator.md) -/

/-- Rules R162, R166: the code of a symbol is its path in the tree, every present symbol has one, and
nothing else changes. -/
def Obligations.GenResult : Prop :=
  ∀ s : State, GenReady s →
    ∃ t, exec .gen s = .next t ∧ CodesOk t ∧ (∀ v, ctRead v t ≠ [] ↔ ftRead v s ≠ 0#32) ∧
      t = { s with
        ctv := true, ct := t.ct, env := { s.env with outcomes := s.env.outcomes ++ [.done] } }

/-- Rule R164: the guarantees of a code table. -/
def Obligations.CodesPrefixFree : Prop :=
  ∀ s : State, GenReady s → ∃ t, exec .gen s = .next t ∧
    (∀ v, ftRead v s ≠ 0#32 → ∃! p, p ≠ [] ∧ CodeTo t v p ∧ ctRead v t = p) ∧
    (∀ v w, ftRead v s ≠ 0#32 → ftRead w s ≠ 0#32 → v ≠ w → ¬ ctRead v t <+: ctRead w t) ∧
    (∀ v, ftRead v s ≠ 0#32 → ctRead v t ≠ []) ∧
    ((s.ft.map fun p => (1 / 2 : ℚ) ^ (ctRead (BitVec.ofNat 16 p.1) t).length).sum =
      if s.ft.length = 1 then 1 / 2 else 1) ∧
    ∀ v w, ftRead v s ≠ 0#32 → ftRead w s ≠ 0#32 → ctRead v t = ctRead w t → v = w

/-- Rule R165: the bound on the length of a code. -/
def Obligations.CodeLengthBound : Prop :=
  ∀ s : State, GenReady s → TableOk s → ∃ t, exec .gen s = .next t ∧
    ∀ v, ftRead v s ≠ 0#32 →
      1 ≤ (ctRead v t).length ∧ (ctRead v t).length ≤ max 1 (s.distinct.toNat - 1)

/-! ### ENCODE (spec/44_bitstream_encoder.md, spec/30_encoding.md) -/

/-- Rules R95, R98, R99, R170, R181: the output of ENCODE over a second pass all of whose symbols have
codes, to a host that takes the whole stream, and the state after it. -/
def Obligations.EncodeResult : Prop :=
  ∀ (s : State) (vs : List Sym) (ps : List (Pass Sym)) (r : Option Nat) (rs : List (Option Nat)),
    s.ctrl = .idle → s.ftv = true → s.ctv = true → ftWf s.ft → TableOk s →
    s.env.ssrc.passes = ⟨vs, .eos⟩ :: ps → s.env.bsnk.scripts = r :: rs →
    (∀ v ∈ vs, ctRead v s ≠ []) → Accepts r (streamOf s vs).length →
    ∃ t es, exec .encode s = .next t ∧
      t = { s with
        acc := 0#8, nbits := 0#3, bytesOut := BitVec.ofNat 64 (streamOf s vs).length,
        env := { s.env with
          ssrc := { passes := ps, cur := none },
          bsnk := { scripts := rs, cur := none, outputs := s.env.bsnk.outputs ++ [streamOf s vs] },
          trace := s.env.trace ++ [.opened .ssrc, .opened .bsnk] ++ es ++
            [.released .ssrc, .committed .bsnk],
          outcomes := s.env.outcomes ++ [.done] } } ∧
      symsTaken es = (vs.map fun v => .item v) ++ [.eos] ∧
      bytesOffered es = (streamOf s vs).map fun b => (b, .ok)

/-- Rules R96, R97, R98, R102, R107, R180: the fields and the size of the stream that ENCODE writes. -/
def Obligations.StreamLayout : Prop :=
  ∀ (s : State) (vs : List Sym) (ps : List (Pass Sym)) (r : Option Nat) (rs : List (Option Nat)),
    s.ctrl = .idle → s.ftv = true → s.ctv = true → ftWf s.ft → TableOk s →
    s.env.ssrc.passes = ⟨vs, .eos⟩ :: ps → s.env.bsnk.scripts = r :: rs →
    (∀ v ∈ vs, ctRead v s ≠ []) → Accepts r (streamOf s vs).length →
    ∃ t y, exec .encode s = .next t ∧ t.env.bsnk.outputs = s.env.bsnk.outputs ++ [y] ∧
      hdrCount y = s.distinct.toNat ∧
      (∀ k p, s.ft[k]? = some p → hdrSym y k = p.1 ∧ hdrFreq y k = p.2.toNat) ∧
      t.bytesOut = BitVec.ofNat 64 y.length ∧
      y.length = 4 + 6 * s.distinct.toNat +
        ((vs.map fun v => (ctRead v s).length).sum + 7) / 8 ∧
      ((∀ v, vs.count v = (ftRead v s).toNat) →
        (vs.map fun v => (ctRead v s).length).sum =
          (s.ft.map fun p => p.2.toNat * (ctRead (BitVec.ofNat 16 p.1) s).length).sum)

/-- Rules R76, R100, R174, R175, R177, R195: `put_code` and `flush_bits` pack bits MSB-first into bytes and
fill the last one with zeros, and `get_bit` takes the bits of a stream out in the same order, fetching a
byte only when a bit is needed. -/
def Obligations.PackingRule : Prop :=
  (∀ (s : State) (bs : List Bool) (items : List Byte), s.acc = 0#8 → s.nbits = 0#3 →
    s.env.bsnk.cur = some ⟨items, none⟩ →
    ∃ t u ys, putCode bs s = .ok t ∧ flushBits t = .ok u ∧
      u.env.bsnk.cur = some ⟨items ++ ys, none⟩ ∧ ys.length = (bs.length + 7) / 8 ∧
      (∀ j < bs.length, ∃ y ∈ ys[j / 8]?, some (y.getLsbD (7 - j % 8)) = bs[j]?) ∧
      bitsOf ys = bs ++ List.replicate (8 * ys.length - bs.length) false ∧
      u.bytesOut = s.bytesOut + BitVec.ofNat 64 ys.length ∧ u.acc = 0#8 ∧ u.nbits = 0#3) ∧
  ∀ (s : State) (ys : List Byte) (e : Terminator) (n : Nat), s.nbitsIn = 0#4 →
    s.env.bsrc.cur = some ⟨ys, e⟩ → n ≤ 8 * ys.length →
    ∃ t, takeBits n s = .ok ((bitsOf ys).take n, t) ∧
      t.env.bsrc.cur = some ⟨ys.drop ((n + 7) / 8), e⟩ ∧
      t.bytesIn = s.bytesIn + BitVec.ofNat 64 ((n + 7) / 8)

/-- Rules R179, R242: a symbol without a code ends ENCODE in `NoCodeError` at that symbol, after the
header and the bytes the symbols before it filled, which are all the sink need take. The premise that no
port is open is part of `BaseOk`. -/
def Obligations.EncodeNoCode : Prop :=
  ∀ (s : State) (pre post : List Sym) (v : Sym) (e : Terminator) (ps : List (Pass Sym))
    (r : Option Nat) (rs : List (Option Nat)),
    s.ctrl = .idle → s.ftv = true → s.ctv = true → ftWf s.ft → TableOk s → PortsClosed s →
    s.env.ssrc.passes = ⟨pre ++ v :: post, e⟩ :: ps → s.env.bsnk.scripts = r :: rs →
    (∀ w ∈ pre, ctRead w s ≠ []) → ctRead v s = [] →
    Accepts r (4 + 6 * s.ft.length + (codeBits s pre).length / 8) →
    ∃ t es, exec .encode s = .next t ∧ FaultOutcome .noCodeError s t ∧
      t.env.ssrc.passes = ps ∧ t.env.bsnk.scripts = rs ∧ t.env.trace = s.env.trace ++ es ∧
      symsTaken es = (pre.map fun w => .item w) ++ [.item v] ∧
      bytesOffered es = ((streamOf s pre).take
        (4 + 6 * s.ft.length + (codeBits s pre).length / 8)).map fun b => (b, .ok)

/-- Rules R74, R170, R243 (e): `Err` at the source after the symbols of the pass, and `Err` at the sink at
byte `k`, each end ENCODE in `IOError` at that point. Byte `k` is met while the header and the codes of `vs`
are sent, whatever comes after `vs` in the pass, or it is the padded last byte of a pass that ends in `End`.
The premise that no port is open is part of `BaseOk`. -/
def Obligations.EncodeIoErrors : Prop :=
  ∀ (s : State) (vs post : List Sym) (e : Terminator) (ps : List (Pass Sym)) (r : Option Nat)
    (rs : List (Option Nat)),
    s.ctrl = .idle → s.ftv = true → s.ctv = true → ftWf s.ft → TableOk s → PortsClosed s →
    s.env.ssrc.passes = ⟨vs ++ post, e⟩ :: ps → s.env.bsnk.scripts = r :: rs →
    (∀ v ∈ vs, ctRead v s ≠ []) →
    (post = [] → e = .err → Accepts r (4 + 6 * s.ft.length + (codeBits s vs).length / 8) →
      ∃ t es, exec .encode s = .next t ∧ FaultOutcome .ioError s t ∧
        t.env.trace = s.env.trace ++ es ∧ symsTaken es = (vs.map fun v => .item v) ++ [.err] ∧
        bytesOffered es = ((streamOf s vs).take
          (4 + 6 * s.ft.length + (codeBits s vs).length / 8)).map fun b => (b, .ok)) ∧
    (∀ k, r = some k → k < 4 + 6 * s.ft.length + (codeBits s vs).length / 8 →
      ∃ t es n, exec .encode s = .next t ∧ FaultOutcome .ioError s t ∧
        t.env.trace = s.env.trace ++ es ∧
        bytesOffered es = (((streamOf s vs).take k).map fun b => (b, .ok)) ++
          (((streamOf s vs)[k]?).toList.map fun b => (b, .err)) ∧
        symsTaken es = ((vs.take n).map fun v => .item v) ∧
        k < 4 + 6 * s.ft.length + (codeBits s (vs.take n)).length / 8 ∧
        ∀ m < n, 4 + 6 * s.ft.length + (codeBits s (vs.take m)).length / 8 ≤ k) ∧
    (∀ k, post = [] → e = .eos → r = some k → k < (streamOf s vs).length →
      ∃ t es, exec .encode s = .next t ∧ FaultOutcome .ioError s t ∧
        t.env.trace = s.env.trace ++ es ∧
        bytesOffered es = (((streamOf s vs).take k).map fun b => (b, .ok)) ++
          (((streamOf s vs)[k]?).toList.map fun b => (b, .err)))

/-! ### DECODE (spec/45_bitstream_decoder.md) -/

/-- Rule R205: `parse_header` on the header that `emit_header` writes gives the encoder's table back. -/
def Obligations.HeaderFidelity : Prop :=
  ∀ s : State, ftWf s.ft → TableOk s → s.ft ≠ [] →
    (∀ items, s.env.bsnk.cur = some ⟨items, none⟩ →
      ∃ t, emitHeader s = .ok t ∧ t.env.bsnk.cur = some ⟨items ++ headerBytes s.ft, none⟩) ∧
    ∀ (u : State) (body : List Byte) (e : Terminator),
      u.env.bsrc.cur = some ⟨headerBytes s.ft ++ body, e⟩ →
      ∃ t, parseHeader u = .ok t ∧ t.ft = s.ft ∧ (∀ v, ftRead v t = ftRead v s) ∧
        t.distinct = s.distinct ∧ t.total = s.total ∧ t.ftv = true ∧
        t.bytesIn = u.bytesIn + BitVec.ofNat 64 (4 + 6 * s.ft.length) ∧
        t.env.bsrc.cur = some ⟨body, e⟩

/-- Rules R190, R193, R197, R200, R202, R204: DECODE of a header with table `m` and a body that begins
with the codes of `TOTAL` symbols, to a host that takes them all; `rest`, the bits after them, and the
terminator are never looked at. -/
def Obligations.DecodeResult : Prop :=
  ∀ (s τ : State) (m : Store Count) (body : List Byte) (e : Terminator) (ps : List (Pass Byte))
    (r : Option Nat) (rs : List (Option Nat)) (vs : List Sym) (bits rest : List Bool),
    s.ctrl = .idle → s.env.bsrc.passes = ⟨headerBytes m ++ body, e⟩ :: ps →
    s.env.ssnk.scripts = r :: rs → BodyStarts m τ body vs bits rest → vs.length = countSum m →
    Accepts r vs.length →
    ∃ t es, exec .decode s = .next t ∧
      t = { s with
        ftv := true, trv := true, ctv := false, distinct := BitVec.ofNat 17 m.length,
        total := BitVec.ofNat 48 (countSum m),
        bytesIn := BitVec.ofNat 64 (4 + 6 * m.length + (bits.length + 7) / 8),
        nnodes := τ.nnodes, hsize := 0#17, root := τ.root, shift := t.shift, nbitsIn := t.nbitsIn,
        cur := τ.root, remain := 0#48, ft := m, ns := τ.ns, hp := [], ct := [],
        env := { s.env with
          bsrc := { passes := ps, cur := none },
          ssnk := { scripts := rs, cur := none, outputs := s.env.ssnk.outputs ++ [vs] },
          trace := s.env.trace ++ [.opened .bsrc, .opened .ssnk] ++ es ++
            [.released .bsrc, .committed .ssnk],
          outcomes := s.env.outcomes ++ [.done] } } ∧
      bytesTaken es = ((headerBytes m ++ body).take
        (4 + 6 * m.length + (bits.length + 7) / 8)).map .item ∧
      symsOffered es = vs.map fun v => (v, .ok)

/-- Rules R213, R215: DECOMPRESS of the same input; it differs from DECODE only in that `BYTES_OUT` (and
`FAULT`, which is 0 in `IDLE`) are also cleared. -/
def Obligations.DecompressResult : Prop :=
  ∀ (s τ : State) (m : Store Count) (body : List Byte) (e : Terminator) (ps : List (Pass Byte))
    (r : Option Nat) (rs : List (Option Nat)) (vs : List Sym) (bits rest : List Bool),
    s.ctrl = .idle → s.env.bsrc.passes = ⟨headerBytes m ++ body, e⟩ :: ps →
    s.env.ssnk.scripts = r :: rs → BodyStarts m τ body vs bits rest → vs.length = countSum m →
    Accepts r vs.length →
    ∃ t u, exec .decode s = .next t ∧ exec .decompress s = .next u ∧
      u = { t with bytesOut := 0#64, fault := 0#4 } ∧
      u.env.ssnk.outputs = s.env.ssnk.outputs ++ [vs]

/-- Rules R192, R235, R243 (b): a stream that ends in `End` makes DECODE raise `CorruptHeaderError` exactly
when it has no well-formed header; whatever it ends in, the first failing check of its header raises
`CorruptHeaderError` when the bytes it needs are taken, and an `Err` inside a header with no failing check
raises `IOError`. -/
def Obligations.DecodeCorruptHeader : Prop :=
  (∀ (s : State) (bs : List Byte) (ps : List (Pass Byte)), s.ctrl = .idle →
    s.env.bsrc.passes = ⟨bs, .eos⟩ :: ps →
    ∃ t, exec .decode s = .next t ∧ (¬ HeaderOk bs → FaultOutcome .corruptHeaderError s t) ∧
      (HeaderOk bs → t.env.outcomes ≠ s.env.outcomes ++ [.fault .corruptHeaderError])) ∧
  (∀ (s : State) (bs : List Byte) (e : Terminator) (ps : List (Pass Byte)) (n : Nat), s.ctrl = .idle →
    s.env.bsrc.passes = ⟨bs, e⟩ :: ps → HeaderFailsAt bs n →
    ∃ t es, exec .decode s = .next t ∧ FaultOutcome .corruptHeaderError s t ∧
      t.env.trace = s.env.trace ++ es ∧ bytesTaken es = (bs.take n).map .item) ∧
  ∀ (s : State) (bs : List Byte) (ps : List (Pass Byte)), s.ctrl = .idle →
    s.env.bsrc.passes = ⟨bs, .err⟩ :: ps → ¬ HeaderOk bs → (∀ n, ¬ HeaderFailsAt bs n) →
    ∃ t es, exec .decode s = .next t ∧ FaultOutcome .ioError s t ∧
      t.env.trace = s.env.trace ++ es ∧ bytesTaken es = bs.map .item ++ [.err]

/-- Rules R198, R236: the body ends, in the middle of a code or between two, while symbols are still
owed. -/
def Obligations.DecodeTruncated : Prop :=
  ∀ (s τ : State) (m : Store Count) (body : List Byte) (ps : List (Pass Byte)) (r : Option Nat)
    (rs : List (Option Nat)) (vs : List Sym) (bits rest : List Bool),
    s.ctrl = .idle → s.env.bsrc.passes = ⟨headerBytes m ++ body, .eos⟩ :: ps →
    s.env.ssnk.scripts = r :: rs → BodyStarts m τ body vs bits rest → vs.length < countSum m →
    MidCode τ rest → Accepts r vs.length →
    ∃ t, exec .decode s = .next t ∧ FaultOutcome .truncatedStreamError s t

/-- Rules R199, R241: with a header of one symbol a body bit 1 among the first `TOTAL` raises
`InvalidCodeError`; no other header can. -/
def Obligations.DecodeInvalidCode : Prop :=
  (∀ (s : State) (v : Sym) (f : Count) (body : List Byte) (e : Terminator) (ps : List (Pass Byte))
    (r : Option Nat) (rs : List (Option Nat)) (j : Nat) (rest : List Bool),
    s.ctrl = .idle → f ≠ 0#32 →
    s.env.bsrc.passes = ⟨headerBytes [(v.toNat, f)] ++ body, e⟩ :: ps →
    s.env.ssnk.scripts = r :: rs → bitsOf body = List.replicate j false ++ true :: rest →
    j < f.toNat → Accepts r j →
    ∃ t, exec .decode s = .next t ∧ FaultOutcome .invalidCodeError s t) ∧
  ∀ (s t : State) (bs : List Byte) (e : Terminator) (ps : List (Pass Byte)), s.ctrl = .idle →
    s.env.bsrc.passes = ⟨bs, e⟩ :: ps → exec .decode s = .next t →
    t.env.outcomes = s.env.outcomes ++ [.fault .invalidCodeError] → HeaderOk bs ∧ hdrCount bs = 1

/-- Rules R74, R190, R233: `Err` at the byte source, in the header or in the body, and `Err` at the
symbol sink at symbol `k`, each end DECODE in `IOError`. -/
def Obligations.DecodeIoErrors : Prop :=
  (∀ (s : State) (m : Store Count) (bs cs : List Byte) (ps : List (Pass Byte)), s.ctrl = .idle →
    ftWf m → m ≠ [] → headerBytes m = bs ++ cs → cs ≠ [] →
    s.env.bsrc.passes = ⟨bs, .err⟩ :: ps →
    ∃ t, exec .decode s = .next t ∧ FaultOutcome .ioError s t) ∧
  (∀ (s τ : State) (m : Store Count) (body : List Byte) (ps : List (Pass Byte)) (r : Option Nat)
    (rs : List (Option Nat)) (vs : List Sym) (bits rest : List Bool),
    s.ctrl = .idle → s.env.bsrc.passes = ⟨headerBytes m ++ body, .err⟩ :: ps →
    s.env.ssnk.scripts = r :: rs → BodyStarts m τ body vs bits rest → vs.length < countSum m →
    MidCode τ rest → Accepts r vs.length →
    ∃ t, exec .decode s = .next t ∧ FaultOutcome .ioError s t) ∧
  ∀ (s τ : State) (m : Store Count) (body : List Byte) (e : Terminator) (ps : List (Pass Byte))
    (k : Nat) (rs : List (Option Nat)) (vs : List Sym) (bits rest : List Bool),
    s.ctrl = .idle → PortsClosed s → s.env.bsrc.passes = ⟨headerBytes m ++ body, e⟩ :: ps →
    s.env.ssnk.scripts = some k :: rs → BodyStarts m τ body vs bits rest →
    vs.length ≤ countSum m → k < vs.length →
    ∃ t es, exec .decode s = .next t ∧ FaultOutcome .ioError s t ∧
      t.env.trace = s.env.trace ++ es ∧
      symsOffered es = ((vs.take k).map fun v => (v, .ok)) ++
        ((vs[k]?).toList.map fun v => (v, .err))

/-! ### The composites and the codec as a whole (spec/46_system_commands.md) -/

/-- Rule R215: a composite equals its expansion, but that the host sees one command's outcome instead of
several (log 14). -/
def Obligations.CompositeExpansion : Prop :=
  (∀ (s : State) (vs : List Sym) (e : Terminator) (ps : List (Pass Sym)), s.ctrl = .idle →
    s.env.ssrc.passes = ⟨vs, e⟩ :: ps →
    (vs ≠ [] → forgetIn (exec .compress s) =
      forgetIn (execAll [.clr, .count, .build, .gen, .encode] s)) ∧
    (vs = [] → forgetIn (exec .compress s) = forgetIn (execAll [.clr, .count] s))) ∧
  ∀ s : State, s.ctrl = .idle →
    forgetIn (exec .decompress s) = forgetIn (execAll [.clr, .decode] s)

/-- Rules R126, R212, R234: an input of zero symbols is a signal, for COUNT and COMPRESS alike; only
COUNT, BUILD and COMPRESS can end in `Empty`. -/
def Obligations.EmptyInput : Prop :=
  (∀ (i : Instr) (s : State) (ps : List (Pass Sym)), i = .count ∨ i = .compress →
    s.ctrl = .idle → s.fault = 0#4 → s.env.ssrc.passes = ⟨[], .eos⟩ :: ps →
    ∃ t, exec i s = .next t ∧ t.ctrl = .idle ∧ t.fault = 0#4 ∧ emptyBit t = true ∧
      t.trv = false ∧ t.ctv = false ∧ t.env.outcomes = s.env.outcomes ++ [.empty] ∧
      t.env.bsnk = s.env.bsnk ∧
      t.env.trace = s.env.trace ++ [.opened .ssrc, .tookSym .eos, .released .ssrc]) ∧
  ∀ (i : Instr) (s t : State), s.ctrl = .idle → exec i s = .next t →
    t.env.outcomes = s.env.outcomes ++ [.empty] → i = .count ∨ i = .build ∨ i = .compress

/-- Rule R212: COMPRESS of an input that is not empty, presented twice, to a host that takes every
byte. -/
def Obligations.CompressResult : Prop :=
  ∀ (s : State) (vs : List Sym) (ps : List (Pass Sym)) (rs : List (Option Nat)), s.ctrl = .idle →
    s.env.ssrc.passes = ⟨vs, .eos⟩ :: ⟨vs, .eos⟩ :: ps → s.env.bsnk.scripts = none :: rs →
    vs ≠ [] → (∀ v, vs.count v ≤ 4294967295) →
    ∃ t, exec .compress s = .next t ∧ t.ctrl = .idle ∧ t.fault = 0#4 ∧
      (∀ v, (ftRead v t).toNat = vs.count v) ∧ t.total.toNat = vs.length ∧ TableOk t ∧ TreeOk t ∧
      CodesOk t ∧ t.ftv = true ∧ t.trv = true ∧ t.ctv = true ∧ t.bytesIn = 0#64 ∧
      t.bytesOut = BitVec.ofNat 64 (streamOf t vs).length ∧
      t.env.bsnk = {
        scripts := rs, cur := none, outputs := s.env.bsnk.outputs ++ [streamOf t vs] } ∧
      t.env.ssrc = { passes := ps, cur := none } ∧
      t.env.outcomes = s.env.outcomes ++ [.done]

/-- Rule R203: the round trip. What COMPRESS, or the script of its parts, writes of `x`, DECODE and
DECOMPRESS read back as exactly `x`, whatever follows the stream. -/
def Obligations.RoundTrip : Prop :=
  ∀ (s : State) (x : List Sym) (ps : List (Pass Sym)) (rs : List (Option Nat)), s.ctrl = .idle →
    s.env.ssrc.passes = ⟨x, .eos⟩ :: ⟨x, .eos⟩ :: ps → s.env.bsnk.scripts = none :: rs →
    x ≠ [] → (∀ v, x.count v ≤ 4294967295) →
    ∃ y t t', exec .compress s = .next t ∧
      t.env.bsnk.outputs = s.env.bsnk.outputs ++ [y] ∧
      execAll [.count, .build, .gen, .encode] s = .next t' ∧
      t'.env.bsnk.outputs = s.env.bsnk.outputs ++ [y] ∧
      ∀ (i : Instr) (u : State) (more : List Byte) (e : Terminator) (qs : List (Pass Byte))
        (ks : List (Option Nat)), i = .decode ∨ i = .decompress → u.ctrl = .idle →
        u.env.bsrc.passes = ⟨y ++ more, e⟩ :: qs → u.env.ssnk.scripts = none :: ks →
        ∃ w, exec i u = .next w ∧ w.env.outcomes = u.env.outcomes ++ [.done] ∧
          w.env.ssnk.outputs = u.env.ssnk.outputs ++ [x]

/-! ### Invariants of every step -/

/-- The invariants of rules R29, R35, R39, R44 and R47 hold at reset. -/
def Obligations.InvAtReset : Prop := Inv State.reset ∧ Memory.wf State.reset

/-- Log 9: every step keeps the canonical form of the four memories, from every state that has it. -/
def Obligations.StepKeepsMemoryForm : Prop :=
  ∀ s t : State, Memory.wf s → step s = .next t → Memory.wf t

/-- Rule R47: the flag invariant, with rule R29's on `FAULT`, is kept by every step from every state
that has it. -/
def Obligations.StepKeepsFlags : Prop :=
  (State.reset.ctrl ≠ .busy ∧ FlagsOk State.reset ∧ FaultOk State.reset) ∧
  ∀ s t : State, s.ctrl ≠ .busy → FlagsOk s → FaultOk s → step s = .next t →
    t.ctrl ≠ .busy ∧ FlagsOk t ∧ FaultOk t

/-- Rules R29, R35, R39, R44, R47, R162: the whole invariant is kept by every step from every state that
has it. -/
def Obligations.StepKeepsInv : Prop :=
  ∀ s t : State, Inv s → step s = .next t → Inv t

/-- Rules R217, R271: from every state that meets the invariant every move of the host is answered by a
next state, and every command ends in `Done`, `Empty` or a fault; the model's own stops are not reached. -/
def Obligations.EveryCommandEnds : Prop :=
  ∀ s : State, Inv s →
    (∃ t, step s = .next t) ∧
    ∀ i : Instr, s.ctrl = .idle →
      ∃ t o, exec i s = .next t ∧ t.ctrl ≠ .busy ∧ t.env.outcomes = s.env.outcomes ++ [o]
end

