-- ==== Sys2Proof/Laws/State.lean ====
section
/-!
SUPPORT. One lemma per field per named operation: what each operation writes and that it leaves the
other fields alone. All true by unfolding.
-/

namespace Sys2Proof.Machine

variable (s : State)

/-! ### note -/

@[simp] theorem note_ctrl (e : PortEvent) : (note e s).ctrl = s.ctrl := rfl
@[simp] theorem note_fault (e : PortEvent) : (note e s).fault = s.fault := rfl
@[simp] theorem note_ftv (e : PortEvent) : (note e s).ftv = s.ftv := rfl
@[simp] theorem note_trv (e : PortEvent) : (note e s).trv = s.trv := rfl
@[simp] theorem note_ctv (e : PortEvent) : (note e s).ctv = s.ctv := rfl
@[simp] theorem note_distinct (e : PortEvent) : (note e s).distinct = s.distinct := rfl
@[simp] theorem note_total (e : PortEvent) : (note e s).total = s.total := rfl
@[simp] theorem note_bytesIn (e : PortEvent) : (note e s).bytesIn = s.bytesIn := rfl
@[simp] theorem note_bytesOut (e : PortEvent) : (note e s).bytesOut = s.bytesOut := rfl
@[simp] theorem note_nnodes (e : PortEvent) : (note e s).nnodes = s.nnodes := rfl
@[simp] theorem note_hsize (e : PortEvent) : (note e s).hsize = s.hsize := rfl
@[simp] theorem note_root (e : PortEvent) : (note e s).root = s.root := rfl
@[simp] theorem note_acc (e : PortEvent) : (note e s).acc = s.acc := rfl
@[simp] theorem note_nbits (e : PortEvent) : (note e s).nbits = s.nbits := rfl
@[simp] theorem note_shift (e : PortEvent) : (note e s).shift = s.shift := rfl
@[simp] theorem note_nbitsIn (e : PortEvent) : (note e s).nbitsIn = s.nbitsIn := rfl
@[simp] theorem note_cur (e : PortEvent) : (note e s).cur = s.cur := rfl
@[simp] theorem note_remain (e : PortEvent) : (note e s).remain = s.remain := rfl
@[simp] theorem note_ft (e : PortEvent) : (note e s).ft = s.ft := rfl
@[simp] theorem note_ns (e : PortEvent) : (note e s).ns = s.ns := rfl
@[simp] theorem note_hp (e : PortEvent) : (note e s).hp = s.hp := rfl
@[simp] theorem note_ct (e : PortEvent) : (note e s).ct = s.ct := rfl
@[simp] theorem note_env (e : PortEvent) :
    (note e s).env =
      { s.env with trace := s.env.trace ++ [e] } := rfl

/-! ### ftWrite -/

@[simp] theorem ftWrite_ctrl (v : Sym) (c : Count) : (ftWrite v c s).ctrl = s.ctrl := rfl
@[simp] theorem ftWrite_fault (v : Sym) (c : Count) : (ftWrite v c s).fault = s.fault := rfl
@[simp] theorem ftWrite_ftv (v : Sym) (c : Count) : (ftWrite v c s).ftv = s.ftv := rfl
@[simp] theorem ftWrite_trv (v : Sym) (c : Count) : (ftWrite v c s).trv = s.trv := rfl
@[simp] theorem ftWrite_ctv (v : Sym) (c : Count) : (ftWrite v c s).ctv = s.ctv := rfl
@[simp] theorem ftWrite_distinct (v : Sym) (c : Count) :
    (ftWrite v c s).distinct =
      s.distinct := rfl
@[simp] theorem ftWrite_total (v : Sym) (c : Count) : (ftWrite v c s).total = s.total := rfl
@[simp] theorem ftWrite_bytesIn (v : Sym) (c : Count) : (ftWrite v c s).bytesIn = s.bytesIn := rfl
@[simp] theorem ftWrite_bytesOut (v : Sym) (c : Count) :
    (ftWrite v c s).bytesOut =
      s.bytesOut := rfl
@[simp] theorem ftWrite_nnodes (v : Sym) (c : Count) : (ftWrite v c s).nnodes = s.nnodes := rfl
@[simp] theorem ftWrite_hsize (v : Sym) (c : Count) : (ftWrite v c s).hsize = s.hsize := rfl
@[simp] theorem ftWrite_root (v : Sym) (c : Count) : (ftWrite v c s).root = s.root := rfl
@[simp] theorem ftWrite_acc (v : Sym) (c : Count) : (ftWrite v c s).acc = s.acc := rfl
@[simp] theorem ftWrite_nbits (v : Sym) (c : Count) : (ftWrite v c s).nbits = s.nbits := rfl
@[simp] theorem ftWrite_shift (v : Sym) (c : Count) : (ftWrite v c s).shift = s.shift := rfl
@[simp] theorem ftWrite_nbitsIn (v : Sym) (c : Count) : (ftWrite v c s).nbitsIn = s.nbitsIn := rfl
@[simp] theorem ftWrite_cur (v : Sym) (c : Count) : (ftWrite v c s).cur = s.cur := rfl
@[simp] theorem ftWrite_remain (v : Sym) (c : Count) : (ftWrite v c s).remain = s.remain := rfl
@[simp] theorem ftWrite_ft (v : Sym) (c : Count) :
    (ftWrite v c s).ft =
      if c = 0#32 then s.ft.del v.toNat else s.ft.put v.toNat c := rfl
@[simp] theorem ftWrite_ns (v : Sym) (c : Count) : (ftWrite v c s).ns = s.ns := rfl
@[simp] theorem ftWrite_hp (v : Sym) (c : Count) : (ftWrite v c s).hp = s.hp := rfl
@[simp] theorem ftWrite_ct (v : Sym) (c : Count) : (ftWrite v c s).ct = s.ct := rfl
@[simp] theorem ftWrite_env (v : Sym) (c : Count) : (ftWrite v c s).env = s.env := rfl

/-! ### ctWrite -/

@[simp] theorem ctWrite_ctrl (v : Sym) (c : Code) : (ctWrite v c s).ctrl = s.ctrl := rfl
@[simp] theorem ctWrite_fault (v : Sym) (c : Code) : (ctWrite v c s).fault = s.fault := rfl
@[simp] theorem ctWrite_ftv (v : Sym) (c : Code) : (ctWrite v c s).ftv = s.ftv := rfl
@[simp] theorem ctWrite_trv (v : Sym) (c : Code) : (ctWrite v c s).trv = s.trv := rfl
@[simp] theorem ctWrite_ctv (v : Sym) (c : Code) : (ctWrite v c s).ctv = s.ctv := rfl
@[simp] theorem ctWrite_distinct (v : Sym) (c : Code) : (ctWrite v c s).distinct = s.distinct := rfl
@[simp] theorem ctWrite_total (v : Sym) (c : Code) : (ctWrite v c s).total = s.total := rfl
@[simp] theorem ctWrite_bytesIn (v : Sym) (c : Code) : (ctWrite v c s).bytesIn = s.bytesIn := rfl
@[simp] theorem ctWrite_bytesOut (v : Sym) (c : Code) : (ctWrite v c s).bytesOut = s.bytesOut := rfl
@[simp] theorem ctWrite_nnodes (v : Sym) (c : Code) : (ctWrite v c s).nnodes = s.nnodes := rfl
@[simp] theorem ctWrite_hsize (v : Sym) (c : Code) : (ctWrite v c s).hsize = s.hsize := rfl
@[simp] theorem ctWrite_root (v : Sym) (c : Code) : (ctWrite v c s).root = s.root := rfl
@[simp] theorem ctWrite_acc (v : Sym) (c : Code) : (ctWrite v c s).acc = s.acc := rfl
@[simp] theorem ctWrite_nbits (v : Sym) (c : Code) : (ctWrite v c s).nbits = s.nbits := rfl
@[simp] theorem ctWrite_shift (v : Sym) (c : Code) : (ctWrite v c s).shift = s.shift := rfl
@[simp] theorem ctWrite_nbitsIn (v : Sym) (c : Code) : (ctWrite v c s).nbitsIn = s.nbitsIn := rfl
@[simp] theorem ctWrite_cur (v : Sym) (c : Code) : (ctWrite v c s).cur = s.cur := rfl
@[simp] theorem ctWrite_remain (v : Sym) (c : Code) : (ctWrite v c s).remain = s.remain := rfl
@[simp] theorem ctWrite_ft (v : Sym) (c : Code) : (ctWrite v c s).ft = s.ft := rfl
@[simp] theorem ctWrite_ns (v : Sym) (c : Code) : (ctWrite v c s).ns = s.ns := rfl
@[simp] theorem ctWrite_hp (v : Sym) (c : Code) : (ctWrite v c s).hp = s.hp := rfl
@[simp] theorem ctWrite_ct (v : Sym) (c : Code) :
    (ctWrite v c s).ct =
      if c = [] then s.ct.del v.toNat else s.ct.put v.toNat c := rfl
@[simp] theorem ctWrite_env (v : Sym) (c : Code) : (ctWrite v c s).env = s.env := rfl

/-! ### dropTree -/

@[simp] theorem dropTree_ctrl : (dropTree s).ctrl = s.ctrl := rfl
@[simp] theorem dropTree_fault : (dropTree s).fault = s.fault := rfl
@[simp] theorem dropTree_ftv : (dropTree s).ftv = s.ftv := rfl
@[simp] theorem dropTree_trv : (dropTree s).trv = false := rfl
@[simp] theorem dropTree_ctv : (dropTree s).ctv = s.ctv := rfl
@[simp] theorem dropTree_distinct : (dropTree s).distinct = s.distinct := rfl
@[simp] theorem dropTree_total : (dropTree s).total = s.total := rfl
@[simp] theorem dropTree_bytesIn : (dropTree s).bytesIn = s.bytesIn := rfl
@[simp] theorem dropTree_bytesOut : (dropTree s).bytesOut = s.bytesOut := rfl
@[simp] theorem dropTree_nnodes : (dropTree s).nnodes = 0#17 := rfl
@[simp] theorem dropTree_hsize : (dropTree s).hsize = 0#17 := rfl
@[simp] theorem dropTree_root : (dropTree s).root = Config.nil := rfl
@[simp] theorem dropTree_acc : (dropTree s).acc = s.acc := rfl
@[simp] theorem dropTree_nbits : (dropTree s).nbits = s.nbits := rfl
@[simp] theorem dropTree_shift : (dropTree s).shift = s.shift := rfl
@[simp] theorem dropTree_nbitsIn : (dropTree s).nbitsIn = s.nbitsIn := rfl
@[simp] theorem dropTree_cur : (dropTree s).cur = s.cur := rfl
@[simp] theorem dropTree_remain : (dropTree s).remain = s.remain := rfl
@[simp] theorem dropTree_ft : (dropTree s).ft = s.ft := rfl
@[simp] theorem dropTree_ns : (dropTree s).ns = [] := rfl
@[simp] theorem dropTree_hp : (dropTree s).hp = [] := rfl
@[simp] theorem dropTree_ct : (dropTree s).ct = s.ct := rfl
@[simp] theorem dropTree_env : (dropTree s).env = s.env := rfl

/-! ### dropCodes -/

@[simp] theorem dropCodes_ctrl : (dropCodes s).ctrl = s.ctrl := rfl
@[simp] theorem dropCodes_fault : (dropCodes s).fault = s.fault := rfl
@[simp] theorem dropCodes_ftv : (dropCodes s).ftv = s.ftv := rfl
@[simp] theorem dropCodes_trv : (dropCodes s).trv = s.trv := rfl
@[simp] theorem dropCodes_ctv : (dropCodes s).ctv = false := rfl
@[simp] theorem dropCodes_distinct : (dropCodes s).distinct = s.distinct := rfl
@[simp] theorem dropCodes_total : (dropCodes s).total = s.total := rfl
@[simp] theorem dropCodes_bytesIn : (dropCodes s).bytesIn = s.bytesIn := rfl
@[simp] theorem dropCodes_bytesOut : (dropCodes s).bytesOut = s.bytesOut := rfl
@[simp] theorem dropCodes_nnodes : (dropCodes s).nnodes = s.nnodes := rfl
@[simp] theorem dropCodes_hsize : (dropCodes s).hsize = s.hsize := rfl
@[simp] theorem dropCodes_root : (dropCodes s).root = s.root := rfl
@[simp] theorem dropCodes_acc : (dropCodes s).acc = s.acc := rfl
@[simp] theorem dropCodes_nbits : (dropCodes s).nbits = s.nbits := rfl
@[simp] theorem dropCodes_shift : (dropCodes s).shift = s.shift := rfl
@[simp] theorem dropCodes_nbitsIn : (dropCodes s).nbitsIn = s.nbitsIn := rfl
@[simp] theorem dropCodes_cur : (dropCodes s).cur = s.cur := rfl
@[simp] theorem dropCodes_remain : (dropCodes s).remain = s.remain := rfl
@[simp] theorem dropCodes_ft : (dropCodes s).ft = s.ft := rfl
@[simp] theorem dropCodes_ns : (dropCodes s).ns = s.ns := rfl
@[simp] theorem dropCodes_hp : (dropCodes s).hp = s.hp := rfl
@[simp] theorem dropCodes_ct : (dropCodes s).ct = [] := rfl
@[simp] theorem dropCodes_env : (dropCodes s).env = s.env := rfl

/-! ### clearTables -/

@[simp] theorem clearTables_ctrl : (clearTables s).ctrl = s.ctrl := rfl
@[simp] theorem clearTables_fault : (clearTables s).fault = s.fault := rfl
@[simp] theorem clearTables_ftv : (clearTables s).ftv = false := rfl
@[simp] theorem clearTables_trv : (clearTables s).trv = false := rfl
@[simp] theorem clearTables_ctv : (clearTables s).ctv = false := rfl
@[simp] theorem clearTables_distinct : (clearTables s).distinct = 0#17 := rfl
@[simp] theorem clearTables_total : (clearTables s).total = 0#48 := rfl
@[simp] theorem clearTables_bytesIn : (clearTables s).bytesIn = s.bytesIn := rfl
@[simp] theorem clearTables_bytesOut : (clearTables s).bytesOut = s.bytesOut := rfl
@[simp] theorem clearTables_nnodes : (clearTables s).nnodes = 0#17 := rfl
@[simp] theorem clearTables_hsize : (clearTables s).hsize = 0#17 := rfl
@[simp] theorem clearTables_root : (clearTables s).root = Config.nil := rfl
@[simp] theorem clearTables_acc : (clearTables s).acc = s.acc := rfl
@[simp] theorem clearTables_nbits : (clearTables s).nbits = s.nbits := rfl
@[simp] theorem clearTables_shift : (clearTables s).shift = s.shift := rfl
@[simp] theorem clearTables_nbitsIn : (clearTables s).nbitsIn = s.nbitsIn := rfl
@[simp] theorem clearTables_cur : (clearTables s).cur = s.cur := rfl
@[simp] theorem clearTables_remain : (clearTables s).remain = s.remain := rfl
@[simp] theorem clearTables_ft : (clearTables s).ft = [] := rfl
@[simp] theorem clearTables_ns : (clearTables s).ns = [] := rfl
@[simp] theorem clearTables_hp : (clearTables s).hp = [] := rfl
@[simp] theorem clearTables_ct : (clearTables s).ct = [] := rfl
@[simp] theorem clearTables_env : (clearTables s).env = s.env := rfl

/-! ### clearAll -/

@[simp] theorem clearAll_ctrl : (clearAll s).ctrl = s.ctrl := rfl
@[simp] theorem clearAll_fault : (clearAll s).fault = 0#4 := rfl
@[simp] theorem clearAll_ftv : (clearAll s).ftv = false := rfl
@[simp] theorem clearAll_trv : (clearAll s).trv = false := rfl
@[simp] theorem clearAll_ctv : (clearAll s).ctv = false := rfl
@[simp] theorem clearAll_distinct : (clearAll s).distinct = 0#17 := rfl
@[simp] theorem clearAll_total : (clearAll s).total = 0#48 := rfl
@[simp] theorem clearAll_bytesIn : (clearAll s).bytesIn = 0#64 := rfl
@[simp] theorem clearAll_bytesOut : (clearAll s).bytesOut = 0#64 := rfl
@[simp] theorem clearAll_nnodes : (clearAll s).nnodes = 0#17 := rfl
@[simp] theorem clearAll_hsize : (clearAll s).hsize = 0#17 := rfl
@[simp] theorem clearAll_root : (clearAll s).root = Config.nil := rfl
@[simp] theorem clearAll_acc : (clearAll s).acc = s.acc := rfl
@[simp] theorem clearAll_nbits : (clearAll s).nbits = s.nbits := rfl
@[simp] theorem clearAll_shift : (clearAll s).shift = s.shift := rfl
@[simp] theorem clearAll_nbitsIn : (clearAll s).nbitsIn = s.nbitsIn := rfl
@[simp] theorem clearAll_cur : (clearAll s).cur = s.cur := rfl
@[simp] theorem clearAll_remain : (clearAll s).remain = s.remain := rfl
@[simp] theorem clearAll_ft : (clearAll s).ft = [] := rfl
@[simp] theorem clearAll_ns : (clearAll s).ns = [] := rfl
@[simp] theorem clearAll_hp : (clearAll s).hp = [] := rfl
@[simp] theorem clearAll_ct : (clearAll s).ct = [] := rfl
@[simp] theorem clearAll_env : (clearAll s).env = s.env := rfl

/-! ### openSsrc -/

@[simp] theorem openSsrc_ctrl : (openSsrc s).ctrl = s.ctrl := rfl
@[simp] theorem openSsrc_fault : (openSsrc s).fault = s.fault := rfl
@[simp] theorem openSsrc_ftv : (openSsrc s).ftv = s.ftv := rfl
@[simp] theorem openSsrc_trv : (openSsrc s).trv = s.trv := rfl
@[simp] theorem openSsrc_ctv : (openSsrc s).ctv = s.ctv := rfl
@[simp] theorem openSsrc_distinct : (openSsrc s).distinct = s.distinct := rfl
@[simp] theorem openSsrc_total : (openSsrc s).total = s.total := rfl
@[simp] theorem openSsrc_bytesIn : (openSsrc s).bytesIn = s.bytesIn := rfl
@[simp] theorem openSsrc_bytesOut : (openSsrc s).bytesOut = s.bytesOut := rfl
@[simp] theorem openSsrc_nnodes : (openSsrc s).nnodes = s.nnodes := rfl
@[simp] theorem openSsrc_hsize : (openSsrc s).hsize = s.hsize := rfl
@[simp] theorem openSsrc_root : (openSsrc s).root = s.root := rfl
@[simp] theorem openSsrc_acc : (openSsrc s).acc = s.acc := rfl
@[simp] theorem openSsrc_nbits : (openSsrc s).nbits = s.nbits := rfl
@[simp] theorem openSsrc_shift : (openSsrc s).shift = s.shift := rfl
@[simp] theorem openSsrc_nbitsIn : (openSsrc s).nbitsIn = s.nbitsIn := rfl
@[simp] theorem openSsrc_cur : (openSsrc s).cur = s.cur := rfl
@[simp] theorem openSsrc_remain : (openSsrc s).remain = s.remain := rfl
@[simp] theorem openSsrc_ft : (openSsrc s).ft = s.ft := rfl
@[simp] theorem openSsrc_ns : (openSsrc s).ns = s.ns := rfl
@[simp] theorem openSsrc_hp : (openSsrc s).hp = s.hp := rfl
@[simp] theorem openSsrc_ct : (openSsrc s).ct = s.ct := rfl
@[simp] theorem openSsrc_env :
    (openSsrc s).env =
      { s.env with ssrc := s.env.ssrc.start, trace := s.env.trace ++ [.opened .ssrc] } := rfl

/-! ### openBsrc -/

@[simp] theorem openBsrc_ctrl : (openBsrc s).ctrl = s.ctrl := rfl
@[simp] theorem openBsrc_fault : (openBsrc s).fault = s.fault := rfl
@[simp] theorem openBsrc_ftv : (openBsrc s).ftv = s.ftv := rfl
@[simp] theorem openBsrc_trv : (openBsrc s).trv = s.trv := rfl
@[simp] theorem openBsrc_ctv : (openBsrc s).ctv = s.ctv := rfl
@[simp] theorem openBsrc_distinct : (openBsrc s).distinct = s.distinct := rfl
@[simp] theorem openBsrc_total : (openBsrc s).total = s.total := rfl
@[simp] theorem openBsrc_bytesIn : (openBsrc s).bytesIn = s.bytesIn := rfl
@[simp] theorem openBsrc_bytesOut : (openBsrc s).bytesOut = s.bytesOut := rfl
@[simp] theorem openBsrc_nnodes : (openBsrc s).nnodes = s.nnodes := rfl
@[simp] theorem openBsrc_hsize : (openBsrc s).hsize = s.hsize := rfl
@[simp] theorem openBsrc_root : (openBsrc s).root = s.root := rfl
@[simp] theorem openBsrc_acc : (openBsrc s).acc = s.acc := rfl
@[simp] theorem openBsrc_nbits : (openBsrc s).nbits = s.nbits := rfl
@[simp] theorem openBsrc_shift : (openBsrc s).shift = s.shift := rfl
@[simp] theorem openBsrc_nbitsIn : (openBsrc s).nbitsIn = s.nbitsIn := rfl
@[simp] theorem openBsrc_cur : (openBsrc s).cur = s.cur := rfl
@[simp] theorem openBsrc_remain : (openBsrc s).remain = s.remain := rfl
@[simp] theorem openBsrc_ft : (openBsrc s).ft = s.ft := rfl
@[simp] theorem openBsrc_ns : (openBsrc s).ns = s.ns := rfl
@[simp] theorem openBsrc_hp : (openBsrc s).hp = s.hp := rfl
@[simp] theorem openBsrc_ct : (openBsrc s).ct = s.ct := rfl
@[simp] theorem openBsrc_env :
    (openBsrc s).env =
      { s.env with bsrc := s.env.bsrc.start, trace := s.env.trace ++ [.opened .bsrc] } := rfl

/-! ### openBsnk -/

@[simp] theorem openBsnk_ctrl : (openBsnk s).ctrl = s.ctrl := rfl
@[simp] theorem openBsnk_fault : (openBsnk s).fault = s.fault := rfl
@[simp] theorem openBsnk_ftv : (openBsnk s).ftv = s.ftv := rfl
@[simp] theorem openBsnk_trv : (openBsnk s).trv = s.trv := rfl
@[simp] theorem openBsnk_ctv : (openBsnk s).ctv = s.ctv := rfl
@[simp] theorem openBsnk_distinct : (openBsnk s).distinct = s.distinct := rfl
@[simp] theorem openBsnk_total : (openBsnk s).total = s.total := rfl
@[simp] theorem openBsnk_bytesIn : (openBsnk s).bytesIn = s.bytesIn := rfl
@[simp] theorem openBsnk_bytesOut : (openBsnk s).bytesOut = s.bytesOut := rfl
@[simp] theorem openBsnk_nnodes : (openBsnk s).nnodes = s.nnodes := rfl
@[simp] theorem openBsnk_hsize : (openBsnk s).hsize = s.hsize := rfl
@[simp] theorem openBsnk_root : (openBsnk s).root = s.root := rfl
@[simp] theorem openBsnk_acc : (openBsnk s).acc = s.acc := rfl
@[simp] theorem openBsnk_nbits : (openBsnk s).nbits = s.nbits := rfl
@[simp] theorem openBsnk_shift : (openBsnk s).shift = s.shift := rfl
@[simp] theorem openBsnk_nbitsIn : (openBsnk s).nbitsIn = s.nbitsIn := rfl
@[simp] theorem openBsnk_cur : (openBsnk s).cur = s.cur := rfl
@[simp] theorem openBsnk_remain : (openBsnk s).remain = s.remain := rfl
@[simp] theorem openBsnk_ft : (openBsnk s).ft = s.ft := rfl
@[simp] theorem openBsnk_ns : (openBsnk s).ns = s.ns := rfl
@[simp] theorem openBsnk_hp : (openBsnk s).hp = s.hp := rfl
@[simp] theorem openBsnk_ct : (openBsnk s).ct = s.ct := rfl
@[simp] theorem openBsnk_env :
    (openBsnk s).env =
      { s.env with bsnk := s.env.bsnk.start, trace := s.env.trace ++ [.opened .bsnk] } := rfl

/-! ### openSsnk -/

@[simp] theorem openSsnk_ctrl : (openSsnk s).ctrl = s.ctrl := rfl
@[simp] theorem openSsnk_fault : (openSsnk s).fault = s.fault := rfl
@[simp] theorem openSsnk_ftv : (openSsnk s).ftv = s.ftv := rfl
@[simp] theorem openSsnk_trv : (openSsnk s).trv = s.trv := rfl
@[simp] theorem openSsnk_ctv : (openSsnk s).ctv = s.ctv := rfl
@[simp] theorem openSsnk_distinct : (openSsnk s).distinct = s.distinct := rfl
@[simp] theorem openSsnk_total : (openSsnk s).total = s.total := rfl
@[simp] theorem openSsnk_bytesIn : (openSsnk s).bytesIn = s.bytesIn := rfl
@[simp] theorem openSsnk_bytesOut : (openSsnk s).bytesOut = s.bytesOut := rfl
@[simp] theorem openSsnk_nnodes : (openSsnk s).nnodes = s.nnodes := rfl
@[simp] theorem openSsnk_hsize : (openSsnk s).hsize = s.hsize := rfl
@[simp] theorem openSsnk_root : (openSsnk s).root = s.root := rfl
@[simp] theorem openSsnk_acc : (openSsnk s).acc = s.acc := rfl
@[simp] theorem openSsnk_nbits : (openSsnk s).nbits = s.nbits := rfl
@[simp] theorem openSsnk_shift : (openSsnk s).shift = s.shift := rfl
@[simp] theorem openSsnk_nbitsIn : (openSsnk s).nbitsIn = s.nbitsIn := rfl
@[simp] theorem openSsnk_cur : (openSsnk s).cur = s.cur := rfl
@[simp] theorem openSsnk_remain : (openSsnk s).remain = s.remain := rfl
@[simp] theorem openSsnk_ft : (openSsnk s).ft = s.ft := rfl
@[simp] theorem openSsnk_ns : (openSsnk s).ns = s.ns := rfl
@[simp] theorem openSsnk_hp : (openSsnk s).hp = s.hp := rfl
@[simp] theorem openSsnk_ct : (openSsnk s).ct = s.ct := rfl
@[simp] theorem openSsnk_env :
    (openSsnk s).env =
      { s.env with ssnk := s.env.ssnk.start, trace := s.env.trace ++ [.opened .ssnk] } := rfl

/-! ### releaseSsrc -/

@[simp] theorem releaseSsrc_ctrl : (releaseSsrc s).ctrl = s.ctrl := rfl
@[simp] theorem releaseSsrc_fault : (releaseSsrc s).fault = s.fault := rfl
@[simp] theorem releaseSsrc_ftv : (releaseSsrc s).ftv = s.ftv := rfl
@[simp] theorem releaseSsrc_trv : (releaseSsrc s).trv = s.trv := rfl
@[simp] theorem releaseSsrc_ctv : (releaseSsrc s).ctv = s.ctv := rfl
@[simp] theorem releaseSsrc_distinct : (releaseSsrc s).distinct = s.distinct := rfl
@[simp] theorem releaseSsrc_total : (releaseSsrc s).total = s.total := rfl
@[simp] theorem releaseSsrc_bytesIn : (releaseSsrc s).bytesIn = s.bytesIn := rfl
@[simp] theorem releaseSsrc_bytesOut : (releaseSsrc s).bytesOut = s.bytesOut := rfl
@[simp] theorem releaseSsrc_nnodes : (releaseSsrc s).nnodes = s.nnodes := rfl
@[simp] theorem releaseSsrc_hsize : (releaseSsrc s).hsize = s.hsize := rfl
@[simp] theorem releaseSsrc_root : (releaseSsrc s).root = s.root := rfl
@[simp] theorem releaseSsrc_acc : (releaseSsrc s).acc = s.acc := rfl
@[simp] theorem releaseSsrc_nbits : (releaseSsrc s).nbits = s.nbits := rfl
@[simp] theorem releaseSsrc_shift : (releaseSsrc s).shift = s.shift := rfl
@[simp] theorem releaseSsrc_nbitsIn : (releaseSsrc s).nbitsIn = s.nbitsIn := rfl
@[simp] theorem releaseSsrc_cur : (releaseSsrc s).cur = s.cur := rfl
@[simp] theorem releaseSsrc_remain : (releaseSsrc s).remain = s.remain := rfl
@[simp] theorem releaseSsrc_ft : (releaseSsrc s).ft = s.ft := rfl
@[simp] theorem releaseSsrc_ns : (releaseSsrc s).ns = s.ns := rfl
@[simp] theorem releaseSsrc_hp : (releaseSsrc s).hp = s.hp := rfl
@[simp] theorem releaseSsrc_ct : (releaseSsrc s).ct = s.ct := rfl
@[simp] theorem releaseSsrc_env :
    (releaseSsrc s).env =
      { s.env with ssrc := s.env.ssrc.stop, trace := s.env.trace ++ [.released .ssrc] } := rfl

/-! ### releaseBsrc -/

@[simp] theorem releaseBsrc_ctrl : (releaseBsrc s).ctrl = s.ctrl := rfl
@[simp] theorem releaseBsrc_fault : (releaseBsrc s).fault = s.fault := rfl
@[simp] theorem releaseBsrc_ftv : (releaseBsrc s).ftv = s.ftv := rfl
@[simp] theorem releaseBsrc_trv : (releaseBsrc s).trv = s.trv := rfl
@[simp] theorem releaseBsrc_ctv : (releaseBsrc s).ctv = s.ctv := rfl
@[simp] theorem releaseBsrc_distinct : (releaseBsrc s).distinct = s.distinct := rfl
@[simp] theorem releaseBsrc_total : (releaseBsrc s).total = s.total := rfl
@[simp] theorem releaseBsrc_bytesIn : (releaseBsrc s).bytesIn = s.bytesIn := rfl
@[simp] theorem releaseBsrc_bytesOut : (releaseBsrc s).bytesOut = s.bytesOut := rfl
@[simp] theorem releaseBsrc_nnodes : (releaseBsrc s).nnodes = s.nnodes := rfl
@[simp] theorem releaseBsrc_hsize : (releaseBsrc s).hsize = s.hsize := rfl
@[simp] theorem releaseBsrc_root : (releaseBsrc s).root = s.root := rfl
@[simp] theorem releaseBsrc_acc : (releaseBsrc s).acc = s.acc := rfl
@[simp] theorem releaseBsrc_nbits : (releaseBsrc s).nbits = s.nbits := rfl
@[simp] theorem releaseBsrc_shift : (releaseBsrc s).shift = s.shift := rfl
@[simp] theorem releaseBsrc_nbitsIn : (releaseBsrc s).nbitsIn = s.nbitsIn := rfl
@[simp] theorem releaseBsrc_cur : (releaseBsrc s).cur = s.cur := rfl
@[simp] theorem releaseBsrc_remain : (releaseBsrc s).remain = s.remain := rfl
@[simp] theorem releaseBsrc_ft : (releaseBsrc s).ft = s.ft := rfl
@[simp] theorem releaseBsrc_ns : (releaseBsrc s).ns = s.ns := rfl
@[simp] theorem releaseBsrc_hp : (releaseBsrc s).hp = s.hp := rfl
@[simp] theorem releaseBsrc_ct : (releaseBsrc s).ct = s.ct := rfl
@[simp] theorem releaseBsrc_env :
    (releaseBsrc s).env =
      { s.env with bsrc := s.env.bsrc.stop, trace := s.env.trace ++ [.released .bsrc] } := rfl

/-! ### commitBsnk -/

@[simp] theorem commitBsnk_ctrl : (commitBsnk s).ctrl = s.ctrl := rfl
@[simp] theorem commitBsnk_fault : (commitBsnk s).fault = s.fault := rfl
@[simp] theorem commitBsnk_ftv : (commitBsnk s).ftv = s.ftv := rfl
@[simp] theorem commitBsnk_trv : (commitBsnk s).trv = s.trv := rfl
@[simp] theorem commitBsnk_ctv : (commitBsnk s).ctv = s.ctv := rfl
@[simp] theorem commitBsnk_distinct : (commitBsnk s).distinct = s.distinct := rfl
@[simp] theorem commitBsnk_total : (commitBsnk s).total = s.total := rfl
@[simp] theorem commitBsnk_bytesIn : (commitBsnk s).bytesIn = s.bytesIn := rfl
@[simp] theorem commitBsnk_bytesOut : (commitBsnk s).bytesOut = s.bytesOut := rfl
@[simp] theorem commitBsnk_nnodes : (commitBsnk s).nnodes = s.nnodes := rfl
@[simp] theorem commitBsnk_hsize : (commitBsnk s).hsize = s.hsize := rfl
@[simp] theorem commitBsnk_root : (commitBsnk s).root = s.root := rfl
@[simp] theorem commitBsnk_acc : (commitBsnk s).acc = s.acc := rfl
@[simp] theorem commitBsnk_nbits : (commitBsnk s).nbits = s.nbits := rfl
@[simp] theorem commitBsnk_shift : (commitBsnk s).shift = s.shift := rfl
@[simp] theorem commitBsnk_nbitsIn : (commitBsnk s).nbitsIn = s.nbitsIn := rfl
@[simp] theorem commitBsnk_cur : (commitBsnk s).cur = s.cur := rfl
@[simp] theorem commitBsnk_remain : (commitBsnk s).remain = s.remain := rfl
@[simp] theorem commitBsnk_ft : (commitBsnk s).ft = s.ft := rfl
@[simp] theorem commitBsnk_ns : (commitBsnk s).ns = s.ns := rfl
@[simp] theorem commitBsnk_hp : (commitBsnk s).hp = s.hp := rfl
@[simp] theorem commitBsnk_ct : (commitBsnk s).ct = s.ct := rfl
@[simp] theorem commitBsnk_env :
    (commitBsnk s).env =
      { s.env with bsnk := s.env.bsnk.commit, trace := s.env.trace ++ [.committed .bsnk] } := rfl

/-! ### commitSsnk -/

@[simp] theorem commitSsnk_ctrl : (commitSsnk s).ctrl = s.ctrl := rfl
@[simp] theorem commitSsnk_fault : (commitSsnk s).fault = s.fault := rfl
@[simp] theorem commitSsnk_ftv : (commitSsnk s).ftv = s.ftv := rfl
@[simp] theorem commitSsnk_trv : (commitSsnk s).trv = s.trv := rfl
@[simp] theorem commitSsnk_ctv : (commitSsnk s).ctv = s.ctv := rfl
@[simp] theorem commitSsnk_distinct : (commitSsnk s).distinct = s.distinct := rfl
@[simp] theorem commitSsnk_total : (commitSsnk s).total = s.total := rfl
@[simp] theorem commitSsnk_bytesIn : (commitSsnk s).bytesIn = s.bytesIn := rfl
@[simp] theorem commitSsnk_bytesOut : (commitSsnk s).bytesOut = s.bytesOut := rfl
@[simp] theorem commitSsnk_nnodes : (commitSsnk s).nnodes = s.nnodes := rfl
@[simp] theorem commitSsnk_hsize : (commitSsnk s).hsize = s.hsize := rfl
@[simp] theorem commitSsnk_root : (commitSsnk s).root = s.root := rfl
@[simp] theorem commitSsnk_acc : (commitSsnk s).acc = s.acc := rfl
@[simp] theorem commitSsnk_nbits : (commitSsnk s).nbits = s.nbits := rfl
@[simp] theorem commitSsnk_shift : (commitSsnk s).shift = s.shift := rfl
@[simp] theorem commitSsnk_nbitsIn : (commitSsnk s).nbitsIn = s.nbitsIn := rfl
@[simp] theorem commitSsnk_cur : (commitSsnk s).cur = s.cur := rfl
@[simp] theorem commitSsnk_remain : (commitSsnk s).remain = s.remain := rfl
@[simp] theorem commitSsnk_ft : (commitSsnk s).ft = s.ft := rfl
@[simp] theorem commitSsnk_ns : (commitSsnk s).ns = s.ns := rfl
@[simp] theorem commitSsnk_hp : (commitSsnk s).hp = s.hp := rfl
@[simp] theorem commitSsnk_ct : (commitSsnk s).ct = s.ct := rfl
@[simp] theorem commitSsnk_env :
    (commitSsnk s).env =
      { s.env with ssnk := s.env.ssnk.commit, trace := s.env.trace ++ [.committed .ssnk] } := rfl

/-! ### abortBsnk -/

@[simp] theorem abortBsnk_ctrl : (abortBsnk s).ctrl = s.ctrl := rfl
@[simp] theorem abortBsnk_fault : (abortBsnk s).fault = s.fault := rfl
@[simp] theorem abortBsnk_ftv : (abortBsnk s).ftv = s.ftv := rfl
@[simp] theorem abortBsnk_trv : (abortBsnk s).trv = s.trv := rfl
@[simp] theorem abortBsnk_ctv : (abortBsnk s).ctv = s.ctv := rfl
@[simp] theorem abortBsnk_distinct : (abortBsnk s).distinct = s.distinct := rfl
@[simp] theorem abortBsnk_total : (abortBsnk s).total = s.total := rfl
@[simp] theorem abortBsnk_bytesIn : (abortBsnk s).bytesIn = s.bytesIn := rfl
@[simp] theorem abortBsnk_bytesOut : (abortBsnk s).bytesOut = s.bytesOut := rfl
@[simp] theorem abortBsnk_nnodes : (abortBsnk s).nnodes = s.nnodes := rfl
@[simp] theorem abortBsnk_hsize : (abortBsnk s).hsize = s.hsize := rfl
@[simp] theorem abortBsnk_root : (abortBsnk s).root = s.root := rfl
@[simp] theorem abortBsnk_acc : (abortBsnk s).acc = s.acc := rfl
@[simp] theorem abortBsnk_nbits : (abortBsnk s).nbits = s.nbits := rfl
@[simp] theorem abortBsnk_shift : (abortBsnk s).shift = s.shift := rfl
@[simp] theorem abortBsnk_nbitsIn : (abortBsnk s).nbitsIn = s.nbitsIn := rfl
@[simp] theorem abortBsnk_cur : (abortBsnk s).cur = s.cur := rfl
@[simp] theorem abortBsnk_remain : (abortBsnk s).remain = s.remain := rfl
@[simp] theorem abortBsnk_ft : (abortBsnk s).ft = s.ft := rfl
@[simp] theorem abortBsnk_ns : (abortBsnk s).ns = s.ns := rfl
@[simp] theorem abortBsnk_hp : (abortBsnk s).hp = s.hp := rfl
@[simp] theorem abortBsnk_ct : (abortBsnk s).ct = s.ct := rfl
@[simp] theorem abortBsnk_env :
    (abortBsnk s).env =
      { s.env with bsnk := s.env.bsnk.abort, trace := s.env.trace ++ [.aborted .bsnk] } := rfl

/-! ### abortSsnk -/

@[simp] theorem abortSsnk_ctrl : (abortSsnk s).ctrl = s.ctrl := rfl
@[simp] theorem abortSsnk_fault : (abortSsnk s).fault = s.fault := rfl
@[simp] theorem abortSsnk_ftv : (abortSsnk s).ftv = s.ftv := rfl
@[simp] theorem abortSsnk_trv : (abortSsnk s).trv = s.trv := rfl
@[simp] theorem abortSsnk_ctv : (abortSsnk s).ctv = s.ctv := rfl
@[simp] theorem abortSsnk_distinct : (abortSsnk s).distinct = s.distinct := rfl
@[simp] theorem abortSsnk_total : (abortSsnk s).total = s.total := rfl
@[simp] theorem abortSsnk_bytesIn : (abortSsnk s).bytesIn = s.bytesIn := rfl
@[simp] theorem abortSsnk_bytesOut : (abortSsnk s).bytesOut = s.bytesOut := rfl
@[simp] theorem abortSsnk_nnodes : (abortSsnk s).nnodes = s.nnodes := rfl
@[simp] theorem abortSsnk_hsize : (abortSsnk s).hsize = s.hsize := rfl
@[simp] theorem abortSsnk_root : (abortSsnk s).root = s.root := rfl
@[simp] theorem abortSsnk_acc : (abortSsnk s).acc = s.acc := rfl
@[simp] theorem abortSsnk_nbits : (abortSsnk s).nbits = s.nbits := rfl
@[simp] theorem abortSsnk_shift : (abortSsnk s).shift = s.shift := rfl
@[simp] theorem abortSsnk_nbitsIn : (abortSsnk s).nbitsIn = s.nbitsIn := rfl
@[simp] theorem abortSsnk_cur : (abortSsnk s).cur = s.cur := rfl
@[simp] theorem abortSsnk_remain : (abortSsnk s).remain = s.remain := rfl
@[simp] theorem abortSsnk_ft : (abortSsnk s).ft = s.ft := rfl
@[simp] theorem abortSsnk_ns : (abortSsnk s).ns = s.ns := rfl
@[simp] theorem abortSsnk_hp : (abortSsnk s).hp = s.hp := rfl
@[simp] theorem abortSsnk_ct : (abortSsnk s).ct = s.ct := rfl
@[simp] theorem abortSsnk_env :
    (abortSsnk s).env =
      { s.env with ssnk := s.env.ssnk.abort, trace := s.env.trace ++ [.aborted .ssnk] } := rfl

/-! ### recordOutcome -/

@[simp] theorem recordOutcome_ctrl (o : CmdOutcome) : (recordOutcome o s).ctrl = s.ctrl := rfl
@[simp] theorem recordOutcome_fault (o : CmdOutcome) : (recordOutcome o s).fault = s.fault := rfl
@[simp] theorem recordOutcome_ftv (o : CmdOutcome) : (recordOutcome o s).ftv = s.ftv := rfl
@[simp] theorem recordOutcome_trv (o : CmdOutcome) : (recordOutcome o s).trv = s.trv := rfl
@[simp] theorem recordOutcome_ctv (o : CmdOutcome) : (recordOutcome o s).ctv = s.ctv := rfl
@[simp] theorem recordOutcome_distinct (o : CmdOutcome) :
    (recordOutcome o s).distinct =
      s.distinct := rfl
@[simp] theorem recordOutcome_total (o : CmdOutcome) : (recordOutcome o s).total = s.total := rfl
@[simp] theorem recordOutcome_bytesIn (o : CmdOutcome) :
    (recordOutcome o s).bytesIn =
      s.bytesIn := rfl
@[simp] theorem recordOutcome_bytesOut (o : CmdOutcome) :
    (recordOutcome o s).bytesOut =
      s.bytesOut := rfl
@[simp] theorem recordOutcome_nnodes (o : CmdOutcome) : (recordOutcome o s).nnodes = s.nnodes := rfl
@[simp] theorem recordOutcome_hsize (o : CmdOutcome) : (recordOutcome o s).hsize = s.hsize := rfl
@[simp] theorem recordOutcome_root (o : CmdOutcome) : (recordOutcome o s).root = s.root := rfl
@[simp] theorem recordOutcome_acc (o : CmdOutcome) : (recordOutcome o s).acc = s.acc := rfl
@[simp] theorem recordOutcome_nbits (o : CmdOutcome) : (recordOutcome o s).nbits = s.nbits := rfl
@[simp] theorem recordOutcome_shift (o : CmdOutcome) : (recordOutcome o s).shift = s.shift := rfl
@[simp] theorem recordOutcome_nbitsIn (o : CmdOutcome) :
    (recordOutcome o s).nbitsIn =
      s.nbitsIn := rfl
@[simp] theorem recordOutcome_cur (o : CmdOutcome) : (recordOutcome o s).cur = s.cur := rfl
@[simp] theorem recordOutcome_remain (o : CmdOutcome) : (recordOutcome o s).remain = s.remain := rfl
@[simp] theorem recordOutcome_ft (o : CmdOutcome) : (recordOutcome o s).ft = s.ft := rfl
@[simp] theorem recordOutcome_ns (o : CmdOutcome) : (recordOutcome o s).ns = s.ns := rfl
@[simp] theorem recordOutcome_hp (o : CmdOutcome) : (recordOutcome o s).hp = s.hp := rfl
@[simp] theorem recordOutcome_ct (o : CmdOutcome) : (recordOutcome o s).ct = s.ct := rfl
@[simp] theorem recordOutcome_env (o : CmdOutcome) :
    (recordOutcome o s).env =
      { s.env with outcomes := s.env.outcomes ++ [o] } := rfl

/-! ### finish -/

@[simp] theorem finish_ctrl (o : CmdOutcome) : (finish o s).ctrl = .idle := rfl
@[simp] theorem finish_fault (o : CmdOutcome) : (finish o s).fault = s.fault := rfl
@[simp] theorem finish_ftv (o : CmdOutcome) : (finish o s).ftv = s.ftv := rfl
@[simp] theorem finish_trv (o : CmdOutcome) : (finish o s).trv = s.trv := rfl
@[simp] theorem finish_ctv (o : CmdOutcome) : (finish o s).ctv = s.ctv := rfl
@[simp] theorem finish_distinct (o : CmdOutcome) : (finish o s).distinct = s.distinct := rfl
@[simp] theorem finish_total (o : CmdOutcome) : (finish o s).total = s.total := rfl
@[simp] theorem finish_bytesIn (o : CmdOutcome) : (finish o s).bytesIn = s.bytesIn := rfl
@[simp] theorem finish_bytesOut (o : CmdOutcome) : (finish o s).bytesOut = s.bytesOut := rfl
@[simp] theorem finish_nnodes (o : CmdOutcome) : (finish o s).nnodes = s.nnodes := rfl
@[simp] theorem finish_hsize (o : CmdOutcome) : (finish o s).hsize = s.hsize := rfl
@[simp] theorem finish_root (o : CmdOutcome) : (finish o s).root = s.root := rfl
@[simp] theorem finish_acc (o : CmdOutcome) : (finish o s).acc = s.acc := rfl
@[simp] theorem finish_nbits (o : CmdOutcome) : (finish o s).nbits = s.nbits := rfl
@[simp] theorem finish_shift (o : CmdOutcome) : (finish o s).shift = s.shift := rfl
@[simp] theorem finish_nbitsIn (o : CmdOutcome) : (finish o s).nbitsIn = s.nbitsIn := rfl
@[simp] theorem finish_cur (o : CmdOutcome) : (finish o s).cur = s.cur := rfl
@[simp] theorem finish_remain (o : CmdOutcome) : (finish o s).remain = s.remain := rfl
@[simp] theorem finish_ft (o : CmdOutcome) : (finish o s).ft = s.ft := rfl
@[simp] theorem finish_ns (o : CmdOutcome) : (finish o s).ns = s.ns := rfl
@[simp] theorem finish_hp (o : CmdOutcome) : (finish o s).hp = s.hp := rfl
@[simp] theorem finish_ct (o : CmdOutcome) : (finish o s).ct = s.ct := rfl
@[simp] theorem finish_env (o : CmdOutcome) :
    (finish o s).env =
      { s.env with outcomes := s.env.outcomes ++ [o] } := rfl

/-! ### hpShrink -/

@[simp] theorem hpShrink_ctrl (last : Nat) : (hpShrink last s).ctrl = s.ctrl := rfl
@[simp] theorem hpShrink_fault (last : Nat) : (hpShrink last s).fault = s.fault := rfl
@[simp] theorem hpShrink_ftv (last : Nat) : (hpShrink last s).ftv = s.ftv := rfl
@[simp] theorem hpShrink_trv (last : Nat) : (hpShrink last s).trv = s.trv := rfl
@[simp] theorem hpShrink_ctv (last : Nat) : (hpShrink last s).ctv = s.ctv := rfl
@[simp] theorem hpShrink_distinct (last : Nat) : (hpShrink last s).distinct = s.distinct := rfl
@[simp] theorem hpShrink_total (last : Nat) : (hpShrink last s).total = s.total := rfl
@[simp] theorem hpShrink_bytesIn (last : Nat) : (hpShrink last s).bytesIn = s.bytesIn := rfl
@[simp] theorem hpShrink_bytesOut (last : Nat) : (hpShrink last s).bytesOut = s.bytesOut := rfl
@[simp] theorem hpShrink_nnodes (last : Nat) : (hpShrink last s).nnodes = s.nnodes := rfl
@[simp] theorem hpShrink_hsize (last : Nat) : (hpShrink last s).hsize = BitVec.ofNat 17 last := rfl
@[simp] theorem hpShrink_root (last : Nat) : (hpShrink last s).root = s.root := rfl
@[simp] theorem hpShrink_acc (last : Nat) : (hpShrink last s).acc = s.acc := rfl
@[simp] theorem hpShrink_nbits (last : Nat) : (hpShrink last s).nbits = s.nbits := rfl
@[simp] theorem hpShrink_shift (last : Nat) : (hpShrink last s).shift = s.shift := rfl
@[simp] theorem hpShrink_nbitsIn (last : Nat) : (hpShrink last s).nbitsIn = s.nbitsIn := rfl
@[simp] theorem hpShrink_cur (last : Nat) : (hpShrink last s).cur = s.cur := rfl
@[simp] theorem hpShrink_remain (last : Nat) : (hpShrink last s).remain = s.remain := rfl
@[simp] theorem hpShrink_ft (last : Nat) : (hpShrink last s).ft = s.ft := rfl
@[simp] theorem hpShrink_ns (last : Nat) : (hpShrink last s).ns = s.ns := rfl
@[simp] theorem hpShrink_hp (last : Nat) : (hpShrink last s).hp = s.hp.del last := rfl
@[simp] theorem hpShrink_ct (last : Nat) : (hpShrink last s).ct = s.ct := rfl
@[simp] theorem hpShrink_env (last : Nat) : (hpShrink last s).env = s.env := rfl

/-! ### csrRead -/

@[simp] theorem csrRead_ctrl (n : Byte) : (csrRead n s).ctrl = s.ctrl := rfl
@[simp] theorem csrRead_fault (n : Byte) : (csrRead n s).fault = s.fault := rfl
@[simp] theorem csrRead_ftv (n : Byte) : (csrRead n s).ftv = s.ftv := rfl
@[simp] theorem csrRead_trv (n : Byte) : (csrRead n s).trv = s.trv := rfl
@[simp] theorem csrRead_ctv (n : Byte) : (csrRead n s).ctv = s.ctv := rfl
@[simp] theorem csrRead_distinct (n : Byte) : (csrRead n s).distinct = s.distinct := rfl
@[simp] theorem csrRead_total (n : Byte) : (csrRead n s).total = s.total := rfl
@[simp] theorem csrRead_bytesIn (n : Byte) : (csrRead n s).bytesIn = s.bytesIn := rfl
@[simp] theorem csrRead_bytesOut (n : Byte) : (csrRead n s).bytesOut = s.bytesOut := rfl
@[simp] theorem csrRead_nnodes (n : Byte) : (csrRead n s).nnodes = s.nnodes := rfl
@[simp] theorem csrRead_hsize (n : Byte) : (csrRead n s).hsize = s.hsize := rfl
@[simp] theorem csrRead_root (n : Byte) : (csrRead n s).root = s.root := rfl
@[simp] theorem csrRead_acc (n : Byte) : (csrRead n s).acc = s.acc := rfl
@[simp] theorem csrRead_nbits (n : Byte) : (csrRead n s).nbits = s.nbits := rfl
@[simp] theorem csrRead_shift (n : Byte) : (csrRead n s).shift = s.shift := rfl
@[simp] theorem csrRead_nbitsIn (n : Byte) : (csrRead n s).nbitsIn = s.nbitsIn := rfl
@[simp] theorem csrRead_cur (n : Byte) : (csrRead n s).cur = s.cur := rfl
@[simp] theorem csrRead_remain (n : Byte) : (csrRead n s).remain = s.remain := rfl
@[simp] theorem csrRead_ft (n : Byte) : (csrRead n s).ft = s.ft := rfl
@[simp] theorem csrRead_ns (n : Byte) : (csrRead n s).ns = s.ns := rfl
@[simp] theorem csrRead_hp (n : Byte) : (csrRead n s).hp = s.hp := rfl
@[simp] theorem csrRead_ct (n : Byte) : (csrRead n s).ct = s.ct := rfl
@[simp] theorem csrRead_env (n : Byte) :
    (csrRead n s).env =
      { s.env with csrReads := s.env.csrReads ++ [(n, csrValue n s)], draws := if s.ctrl = .busy then s.env.draws + 1 else s.env.draws } := rfl

/-! ### closePorts -/

@[simp] theorem closeSsrc_ctrl : (closeSsrc s).ctrl = s.ctrl := by unfold closeSsrc; split <;> rfl
@[simp] theorem closeSsrc_fault : (closeSsrc s).fault = s.fault := by unfold closeSsrc; split <;> rfl
@[simp] theorem closeSsrc_ftv : (closeSsrc s).ftv = s.ftv := by unfold closeSsrc; split <;> rfl
@[simp] theorem closeSsrc_trv : (closeSsrc s).trv = s.trv := by unfold closeSsrc; split <;> rfl
@[simp] theorem closeSsrc_ctv : (closeSsrc s).ctv = s.ctv := by unfold closeSsrc; split <;> rfl
@[simp] theorem closeSsrc_distinct : (closeSsrc s).distinct = s.distinct := by unfold closeSsrc; split <;> rfl
@[simp] theorem closeSsrc_total : (closeSsrc s).total = s.total := by unfold closeSsrc; split <;> rfl
@[simp] theorem closeSsrc_bytesIn : (closeSsrc s).bytesIn = s.bytesIn := by unfold closeSsrc; split <;> rfl
@[simp] theorem closeSsrc_bytesOut : (closeSsrc s).bytesOut = s.bytesOut := by unfold closeSsrc; split <;> rfl
@[simp] theorem closeSsrc_nnodes : (closeSsrc s).nnodes = s.nnodes := by unfold closeSsrc; split <;> rfl
@[simp] theorem closeSsrc_hsize : (closeSsrc s).hsize = s.hsize := by unfold closeSsrc; split <;> rfl
@[simp] theorem closeSsrc_root : (closeSsrc s).root = s.root := by unfold closeSsrc; split <;> rfl
@[simp] theorem closeSsrc_acc : (closeSsrc s).acc = s.acc := by unfold closeSsrc; split <;> rfl
@[simp] theorem closeSsrc_nbits : (closeSsrc s).nbits = s.nbits := by unfold closeSsrc; split <;> rfl
@[simp] theorem closeSsrc_shift : (closeSsrc s).shift = s.shift := by unfold closeSsrc; split <;> rfl
@[simp] theorem closeSsrc_nbitsIn : (closeSsrc s).nbitsIn = s.nbitsIn := by unfold closeSsrc; split <;> rfl
@[simp] theorem closeSsrc_cur : (closeSsrc s).cur = s.cur := by unfold closeSsrc; split <;> rfl
@[simp] theorem closeSsrc_remain : (closeSsrc s).remain = s.remain := by unfold closeSsrc; split <;> rfl
@[simp] theorem closeSsrc_ft : (closeSsrc s).ft = s.ft := by unfold closeSsrc; split <;> rfl
@[simp] theorem closeSsrc_ns : (closeSsrc s).ns = s.ns := by unfold closeSsrc; split <;> rfl
@[simp] theorem closeSsrc_hp : (closeSsrc s).hp = s.hp := by unfold closeSsrc; split <;> rfl
@[simp] theorem closeSsrc_ct : (closeSsrc s).ct = s.ct := by unfold closeSsrc; split <;> rfl

@[simp] theorem closeBsrc_ctrl : (closeBsrc s).ctrl = s.ctrl := by unfold closeBsrc; split <;> rfl
@[simp] theorem closeBsrc_fault : (closeBsrc s).fault = s.fault := by unfold closeBsrc; split <;> rfl
@[simp] theorem closeBsrc_ftv : (closeBsrc s).ftv = s.ftv := by unfold closeBsrc; split <;> rfl
@[simp] theorem closeBsrc_trv : (closeBsrc s).trv = s.trv := by unfold closeBsrc; split <;> rfl
@[simp] theorem closeBsrc_ctv : (closeBsrc s).ctv = s.ctv := by unfold closeBsrc; split <;> rfl
@[simp] theorem closeBsrc_distinct : (closeBsrc s).distinct = s.distinct := by unfold closeBsrc; split <;> rfl
@[simp] theorem closeBsrc_total : (closeBsrc s).total = s.total := by unfold closeBsrc; split <;> rfl
@[simp] theorem closeBsrc_bytesIn : (closeBsrc s).bytesIn = s.bytesIn := by unfold closeBsrc; split <;> rfl
@[simp] theorem closeBsrc_bytesOut : (closeBsrc s).bytesOut = s.bytesOut := by unfold closeBsrc; split <;> rfl
@[simp] theorem closeBsrc_nnodes : (closeBsrc s).nnodes = s.nnodes := by unfold closeBsrc; split <;> rfl
@[simp] theorem closeBsrc_hsize : (closeBsrc s).hsize = s.hsize := by unfold closeBsrc; split <;> rfl
@[simp] theorem closeBsrc_root : (closeBsrc s).root = s.root := by unfold closeBsrc; split <;> rfl
@[simp] theorem closeBsrc_acc : (closeBsrc s).acc = s.acc := by unfold closeBsrc; split <;> rfl
@[simp] theorem closeBsrc_nbits : (closeBsrc s).nbits = s.nbits := by unfold closeBsrc; split <;> rfl
@[simp] theorem closeBsrc_shift : (closeBsrc s).shift = s.shift := by unfold closeBsrc; split <;> rfl
@[simp] theorem closeBsrc_nbitsIn : (closeBsrc s).nbitsIn = s.nbitsIn := by unfold closeBsrc; split <;> rfl
@[simp] theorem closeBsrc_cur : (closeBsrc s).cur = s.cur := by unfold closeBsrc; split <;> rfl
@[simp] theorem closeBsrc_remain : (closeBsrc s).remain = s.remain := by unfold closeBsrc; split <;> rfl
@[simp] theorem closeBsrc_ft : (closeBsrc s).ft = s.ft := by unfold closeBsrc; split <;> rfl
@[simp] theorem closeBsrc_ns : (closeBsrc s).ns = s.ns := by unfold closeBsrc; split <;> rfl
@[simp] theorem closeBsrc_hp : (closeBsrc s).hp = s.hp := by unfold closeBsrc; split <;> rfl
@[simp] theorem closeBsrc_ct : (closeBsrc s).ct = s.ct := by unfold closeBsrc; split <;> rfl

@[simp] theorem closeBsnk_ctrl : (closeBsnk s).ctrl = s.ctrl := by unfold closeBsnk; split <;> rfl
@[simp] theorem closeBsnk_fault : (closeBsnk s).fault = s.fault := by unfold closeBsnk; split <;> rfl
@[simp] theorem closeBsnk_ftv : (closeBsnk s).ftv = s.ftv := by unfold closeBsnk; split <;> rfl
@[simp] theorem closeBsnk_trv : (closeBsnk s).trv = s.trv := by unfold closeBsnk; split <;> rfl
@[simp] theorem closeBsnk_ctv : (closeBsnk s).ctv = s.ctv := by unfold closeBsnk; split <;> rfl
@[simp] theorem closeBsnk_distinct : (closeBsnk s).distinct = s.distinct := by unfold closeBsnk; split <;> rfl
@[simp] theorem closeBsnk_total : (closeBsnk s).total = s.total := by unfold closeBsnk; split <;> rfl
@[simp] theorem closeBsnk_bytesIn : (closeBsnk s).bytesIn = s.bytesIn := by unfold closeBsnk; split <;> rfl
@[simp] theorem closeBsnk_bytesOut : (closeBsnk s).bytesOut = s.bytesOut := by unfold closeBsnk; split <;> rfl
@[simp] theorem closeBsnk_nnodes : (closeBsnk s).nnodes = s.nnodes := by unfold closeBsnk; split <;> rfl
@[simp] theorem closeBsnk_hsize : (closeBsnk s).hsize = s.hsize := by unfold closeBsnk; split <;> rfl
@[simp] theorem closeBsnk_root : (closeBsnk s).root = s.root := by unfold closeBsnk; split <;> rfl
@[simp] theorem closeBsnk_acc : (closeBsnk s).acc = s.acc := by unfold closeBsnk; split <;> rfl
@[simp] theorem closeBsnk_nbits : (closeBsnk s).nbits = s.nbits := by unfold closeBsnk; split <;> rfl
@[simp] theorem closeBsnk_shift : (closeBsnk s).shift = s.shift := by unfold closeBsnk; split <;> rfl
@[simp] theorem closeBsnk_nbitsIn : (closeBsnk s).nbitsIn = s.nbitsIn := by unfold closeBsnk; split <;> rfl
@[simp] theorem closeBsnk_cur : (closeBsnk s).cur = s.cur := by unfold closeBsnk; split <;> rfl
@[simp] theorem closeBsnk_remain : (closeBsnk s).remain = s.remain := by unfold closeBsnk; split <;> rfl
@[simp] theorem closeBsnk_ft : (closeBsnk s).ft = s.ft := by unfold closeBsnk; split <;> rfl
@[simp] theorem closeBsnk_ns : (closeBsnk s).ns = s.ns := by unfold closeBsnk; split <;> rfl
@[simp] theorem closeBsnk_hp : (closeBsnk s).hp = s.hp := by unfold closeBsnk; split <;> rfl
@[simp] theorem closeBsnk_ct : (closeBsnk s).ct = s.ct := by unfold closeBsnk; split <;> rfl

@[simp] theorem closeSsnk_ctrl : (closeSsnk s).ctrl = s.ctrl := by unfold closeSsnk; split <;> rfl
@[simp] theorem closeSsnk_fault : (closeSsnk s).fault = s.fault := by unfold closeSsnk; split <;> rfl
@[simp] theorem closeSsnk_ftv : (closeSsnk s).ftv = s.ftv := by unfold closeSsnk; split <;> rfl
@[simp] theorem closeSsnk_trv : (closeSsnk s).trv = s.trv := by unfold closeSsnk; split <;> rfl
@[simp] theorem closeSsnk_ctv : (closeSsnk s).ctv = s.ctv := by unfold closeSsnk; split <;> rfl
@[simp] theorem closeSsnk_distinct : (closeSsnk s).distinct = s.distinct := by unfold closeSsnk; split <;> rfl
@[simp] theorem closeSsnk_total : (closeSsnk s).total = s.total := by unfold closeSsnk; split <;> rfl
@[simp] theorem closeSsnk_bytesIn : (closeSsnk s).bytesIn = s.bytesIn := by unfold closeSsnk; split <;> rfl
@[simp] theorem closeSsnk_bytesOut : (closeSsnk s).bytesOut = s.bytesOut := by unfold closeSsnk; split <;> rfl
@[simp] theorem closeSsnk_nnodes : (closeSsnk s).nnodes = s.nnodes := by unfold closeSsnk; split <;> rfl
@[simp] theorem closeSsnk_hsize : (closeSsnk s).hsize = s.hsize := by unfold closeSsnk; split <;> rfl
@[simp] theorem closeSsnk_root : (closeSsnk s).root = s.root := by unfold closeSsnk; split <;> rfl
@[simp] theorem closeSsnk_acc : (closeSsnk s).acc = s.acc := by unfold closeSsnk; split <;> rfl
@[simp] theorem closeSsnk_nbits : (closeSsnk s).nbits = s.nbits := by unfold closeSsnk; split <;> rfl
@[simp] theorem closeSsnk_shift : (closeSsnk s).shift = s.shift := by unfold closeSsnk; split <;> rfl
@[simp] theorem closeSsnk_nbitsIn : (closeSsnk s).nbitsIn = s.nbitsIn := by unfold closeSsnk; split <;> rfl
@[simp] theorem closeSsnk_cur : (closeSsnk s).cur = s.cur := by unfold closeSsnk; split <;> rfl
@[simp] theorem closeSsnk_remain : (closeSsnk s).remain = s.remain := by unfold closeSsnk; split <;> rfl
@[simp] theorem closeSsnk_ft : (closeSsnk s).ft = s.ft := by unfold closeSsnk; split <;> rfl
@[simp] theorem closeSsnk_ns : (closeSsnk s).ns = s.ns := by unfold closeSsnk; split <;> rfl
@[simp] theorem closeSsnk_hp : (closeSsnk s).hp = s.hp := by unfold closeSsnk; split <;> rfl
@[simp] theorem closeSsnk_ct : (closeSsnk s).ct = s.ct := by unfold closeSsnk; split <;> rfl

@[simp] theorem closePorts_ctrl : (closePorts s).ctrl = s.ctrl := by simp [closePorts]
@[simp] theorem closePorts_fault : (closePorts s).fault = s.fault := by simp [closePorts]
@[simp] theorem closePorts_ftv : (closePorts s).ftv = s.ftv := by simp [closePorts]
@[simp] theorem closePorts_trv : (closePorts s).trv = s.trv := by simp [closePorts]
@[simp] theorem closePorts_ctv : (closePorts s).ctv = s.ctv := by simp [closePorts]
@[simp] theorem closePorts_distinct : (closePorts s).distinct = s.distinct := by simp [closePorts]
@[simp] theorem closePorts_total : (closePorts s).total = s.total := by simp [closePorts]
@[simp] theorem closePorts_bytesIn : (closePorts s).bytesIn = s.bytesIn := by simp [closePorts]
@[simp] theorem closePorts_bytesOut : (closePorts s).bytesOut = s.bytesOut := by simp [closePorts]
@[simp] theorem closePorts_nnodes : (closePorts s).nnodes = s.nnodes := by simp [closePorts]
@[simp] theorem closePorts_hsize : (closePorts s).hsize = s.hsize := by simp [closePorts]
@[simp] theorem closePorts_root : (closePorts s).root = s.root := by simp [closePorts]
@[simp] theorem closePorts_acc : (closePorts s).acc = s.acc := by simp [closePorts]
@[simp] theorem closePorts_nbits : (closePorts s).nbits = s.nbits := by simp [closePorts]
@[simp] theorem closePorts_shift : (closePorts s).shift = s.shift := by simp [closePorts]
@[simp] theorem closePorts_nbitsIn : (closePorts s).nbitsIn = s.nbitsIn := by simp [closePorts]
@[simp] theorem closePorts_cur : (closePorts s).cur = s.cur := by simp [closePorts]
@[simp] theorem closePorts_remain : (closePorts s).remain = s.remain := by simp [closePorts]
@[simp] theorem closePorts_ft : (closePorts s).ft = s.ft := by simp [closePorts]
@[simp] theorem closePorts_ns : (closePorts s).ns = s.ns := by simp [closePorts]
@[simp] theorem closePorts_hp : (closePorts s).hp = s.hp := by simp [closePorts]
@[simp] theorem closePorts_ct : (closePorts s).ct = s.ct := by simp [closePorts]

/-! ### faultEntry -/

@[simp] theorem faultEntry_ctrl (k : FaultKind) : (faultEntry k s).ctrl = .faulted := rfl
@[simp] theorem faultEntry_fault (k : FaultKind) : (faultEntry k s).fault = k.code := rfl
@[simp] theorem faultEntry_ftv (k : FaultKind) : (faultEntry k s).ftv = false := rfl
@[simp] theorem faultEntry_trv (k : FaultKind) : (faultEntry k s).trv = false := rfl
@[simp] theorem faultEntry_ctv (k : FaultKind) : (faultEntry k s).ctv = false := rfl
@[simp] theorem faultEntry_distinct (k : FaultKind) : (faultEntry k s).distinct = 0#17 := rfl
@[simp] theorem faultEntry_total (k : FaultKind) : (faultEntry k s).total = 0#48 := rfl
@[simp] theorem faultEntry_bytesIn (k : FaultKind) : (faultEntry k s).bytesIn = 0#64 := rfl
@[simp] theorem faultEntry_bytesOut (k : FaultKind) : (faultEntry k s).bytesOut = 0#64 := rfl
@[simp] theorem faultEntry_nnodes (k : FaultKind) : (faultEntry k s).nnodes = 0#17 := rfl
@[simp] theorem faultEntry_hsize (k : FaultKind) : (faultEntry k s).hsize = 0#17 := rfl
@[simp] theorem faultEntry_root (k : FaultKind) : (faultEntry k s).root = Config.nil := rfl
@[simp] theorem faultEntry_acc (k : FaultKind) : (faultEntry k s).acc = s.acc := by simp [faultEntry]
@[simp] theorem faultEntry_nbits (k : FaultKind) : (faultEntry k s).nbits = s.nbits := by simp [faultEntry]
@[simp] theorem faultEntry_shift (k : FaultKind) : (faultEntry k s).shift = s.shift := by simp [faultEntry]
@[simp] theorem faultEntry_nbitsIn (k : FaultKind) : (faultEntry k s).nbitsIn = s.nbitsIn := by simp [faultEntry]
@[simp] theorem faultEntry_cur (k : FaultKind) : (faultEntry k s).cur = s.cur := by simp [faultEntry]
@[simp] theorem faultEntry_remain (k : FaultKind) : (faultEntry k s).remain = s.remain := by simp [faultEntry]
@[simp] theorem faultEntry_ft (k : FaultKind) : (faultEntry k s).ft = [] := rfl
@[simp] theorem faultEntry_ns (k : FaultKind) : (faultEntry k s).ns = [] := rfl
@[simp] theorem faultEntry_hp (k : FaultKind) : (faultEntry k s).hp = [] := rfl
@[simp] theorem faultEntry_ct (k : FaultKind) : (faultEntry k s).ct = [] := rfl
@[simp] theorem faultEntry_env (k : FaultKind) : (faultEntry k s).env = (closePorts s).env := rfl

/-! ### resetCore -/

@[simp] theorem resetCore_ctrl : (resetCore s).ctrl = .idle := rfl
@[simp] theorem resetCore_fault : (resetCore s).fault = 0#4 := rfl
@[simp] theorem resetCore_ftv : (resetCore s).ftv = false := rfl
@[simp] theorem resetCore_trv : (resetCore s).trv = false := rfl
@[simp] theorem resetCore_ctv : (resetCore s).ctv = false := rfl
@[simp] theorem resetCore_distinct : (resetCore s).distinct = 0#17 := rfl
@[simp] theorem resetCore_total : (resetCore s).total = 0#48 := rfl
@[simp] theorem resetCore_bytesIn : (resetCore s).bytesIn = 0#64 := rfl
@[simp] theorem resetCore_bytesOut : (resetCore s).bytesOut = 0#64 := rfl
@[simp] theorem resetCore_nnodes : (resetCore s).nnodes = 0#17 := rfl
@[simp] theorem resetCore_hsize : (resetCore s).hsize = 0#17 := rfl
@[simp] theorem resetCore_root : (resetCore s).root = Config.nil := rfl
@[simp] theorem resetCore_ft : (resetCore s).ft = [] := rfl
@[simp] theorem resetCore_ns : (resetCore s).ns = [] := rfl
@[simp] theorem resetCore_hp : (resetCore s).hp = [] := rfl
@[simp] theorem resetCore_ct : (resetCore s).ct = [] := rfl
@[simp] theorem resetCore_env :
    (resetCore s).env = { s.env with ssrc := s.env.ssrc.stop, bsrc := s.env.bsrc.stop,
                                     bsnk := s.env.bsnk.abort, ssnk := s.env.ssnk.abort } := rfl

end Sys2Proof.Machine
end

