-- ==== Sys2Proof/Laws/Ports.lean ====
section
/-!
SUPPORT. What the port operations answer, fault entry, and how pieces of pseudocode are put together.
-/

namespace Sys2Proof.Machine

variable {α β : Type}

/-! ### Putting pieces together -/

@[simp] theorem Run.ok_bind (a : α) (f : α → Run β) : ((Except.ok a : Run α) >>= f) = f a := rfl

@[simp] theorem Run.error_bind (e : Exit) (f : α → Run β) :
    ((Except.error e : Run α) >>= f) = .error e := rfl

/-- A bind that finishes: both parts finish. -/
theorem Run.bind_eq_ok {m : Run α} {f : α → Run β} {b : β} :
    (m >>= f) = .ok b ↔ ∃ a, m = .ok a ∧ f a = .ok b := by
  cases m <;> simp

/-- A bind that ends early: the first part does, or it finishes and the second does. -/
theorem Run.bind_eq_error {m : Run α} {f : α → Run β} {e : Exit} :
    (m >>= f) = .error e ↔ m = .error e ∨ ∃ a, m = .ok a ∧ f a = .error e := by
  cases m <;> simp

@[simp] theorem require_true (s : State) : require true s = .ok () := rfl

@[simp] theorem require_false (s : State) : require false s = .error (.raised .sequenceError s) := rfl

@[simp] theorem conclude_ok (o : CmdOutcome) (s : State) :
    conclude (.ok (o, s)) = .next (finish o s) := rfl

@[simp] theorem conclude_raised (k : FaultKind) (s : State) :
    conclude (.error (.raised k s)) = .next (recordOutcome (.fault k) (faultEntry k s)) := rfl

@[simp] theorem conclude_fault (r : Fault) : conclude (.error (.fault r)) = .fault r := rfl

@[simp] theorem conclude_refused (r : Refusal) : conclude (.error (.refused r)) = .refused r := rfl

theorem runCommand_idle {body : State → Run (CmdOutcome × State)} {s : State} (h : s.ctrl = .idle) :
    runCommand body s = conclude (body { s with ctrl := .busy }) := by
  simp [runCommand, h]

theorem runCommand_of_ne_idle {body : State → Run (CmdOutcome × State)} {s : State}
    (h : s.ctrl ≠ .idle) : runCommand body s = .next s := by
  unfold runCommand
  split <;> simp_all

/-! ### Sources -/

theorem SrcPort.take_cons {p : SrcPort α} {v : α} {vs : List α} {t : Terminator}
    (h : p.cur = some ⟨v :: vs, t⟩) : p.take = some (.item v, { p with cur := some ⟨vs, t⟩ }) := by
  simp [SrcPort.take, h]

theorem SrcPort.take_eos {p : SrcPort α} (h : p.cur = some ⟨[], .eos⟩) : p.take = some (.eos, p) := by
  simp [SrcPort.take, h]

theorem SrcPort.take_err {p : SrcPort α} (h : p.cur = some ⟨[], .err⟩) : p.take = some (.err, p) := by
  simp [SrcPort.take, h]

theorem srcSym_cons {s : State} {v : Sym} {vs : List Sym} {t : Terminator}
    (h : s.env.ssrc.cur = some ⟨v :: vs, t⟩) :
    srcSym s = .ok (.item v, { s with env := { s.env with
      ssrc := { s.env.ssrc with cur := some ⟨vs, t⟩ },
      trace := s.env.trace ++ [.tookSym (.item v)] } }) := by
  simp [srcSym, SrcPort.take_cons h, note]

theorem srcSym_eos {s : State} (h : s.env.ssrc.cur = some ⟨[], .eos⟩) :
    srcSym s = .ok (.eos, { s with env := { s.env with
      trace := s.env.trace ++ [.tookSym .eos] } }) := by
  simp [srcSym, SrcPort.take_eos h, note]

theorem srcSym_err {s : State} (h : s.env.ssrc.cur = some ⟨[], .err⟩) :
    srcSym s = .ok (.err, { s with env := { s.env with
      trace := s.env.trace ++ [.tookSym .err] } }) := by
  simp [srcSym, SrcPort.take_err h, note]

theorem srcByte_cons {s : State} {v : Byte} {vs : List Byte} {t : Terminator}
    (h : s.env.bsrc.cur = some ⟨v :: vs, t⟩) :
    srcByte s = .ok (.item v, { s with env := { s.env with
      bsrc := { s.env.bsrc with cur := some ⟨vs, t⟩ },
      trace := s.env.trace ++ [.tookByte (.item v)] } }) := by
  simp [srcByte, SrcPort.take_cons h, note]

theorem srcByte_eos {s : State} (h : s.env.bsrc.cur = some ⟨[], .eos⟩) :
    srcByte s = .ok (.eos, { s with env := { s.env with
      trace := s.env.trace ++ [.tookByte .eos] } }) := by
  simp [srcByte, SrcPort.take_eos h, note]

theorem srcByte_err {s : State} (h : s.env.bsrc.cur = some ⟨[], .err⟩) :
    srcByte s = .ok (.err, { s with env := { s.env with
      trace := s.env.trace ++ [.tookByte .err] } }) := by
  simp [srcByte, SrcPort.take_err h, note]

/-! ### Sinks -/

theorem sinkByte_ok {s : State} {b : Byte} {items : List Byte}
    (h : s.env.bsnk.cur = some ⟨items, none⟩) :
    sinkByte b s = .ok (.ok, { s with env := { s.env with
      bsnk := { s.env.bsnk with cur := some ⟨items ++ [b], none⟩ },
      trace := s.env.trace ++ [.offeredByte b .ok] } }) := by
  simp [sinkByte, SnkPort.offer, h, note]

theorem sinkByte_room {s : State} {b : Byte} {items : List Byte} {k : Nat}
    (h : s.env.bsnk.cur = some ⟨items, some (k + 1)⟩) :
    sinkByte b s = .ok (.ok, { s with env := { s.env with
      bsnk := { s.env.bsnk with cur := some ⟨items ++ [b], some k⟩ },
      trace := s.env.trace ++ [.offeredByte b .ok] } }) := by
  simp [sinkByte, SnkPort.offer, h, note]

theorem sinkByte_err {s : State} {b : Byte} {items : List Byte}
    (h : s.env.bsnk.cur = some ⟨items, some 0⟩) :
    sinkByte b s = .ok (.err, { s with env := { s.env with
      trace := s.env.trace ++ [.offeredByte b .err] } }) := by
  simp [sinkByte, SnkPort.offer, h, note]

theorem sinkSym_ok {s : State} {v : Sym} {items : List Sym}
    (h : s.env.ssnk.cur = some ⟨items, none⟩) :
    sinkSym v s = .ok (.ok, { s with env := { s.env with
      ssnk := { s.env.ssnk with cur := some ⟨items ++ [v], none⟩ },
      trace := s.env.trace ++ [.offeredSym v .ok] } }) := by
  simp [sinkSym, SnkPort.offer, h, note]

theorem sinkSym_room {s : State} {v : Sym} {items : List Sym} {k : Nat}
    (h : s.env.ssnk.cur = some ⟨items, some (k + 1)⟩) :
    sinkSym v s = .ok (.ok, { s with env := { s.env with
      ssnk := { s.env.ssnk with cur := some ⟨items ++ [v], some k⟩ },
      trace := s.env.trace ++ [.offeredSym v .ok] } }) := by
  simp [sinkSym, SnkPort.offer, h, note]

theorem sinkSym_err {s : State} {v : Sym} {items : List Sym}
    (h : s.env.ssnk.cur = some ⟨items, some 0⟩) :
    sinkSym v s = .ok (.err, { s with env := { s.env with
      trace := s.env.trace ++ [.offeredSym v .err] } }) := by
  simp [sinkSym, SnkPort.offer, h, note]

/-! ### Fault entry -/

/-- Fault entry closes every port. -/
theorem closePorts_closed (s : State) : PortsClosed (closePorts s) := by
  unfold closePorts closeSsnk closeBsnk closeBsrc closeSsrc
  split_ifs <;> simp_all [PortsClosed, SrcPort.stop, SnkPort.abort]

/-- Closing ports when none is open does nothing. -/
theorem closePorts_of_closed {s : State} (h : PortsClosed s) : closePorts s = s := by
  obtain ⟨h1, h2, h3, h4⟩ := h
  simp [closePorts, closeSsnk, closeBsnk, closeBsrc, closeSsrc, h1, h2, h3, h4]

/-- Closing ports adds only closing brackets to the host's side: no output is added. -/
theorem closePorts_outputs (s : State) :
    (closePorts s).env.bsnk.outputs = s.env.bsnk.outputs ∧
    (closePorts s).env.ssnk.outputs = s.env.ssnk.outputs := by
  unfold closePorts closeSsnk closeBsnk closeBsrc closeSsrc
  split_ifs <;> simp [SnkPort.abort]

theorem closePorts_rest (s : State) :
    (closePorts s).env.inbox = s.env.inbox ∧ (closePorts s).env.outcomes = s.env.outcomes ∧
    (closePorts s).env.csrReads = s.env.csrReads ∧ (closePorts s).env.draws = s.env.draws ∧
    (closePorts s).env.ssrc.passes = s.env.ssrc.passes ∧
    (closePorts s).env.bsrc.passes = s.env.bsrc.passes ∧
    (closePorts s).env.bsnk.scripts = s.env.bsnk.scripts ∧
    (closePorts s).env.ssnk.scripts = s.env.ssnk.scripts := by
  unfold closePorts closeSsnk closeBsnk closeBsrc closeSsrc
  split_ifs <;> simp [SrcPort.stop, SnkPort.abort]

/-- What fault entry leaves (spec/60_exceptions.md rule R240). -/
theorem faultEntry_faultedWith (k : FaultKind) (s : State) : FaultedWith k (faultEntry k s) := by
  refine ⟨rfl, rfl, ?_, ?_⟩
  · simp [TablesClear]
  · simpa [PortsClosed] using closePorts_closed s

end Sys2Proof.Machine
end

