-- ==== Sys2Proof/Laws/Store.lean ====
section
/-!
SUPPORT. What the operations on a memory do: read after write, and the canonical form kept.
-/

namespace Sys2Proof.Machine

variable {α : Type}

@[simp] theorem Store.get?_nil (a : Nat) : Store.get? ([] : Store α) a = none := rfl

theorem Store.get?_cons (b : Nat) (w : α) (m : Store α) (a : Nat) :
    Store.get? ((b, w) :: m) a = if a = b then some w else Store.get? m a := rfl

theorem Store.get?_put_same (m : Store α) (a : Nat) (v : α) : (m.put a v).get? a = some v := by
  induction m with
  | nil => simp [Store.put, get?_cons]
  | cons p m ih =>
    obtain ⟨b, w⟩ := p
    unfold Store.put
    split
    · simp [get?_cons]
    · split
      · simp [get?_cons]
      · rename_i h
        simp [get?_cons, h, ih]

theorem Store.get?_put_ne (m : Store α) (a b : Nat) (v : α) (h : b ≠ a) :
    (m.put a v).get? b = m.get? b := by
  induction m with
  | nil => simp [Store.put, get?_cons, h]
  | cons p m ih =>
    obtain ⟨c, w⟩ := p
    unfold Store.put
    split
    · simp [get?_cons, h]
    · split
      · rename_i h2
        subst h2
        simp [get?_cons, h]
      · simp [get?_cons, ih]

theorem Store.get?_put (m : Store α) (a b : Nat) (v : α) :
    (m.put a v).get? b = if b = a then some v else m.get? b := by
  split
  · rename_i h; subst h; exact get?_put_same m b v
  · exact get?_put_ne m a b v ‹_›

theorem Store.mem_put {m : Store α} {a : Nat} {v : α} {p : Nat × α} (h : p ∈ m.put a v) :
    p = (a, v) ∨ p ∈ m := by
  induction m with
  | nil => simpa [Store.put] using h
  | cons q m ih =>
    obtain ⟨b, w⟩ := q
    unfold Store.put at h
    split at h
    · simpa using h
    · split at h
      · simp at h; rcases h with h | h <;> simp [h]
      · simp at h
        rcases h with h | h
        · simp [h]
        · rcases ih h with h | h <;> simp [h]

theorem Store.sorted_put {m : Store α} (h : m.Sorted) (a : Nat) (v : α) : (m.put a v).Sorted := by
  induction m with
  | nil => simp [Store.put]
  | cons q m ih =>
    obtain ⟨b, w⟩ := q
    obtain ⟨hb, hm⟩ := List.pairwise_cons.1 h
    unfold Store.put
    split
    · rename_i hab
      refine List.pairwise_cons.2 ⟨?_, h⟩
      intro p hp
      rcases List.mem_cons.1 hp with rfl | hp
      · exact hab
      · exact lt_trans hab (hb p hp)
    · split
      · rename_i hab
        subst hab
        exact List.pairwise_cons.2 ⟨hb, hm⟩
      · refine List.pairwise_cons.2 ⟨?_, ih hm⟩
        intro p hp
        rcases mem_put hp with rfl | hp
        · show b < a
          omega
        · exact hb p hp

theorem Store.below_put {m : Store α} {n : Nat} (h : m.Below n) {a : Nat} (ha : a < n) (v : α) :
    (m.put a v).Below n := by
  intro p hp
  rcases mem_put hp with rfl | hp
  · exact ha
  · exact h p hp

theorem Store.below_mono {m : Store α} {n k : Nat} (h : m.Below n) (hk : n ≤ k) : m.Below k :=
  fun p hp => lt_of_lt_of_le (h p hp) hk

theorem Store.get?_eq_none_of_lt {m : Store α} {a : Nat} (h : ∀ p ∈ m, a < p.1) : m.get? a = none := by
  induction m with
  | nil => rfl
  | cons q m ih =>
    obtain ⟨b, w⟩ := q
    have hb : a < b := h (b, w) (by simp)
    rw [get?_cons, if_neg (by omega)]
    exact ih fun p hp => h p (by simp [hp])

theorem Store.get?_some_mem {m : Store α} {a : Nat} {v : α} (h : m.get? a = some v) : (a, v) ∈ m := by
  induction m with
  | nil => simp at h
  | cons q m ih =>
    obtain ⟨b, w⟩ := q
    rw [get?_cons] at h
    split at h
    · simp_all
    · simp [ih h]

theorem Store.get?_of_mem {m : Store α} (hs : m.Sorted) {a : Nat} {v : α} (h : (a, v) ∈ m) :
    m.get? a = some v := by
  induction m with
  | nil => simp at h
  | cons q m ih =>
    obtain ⟨b, w⟩ := q
    obtain ⟨hb, hm⟩ := List.pairwise_cons.1 hs
    rw [get?_cons]
    rcases List.mem_cons.1 h with h | h
    · simp_all
    · have := hb _ h
      rw [if_neg (by simp at this; omega)]
      exact ih hm h

theorem Store.get?_eq_some_iff {m : Store α} (hs : m.Sorted) {a : Nat} {v : α} :
    m.get? a = some v ↔ (a, v) ∈ m := ⟨get?_some_mem, get?_of_mem hs⟩

theorem Store.below_of_get? {m : Store α} {n : Nat} (h : m.Below n) {a : Nat} {v : α}
    (hg : m.get? a = some v) : a < n := h _ (get?_some_mem hg)

theorem Store.get?_del_same {m : Store α} (h : m.Sorted) (a : Nat) : (m.del a).get? a = none := by
  induction m with
  | nil => rfl
  | cons q m ih =>
    obtain ⟨b, w⟩ := q
    obtain ⟨hb, hm⟩ := List.pairwise_cons.1 h
    unfold Store.del
    split
    · rename_i hab
      subst hab
      exact get?_eq_none_of_lt hb
    · rw [get?_cons, if_neg ‹_›]
      exact ih hm

theorem Store.get?_del_ne (m : Store α) (a b : Nat) (h : b ≠ a) : (m.del a).get? b = m.get? b := by
  induction m with
  | nil => rfl
  | cons q m ih =>
    obtain ⟨c, w⟩ := q
    unfold Store.del
    split
    · rename_i hac
      subst hac
      rw [get?_cons, if_neg h]
    · rw [get?_cons, get?_cons, ih]

theorem Store.mem_del {m : Store α} {a : Nat} {p : Nat × α} (h : p ∈ m.del a) : p ∈ m := by
  induction m with
  | nil => simp [Store.del] at h
  | cons q m ih =>
    obtain ⟨b, w⟩ := q
    unfold Store.del at h
    split at h
    · simp [h]
    · rcases List.mem_cons.1 h with h | h
      · simp [h]
      · simp [ih h]

theorem Store.sorted_del {m : Store α} (h : m.Sorted) (a : Nat) : (m.del a).Sorted := by
  induction m with
  | nil => simp [Store.del]
  | cons q m ih =>
    obtain ⟨b, w⟩ := q
    obtain ⟨hb, hm⟩ := List.pairwise_cons.1 h
    unfold Store.del
    split
    · exact hm
    · exact List.pairwise_cons.2 ⟨fun p hp => hb p (mem_del hp), ih hm⟩

theorem Store.below_del {m : Store α} {n : Nat} (h : m.Below n) (a : Nat) : (m.del a).Below n :=
  fun p hp => h p (mem_del hp)

/-- Two memories in canonical form that read alike are equal. -/
theorem Store.ext {m m' : Store α} (h : m.Sorted) (h' : m'.Sorted) (hg : ∀ a, m.get? a = m'.get? a) :
    m = m' := by
  induction m generalizing m' with
  | nil =>
    cases m' with
    | nil => rfl
    | cons q m' => have := hg q.1; obtain ⟨b, w⟩ := q; simp [get?_cons] at this
  | cons p m ih =>
    obtain ⟨a, v⟩ := p
    cases m' with
    | nil => have := hg a; simp [get?_cons] at this
    | cons q m' =>
      obtain ⟨b, w⟩ := q
      obtain ⟨hp, hm⟩ := List.pairwise_cons.1 h
      obtain ⟨hq, hm'⟩ := List.pairwise_cons.1 h'
      have hab : a = b := by
        rcases lt_trichotomy a b with hlt | heq | hlt
        · have := hg a
          rw [get?_cons, if_pos rfl, get?_cons, if_neg (by omega),
            get?_eq_none_of_lt fun p hp => lt_trans hlt (hq p hp)] at this
          simp at this
        · exact heq
        · have := hg b
          rw [get?_cons, if_neg (by omega), get?_cons, if_pos rfl,
            get?_eq_none_of_lt fun p hp' => lt_trans hlt (hp p hp')] at this
          simp at this
      subst hab
      have hvw : v = w := by simpa [get?_cons] using hg a
      subst hvw
      congr 1
      refine ih hm hm' fun c => ?_
      by_cases hc : c = a
      · subst hc
        rw [get?_eq_none_of_lt hp, get?_eq_none_of_lt hq]
      · simpa [get?_cons, hc] using hg c

/-- Writing above every listed index appends. -/
theorem Store.put_eq_append {m : Store α} {n : Nat} (h : m.Below n) (v : α) : m.put n v = m ++ [(n, v)] := by
  induction m with
  | nil => rfl
  | cons q m ih =>
    obtain ⟨b, w⟩ := q
    have hb : b < n := h (b, w) (by simp)
    unfold Store.put
    rw [if_neg (by omega), if_neg (by omega), ih fun p hp => h p (by simp [hp])]
    rfl

theorem Store.length_put (m : Store α) (hs : m.Sorted) (a : Nat) (v : α) :
    (m.put a v).length = if (m.get? a).isSome then m.length else m.length + 1 := by
  induction m with
  | nil => simp [Store.put]
  | cons q m ih =>
    obtain ⟨b, w⟩ := q
    obtain ⟨hb, hm⟩ := List.pairwise_cons.1 hs
    unfold Store.put
    split
    · rename_i hab
      have h0 : Store.get? ((b, w) :: m) a = none := by
        rw [get?_cons, if_neg (Nat.ne_of_lt hab)]
        exact get?_eq_none_of_lt fun p hp => lt_trans hab (hb p hp)
      simp [h0]
    · split
      · rename_i hab
        simp [get?_cons, hab]
      · rename_i hab
        rw [get?_cons, if_neg hab]
        simp only [List.length_cons, ih hm]
        split <;> rfl

/-- A memory with indexes below `n` lists at most `n` entries. -/
theorem Store.length_le {m : Store α} (hs : m.Sorted) {n : Nat} (hb : m.Below n) : m.length ≤ n := by
  have h1 : (m.map Prod.fst).Nodup :=
    (List.pairwise_map.2 (hs.imp fun h => Nat.ne_of_lt h))
  have h2 : (m.map Prod.fst) ⊆ List.range n := by
    intro a ha
    obtain ⟨p, hp, rfl⟩ := List.mem_map.1 ha
    exact List.mem_range.2 (hb p hp)
  have := (h1.subperm h2).length_le
  simpa using this

end Sys2Proof.Machine
end

