-- ==== Sys2Proof/Laws/Count.lean ====
section
/-!
SUPPORT. What one counted symbol and one counted pass do (spec/40_frequency_counter.md).
-/

namespace Sys2Proof.Machine

/-! ### Reading and writing a table -/

theorem ftWf.get?_ne_zero {m : Store Count} (h : ftWf m) {a : Nat} {c : Count}
    (hg : m.get? a = some c) : c ≠ 0#32 := h.2.2 _ (Store.get?_some_mem hg)

theorem ftWf_put {m : Store Count} (h : ftWf m) {a : Nat} (ha : a < Config.alphabet) {c : Count}
    (hc : c ≠ 0#32) : ftWf (m.put a c) := by
  refine ⟨Store.sorted_put h.1 a c, Store.below_put h.2.1 ha c, ?_⟩
  intro p hp
  rcases Store.mem_put hp with rfl | hp
  · exact hc
  · exact h.2.2 p hp

/-- A count of a canonical table is 0 exactly when the symbol is not listed. -/
theorem getD_eq_zero_iff {m : Store Count} (h : ftWf m) (a : Nat) :
    (m.get? a).getD 0#32 = 0#32 ↔ m.get? a = none := by
  cases hg : m.get? a with
  | none => simp
  | some c => simpa using h.get?_ne_zero hg

theorem ftWf_length_le {m : Store Count} (h : ftWf m) : m.length ≤ Config.alphabet :=
  Store.length_le h.1 h.2.1

theorem countSum_cons (p : Nat × Count) (m : Store Count) :
    countSum (p :: m) = p.2.toNat + countSum m := by simp [countSum]

theorem countSum_append (m m' : Store Count) : countSum (m ++ m') = countSum m + countSum m' := by
  simp [countSum]

theorem countSum_le (m : Store Count) : countSum m ≤ m.length * 4294967295 := by
  induction m with
  | nil => simp [countSum]
  | cons p m ih =>
    have := p.2.isLt
    rw [countSum_cons, List.length_cons]
    omega

/-- The sum of a canonical table's counts fits 48 bits (spec/00_scope.md rule R12). -/
theorem countSum_lt {m : Store Count} (h : ftWf m) : countSum m < 2 ^ 48 := by
  have h1 := countSum_le m
  have h2 := ftWf_length_le h
  have : m.length * 4294967295 ≤ 65536 * 4294967295 := Nat.mul_le_mul_right _ h2
  omega

theorem countSum_put {m : Store Count} (h : m.Sorted) (a : Nat) (c : Count) :
    countSum (m.put a c) + ((m.get? a).getD 0#32).toNat = countSum m + c.toNat := by
  induction m with
  | nil => simp [Store.put, countSum]
  | cons p m ih =>
    obtain ⟨b, w⟩ := p
    obtain ⟨hb, hm⟩ := List.pairwise_cons.1 h
    unfold Store.put
    split
    · rename_i hab
      rw [show Store.get? ((b, w) :: m) a = none by
        rw [Store.get?_cons, if_neg (Nat.ne_of_lt hab)]
        exact Store.get?_eq_none_of_lt fun p hp => lt_trans hab (hb p hp)]
      rw [countSum_cons]
      simp
      omega
    · split
      · rename_i hab
        rw [Store.get?_cons, if_pos hab, countSum_cons, countSum_cons]
        simp
        omega
      · rename_i hab
        rw [Store.get?_cons, if_neg hab, countSum_cons, countSum_cons]
        have := ih hm
        simp only
        omega

/-- A count as a 48-bit frequency. -/
theorem setWidth48_toNat (c : Count) : (c.setWidth 48).toNat = c.toNat := by
  have := c.isLt
  simp only [BitVec.toNat_setWidth]
  omega

/-! ### `count_step` -/

/-- The table after one more occurrence of `v`. -/
def addOne (v : Sym) (m : Store Count) : Store Count :=
  m.put v.toNat ((m.get? v.toNat).getD 0#32 + 1#32)

theorem add_one_ne_zero {c : Count} (h : c ≠ Config.countMax) : c + 1#32 ≠ 0#32 := by
  intro h0
  apply h
  have : c = 0#32 - 1#32 := by rw [← h0]; simp
  simpa using this

/-- `count_step(v)` below the limit (rules R121, R122). -/
theorem countStep_ok {v : Sym} {s : State} (h : ftRead v s ≠ Config.countMax) :
    countStep v s = .ok { s with
      ft := addOne v s.ft,
      distinct := if ftRead v s = 0#32 then s.distinct + 1#17 else s.distinct,
      total := s.total + 1#48 } := by
  have h1 := add_one_ne_zero h
  unfold countStep
  rw [if_neg h]
  by_cases h0 : ftRead v s = 0#32
  · simp_all [ftWrite, ftRead, addOne]
  · simp_all [ftWrite, ftRead, addOne]

/-- `count_step(v)` at the limit changes nothing (rule R123). -/
theorem countStep_max {v : Sym} {s : State} (h : ftRead v s = Config.countMax) :
    countStep v s = .error (.raised .capacityError s) := by
  simp [countStep, h]

theorem toNat_add_one {c : Count} (h : c ≠ Config.countMax) : (c + 1#32).toNat = c.toNat + 1 := by
  have h1 : c.toNat ≠ 4294967295 := by
    intro h0
    apply h
    apply BitVec.eq_of_toNat_eq
    simpa using h0
  have := c.isLt
  simp [BitVec.toNat_add]
  omega

theorem addOne_wf {v : Sym} {m : Store Count} (hm : ftWf m)
    (h : (m.get? v.toNat).getD 0#32 ≠ Config.countMax) : ftWf (addOne v m) :=
  ftWf_put hm v.isLt (add_one_ne_zero h)

theorem addOne_read {v : Sym} {m : Store Count} (h : (m.get? v.toNat).getD 0#32 ≠ Config.countMax)
    (w : Sym) : (((addOne v m).get? w.toNat).getD 0#32).toNat =
      ((m.get? w.toNat).getD 0#32).toNat + if v = w then 1 else 0 := by
  unfold addOne
  rw [Store.get?_put]
  by_cases hw : v = w
  · subst hw
    simp [toNat_add_one h]
  · have : w.toNat ≠ v.toNat := fun h => hw (BitVec.eq_of_toNat_eq h.symm)
    simp [this, hw]

/-- `count_step` keeps rule R35: `DISTINCT` the number of present symbols, `TOTAL` the sum. -/
theorem addOne_table {v : Sym} {m : Store Count} (hm : ftWf m)
    (h : (m.get? v.toNat).getD 0#32 ≠ Config.countMax) {d : BitVec 17} {t : Freq}
    (hd : d.toNat = m.length) (ht : t.toNat = countSum m) :
    (if (m.get? v.toNat).getD 0#32 = 0#32 then d + 1#17 else d).toNat = (addOne v m).length ∧
    (t + 1#48).toNat = countSum (addOne v m) := by
  have hwf := addOne_wf hm h
  constructor
  · have hl : (addOne v m).length ≤ 65536 := ftWf_length_le hwf
    have hlen := Store.length_put m hm.1 v.toNat ((m.get? v.toNat).getD 0#32 + 1#32)
    have hz := getD_eq_zero_iff hm v.toNat
    unfold addOne at hl ⊢
    rw [hlen] at hl ⊢
    by_cases hg : m.get? v.toNat = none
    · rw [if_pos (hz.2 hg), if_neg (by simp [hg]), BitVec.toNat_add, hd]
      rw [if_neg (by simp [hg])] at hl
      simp only [BitVec.toNat_ofNat]
      omega
    · rw [if_neg (fun h => hg (hz.1 h)), if_pos (by simpa [Option.isSome_iff_ne_none] using hg), hd]
  · have h1 := countSum_put hm.1 v.toNat ((m.get? v.toNat).getD 0#32 + 1#32)
    rw [toNat_add_one h] at h1
    have h2 := countSum_lt hwf
    have h3 : countSum (addOne v m) = countSum m + 1 := by unfold addOne; omega
    rw [h3] at h2 ⊢
    rw [BitVec.toNat_add, ht]
    simp only [BitVec.toNat_ofNat]
    omega

/-! ### The loop -/

/-- The table after the symbols of a pass. -/
def addAll (vs : List Sym) (m : Store Count) : Store Count := vs.foldl (fun m v => addOne v m) m

/-- No symbol of the pass passes the limit of rule R123. -/
abbrev Fits (m : Store Count) (vs : List Sym) : Prop :=
  ∀ v, ((m.get? v.toNat).getD 0#32).toNat + vs.count v ≤ 4294967295

theorem Fits.head_ne {m : Store Count} {v : Sym} {vs : List Sym} (h : Fits m (v :: vs)) :
    (m.get? v.toNat).getD 0#32 ≠ Config.countMax := by
  intro h0
  have := h v
  rw [h0] at this
  simp at this

theorem Fits.tail {m : Store Count} {v : Sym} {vs : List Sym} (h : Fits m (v :: vs)) :
    Fits (addOne v m) vs := by
  intro w
  have := h w
  rw [addOne_read h.head_ne]
  rw [List.count_cons] at this
  by_cases hw : v = w <;> (simp_all; try omega)

theorem addAll_wf {vs : List Sym} {m : Store Count} (hm : ftWf m) (h : Fits m vs) :
    ftWf (addAll vs m) := by
  induction vs generalizing m with
  | nil => exact hm
  | cons v vs ih => exact ih (addOne_wf hm h.head_ne) h.tail

theorem addAll_read {vs : List Sym} {m : Store Count} (h : Fits m vs) (w : Sym) :
    (((addAll vs m).get? w.toNat).getD 0#32).toNat =
      ((m.get? w.toNat).getD 0#32).toNat + vs.count w := by
  induction vs generalizing m with
  | nil => simp [addAll]
  | cons v vs ih =>
    show (((addAll vs (addOne v m)).get? w.toNat).getD 0#32).toNat = _
    rw [ih h.tail, addOne_read h.head_ne, List.count_cons]
    by_cases hw : v = w <;> (simp_all; try omega)

/-- The events of a pass that was taken whole. -/
def symEvents (vs : List Sym) : List PortEvent := vs.map fun v => .tookSym (.item v)

/-- The loop of COUNT over a pass that ends in `End` (rules R120, R124). -/
theorem countLoop_eos (vs : List Sym) : ∀ (s : State) (n : Nat), vs.length < n →
    s.env.ssrc.cur = some ⟨vs, .eos⟩ → ftWf s.ft → Fits s.ft vs →
    ∃ d t, countLoop n s = .ok { s with
        ft := addAll vs s.ft, distinct := d, total := t,
        env := { s.env with ssrc := { s.env.ssrc with cur := some ⟨[], .eos⟩ },
                            trace := s.env.trace ++ symEvents vs ++ [.tookSym .eos] } } ∧
      (TableOk s → d.toNat = (addAll vs s.ft).length ∧ t.toNat = countSum (addAll vs s.ft)) := by
  induction vs with
  | nil =>
    intro s n hn hc hm hf
    obtain ⟨n, rfl⟩ : ∃ k, n = k + 1 := ⟨n - 1, by simp at hn; omega⟩
    refine ⟨s.distinct, s.total, ?_, fun h => h⟩
    rw [countLoop, srcSym_eos hc]
    simp [addAll, symEvents, ← hc]
  | cons v vs ih =>
    intro s n hn hc hm hf
    obtain ⟨n, rfl⟩ : ∃ k, n = k + 1 := ⟨n - 1, by simp at hn; omega⟩
    have hne : ftRead v { s with env := { s.env with
          ssrc := { s.env.ssrc with cur := some ⟨vs, .eos⟩ },
          trace := s.env.trace ++ [.tookSym (.item v)] } } ≠ Config.countMax := hf.head_ne
    obtain ⟨d, t, h1, h2⟩ := ih { s with
        env := { s.env with ssrc := { s.env.ssrc with cur := some ⟨vs, .eos⟩ },
                            trace := s.env.trace ++ [.tookSym (.item v)] },
        ft := addOne v s.ft,
        distinct := if ftRead v s = 0#32 then s.distinct + 1#17 else s.distinct,
        total := s.total + 1#48 } n (by simp at hn; omega) rfl (addOne_wf hm hf.head_ne) hf.tail
    refine ⟨d, t, ?_, fun ht => h2 (addOne_table hm hf.head_ne ht.1 ht.2)⟩
    rw [countLoop, srcSym_cons hc]
    simp only [Run.ok_bind]
    rw [countStep_ok hne]
    simp only [Run.ok_bind]
    refine h1.trans ?_
    simp [symEvents, addAll, List.append_assoc]

end Sys2Proof.Machine
end

