-- ==== Sys2Proof/Laws/Heap.lean ====
section
/-!
SUPPORT. What the priority queue does (spec/41_priority_queue.md): `pq_insert` adds one node,
`pq_extract_min` takes out the least, both keep the heap, and neither touches anything but `HP` and
`HSIZE`. The array is read as a function from positions to nodes.
-/

namespace Sys2Proof.Machine

/-! ### The order on nodes -/

/-- A node in use, with a value. -/
abbrev Listed (s : State) (n : NodeIx) : Prop :=
  n.toNat < s.nnodes.toNat ∧ (s.ns.get? n.toNat).isSome

theorem Listed.nsRead {s : State} {n : NodeIx} (h : Listed s n) :
    ∃ d, s.ns.get? n.toNat = some d ∧ nsRead n s = .ok d := by
  obtain ⟨d, hd⟩ := Option.isSome_iff_exists.1 h.2
  exact ⟨d, hd, by simp [Machine.nsRead, h.1, hd]⟩

theorem less_eq {s : State} {a b : NodeIx} (ha : Listed s a) (hb : Listed s b) :
    less a b s = .ok (nodeLess s a b) := by
  obtain ⟨x, hx, hx'⟩ := ha.nsRead
  obtain ⟨y, hy, hy'⟩ := hb.nsRead
  simp [less, hx', hy', nodeLess, hx, hy]

theorem keyLess_iff {a b : NodeIx} {x y : Node} : keyLess a x b y = true ↔
    x.freq.toNat < y.freq.toNat ∨ (x.freq.toNat = y.freq.toNat ∧ a.toNat < b.toNat) := by
  simp [keyLess, BitVec.toNat_inj]

theorem keyLess_irrefl (a : NodeIx) (x : Node) : keyLess a x a x = false := by
  rw [Bool.eq_false_iff]
  intro h
  have := keyLess_iff.1 h
  omega

theorem nodeLess_irrefl (s : State) (a : NodeIx) : nodeLess s a a = false := by
  unfold nodeLess
  cases h : s.ns.get? a.toNat with
  | none => rfl
  | some x => exact keyLess_irrefl a x

theorem nodeLess_trans {s : State} {a b c : NodeIx} (h1 : nodeLess s a b = true)
    (h2 : nodeLess s b c = true) : nodeLess s a c = true := by
  unfold nodeLess at *
  cases ha : s.ns.get? a.toNat <;> cases hb : s.ns.get? b.toNat <;> cases hc : s.ns.get? c.toNat <;>
    simp_all only [keyLess_iff, Bool.false_eq_true]
  omega

theorem nodeLess_total {s : State} {a b : NodeIx} (ha : Listed s a) (hb : Listed s b) (hab : a ≠ b)
    (h : nodeLess s a b ≠ true) : nodeLess s b a = true := by
  obtain ⟨x, hx, -⟩ := ha.nsRead
  obtain ⟨y, hy, -⟩ := hb.nsRead
  have : a.toNat ≠ b.toNat := fun h => hab (BitVec.eq_of_toNat_eq h)
  simp only [nodeLess, hx, hy] at h ⊢
  rw [keyLess_iff]
  have h' := mt keyLess_iff.2 h
  omega

/-! ### The array -/

/-- The queue holds `n` nodes, `f i` at position `i`. -/
structure QueueIs (s : State) (f : Nat → NodeIx) (n : Nat) : Prop where
  size : s.hsize.toNat = n
  cap : n ≤ Config.heapCap
  sorted : s.hp.Sorted
  below : s.hp.Below n
  entry : ∀ i < n, s.hp.get? i = some (f i)

/-- The nodes of an array of `n` positions. -/
abbrev nodesOf (f : Nat → NodeIx) (n : Nat) : List NodeIx := (List.range n).map f

/-- All nodes of the array are different and in use. -/
structure NodesOk (s : State) (f : Nat → NodeIx) (n : Nat) : Prop where
  nodup : (nodesOf f n).Nodup
  listed : ∀ i < n, Listed s (f i)

/-- Every node is after its parent (rule R137). -/
def IsHeap (s : State) (f : Nat → NodeIx) (n : Nat) : Prop :=
  ∀ j < n, 1 ≤ j → nodeLess s (f ((j - 1) / 2)) (f j) = true

/-- The array with the entries at `i` and `j` exchanged. -/
def exch (f : Nat → NodeIx) (i j : Nat) : Nat → NodeIx :=
  fun k => if k = i then f j else if k = j then f i else f k

theorem NodesOk.inj {s : State} {f : Nat → NodeIx} {n i j : Nat} (h : NodesOk s f n) (hi : i < n)
    (hj : j < n) (hf : f i = f j) : i = j :=
  List.inj_on_of_nodup_map h.nodup (List.mem_range.2 hi) (List.mem_range.2 hj) hf

theorem QueueIs.hpRead {s : State} {f : Nat → NodeIx} {n i : Nat} (h : QueueIs s f n) (hi : i < n) :
    hpRead i s = .ok (f i) := by
  simp [Machine.hpRead, h.size, hi, h.entry i hi]

theorem exch_perm (f : Nat → NodeIx) {n i j : Nat} (hi : i < n) (hj : j < n) :
    (nodesOf (exch f i j) n).Perm (nodesOf f n) := by
  have h1 : nodesOf (exch f i j) n = ((List.range n).map (Equiv.swap i j)).map f := by
    rw [List.map_map]
    apply List.map_congr_left
    intro k _
    simp only [exch, Function.comp, Equiv.swap_apply_def]
    split_ifs <;> simp_all
  rw [h1]
  apply List.Perm.map
  rw [List.perm_ext_iff_of_nodup (List.nodup_range.map (Equiv.injective _)) List.nodup_range]
  intro a
  simp only [List.mem_map, List.mem_range]
  constructor
  · rintro ⟨b, hb, rfl⟩
    simp only [Equiv.swap_apply_def]
    split_ifs <;> omega
  · intro ha
    refine ⟨Equiv.swap i j a, ?_, by simp⟩
    simp only [Equiv.swap_apply_def]
    split_ifs <;> omega

theorem QueueIs.swap {s : State} {f : Nat → NodeIx} {n i j : Nat} (h : QueueIs s f n) (hi : i < n)
    (hj : j < n) : ∃ hp, hpSwap i j s = .ok { s with hp := hp } ∧
      QueueIs { s with hp := hp } (exch f i j) n := by
  have hcap : n ≤ 65536 := h.cap
  refine ⟨(s.hp.put i (f j)).put j (f i), ?_, ?_⟩
  · have h1 : i < Config.heapCap := lt_of_lt_of_le hi h.cap
    have h2 : j < Config.heapCap := lt_of_lt_of_le hj h.cap
    simp only [hpSwap, h.hpRead hi, h.hpRead hj, Run.ok_bind, hpWrite, if_pos h1, if_pos h2]
  · refine ⟨h.size, h.cap, Store.sorted_put (Store.sorted_put h.sorted _ _) _ _,
      Store.below_put (Store.below_put h.below hi _) hj _, ?_⟩
    intro k hk
    rw [Store.get?_put, Store.get?_put]
    simp only [exch]
    by_cases h1 : k = j
    · by_cases h2 : k = i
      · subst h1; subst h2; simp
      · simp [h1]
        intro h3
        simp_all
    · by_cases h2 : k = i
      · simp [h2]
        intro h3
        simp_all
      · simp [h1, h2, h.entry k hk]

theorem NodesOk.of_perm {s t : State} {f g : Nat → NodeIx} {n : Nat} (h : NodesOk s f n)
    (hp : (nodesOf g n).Perm (nodesOf f n)) (hn : t.nnodes = s.nnodes) (hs : t.ns = s.ns) :
    NodesOk t g n := by
  refine ⟨(List.Perm.nodup_iff hp).2 h.nodup, ?_⟩
  intro i hi
  have h1 : g i ∈ nodesOf f n := hp.subset (List.mem_map.2 ⟨i, List.mem_range.2 hi, rfl⟩)
  obtain ⟨k, hk, hk'⟩ := List.mem_map.1 h1
  have := h.listed k (List.mem_range.1 hk)
  rw [← hk']
  simpa [Listed, hn, hs] using this

theorem nodeLess_congr {s t : State} (h : t.ns = s.ns) (a b : NodeIx) :
    nodeLess t a b = nodeLess s a b := by simp [nodeLess, h]

theorem IsHeap.congr {s t : State} {f : Nat → NodeIx} {n : Nat} (h : t.ns = s.ns)
    (hh : IsHeap s f n) : IsHeap t f n := fun j hj h1 => by
  rw [nodeLess_congr h]; exact hh j hj h1

theorem QueueIs.lessAt {s : State} {f : Nat → NodeIx} {n i j : Nat} (h : QueueIs s f n)
    (hn : NodesOk s f n) (hi : i < n) (hj : j < n) :
    lessAt i j s = .ok (nodeLess s (f i) (f j)) := by
  simp [Machine.lessAt, h.hpRead hi, h.hpRead hj, less_eq (hn.listed i hi) (hn.listed j hj)]

/-! ### Sift-up -/

/-- A heap but for position `i`, which may be before its parent. -/
structure UpOk (s : State) (f : Nat → NodeIx) (n i : Nat) : Prop where
  other : ∀ j < n, 1 ≤ j → j ≠ i → nodeLess s (f ((j - 1) / 2)) (f j) = true
  grand : ∀ j < n, 1 ≤ j → (j - 1) / 2 = i → 1 ≤ i → nodeLess s (f ((i - 1) / 2)) (f j) = true

theorem UpOk.congr {s t : State} {f : Nat → NodeIx} {n i : Nat} (ht : t.ns = s.ns)
    (h : UpOk s f n i) : UpOk t f n i :=
  ⟨fun j hj h1 h2 => by rw [nodeLess_congr ht]; exact h.other j hj h1 h2,
   fun j hj h1 h2 h3 => by rw [nodeLess_congr ht]; exact h.grand j hj h1 h2 h3⟩

theorem UpOk.heap_zero {s : State} {f : Nat → NodeIx} {n : Nat} (h : UpOk s f n 0) : IsHeap s f n :=
  fun j hj h1 => h.other j hj h1 (by omega)

theorem UpOk.heap {s : State} {f : Nat → NodeIx} {n i : Nat} (h : UpOk s f n i)
    (hi : 1 ≤ i → nodeLess s (f ((i - 1) / 2)) (f i) = true) : IsHeap s f n := by
  intro j hj h1
  by_cases hji : j = i
  · subst hji; exact hi h1
  · exact h.other j hj h1 hji

theorem UpOk.exch {s : State} {f : Nat → NodeIx} {n i : Nat} (h : UpOk s f n i) (hi : i < n)
    (h1 : 1 ≤ i) (hl : nodeLess s (f i) (f ((i - 1) / 2)) = true) :
    UpOk s (exch f i ((i - 1) / 2)) n ((i - 1) / 2) := by
  have hp : (i - 1) / 2 < i := by omega
  constructor
  · intro j hj hj1 hjp
    simp only [Machine.exch]
    by_cases hji : j = i
    · subst hji
      rw [if_neg (by omega), if_pos rfl, if_pos rfl]
      exact hl
    · rw [if_neg hji, if_neg hjp]
      by_cases hpi : (j - 1) / 2 = i
      · rw [if_pos hpi]
        exact h.grand j hj hj1 hpi h1
      · rw [if_neg hpi]
        by_cases hpp : (j - 1) / 2 = (i - 1) / 2
        · rw [if_pos hpp]
          have := h.other j hj hj1 hji
          rw [hpp] at this
          exact nodeLess_trans hl this
        · rw [if_neg hpp]
          exact h.other j hj hj1 hji
  · intro j hj hj1 hjp hp1
    have hgp := h.other ((i - 1) / 2) (by omega) hp1 (by omega)
    simp only [Machine.exch]
    rw [if_neg (by omega : ((i - 1) / 2 - 1) / 2 ≠ i), if_neg (by omega : ((i - 1) / 2 - 1) / 2 ≠ (i - 1) / 2)]
    by_cases hji : j = i
    · rw [if_pos hji]
      exact hgp
    · rw [if_neg hji, if_neg (by omega)]
      have := h.other j hj hj1 hji
      rw [hjp] at this
      exact nodeLess_trans hgp this

/-- Sift-up ends with a heap of the same nodes (rule R133). -/
theorem siftUp_spec : ∀ (k i : Nat) (s : State) (f : Nat → NodeIx) (n : Nat), i ≤ k → i < n →
    QueueIs s f n → NodesOk s f n → UpOk s f n i →
    ∃ hp g, siftUp k i s = .ok { s with hp := hp } ∧ QueueIs { s with hp := hp } g n ∧
      (nodesOf g n).Perm (nodesOf f n) ∧ IsHeap s g n := by
  intro k
  induction k with
  | zero =>
    intro i s f n hik hin hq hn hu
    obtain rfl : i = 0 := by omega
    exact ⟨s.hp, f, rfl, hq, List.Perm.refl _, hu.heap_zero⟩
  | succ k ih =>
    intro i s f n hik hin hq hn hu
    unfold siftUp
    by_cases hi : i = 0
    · subst hi
      exact ⟨s.hp, f, by simp, hq, List.Perm.refl _, hu.heap_zero⟩
    · rw [if_neg hi, hq.lessAt hn hin (by omega)]
      simp only [Run.ok_bind]
      by_cases hl : nodeLess s (f i) (f ((i - 1) / 2)) = true
      · rw [if_pos hl]
        obtain ⟨hp, h1, h2⟩ := hq.swap hin (show (i - 1) / 2 < n by omega)
        have hperm := exch_perm f hin (show (i - 1) / 2 < n by omega)
        obtain ⟨hp', g, h3, h4, h5, h6⟩ := ih ((i - 1) / 2) { s with hp := hp } _ n (by omega) (by omega)
          h2 (hn.of_perm hperm rfl rfl) (UpOk.congr (s := s) rfl (hu.exch hin (by omega) hl))
        refine ⟨hp', g, ?_, h4, h5.trans hperm, IsHeap.congr (s := { s with hp := hp }) rfl h6⟩
        rw [h1]
        exact h3
      · rw [if_neg hl]
        refine ⟨s.hp, f, rfl, hq, List.Perm.refl _, hu.heap fun h1 => ?_⟩
        refine nodeLess_total (hn.listed i hin) (hn.listed _ (by omega)) ?_ hl
        intro h
        have := hn.inj hin (by omega) h
        omega

/-! ### `pq_insert` -/

theorem nodesOf_succ (f : Nat → NodeIx) (n : Nat) : nodesOf f (n + 1) = nodesOf f n ++ [f n] := by
  simp [nodesOf, List.range_succ]

theorem nodesOf_congr {f g : Nat → NodeIx} {n : Nat} (h : ∀ i < n, f i = g i) :
    nodesOf f n = nodesOf g n := by
  apply List.map_congr_left
  intro i hi
  exact h i (List.mem_range.1 hi)

/-- `pq_insert(n)` puts one more node into the queue (rules R133, R137, R139). -/
theorem pqInsert_spec {s : State} {f : Nat → NodeIx} {n : Nat} {m : NodeIx} (hq : QueueIs s f n)
    (hn : NodesOk s f n) (hh : IsHeap s f n) (hcap : n < Config.heapCap) (hm : Listed s m)
    (hnew : m ∉ nodesOf f n) :
    ∃ hp g, pqInsert m s = .ok { s with hp := hp, hsize := s.hsize + 1#17 } ∧
      QueueIs { s with hp := hp, hsize := s.hsize + 1#17 } g (n + 1) ∧
      (nodesOf g (n + 1)).Perm (m :: nodesOf f n) ∧ IsHeap s g (n + 1) := by
  have hc : n < 65536 := hcap
  let f' : Nat → NodeIx := fun i => if i = n then m else f i
  have hf' : ∀ i < n, f' i = f i := fun i hi => by simp [f', Nat.ne_of_lt hi]
  have hfn : f' n = m := by simp [f']
  have hlist : nodesOf f' (n + 1) = nodesOf f n ++ [m] := by
    rw [nodesOf_succ, hfn, nodesOf_congr hf']
  let s1 : State := { s with hp := s.hp.put n m, hsize := s.hsize + 1#17 }
  have hq1 : QueueIs s1 f' (n + 1) := by
    refine ⟨?_, by show n + 1 ≤ 65536; omega, Store.sorted_put hq.sorted _ _,
      Store.below_put (Store.below_mono hq.below (by omega)) (by omega) _, ?_⟩
    · show (s.hsize + 1#17).toNat = n + 1
      rw [BitVec.toNat_add, hq.size]
      simp only [BitVec.toNat_ofNat]
      omega
    · intro i hi
      show (s.hp.put n m).get? i = some (f' i)
      rw [Store.get?_put]
      by_cases h : i = n
      · simp [h, f']
      · rw [if_neg h, hq.entry i (by omega), hf' i (by omega)]
  have hn1 : NodesOk s1 f' (n + 1) := by
    constructor
    · rw [hlist]
      exact (List.perm_append_singleton m (nodesOf f n)).nodup_iff.2 (List.nodup_cons.2 ⟨hnew, hn.nodup⟩)
    · intro i hi
      by_cases h : i = n
      · rw [h, hfn]; exact hm
      · rw [hf' i (by omega)]; exact hn.listed i (by omega)
  have hu : UpOk s1 f' (n + 1) n := by
    constructor
    · intro j hj h1 hjn
      rw [hf' j (by omega), hf' _ (by omega)]
      exact hh j (by omega) h1
    · intro j hj h1 hjn
      omega
  obtain ⟨hp, g, h1, h2, h3, h4⟩ := siftUp_spec n n s1 f' (n + 1) le_rfl (by omega) hq1 hn1 hu
  refine ⟨hp, g, ?_, h2, ?_, h4.congr rfl⟩
  · simp only [pqInsert, hq.size, hpWrite, if_pos hcap, Run.ok_bind]
    exact h1
  · refine h3.trans ?_
    rw [hlist]
    exact List.perm_append_singleton m (nodesOf f n)

/-! ### Sift-down -/

/-- A heap but for position `i`, which may be after a child. -/
structure DownOk (s : State) (f : Nat → NodeIx) (n i : Nat) : Prop where
  other : ∀ j < n, 1 ≤ j → (j - 1) / 2 ≠ i → nodeLess s (f ((j - 1) / 2)) (f j) = true
  grand : ∀ j < n, 1 ≤ j → (j - 1) / 2 = i → 1 ≤ i → nodeLess s (f ((i - 1) / 2)) (f j) = true

theorem DownOk.congr {s t : State} {f : Nat → NodeIx} {n i : Nat} (ht : t.ns = s.ns)
    (h : DownOk s f n i) : DownOk t f n i :=
  ⟨fun j hj h1 h2 => by rw [nodeLess_congr ht]; exact h.other j hj h1 h2,
   fun j hj h1 h2 h3 => by rw [nodeLess_congr ht]; exact h.grand j hj h1 h2 h3⟩

theorem QueueIs.lesserOf {s : State} {f : Nat → NodeIx} {n sm : Nat} (h : QueueIs s f n)
    (hn : NodesOk s f n) (hsm : sm < n) (c : Nat) :
    lesserOf c sm s = .ok (if c < n ∧ nodeLess s (f c) (f sm) = true then c else sm) := by
  unfold Machine.lesserOf
  rw [h.size]
  by_cases hc : c < n
  · rw [if_pos hc, h.lessAt hn hc hsm]
    simp [hc]
  · simp [hc]

/-- The position `sift_down` picks is `i` or a child of it, and its node is not after any of them
(rule R136). -/
theorem least_child {s : State} {f : Nat → NodeIx} {n i : Nat} (hn : NodesOk s f n) (hi : i < n) :
    ∃ sm, sm = (if 2 * i + 2 < n ∧ nodeLess s (f (2 * i + 2))
        (f (if 2 * i + 1 < n ∧ nodeLess s (f (2 * i + 1)) (f i) = true then 2 * i + 1 else i)) = true
        then 2 * i + 2
        else (if 2 * i + 1 < n ∧ nodeLess s (f (2 * i + 1)) (f i) = true then 2 * i + 1 else i)) ∧
      sm < n ∧ (sm = i ∨ (sm = 2 * i + 1 ∨ sm = 2 * i + 2) ∧ nodeLess s (f sm) (f i) = true) ∧
      ∀ j < n, 1 ≤ j → (j - 1) / 2 = i → j ≠ sm → nodeLess s (f sm) (f j) = true := by
  have tot : ∀ a < n, ∀ b < n, a ≠ b → nodeLess s (f a) (f b) ≠ true → nodeLess s (f b) (f a) = true := by
    intro a ha b hb hab h
    exact nodeLess_total (hn.listed a ha) (hn.listed b hb) (fun h' => hab (hn.inj ha hb h')) h
  by_cases h1 : 2 * i + 1 < n ∧ nodeLess s (f (2 * i + 1)) (f i) = true
  · rw [if_pos h1]
    by_cases h2 : 2 * i + 2 < n ∧ nodeLess s (f (2 * i + 2)) (f (2 * i + 1)) = true
    · rw [if_pos h2]
      refine ⟨_, rfl, h2.1, Or.inr ⟨Or.inr rfl, nodeLess_trans h2.2 h1.2⟩, ?_⟩
      intro j hj hj1 hjp hne
      obtain rfl : j = 2 * i + 1 := by omega
      exact h2.2
    · rw [if_neg h2]
      refine ⟨_, rfl, h1.1, Or.inr ⟨Or.inl rfl, h1.2⟩, ?_⟩
      intro j hj hj1 hjp hne
      obtain rfl : j = 2 * i + 2 := by omega
      exact tot _ hj _ h1.1 (by omega) fun h => h2 ⟨hj, h⟩
  · rw [if_neg h1]
    have hleft : ∀ h : 2 * i + 1 < n, nodeLess s (f i) (f (2 * i + 1)) = true := fun h =>
      tot _ h _ hi (by omega) fun h' => h1 ⟨h, h'⟩
    by_cases h2 : 2 * i + 2 < n ∧ nodeLess s (f (2 * i + 2)) (f i) = true
    · rw [if_pos h2]
      refine ⟨_, rfl, h2.1, Or.inr ⟨Or.inr rfl, h2.2⟩, ?_⟩
      intro j hj hj1 hjp hne
      obtain rfl : j = 2 * i + 1 := by omega
      exact nodeLess_trans h2.2 (hleft hj)
    · rw [if_neg h2]
      refine ⟨_, rfl, hi, Or.inl rfl, ?_⟩
      intro j hj hj1 hjp hne
      by_cases hj2 : j = 2 * i + 1
      · subst hj2; exact hleft hj
      · obtain rfl : j = 2 * i + 2 := by omega
        exact tot _ hj _ hi (by omega) fun h => h2 ⟨hj, h⟩

theorem DownOk.exch {s : State} {f : Nat → NodeIx} {n i sm : Nat} (h : DownOk s f n i)
    (hsm : sm < n) (hc : sm = 2 * i + 1 ∨ sm = 2 * i + 2) (hl : nodeLess s (f sm) (f i) = true)
    (hmin : ∀ j < n, 1 ≤ j → (j - 1) / 2 = i → j ≠ sm → nodeLess s (f sm) (f j) = true) :
    DownOk s (exch f i sm) n sm := by
  have hpar : (sm - 1) / 2 = i := by omega
  constructor
  · intro j hj hj1 hjp
    simp only [Machine.exch]
    by_cases hji : (j - 1) / 2 = i
    · rw [if_pos hji, if_neg (by omega : j ≠ i)]
      by_cases hjs : j = sm
      · rw [if_pos hjs]; exact hl
      · rw [if_neg hjs]; exact hmin j hj hj1 hji hjs
    · rw [if_neg hji, if_neg hjp]
      by_cases hj' : j = i
      · subst hj'
        rw [if_pos rfl]
        exact h.grand sm hsm (by omega) hpar hj1
      · rw [if_neg hj', if_neg (by omega)]
        exact h.other j hj hj1 hji
  · intro j hj hj1 hjp _
    simp only [Machine.exch]
    rw [hpar, if_pos rfl, if_neg (by omega : j ≠ i), if_neg (by omega : j ≠ sm)]
    have := h.other j hj hj1 (by omega)
    rw [hjp] at this
    exact this

/-- Sift-down ends with a heap of the same nodes (rule R136). -/
theorem siftDown_spec : ∀ (k i : Nat) (s : State) (f : Nat → NodeIx) (n : Nat), n ≤ i + k → i < n →
    QueueIs s f n → NodesOk s f n → DownOk s f n i →
    ∃ hp g, siftDown k i s = .ok { s with hp := hp } ∧ QueueIs { s with hp := hp } g n ∧
      (nodesOf g n).Perm (nodesOf f n) ∧ IsHeap s g n := by
  intro k
  induction k with
  | zero => intro i s f n hik hin; omega
  | succ k ih =>
    intro i s f n hik hin hq hn hd
    obtain ⟨sm, hsm, hsn, hcase, hmin⟩ := least_child hn hin
    have hrun : siftDown (k + 1) i s =
        if sm = i then .ok s else hpSwap i sm s >>= fun s => siftDown k sm s := by
      rw [siftDown]
      rw [hq.lesserOf hn hin]
      simp only [Run.ok_bind]
      rw [hq.lesserOf hn (by split_ifs <;> omega)]
      simp only [Run.ok_bind]
      rw [← hsm]
    rw [hrun]
    by_cases hsi : sm = i
    · rw [if_pos hsi]
      refine ⟨s.hp, f, rfl, hq, List.Perm.refl _, ?_⟩
      intro j hj hj1
      by_cases hji : (j - 1) / 2 = i
      · have := hmin j hj hj1 hji (by omega)
        rw [hji, ← hsi]
        exact this
      · exact hd.other j hj hj1 hji
    · rw [if_neg hsi]
      obtain ⟨hc, hl⟩ := hcase.resolve_left hsi
      obtain ⟨hp, h1, h2⟩ := hq.swap hin hsn
      have hperm := exch_perm f hin hsn
      obtain ⟨hp', g, h3, h4, h5, h6⟩ := ih sm { s with hp := hp } _ n (by omega) hsn h2
        (hn.of_perm hperm rfl rfl) (DownOk.congr (s := s) rfl (hd.exch hsn hc hl hmin))
      refine ⟨hp', g, ?_, h4, h5.trans hperm, IsHeap.congr (s := { s with hp := hp }) rfl h6⟩
      rw [h1]
      exact h3

/-! ### `pq_extract_min` -/

/-- In a heap the node at position 0 is before every other (rule R138). -/
theorem IsHeap.least {s : State} {f : Nat → NodeIx} {n : Nat} (h : IsHeap s f n) :
    ∀ j < n, 1 ≤ j → nodeLess s (f 0) (f j) = true := by
  intro j
  induction j using Nat.strong_induction_on with
  | _ j ih =>
    intro hj h1
    have := h j hj h1
    by_cases hp : (j - 1) / 2 = 0
    · rwa [hp] at this
    · exact nodeLess_trans (ih _ (by omega) (by omega) (by omega)) this

/-- `pq_extract_min()` takes the least node out of the queue (rules R135, R137, R138). -/
theorem pqExtractMin_spec {s : State} {f : Nat → NodeIx} {n : Nat} (hq : QueueIs s f (n + 1))
    (hn : NodesOk s f (n + 1)) (hh : IsHeap s f (n + 1)) :
    ∃ hp g, pqExtractMin s = .ok (f 0, { s with hp := hp, hsize := BitVec.ofNat 17 n }) ∧
      QueueIs { s with hp := hp, hsize := BitVec.ofNat 17 n } g n ∧
      (f 0 :: nodesOf g n).Perm (nodesOf f (n + 1)) ∧ IsHeap s g n ∧
      ∀ m ∈ nodesOf g n, nodeLess s (f 0) m = true := by
  have hcap : n + 1 ≤ 65536 := hq.cap
  have hne : s.hsize ≠ 0#17 := by
    intro h
    have := hq.size
    rw [h] at this
    simp at this
  have hofNat : (BitVec.ofNat 17 n).toNat = n := by simp; omega
  obtain ⟨hp1, h1, hq1⟩ := hq.swap (show 0 < n + 1 by omega) (show n < n + 1 by omega)
  have hperm1 := exch_perm f (show 0 < n + 1 by omega) (show n < n + 1 by omega)
  have hn1 := hn.of_perm (t := { s with hp := hp1 }) hperm1 rfl rfl
  let f1 := exch f 0 n
  let s1 : State := hpShrink n { s with hp := hp1 }
  have hlast : f1 n = f 0 := by
    simp only [f1, exch]
    split_ifs with h
    · rw [h]
    · rfl
  have hq2 : QueueIs s1 f1 n := by
    refine ⟨hofNat, by show n ≤ 65536; omega, Store.sorted_del hq1.sorted _, ?_, ?_⟩
    · intro p hp
      have hb := hq1.below p (Store.mem_del hp)
      have hs : (hp1.del n).get? p.1 = some p.2 := Store.get?_of_mem (Store.sorted_del hq1.sorted _) hp
      by_contra hge
      have hpn : p.1 = n := by omega
      have := Store.get?_del_same hq1.sorted n
      rw [hpn, this] at hs
      simp at hs
    · intro i hi
      show (hp1.del n).get? i = some (f1 i)
      rw [Store.get?_del_ne _ _ _ (by omega)]
      exact hq1.entry i (by omega)
  have hperm2 : (f 0 :: nodesOf f1 n).Perm (nodesOf f (n + 1)) := by
    refine List.Perm.trans ?_ hperm1
    rw [nodesOf_succ (exch f 0 n)]
    show (f 0 :: nodesOf f1 n).Perm (nodesOf f1 n ++ [f1 n])
    rw [hlast]
    exact (List.perm_append_singleton _ _).symm
  have hn2 : NodesOk s1 f1 n := by
    constructor
    · exact (List.nodup_cons.1 (hperm2.nodup_iff.2 hn.nodup)).2
    · intro i hi
      exact hn1.listed i (by omega)
  have hrun : ∀ r, siftDown n 0 s1 = .ok r → pqExtractMin s = .ok (f 0, r) := by
    intro r hr
    unfold pqExtractMin
    rw [if_neg hne, hq.hpRead (by omega)]
    simp only [Run.ok_bind, hq.size, Nat.add_sub_cancel, h1]
    rw [show (hpShrink n { s with hp := hp1 }).hsize.toNat = n from hofNat]
    rw [show siftDown n 0 (hpShrink n { s with hp := hp1 }) = .ok r from hr]
    rfl
  have hleast : ∀ m ∈ nodesOf f1 n, nodeLess s (f 0) m = true := by
    intro m hm
    obtain ⟨i, hi, rfl⟩ := List.mem_map.1 hm
    have hi := List.mem_range.1 hi
    simp only [f1, exch]
    split_ifs with h
    · exact hh.least n (by omega) (by omega)
    · omega
    · exact hh.least i (by omega) (by omega)
  by_cases h0 : n = 0
  · subst h0
    exact ⟨s1.hp, f1, hrun _ rfl, hq2, hperm2, fun j hj => by omega, hleast⟩
  · have hd : DownOk s1 f1 n 0 := by
      constructor
      · intro j hj hj1 hjp
        have := hh j (by omega) hj1
        rw [nodeLess_congr (t := s1) (s := s) rfl]
        simp only [f1, exch]
        rw [if_neg hjp, if_neg (by omega), if_neg (by omega), if_neg (by omega)]
        exact this
      · intro j hj hj1 hjp h
        omega
    obtain ⟨hp, g, h3, h4, h5, h6⟩ := siftDown_spec n 0 s1 f1 n (by omega) (by omega) hq2 hn2 hd
    refine ⟨hp, g, hrun _ h3, h4, (h5.cons _).trans hperm2, h6.congr rfl, ?_⟩
    intro m hm
    exact hleast m (h5.subset hm)

/-! ### `HeapOk` and the layout of a heap -/

theorem filterMap_full {α β : Type} {g : α → Option β} : ∀ {l : List α},
    (l.filterMap g).length = l.length → ∀ i ∈ l, (g i).isSome
  | [], _, i, hi => by simp at hi
  | a :: l, h, i, hi => by
    have hle := List.length_filterMap_le g l
    rw [List.filterMap_cons] at h
    cases ha : g a with
    | none => rw [ha] at h; simp only [List.length_cons] at h; omega
    | some b =>
      rw [ha] at h
      simp only [List.length_cons, Nat.add_right_cancel_iff] at h
      rcases List.mem_cons.1 hi with rfl | hi
      · simp [ha]
      · exact filterMap_full h i hi

theorem QueueIs.queueList_eq {s : State} {f : Nat → NodeIx} {n : Nat} (h : QueueIs s f n) :
    queueList s = nodesOf f n := by
  unfold queueList nodesOf
  rw [h.size, ← List.filterMap_eq_map]
  apply List.filterMap_congr
  intro i hi
  exact h.entry i (List.mem_range.1 hi)

/-- A heap in terms of its layout. -/
theorem HeapOk.layout {s : State} (h : HeapOk s) : ∃ f, QueueIs s f s.hsize.toNat ∧
    NodesOk s f s.hsize.toNat ∧ IsHeap s f s.hsize.toNat := by
  obtain ⟨h1, h2, h3, h4, h5, h6, h7⟩ := h
  have hall : ∀ i ∈ List.range s.hsize.toNat, (s.hp.get? i).isSome :=
    filterMap_full (by rw [List.length_range]; exact h4)
  have hq : QueueIs s (fun i => (s.hp.get? i).getD 0#17) s.hsize.toNat := by
    refine ⟨rfl, h1, h2, h3, fun i hi => ?_⟩
    obtain ⟨b, hb⟩ := Option.isSome_iff_exists.1 (hall i (List.mem_range.2 hi))
    simp [hb]
  refine ⟨_, hq, ⟨by rw [← hq.queueList_eq]; exact h5, fun i hi => ?_⟩, fun j hj hj1 => ?_⟩
  · apply h6
    rw [hq.queueList_eq]
    exact List.mem_map.2 ⟨i, List.mem_range.2 hi, rfl⟩
  · obtain ⟨a, ha, b, hb, hl⟩ := h7 j hj hj1
    rw [Option.mem_def] at ha hb
    simp only [ha, hb, Option.getD_some]
    exact hl

/-- A layout is a heap. -/
theorem heapOk_of_layout {s : State} {f : Nat → NodeIx} {n : Nat} (hq : QueueIs s f n)
    (hn : NodesOk s f n) (hh : IsHeap s f n) : HeapOk s := by
  refine ⟨by rw [hq.size]; exact hq.cap, hq.sorted, by rw [hq.size]; exact hq.below, ?_, ?_, ?_, ?_⟩
  · rw [hq.queueList_eq, hq.size]; simp
  · rw [hq.queueList_eq]; exact hn.nodup
  · rw [hq.queueList_eq]
    intro m hm
    obtain ⟨i, hi, rfl⟩ := List.mem_map.1 hm
    exact hn.listed i (List.mem_range.1 hi)
  · rw [hq.size]
    intro i hi h1
    exact ⟨_, hq.entry _ (by omega), _, hq.entry _ hi, hh i hi h1⟩

end Sys2Proof.Machine
end

