-- ==== Sys2Proof/Laws/Step.lean ====
section
/-!
SUPPORT. What a step does with each move of the host, what fault entry makes of a state, and what a
command does that is not carried out (spec/30_encoding.md rule R91, spec/60_exceptions.md rule R240).
-/

namespace Sys2Proof.Machine

/-! ### A step and the host's move -/

theorem step_none {s : State} (h : s.env.inbox = []) : step s = .next s := by
  simp [step, nextMove, h]

theorem step_move {s : State} {m : HostMove} {ms : List HostMove} (h : s.env.inbox = m :: ms)
    (hw : mustWait m s = false) :
    step s = hostMove m { s with env := { s.env with inbox := ms } } := by
  simp [step, nextMove, h, hw]

theorem step_wait {s : State} {m : HostMove} {ms : List HostMove} (h : s.env.inbox = m :: ms)
    (hw : mustWait m s = true) : step s = .next s := by
  simp [step, nextMove, h, hw]

theorem step_word {s : State} {w : Byte} {ms : List HostMove} (h : s.env.inbox = .word w :: ms)
    (hb : s.ctrl ≠ .busy) : step s = acceptWord w { s with env := { s.env with inbox := ms } } :=
  step_move h (by simp [mustWait, hb])

theorem step_presentWord {s : State} (w : Byte) (hb : s.ctrl ≠ .busy) :
    step (presentWord w s) = acceptWord w s :=
  step_word (s := presentWord w s) (ms := s.env.inbox) rfl hb

theorem step_presentWord_busy {s : State} (w : Byte) (hb : s.ctrl = .busy) :
    step (presentWord w s) = .next (presentWord w s) :=
  step_wait (m := .word w) (ms := s.env.inbox) rfl (by simp [mustWait, presentWord, hb])

theorem step_reset {s : State} {ms : List HostMove} (h : s.env.inbox = .reset :: ms) :
    step s = .next (resetCore { s with env := { s.env with inbox := ms } }) := step_move h rfl

theorem step_readCsr {s : State} {n : Byte} {ms : List HostMove} (h : s.env.inbox = .readCsr n :: ms) :
    step s = .next (csrRead n { s with env := { s.env with inbox := ms } }) := step_move h rfl

theorem acceptWord_command {w : Byte} {i : Instr} (h : decode w = .command i) (s : State) :
    acceptWord w s = exec i s := by simp [acceptWord, h]

theorem acceptWord_illegal {w b : Byte} (h : decode w = .illegalWord b) (s : State) :
    acceptWord w s = illegalWord s := by simp [acceptWord, h]

/-- The words that decode to no command (rule R93). -/
theorem decode_illegal_iff : ∀ w : Byte, decode w = .illegalWord w ↔ (w = 0x00#8 ∨ 9 ≤ w.toNat) := by
  decide

/-- A word is a command or it is illegal. -/
theorem decode_cases (w : Byte) : (∃ i, decode w = .command i ∧ w = encode i) ∨ decode w = .illegalWord w := by
  have : ∀ w : Byte, decode w = .illegalWord w ∨
      (decode w = .command .clr ∧ w = 1#8) ∨ (decode w = .command .count ∧ w = 2#8) ∨
      (decode w = .command .build ∧ w = 3#8) ∨ (decode w = .command .gen ∧ w = 4#8) ∨
      (decode w = .command .encode ∧ w = 5#8) ∨ (decode w = .command .decode ∧ w = 6#8) ∨
      (decode w = .command .compress ∧ w = 7#8) ∨ (decode w = .command .decompress ∧ w = 8#8) := by decide
  rcases this w with h | h | h | h | h | h | h | h | h
  · exact .inr h
  all_goals exact .inl ⟨_, h⟩

/-! ### Commands that are not carried out -/

theorem exec_faulted {i : Instr} {s : State} (h : s.ctrl = .faulted) (hi : i ≠ .clr) :
    exec i s = .next s := by
  cases i <;> first | exact absurd rfl hi |
    simp [exec, execCount, execBuild, execGen, execEncode, execDecode, execCompress, execDecompress,
      runCommand, h]

theorem exec_busy {i : Instr} {s : State} (h : s.ctrl = .busy) : exec i s = .next s := by
  cases i <;> simp [exec, execClr, execCount, execBuild, execGen, execEncode, execDecode, execCompress,
    execDecompress, runCommand, h]

/-- The pseudocode of a command. -/
def bodyOf : Instr → State → Run (CmdOutcome × State)
  | .clr => fun s => .ok (.done, clearAll s)
  | .count => countBody
  | .build => buildBody
  | .gen => genBody
  | .encode => encodeBody
  | .decode => decodeBody
  | .compress => compressBody
  | .decompress => decompressBody

/-- In `IDLE` every command runs its pseudocode (rule R91). -/
theorem exec_idle {i : Instr} {s : State} (h : s.ctrl = .idle) :
    exec i s = conclude (bodyOf i { s with ctrl := .busy }) := by
  cases i <;> simp [exec, execClr, execCount, execBuild, execGen, execEncode, execDecode, execCompress,
    execDecompress, runCommand, h, bodyOf, conclude, finish, recordOutcome, clearAll, clearTables,
    dropCodes, dropTree]

/-! ### The CSR port -/

/-- The fields of a word laid out as `STATUS` is (rule R28). -/
theorem status_fields : ∀ (e c t f : Bool) (k : BitVec 2),
    let w : CsrVal := 0#58 ++ BitVec.ofBool e ++ BitVec.ofBool c ++ BitVec.ofBool t
      ++ BitVec.ofBool f ++ k
    w.extractLsb' 0 2 = k ∧ w.getLsbD 2 = f ∧ w.getLsbD 3 = t ∧ w.getLsbD 4 = c ∧ w.getLsbD 5 = e ∧
      w.extractLsb' 6 58 = 0#58 := by decide

/-- Bits 1..0 of a word that ends in two given bits (rule R46). -/
theorem low_two (h : BitVec 62) (k : BitVec 2) : (h ++ k : CsrVal).extractLsb' 0 2 = k := by
  apply BitVec.eq_of_toNat_eq
  have hk := k.isLt
  simp only [BitVec.extractLsb'_toNat, BitVec.toNat_append, Nat.shiftRight_zero]
  rw [Nat.shiftLeft_eq, Nat.mul_comm, ← Nat.two_pow_add_eq_or_of_lt hk, Nat.mul_add_mod]
  exact Nat.mod_eq_of_lt hk

/-! ### Fault entry -/

/-- Closing the ports, as one update. -/
theorem closePorts_eq (s : State) : closePorts s = { s with env := { s.env with
    ssrc := { s.env.ssrc with cur := none }, bsrc := { s.env.bsrc with cur := none },
    bsnk := { s.env.bsnk with cur := none }, ssnk := { s.env.ssnk with cur := none },
    trace := s.env.trace ++ closings s } } := by
  obtain ⟨_, _, _, _, _, _, _, _, _, _, _, _, _, _, _, _, _, _, _, _, _, _,
    ⟨_, ⟨_, c1⟩, ⟨_, c2⟩, ⟨_, c3, _⟩, ⟨_, c4, _⟩, _, _, _, _⟩⟩ := s
  cases c1 <;> cases c2 <;> cases c3 <;> cases c4 <;>
    simp [closePorts, closeSsrc, closeBsrc, closeBsnk, closeSsnk, closings, releaseSsrc, releaseBsrc,
      abortBsnk, abortSsnk, note, SrcPort.stop, SnkPort.abort]

/-- Fault entry, as one update (rule R240). -/
theorem faultEntry_eq (k : FaultKind) (s : State) : faultEntry k s = { s with
    ctrl := .faulted, fault := k.code, ftv := false, trv := false, ctv := false, distinct := 0#17,
    total := 0#48, bytesIn := 0#64, bytesOut := 0#64, nnodes := 0#17, hsize := 0#17,
    root := Config.nil, ft := [], ns := [], hp := [], ct := [],
    env := { s.env with
      ssrc := { s.env.ssrc with cur := none }, bsrc := { s.env.bsrc with cur := none },
      bsnk := { s.env.bsnk with cur := none }, ssnk := { s.env.ssnk with cur := none },
      trace := s.env.trace ++ closings s } } := by
  simp only [faultEntry, closePorts_eq]
  rfl

/-- What the host sees of a fault: fault entry's state, the outcome, no output. -/
theorem faultOutcome_of_raised {k : FaultKind} {s u : State}
    (ho : u.env.outcomes = s.env.outcomes) (hb : u.env.bsnk.outputs = s.env.bsnk.outputs)
    (hs : u.env.ssnk.outputs = s.env.ssnk.outputs) :
    FaultOutcome k s (recordOutcome (.fault k) (faultEntry k u)) := by
  rw [faultEntry_eq]
  exact ⟨⟨rfl, rfl, ⟨rfl, rfl, rfl, rfl, rfl, rfl, rfl, rfl, rfl, rfl, rfl, rfl⟩, rfl, rfl, rfl, rfl⟩,
    by rw [← ho]; rfl, hb, hs⟩

/-- A command answers a next state in two ways: its body came to an end, or it raised a fault. -/
theorem conclude_next {m : Run (CmdOutcome × State)} {t : State} (h : conclude m = .next t) :
    (∃ o u, m = .ok (o, u) ∧ t = finish o u) ∨
    ∃ k u, m = .error (.raised k u) ∧ t = recordOutcome (.fault k) (faultEntry k u) := by
  rcases m with (⟨k, u⟩ | r | r) | ⟨o, u⟩
  · exact .inr ⟨k, u, rfl, by cases h; rfl⟩
  · cases h
  · cases h
  · exact .inl ⟨o, u, rfl, by cases h; rfl⟩

end Sys2Proof.Machine
end

