-- ==== Sys2Proof/Laws/Build.lean ====
section
/-!
SUPPORT. What BUILD does (spec/42_tree_builder.md): the leaf phase and every merge keep a forest whose
roots are the nodes in the queue; when one node is left the forest is the tree of rules R39, R44 and R149.
-/

namespace Sys2Proof.Machine

/-! ### Appending a node -/

/-- The state with one more node. -/
def addNode (d : Node) (s : State) : State :=
  { s with ns := s.ns.put s.nnodes.toNat d, nnodes := s.nnodes + 1#17 }

theorem nsAppend_eq {d : Node} {s : State} (h : s.nnodes.toNat < 131071) :
    nsAppend d s = .ok (s.nnodes, addNode d s) := if_pos h

theorem addNode_nnodes {d : Node} {s : State} (h : s.nnodes.toNat < 131071) :
    (addNode d s).nnodes.toNat = s.nnodes.toNat + 1 := by
  show (s.nnodes + 1#17).toNat = _
  rw [BitVec.toNat_add]
  simp only [BitVec.toNat_ofNat]
  omega

theorem addNode_get_new (d : Node) (s : State) :
    (addNode d s).ns.get? s.nnodes.toNat = some d := Store.get?_put_same _ _ _

theorem addNode_get_old {d : Node} {s : State} {i : Nat} (h : i < s.nnodes.toNat) :
    (addNode d s).ns.get? i = s.ns.get? i := Store.get?_put_ne _ _ _ _ (by omega)

theorem addNode_nodeLess {d : Node} {s : State} {a b : NodeIx} (ha : a.toNat < s.nnodes.toNat)
    (hb : b.toNat < s.nnodes.toNat) : nodeLess (addNode d s) a b = nodeLess s a b := by
  simp only [nodeLess, addNode_get_old ha, addNode_get_old hb]

theorem addNode_parentCount {d : Node} {s : State} (hb : s.ns.Below s.nnodes.toNat) (m : Nat) :
    parentCount (addNode d s) m = parentCount s m + childCount d m := by
  simp [parentCount, addNode, Store.put_eq_append hb]

/-- The frequency of a node, 0 for a node without a value. -/
def freqAt (s : State) (n : NodeIx) : Nat := ((s.ns.get? n.toNat).map fun d => d.freq.toNat).getD 0

theorem addNode_freqAt {d : Node} {s : State} {n : NodeIx} (h : n.toNat < s.nnodes.toNat) :
    freqAt (addNode d s) n = freqAt s n := by simp [freqAt, addNode_get_old h]

/-! ### Forests -/

/-- An internal node at index `n`, as rules R44 and R149 want it, over `D` leaves. -/
def InternalAt (s : State) (D n : Nat) : Prop :=
  ∃ d x y, s.ns.get? n = some d ∧ d.tag = .internal ∧ d.sym = 0#16 ∧ d.left.toNat < n ∧
    d.right.toNat < n ∧ s.ns.get? d.left.toNat = some x ∧ s.ns.get? d.right.toNat = some y ∧
    d.freq.toNat = x.freq.toNat + y.freq.toNat ∧ nodeLess s d.left d.right = true ∧
    ∀ z < n, z ≠ d.left.toNat → z ≠ d.right.toNat →
      (∀ j < n, D ≤ j → ∃ c ∈ s.ns.get? j, childCount c z = 0) →
      nodeLess s d.right (BitVec.ofNat 17 z) = true

/-- The node store holds the leaves of `L`, then internal nodes. -/
structure Forest (s : State) (L : Store Count) : Prop where
  cap : L.length ≤ 65536
  sum : countSum L < 2 ^ 48
  ge : L.length ≤ s.nnodes.toNat
  sorted : s.ns.Sorted
  below : s.ns.Below s.nnodes.toNat
  leaf : ∀ i < L.length,
    s.ns.get? i = (L[i]?).map fun p => leafNode (BitVec.ofNat 16 p.1) p.2
  internal : ∀ n < s.nnodes.toNat, L.length ≤ n → InternalAt s L.length n

/-- The queue holds the roots of the forest. -/
structure Roots (s : State) (L : Store Count) (f : Nat → NodeIx) (k : Nat) : Prop where
  queue : QueueIs s f k
  ok : NodesOk s f k
  heap : IsHeap s f k
  size : s.nnodes.toNat + k = 2 * L.length
  parents : ∀ m, parentCount s m =
    if m < s.nnodes.toNat ∧ m ∉ (nodesOf f k).map BitVec.toNat then 1 else 0
  weight : ((nodesOf f k).map (freqAt s)).sum = countSum L

theorem Forest.congr {s t : State} {L : Store Count} (h : Forest s L) (hn : t.nnodes = s.nnodes)
    (hs : t.ns = s.ns) : Forest t L := by
  refine ⟨h.cap, h.sum, by rw [hn]; exact h.ge, by rw [hs]; exact h.sorted,
    by rw [hs, hn]; exact h.below, by rw [hs]; exact h.leaf, fun n hn' hl => ?_⟩
  have := h.internal n (by rw [← hn]; exact hn') hl
  simpa only [InternalAt, hs, nodeLess_congr hs] using this

/-- Every node in use has a value. -/
theorem Forest.listed {s : State} {L : Store Count} (h : Forest s L) {n : NodeIx}
    (hn : n.toNat < s.nnodes.toNat) : Listed s n := by
  refine ⟨hn, ?_⟩
  by_cases hl : n.toNat < L.length
  · rw [h.leaf _ hl]
    simp [hl]
  · obtain ⟨d, _, _, hd, -⟩ := h.internal _ hn (by omega)
    simp [hd]

theorem InternalAt.addNode {s : State} {D n : Nat} {e : Node} (h : InternalAt s D n)
    (hn : n < s.nnodes.toNat) : InternalAt (addNode e s) D n := by
  obtain ⟨d, x, y, h1, h2, h3, h4, h5, h6, h7, h8, h9, h10⟩ := h
  refine ⟨d, x, y, ?_, h2, h3, h4, h5, ?_, ?_, h8, ?_, ?_⟩
  · rw [addNode_get_old hn]; exact h1
  · rw [addNode_get_old (by omega)]; exact h6
  · rw [addNode_get_old (by omega)]; exact h7
  · rw [addNode_nodeLess (by omega) (by omega)]; exact h9
  · intro z hz hzl hzr hall
    rw [addNode_nodeLess (by omega) (by simp; omega)]
    apply h10 z hz hzl hzr
    intro j hj hD
    obtain ⟨c, hc, hc'⟩ := hall j hj hD
    rw [addNode_get_old (by omega)] at hc
    exact ⟨c, hc, hc'⟩

theorem nodesOf_lt {s : State} {f : Nat → NodeIx} {k : Nat} (h : NodesOk s f k) {n : NodeIx}
    (hn : n ∈ nodesOf f k) : n.toNat < s.nnodes.toNat := by
  obtain ⟨i, hi, rfl⟩ := List.mem_map.1 hn
  exact (h.listed i (List.mem_range.1 hi)).1

/-- The queue of a forest after a node was appended. -/
theorem QueueIs.addNode {s : State} {f : Nat → NodeIx} {k : Nat} (d : Node) (h : QueueIs s f k) :
    QueueIs (addNode d s) f k := ⟨h.size, h.cap, h.sorted, h.below, h.entry⟩

theorem NodesOk.addNode {s : State} {f : Nat → NodeIx} {k : Nat} (d : Node) (h : NodesOk s f k)
    (hlt : s.nnodes.toNat < 131071) : NodesOk (addNode d s) f k := by
  refine ⟨h.nodup, fun i hi => ⟨?_, ?_⟩⟩
  · rw [addNode_nnodes hlt]; have := (h.listed i hi).1; omega
  · rw [addNode_get_old (h.listed i hi).1]; exact (h.listed i hi).2

theorem IsHeap.addNode {s : State} {f : Nat → NodeIx} {k : Nat} (d : Node) (h : IsHeap s f k)
    (hn : NodesOk s f k) : IsHeap (addNode d s) f k := by
  intro j hj h1
  rw [addNode_nodeLess (hn.listed _ (by omega)).1 (hn.listed j hj).1]
  exact h j hj h1

theorem NodesOk.tail {s t : State} {f g : Nat → NodeIx} {n k : Nat} {m : NodeIx} (h : NodesOk s f n)
    (hp : (m :: nodesOf g k).Perm (nodesOf f n)) (hn : t.nnodes = s.nnodes) (hs : t.ns = s.ns) :
    NodesOk t g k := by
  refine ⟨(List.nodup_cons.1 (hp.nodup_iff.2 h.nodup)).2, fun i hi => ?_⟩
  have : g i ∈ nodesOf f n :=
    hp.subset (List.mem_cons_of_mem _ (List.mem_map.2 ⟨i, List.mem_range.2 hi, rfl⟩))
  obtain ⟨j, hj, hj'⟩ := List.mem_map.1 this
  have := h.listed j (List.mem_range.1 hj)
  rw [← hj']
  simpa [Listed, hn, hs] using this

theorem NodesOk.cons {s t : State} {f g : Nat → NodeIx} {n k : Nat} {m : NodeIx} (h : NodesOk s f n)
    (hm : Listed s m) (hnew : m ∉ nodesOf f n) (hp : (nodesOf g k).Perm (m :: nodesOf f n))
    (hn : t.nnodes = s.nnodes) (hs : t.ns = s.ns) : NodesOk t g k := by
  refine ⟨hp.nodup_iff.2 (List.nodup_cons.2 ⟨hnew, h.nodup⟩), fun i hi => ?_⟩
  have : g i ∈ m :: nodesOf f n := hp.subset (List.mem_map.2 ⟨i, List.mem_range.2 hi, rfl⟩)
  rcases List.mem_cons.1 this with h' | h'
  · rw [h']
    simpa [Listed, hn, hs] using hm
  · obtain ⟨j, hj, hj'⟩ := List.mem_map.1 h'
    have := h.listed j (List.mem_range.1 hj)
    rw [← hj']
    simpa [Listed, hn, hs] using this

theorem freqAt_congr {s t : State} (h : t.ns = s.ns) : freqAt t = freqAt s := by
  funext n; simp [freqAt, h]

theorem parentCount_congr {s t : State} (h : t.ns = s.ns) (m : Nat) :
    parentCount t m = parentCount s m := by simp [parentCount, h]

/-- Appending a leaf or a merge node `d` and inserting it makes a forest with one more root, given what
`d` does to the parents and what it weighs. `L'` are the leaves after, `f0` and `k` the queue before. -/
theorem insertNew_spec {s : State} {L' : Store Count} {f0 : Nat → NodeIx} {k : Nat} (d : Node)
    (hq : QueueIs s f0 k) (hn : NodesOk s f0 k) (hh : IsHeap s f0 k) (hb : s.ns.Below s.nnodes.toNat)
    (hk : k < 65536) (hlt : s.nnodes.toNat < 131071) (hsize : s.nnodes.toNat + 1 + (k + 1) = 2 * L'.length)
    (hpar : ∀ m, parentCount s m + childCount d m =
      if m < s.nnodes.toNat ∧ m ∉ (nodesOf f0 k).map BitVec.toNat then 1 else 0)
    (hw : ((nodesOf f0 k).map (freqAt s)).sum + d.freq.toNat = countSum L') :
    ∃ hp g, pqInsert s.nnodes (addNode d s) =
        .ok { addNode d s with hp := hp, hsize := s.hsize + 1#17 } ∧
      Roots { addNode d s with hp := hp, hsize := s.hsize + 1#17 } L' g (k + 1) := by
  have hnew : s.nnodes ∉ nodesOf f0 k := fun h => by have := nodesOf_lt hn h; omega
  have hlist : Listed (addNode d s) s.nnodes :=
    ⟨by rw [addNode_nnodes hlt]; omega, by rw [addNode_get_new]; rfl⟩
  obtain ⟨hp, g, h1, h2, h3, h4⟩ := pqInsert_spec (hq.addNode d) (hn.addNode d hlt) (hh.addNode d hn) hk
    hlist hnew
  refine ⟨hp, g, h1, h2, (hn.addNode d hlt).cons hlist hnew h3 rfl rfl, h4.congr rfl, ?_, ?_, ?_⟩
  · show (addNode d s).nnodes.toNat + (k + 1) = _
    rw [addNode_nnodes hlt]; omega
  · intro m
    show parentCount (addNode d s) m =
      if m < (addNode d s).nnodes.toNat ∧ m ∉ (nodesOf g (k + 1)).map BitVec.toNat then 1 else 0
    rw [addNode_parentCount hb, hpar, addNode_nnodes hlt]
    have hmem : m ∈ (nodesOf g (k + 1)).map BitVec.toNat ↔
        m = s.nnodes.toNat ∨ m ∈ (nodesOf f0 k).map BitVec.toNat := by
      rw [(h3.map BitVec.toNat).mem_iff]; simp
    by_cases hm : m = s.nnodes.toNat
    · rw [if_neg (fun h => by omega), if_neg (fun h => h.2 (hmem.2 (.inl hm)))]
    · have : m < s.nnodes.toNat + 1 ↔ m < s.nnodes.toNat := by omega
      simp only [hmem, hm, false_or, this]
  · show ((nodesOf g (k + 1)).map (freqAt (addNode d s))).sum = _
    rw [(h3.map _).sum_eq, List.map_cons, List.sum_cons]
    have e1 : freqAt (addNode d s) s.nnodes = d.freq.toNat := by simp [freqAt, addNode_get_new]
    have e2 : (nodesOf f0 k).map (freqAt (addNode d s)) = (nodesOf f0 k).map (freqAt s) := by
      apply List.map_congr_left
      intro n hn'
      exact addNode_freqAt (nodesOf_lt hn hn')
    rw [e1, e2]
    omega

/-! ### The leaf phase -/

/-- The leaf phase over `rest`, after the leaves of `L` (rule R148). -/
theorem leafPhase_spec (rest : Store Count) : ∀ (s : State) (L : Store Count) (f : Nat → NodeIx),
    (L ++ rest).length ≤ 65536 → countSum (L ++ rest) < 2 ^ 48 → Forest s L →
    s.nnodes.toNat = L.length → Roots s L f L.length →
    ∃ hp hs nn ns g, leafPhase rest s = .ok { s with hp := hp, hsize := hs, nnodes := nn, ns := ns } ∧
      Forest { s with hp := hp, hsize := hs, nnodes := nn, ns := ns } (L ++ rest) ∧
      nn.toNat = (L ++ rest).length ∧
      Roots { s with hp := hp, hsize := hs, nnodes := nn, ns := ns } (L ++ rest) g (L ++ rest).length := by
  induction rest with
  | nil =>
    intro s L f _ _ hF hn hR
    exact ⟨s.hp, s.hsize, s.nnodes, s.ns, f, rfl, by simpa using hF, by simpa using hn, by simpa using hR⟩
  | cons p rest ih =>
    obtain ⟨v, c⟩ := p
    intro s L f hlen hsum hF hn hR
    have hlen' : L.length + (rest.length + 1) ≤ 65536 := by simpa using hlen
    have hsum' : countSum L + (c.toNat + countSum rest) < 2 ^ 48 := by
      rw [countSum_append, countSum_cons] at hsum; exact hsum
    let d := leafNode (BitVec.ofNat 16 v) c
    have hlt : s.nnodes.toNat < 131071 := by omega
    have hchild : ∀ m, childCount d m = 0 := fun m => rfl
    have hfreq : d.freq.toNat = c.toNat := setWidth48_toNat c
    obtain ⟨hp, g, h1, h2⟩ := insertNew_spec (L' := L ++ [(v, c)]) d hR.queue hR.ok hR.heap hF.below
      (by omega) hlt (by simp; omega) (fun m => by rw [hchild, Nat.add_zero]; exact hR.parents m)
      (by rw [hR.weight, hfreq, countSum_append, countSum_cons]; simp [countSum])
    have hF2 : Forest { addNode d s with hp := hp, hsize := s.hsize + 1#17 } (L ++ [(v, c)]) := by
      refine Forest.congr (s := addNode d s) ?_ rfl rfl
      refine ⟨by simp; omega, by rw [countSum_append, countSum_cons]; show countSum L + (c.toNat + 0) < _; omega, ?_, ?_, ?_, ?_, ?_⟩
      · rw [addNode_nnodes hlt]; simp; omega
      · exact Store.sorted_put hF.sorted _ _
      · rw [addNode_nnodes hlt]
        exact Store.below_put (Store.below_mono hF.below (by omega)) (by omega) _
      · intro i hi
        by_cases h : i < L.length
        · rw [addNode_get_old (by omega), hF.leaf i h, List.getElem?_append_left h]
        · obtain rfl : i = L.length := by simp at hi; omega
          have := addNode_get_new d s
          rw [hn] at this
          rw [this]
          simp [d]
      · intro n h hl
        rw [addNode_nnodes hlt] at h
        simp at hl
        omega
    obtain ⟨hp', hs', nn, ns, g', h3, h4, h5, h6⟩ := ih { addNode d s with hp := hp, hsize := s.hsize + 1#17 }
      (L ++ [(v, c)]) g (by simpa using hlen) (by simpa using hsum) hF2
      (by show (addNode d s).nnodes.toNat = _; rw [addNode_nnodes hlt]; simp; omega)
      (by simpa using h2)
    refine ⟨hp', hs', nn, ns, g', ?_, ?_, ?_, ?_⟩
    · simp only [leafPhase, newLeaf]
      rw [nsAppend_eq hlt]
      simp only [Run.ok_bind]
      rw [h1]
      exact h3
    · rw [List.append_assoc] at h4; exact h4
    · rw [List.append_assoc] at h5; exact h5
    · rw [List.append_assoc] at h6; exact h6

/-! ### The merge loop -/

theorem childCount_internal {a b : NodeIx} {q : Freq} (m : Nat) :
    childCount (internalNode q a b) m =
      (if a.toNat = m then 1 else 0) + (if b.toNat = m then 1 else 0) := rfl

theorem Forest.nsRead {s : State} {L : Store Count} (h : Forest s L) {n : NodeIx}
    (hn : n.toNat < s.nnodes.toNat) :
    ∃ d, s.ns.get? n.toNat = some d ∧ nsRead n s = .ok d ∧ freqAt s n = d.freq.toNat := by
  obtain ⟨d, hd, hr⟩ := (h.listed hn).nsRead
  exact ⟨d, hd, hr, by simp [freqAt, hd]⟩

/-- One merge (rule R149): one root less. -/
theorem mergeOnce_spec {s : State} {L : Store Count} {f : Nat → NodeIx} {k : Nat} (hF : Forest s L)
    (hR : Roots s L f (k + 2)) :
    ∃ hp hs nn ns g, mergeOnce s = .ok { s with hp := hp, hsize := hs, nnodes := nn, ns := ns } ∧
      Forest { s with hp := hp, hsize := hs, nnodes := nn, ns := ns } L ∧
      Roots { s with hp := hp, hsize := hs, nnodes := nn, ns := ns } L g (k + 1) := by
  have hcap := hF.cap
  have hge := hF.ge
  have hsize := hR.size
  have hlt : s.nnodes.toNat < 131071 := by omega
  obtain ⟨hp1, g1, e1, q1, p1, i1, l1⟩ := pqExtractMin_spec hR.queue hR.ok hR.heap
  have o1 : NodesOk { s with hp := hp1, hsize := BitVec.ofNat 17 (k + 1) } g1 (k + 1) :=
    hR.ok.tail p1 rfl rfl
  obtain ⟨hp2, g2, e2, q2, p2, i2, l2⟩ := pqExtractMin_spec q1 o1 (i1.congr rfl)
  let s2 : State := { s with hp := hp2, hsize := BitVec.ofNat 17 k }
  have o2 : NodesOk s2 g2 k := o1.tail p2 rfl rfl
  have hperm : (f 0 :: g1 0 :: nodesOf g2 k).Perm (nodesOf f (k + 2)) := (p2.cons _).trans p1
  have ha : (f 0).toNat < s.nnodes.toNat := nodesOf_lt hR.ok (hperm.subset (by simp))
  have hb : (g1 0).toNat < s.nnodes.toNat := nodesOf_lt hR.ok (hperm.subset (by simp))
  have hab : nodeLess s (f 0) (g1 0) = true := l1 _ (p2.subset (by simp))
  obtain ⟨x, hx, hx', hxf⟩ := hF.nsRead ha
  obtain ⟨y, hy, hy', hyf⟩ := hF.nsRead hb
  have hnd := hperm.nodup_iff.2 hR.ok.nodup
  rw [List.nodup_cons, List.nodup_cons] at hnd
  obtain ⟨hnd1, hnd2, hnd3⟩ := hnd
  have hne : f 0 ≠ g1 0 := fun h => hnd1 (by rw [h]; simp)
  have hneN : (f 0).toNat ≠ (g1 0).toNat := fun h => hne (BitVec.eq_of_toNat_eq h)
  have hmemN : ∀ n : NodeIx, n ∉ nodesOf g2 k → n.toNat ∉ (nodesOf g2 k).map BitVec.toNat := by
    intro n hn h
    obtain ⟨m, hm, he⟩ := List.mem_map.1 h
    exact hn (BitVec.eq_of_toNat_eq he ▸ hm)
  have hw := hR.weight
  rw [← (hperm.map (freqAt s)).sum_eq] at hw
  simp only [List.map_cons, List.sum_cons] at hw
  let d := internalNode (x.freq + y.freq) (f 0) (g1 0)
  have hsum := hF.sum
  have hd : d.freq.toNat = x.freq.toNat + y.freq.toNat := by
    show (x.freq + y.freq).toNat = _
    rw [BitVec.toNat_add]
    apply Nat.mod_eq_of_lt
    omega
  have hmem : ∀ m, m ∈ (nodesOf f (k + 2)).map BitVec.toNat ↔
      m = (f 0).toNat ∨ m = (g1 0).toNat ∨ m ∈ (nodesOf g2 k).map BitVec.toNat := by
    intro m
    rw [← (hperm.map BitVec.toNat).mem_iff]
    simp
  have hpar : ∀ m, parentCount s m + childCount d m =
      if m < s.nnodes.toNat ∧ m ∉ (nodesOf g2 k).map BitVec.toNat then 1 else 0 := by
    intro m
    rw [hR.parents, childCount_internal]
    by_cases h1 : (f 0).toNat = m
    · subst h1
      rw [if_neg (fun h => h.2 ((hmem _).2 (.inl rfl))), if_pos rfl, if_neg (Ne.symm hneN),
        if_pos ⟨ha, hmemN _ (fun h => hnd1 (List.mem_cons_of_mem _ h))⟩]
    · by_cases h2 : (g1 0).toNat = m
      · subst h2
        rw [if_neg (fun h => h.2 ((hmem _).2 (.inr (.inl rfl)))), if_neg h1, if_pos rfl,
          if_pos ⟨hb, hmemN _ hnd2⟩]
      · have : m ∈ (nodesOf f (k + 2)).map BitVec.toNat ↔ m ∈ (nodesOf g2 k).map BitVec.toNat := by
          rw [hmem]
          simp [Ne.symm h1, Ne.symm h2]
        rw [if_neg h1, if_neg h2]
        simp only [this, Nat.add_zero]
  have hR2size : s2.nnodes.toNat + 1 + (k + 1) = 2 * L.length := by
    show s.nnodes.toNat + 1 + (k + 1) = _; omega
  have hw2 : ((nodesOf g2 k).map (freqAt s2)).sum + d.freq.toNat = countSum L := by
    show ((nodesOf g2 k).map (freqAt s)).sum + d.freq.toNat = _
    rw [hd, ← hw, hxf, hyf]; ring
  obtain ⟨hp3, g3, e3, r3⟩ := insertNew_spec (s := s2) (L' := L) d q2 o2 (i2.congr rfl) hF.below (by omega)
    hlt hR2size hpar hw2
  refine ⟨hp3, s2.hsize + 1#17, (addNode d s).nnodes, (addNode d s).ns, g3, ?_, ?_, r3⟩
  · simp only [mergeOnce, e1, Run.ok_bind, e2]
    rw [show nsRead (f 0) { s with hp := hp2, hsize := BitVec.ofNat 17 k } = .ok x from hx',
      show nsRead (g1 0) { s with hp := hp2, hsize := BitVec.ofNat 17 k } = .ok y from hy']
    simp only [Run.ok_bind, newInternal]
    rw [show nsAppend d s2 = .ok (s2.nnodes, addNode d s2) from nsAppend_eq hlt]
    exact e3
  · refine Forest.congr (s := addNode d s) ?_ rfl rfl
    refine ⟨hF.cap, hF.sum, ?_, Store.sorted_put hF.sorted _ _, ?_, ?_, ?_⟩
    · rw [addNode_nnodes hlt]; have := hF.ge; omega
    · rw [addNode_nnodes hlt]
      exact Store.below_put (Store.below_mono hF.below (by omega)) (by omega) _
    · intro i hi
      rw [addNode_get_old (by have := hF.ge; omega)]
      exact hF.leaf i hi
    · intro n hn hl
      rw [addNode_nnodes hlt] at hn
      by_cases h : n < s.nnodes.toNat
      · exact (hF.internal n h hl).addNode h
      · obtain rfl : n = s.nnodes.toNat := by omega
        refine ⟨d, x, y, addNode_get_new d s, rfl, rfl, ha, hb, ?_, ?_, hd, ?_, ?_⟩
        · exact (addNode_get_old ha).trans hx
        · exact (addNode_get_old hb).trans hy
        · show nodeLess (addNode d s) (f 0) (g1 0) = true
          rw [addNode_nodeLess ha hb]; exact hab
        · intro z hz hzl hzr hall
          have hzt : (BitVec.ofNat 17 z).toNat = z := by simp; omega
          show nodeLess (addNode d s) (g1 0) (BitVec.ofNat 17 z) = true
          rw [addNode_nodeLess hb (by rw [hzt]; exact hz)]
          have hz0 : parentCount s z = 0 := by
            unfold parentCount
            apply List.sum_eq_zero
            intro c hc
            obtain ⟨p, hp, rfl⟩ := List.mem_map.1 hc
            have hpl := hF.below p hp
            have hget := Store.get?_of_mem hF.sorted hp
            by_cases hp1 : p.1 < L.length
            · rw [hF.leaf _ hp1] at hget
              obtain ⟨q, _, hq⟩ := Option.map_eq_some_iff.1 hget
              rw [← hq]; rfl
            · obtain ⟨c', hc', hc''⟩ := hall p.1 hpl (by omega)
              rw [addNode_get_old hpl, Option.mem_def, hget] at hc'
              cases hc'
              exact hc''
          have hzin : z ∈ (nodesOf f (k + 2)).map BitVec.toNat := by
            by_contra hcon
            rw [hR.parents, if_pos ⟨hz, hcon⟩] at hz0
            cases hz0
          rcases (hmem z).1 hzin with h1 | h1 | h1
          · exact absurd h1 hzl
          · exact absurd h1 hzr
          · obtain ⟨w, hw1, hw2⟩ := List.mem_map.1 h1
            have hwz : BitVec.ofNat 17 z = w := BitVec.eq_of_toNat_eq (by rw [hzt, hw2])
            rw [hwz]
            exact l2 w hw1

/-- The merge loop (rule R149): down to one root. -/
theorem mergeLoop_spec (r : Nat) : ∀ (s : State) (L : Store Count) (f : Nat → NodeIx) (k : Nat),
    k ≤ r → Forest s L → Roots s L f (k + 1) →
    ∃ hp hs nn ns g, mergeLoop r s = .ok { s with hp := hp, hsize := hs, nnodes := nn, ns := ns } ∧
      Forest { s with hp := hp, hsize := hs, nnodes := nn, ns := ns } L ∧
      Roots { s with hp := hp, hsize := hs, nnodes := nn, ns := ns } L g 1 := by
  induction r with
  | zero =>
    intro s L f k hk hF hR
    obtain rfl : k = 0 := by omega
    exact ⟨s.hp, s.hsize, s.nnodes, s.ns, f, rfl, hF, hR⟩
  | succ r ih =>
    intro s L f k hk hF hR
    have hs := hR.queue.size
    by_cases h : k = 0
    · subst h
      refine ⟨s.hp, s.hsize, s.nnodes, s.ns, f, ?_, hF, hR⟩
      rw [mergeLoop, if_neg (by omega)]
    · obtain ⟨k, rfl⟩ : ∃ j, k = j + 1 := ⟨k - 1, by omega⟩
      obtain ⟨hp, hs', nn, ns, g, h1, h2, h3⟩ := mergeOnce_spec hF hR
      obtain ⟨hp', hs'', nn', ns', g', h4, h5, h6⟩ := ih _ L g k (by omega) h2 h3
      refine ⟨hp', hs'', nn', ns', g', ?_, h5, h6⟩
      rw [mergeLoop, if_pos (by omega), h1]
      exact h4

/-! ### The whole of BUILD's two phases -/

/-- No tree and an empty queue (rule R156). -/
abbrev Fresh (s : State) : Prop := s.nnodes = 0#17 ∧ s.hsize = 0#17 ∧ s.ns = [] ∧ s.hp = []

theorem Fresh.forest {s : State} (h : Fresh s) : Forest s [] := by
  obtain ⟨h1, -, h3, -⟩ := h
  refine ⟨by simp, by simp [countSum], Nat.zero_le _, by simp [h3], by simp [h3], by simp, ?_⟩
  intro n hn
  rw [h1] at hn
  simp at hn

theorem Fresh.roots {s : State} (h : Fresh s) (f : Nat → NodeIx) : Roots s [] f 0 := by
  obtain ⟨h1, h2, h3, h4⟩ := h
  refine ⟨⟨by simp [h2], by simp, by simp [h4], by simp [h4], fun i hi => by omega⟩, ⟨.nil, fun i hi => by omega⟩,
    fun j hj => by omega, by simp [h1], ?_, by simp [countSum]⟩
  intro m
  simp [parentCount, h3, h1]

/-- A table of one symbol: the wrapper of rule R150. -/
theorem growTree_one {s : State} {p : Nat × Count} (h : Fresh s) (hft : s.ft = [p]) :
    growTree s = .ok { s with
      nnodes := 2#17, hsize := 0#17, root := 1#17, hp := [],
      ns := [(0, leafNode (BitVec.ofNat 16 p.1) p.2),
        (1, internalNode (p.2.setWidth 48) 0#17 Config.nil)] } := by
  obtain ⟨_, _, _, _, _, _, _, _, _, _, _, _, _, _, _, _, _, _, _, _, _, _, _⟩ := s
  obtain ⟨rfl, rfl, rfl, rfl⟩ := h
  cases hft
  rfl

/-- The node with the highest index has no parent: links lead down. -/
theorem Forest.top {s : State} {L : Store Count} (h : Forest s L) {n : Nat}
    (hn : s.nnodes.toNat = n + 1) : parentCount s n = 0 := by
  unfold parentCount
  apply List.sum_eq_zero
  intro c hc
  obtain ⟨p, hp, rfl⟩ := List.mem_map.1 hc
  have hpl := h.below p hp
  have hget := Store.get?_of_mem h.sorted hp
  by_cases hp1 : p.1 < L.length
  · rw [h.leaf _ hp1] at hget
    obtain ⟨q, _, hq⟩ := Option.map_eq_some_iff.1 hget
    rw [← hq]; rfl
  · obtain ⟨d, x, y, h1, h2, h3, h4, h5, -⟩ := h.internal p.1 hpl (by omega)
    rw [hget] at h1
    cases h1
    unfold childCount
    simp only [if_pos h2, if_neg (show ¬p.2.left.toNat = n by omega),
      if_neg (show ¬p.2.right.toNat = n by omega), Nat.add_zero]

/-- A table of two symbols or more: the merges end in one tree over all leaves (rules R149, R152). -/
theorem growTree_many {s : State} (h : Fresh s) (hft : ftWf s.ft) (h2 : 2 ≤ s.ft.length) :
    ∃ nn ns, growTree s = .ok { s with
        nnodes := nn, hsize := 0#17, root := BitVec.ofNat 17 (2 * s.ft.length - 2), hp := [], ns := ns } ∧
      nn.toNat = 2 * s.ft.length - 1 ∧
      Forest { s with nnodes := nn, ns := ns } s.ft ∧
      (∀ m < nn.toNat, parentCount { s with nnodes := nn, ns := ns } m =
        if m = 2 * s.ft.length - 2 then 0 else 1) ∧
      freqAt { s with nnodes := nn, ns := ns } (BitVec.ofNat 17 (2 * s.ft.length - 2)) =
        countSum s.ft := by
  have hcap : s.ft.length ≤ 65536 := ftWf_length_le hft
  obtain ⟨hp, hs, nn, ns, g, h3, h4, h5, h6⟩ := leafPhase_spec s.ft s [] (fun _ => 0#17) (by simpa using hcap)
    (by simpa using countSum_lt hft) h.forest (by simp [h.1]) (h.roots _)
  simp only [List.nil_append] at h4 h5 h6
  have hsz : hs.toNat = s.ft.length := h6.queue.size
  obtain ⟨k, hk⟩ : ∃ k, s.ft.length = k + 1 := ⟨s.ft.length - 1, by omega⟩
  obtain ⟨hp', hs', nn', ns', g', h7, h8, h9⟩ := mergeLoop_spec hs.toNat _ s.ft g k (by omega) h4
    (by rw [← hk]; exact h6)
  obtain ⟨hp'', g'', h10, h11, h12, -, -⟩ := pqExtractMin_spec (n := 0) h9.queue h9.ok h9.heap
  have hsize : nn'.toNat + 1 = 2 * s.ft.length := h9.size
  have hnil : hp'' = [] := by
    apply List.eq_nil_iff_forall_not_mem.2
    intro p hp
    exact absurd (h11.below p hp) (by omega)
  have htop := h8.top (n := 2 * s.ft.length - 2) (by show nn'.toNat = _; omega)
  have hmem : (2 * s.ft.length - 2) ∈ (nodesOf g' 1).map BitVec.toNat := by
    by_contra hcon
    have h0 := h9.parents (2 * s.ft.length - 2)
    rw [if_pos ⟨by show _ < nn'.toNat; omega, hcon⟩] at h0
    rw [htop] at h0
    cases h0
  have hroot : (g' 0).toNat = 2 * s.ft.length - 2 := by
    obtain ⟨x, hx, he⟩ := List.mem_map.1 hmem
    simp only [nodesOf, List.range_one, List.map_cons, List.map_nil, List.mem_singleton] at hx
    rw [← he, hx]
  have hroot' : BitVec.ofNat 17 (2 * s.ft.length - 2) = g' 0 := by
    apply BitVec.eq_of_toNat_eq
    rw [← hroot]
    simp
  have hF : Forest { s with nnodes := nn', ns := ns' } s.ft := Forest.congr h8 rfl rfl
  refine ⟨nn', ns', ?_, by omega, hF, ?_, ?_⟩
  · unfold growTree
    rw [h3]
    simp only [Run.ok_bind]
    rw [if_neg (by intro h0; rw [h0] at hsz; simp at hsz; omega)]
    unfold mergeAll
    rw [h7]
    simp only [Run.ok_bind]
    rw [h10, hroot', hnil]
    rfl
  · intro m hm
    have := h9.parents m
    rw [show parentCount { s with nnodes := nn', ns := ns' } m = _ from this]
    by_cases hmr : m = 2 * s.ft.length - 2
    · rw [if_neg (fun hh => hh.2 (by rw [hmr]; exact hmem)), if_pos hmr]
    · rw [if_pos ⟨hm, by simpa [hroot] using hmr⟩, if_neg hmr]
  · rw [hroot']
    have := h9.weight
    simp only [nodesOf, List.range_one, List.map_cons, List.map_nil, List.sum_cons, List.sum_nil,
      Nat.add_zero] at this
    exact this

end Sys2Proof.Machine
end

