-- ==== Sys2Proof/Laws/Memory.lean ====
section
/-!
SUPPORT. Every memory operation keeps the canonical form of the memories, and so does every stretch of
pseudocode made of them; the reset state has it (log 9).
-/

namespace Sys2Proof.Machine

variable {s t : State}

/-! ### The four memories -/

theorem Memory.wf_reset : Memory.wf State.reset := by decide

/-- The form is a matter of the four memories, `NNODES` and `HSIZE` alone. -/
theorem Memory.wf_congr (h : Memory.wf s) (h1 : t.ft = s.ft) (h2 : t.ct = s.ct) (h3 : t.ns = s.ns)
    (h4 : t.hp = s.hp) (h5 : t.nnodes = s.nnodes) (h6 : t.hsize = s.hsize) : Memory.wf t := by
  simpa only [Memory.wf, h1, h2, h3, h4, h5, h6] using h

theorem Memory.wf_ftWrite (h : Memory.wf s) (v : Sym) (c : Count) : Memory.wf (ftWrite v c s) := by
  obtain ⟨hf, hc⟩ := h
  refine ⟨?_, hc⟩
  unfold ftWrite
  by_cases h0 : c = 0#32
  · rw [if_pos h0]
    exact ⟨Store.sorted_del hf.1 _, Store.below_del hf.2.1 _, fun p hp => hf.2.2 p (Store.mem_del hp)⟩
  · rw [if_neg h0]
    exact ftWf_put hf v.isLt h0

theorem Memory.wf_ctWrite (h : Memory.wf s) (v : Sym) (c : Code) : Memory.wf (ctWrite v c s) := by
  obtain ⟨hf, hc, hr⟩ := h
  refine ⟨hf, ?_, hr⟩
  unfold ctWrite
  by_cases h0 : c = []
  · rw [if_pos h0]
    exact ⟨Store.sorted_del hc.1 _, Store.below_del hc.2.1 _, fun p hp => hc.2.2 p (Store.mem_del hp)⟩
  · rw [if_neg h0]
    refine ⟨Store.sorted_put hc.1 _ _, Store.below_put hc.2.1 v.isLt _, fun p hp => ?_⟩
    rcases Store.mem_put hp with rfl | hp
    · exact h0
    · exact hc.2.2 p hp

theorem Memory.wf_nsAppend {d : Node} {n : NodeIx} (h : Memory.wf s) (ho : nsAppend d s = .ok (n, t)) :
    Memory.wf t := by
  obtain ⟨hf, hc, hn, hp⟩ := h
  unfold nsAppend at ho
  split at ho
  · rename_i hlt
    cases ho
    have hlt' : s.nnodes.toNat < 131071 := hlt
    have e : (s.nnodes + 1#17).toNat = s.nnodes.toNat + 1 := by
      rw [BitVec.toNat_add]; simp only [BitVec.toNat_ofNat]; omega
    refine ⟨hf, hc, ⟨Store.sorted_put hn.1 _ _, ?_⟩, hp⟩
    show Store.Below (s.nnodes + 1#17).toNat _
    rw [e]
    exact Store.below_put (Store.below_mono hn.2 (by omega)) (by omega) _
  · cases ho

/-- A write to a position in use (spec/20_memory.md rule R63). -/
theorem Memory.wf_hpWrite {i : Nat} {n : NodeIx} (h : Memory.wf s) (hi : i < s.hsize.toNat)
    (ho : hpWrite i n s = .ok t) : Memory.wf t ∧ t.hsize = s.hsize ∧ t.nnodes = s.nnodes := by
  obtain ⟨hf, hc, hn, hp⟩ := h
  unfold hpWrite at ho
  split at ho
  · cases ho
    exact ⟨⟨hf, hc, hn, Store.sorted_put hp.1 _ _, Store.below_put hp.2 hi _⟩, rfl, rfl⟩
  · cases ho

theorem Memory.wf_hpShrink (h : Memory.wf s) :
    Memory.wf (hpShrink (s.hsize.toNat - 1) s) := by
  obtain ⟨hf, hc, hn, hp⟩ := h
  have hl := s.hsize.isLt
  have e : (BitVec.ofNat 17 (s.hsize.toNat - 1)).toNat = s.hsize.toNat - 1 := by
    simp only [BitVec.toNat_ofNat]; omega
  refine ⟨hf, hc, hn, Store.sorted_del hp.1 _, ?_⟩
  intro p hp'
  show p.1 < (BitVec.ofNat 17 (s.hsize.toNat - 1)).toNat
  rw [e]
  have h1 := hp.2 p (Store.mem_del hp')
  have h2 : p.1 ≠ s.hsize.toNat - 1 := by
    intro he
    have hg := Store.get?_of_mem (Store.sorted_del hp.1 (s.hsize.toNat - 1)) hp'
    rw [← he] at hg
    rw [Store.get?_del_same hp.1] at hg
    cases hg
  omega

theorem Memory.wf_dropTree (h : Memory.wf s) : Memory.wf (dropTree s) :=
  ⟨h.1, h.2.1, ⟨.nil, by simp [dropTree]⟩, ⟨.nil, by simp [dropTree]⟩⟩

theorem Memory.wf_dropCodes (h : Memory.wf s) : Memory.wf (dropCodes s) :=
  ⟨h.1, ⟨.nil, by simp [dropCodes], by simp [dropCodes]⟩, h.2.2⟩

/-- Clearing leaves the canonical form whatever was there. -/
theorem Memory.wf_of_empty (h1 : t.ft = []) (h2 : t.ct = []) (h3 : t.ns = []) (h4 : t.hp = []) :
    Memory.wf t := by simp [Memory.wf, ftWf, ctWf, h1, h2, h3, h4]

theorem Memory.wf_clearTables (s : State) : Memory.wf (clearTables s) :=
  Memory.wf_of_empty rfl rfl rfl rfl

theorem Memory.wf_clearAll (s : State) : Memory.wf (clearAll s) := Memory.wf_of_empty rfl rfl rfl rfl

theorem Memory.wf_faultEntry (k : FaultKind) (s : State) : Memory.wf (faultEntry k s) :=
  Memory.wf_of_empty rfl rfl rfl rfl

theorem Memory.wf_resetCore (s : State) : Memory.wf (resetCore s) := Memory.wf_of_empty rfl rfl rfl rfl

/-! ### The priority queue -/

theorem hpSwap_wf {i j : Nat} (h : Memory.wf s) (ho : hpSwap i j s = .ok t) :
    Memory.wf t ∧ t.hsize = s.hsize ∧ t.nnodes = s.nnodes := by
  unfold hpSwap at ho
  obtain ⟨a, ha, ho⟩ := Run.bind_eq_ok.1 ho
  obtain ⟨b, hb, ho⟩ := Run.bind_eq_ok.1 ho
  obtain ⟨u, hu, ho⟩ := Run.bind_eq_ok.1 ho
  have hi : i < s.hsize.toNat := by unfold hpRead at ha; split at ha <;> simp_all
  have hj : j < s.hsize.toNat := by unfold hpRead at hb; split at hb <;> simp_all
  obtain ⟨w1, e1, e2⟩ := Memory.wf_hpWrite h hi hu
  obtain ⟨w2, e3, e4⟩ := Memory.wf_hpWrite w1 (by rw [e1]; exact hj) ho
  exact ⟨w2, e3.trans e1, e4.trans e2⟩

theorem siftUp_wf : ∀ (n i : Nat) (s t : State), Memory.wf s → siftUp n i s = .ok t → Memory.wf t
  | 0, _, s, t, h, ho => by cases ho; exact h
  | n + 1, i, s, t, h, ho => by
    unfold siftUp at ho
    split at ho
    · cases ho; exact h
    · obtain ⟨c, _, ho⟩ := Run.bind_eq_ok.1 ho
      split at ho
      · obtain ⟨u, hu, ho⟩ := Run.bind_eq_ok.1 ho
        exact siftUp_wf n _ u t (hpSwap_wf h hu).1 ho
      · cases ho; exact h

theorem pqInsert_wf {n : NodeIx} (h : Memory.wf s) (ho : pqInsert n s = .ok t) : Memory.wf t := by
  unfold pqInsert at ho
  obtain ⟨u, hu, ho⟩ := Run.bind_eq_ok.1 ho
  refine siftUp_wf _ _ _ t ?_ ho
  obtain ⟨hf, hc, hn, hp⟩ := h
  unfold hpWrite at hu
  split at hu
  · rename_i hlt
    cases hu
    have hlt' : s.hsize.toNat < 65536 := hlt
    have e : (s.hsize + 1#17).toNat = s.hsize.toNat + 1 := by
      rw [BitVec.toNat_add]; simp only [BitVec.toNat_ofNat]; omega
    refine ⟨hf, hc, hn, Store.sorted_put hp.1 _ _, ?_⟩
    show Store.Below (s.hsize + 1#17).toNat _
    rw [e]
    exact Store.below_put (Store.below_mono hp.2 (by omega)) (by omega) _
  · cases hu

theorem siftDown_wf : ∀ (n i : Nat) (s t : State), Memory.wf s → siftDown n i s = .ok t → Memory.wf t
  | 0, _, s, t, h, ho => by cases ho; exact h
  | n + 1, i, s, t, h, ho => by
    unfold siftDown at ho
    obtain ⟨a, _, ho⟩ := Run.bind_eq_ok.1 ho
    obtain ⟨b, _, ho⟩ := Run.bind_eq_ok.1 ho
    split at ho
    · cases ho; exact h
    · obtain ⟨u, hu, ho⟩ := Run.bind_eq_ok.1 ho
      exact siftDown_wf n _ u t (hpSwap_wf h hu).1 ho

theorem pqExtractMin_wf {m : NodeIx} (h : Memory.wf s) (ho : pqExtractMin s = .ok (m, t)) :
    Memory.wf t := by
  unfold pqExtractMin at ho
  split at ho
  · cases ho
  · obtain ⟨a, _, ho⟩ := Run.bind_eq_ok.1 ho
    obtain ⟨u, hu, ho⟩ := Run.bind_eq_ok.1 ho
    obtain ⟨w, e1, -⟩ := hpSwap_wf h hu
    obtain ⟨v, hv, ho⟩ := Run.bind_eq_ok.1 ho
    cases ho
    refine siftDown_wf _ _ _ _ ?_ hv
    rw [← e1]
    exact Memory.wf_hpShrink w

end Sys2Proof.Machine
end

