-- ==== Sys2Proof/Laws/Shape.lean ====
section
/-!
SUPPORT. What each stretch of pseudocode may change at all, whether it ends or raises: the registers and
memories it writes, the ports it uses, and that it only adds transfers to the host's record.
-/

namespace Sys2Proof.Machine

variable {α β : Type}

/-! ### Two-sided postconditions -/

/-- What holds of the result of a piece of pseudocode that ends, and of the state a fault is raised in. -/
structure Post (m : Run α) (Q : α → Prop) (E : FaultKind → State → Prop) : Prop where
  ok : ∀ a, m = .ok a → Q a
  raised : ∀ k u, m = .error (.raised k u) → E k u

theorem Post.of_ok {a : α} {Q : α → Prop} {E : FaultKind → State → Prop} (h : Q a) :
    Post (.ok a : Run α) Q E := ⟨fun _ e => (by cases e; exact h), fun _ _ e => (by cases e)⟩

theorem Post.of_raised {k : FaultKind} {u : State} {Q : α → Prop} {E : FaultKind → State → Prop}
    (h : E k u) : Post (.error (.raised k u) : Run α) Q E :=
  ⟨fun _ e => (by cases e), fun _ _ e => (by cases e; exact h)⟩

theorem Post.of_fault {r : Fault} {Q : α → Prop} {E : FaultKind → State → Prop} :
    Post (.error (.fault r) : Run α) Q E := ⟨fun _ e => (by cases e), fun _ _ e => (by cases e)⟩

theorem Post.of_refused {r : Refusal} {Q : α → Prop} {E : FaultKind → State → Prop} :
    Post (.error (.refused r) : Run α) Q E := ⟨fun _ e => (by cases e), fun _ _ e => (by cases e)⟩

theorem Post.bind {m : Run α} {f : α → Run β} {Q : α → Prop} {P : β → Prop}
    {E : FaultKind → State → Prop} (h : Post m Q E) (hf : ∀ a, Q a → Post (f a) P E) :
    Post (m >>= f) P E := by
  constructor
  · intro b hb
    obtain ⟨a, ha, hb⟩ := Run.bind_eq_ok.1 hb
    exact (hf a (h.ok a ha)).ok b hb
  · intro k u hu
    rcases Run.bind_eq_error.1 hu with hu | ⟨a, ha, hu⟩
    · exact h.raised k u hu
    · exact (hf a (h.ok a ha)).raised k u hu

theorem Post.mono {m : Run α} {Q Q' : α → Prop} {E E' : FaultKind → State → Prop} (h : Post m Q E)
    (hq : ∀ a, Q a → Q' a) (he : ∀ k u, E k u → E' k u) : Post m Q' E' :=
  ⟨fun a ha => hq a (h.ok a ha), fun k u hu => he k u (h.raised k u hu)⟩

/-- A piece that raises nothing. -/
theorem Post.of_never {m : Run α} {Q : α → Prop} {E : FaultKind → State → Prop}
    (h : ∀ a, m = .ok a → Q a) (hn : ∀ k u, m ≠ .error (.raised k u)) : Post m Q E :=
  ⟨h, fun k u hu => absurd hu (hn k u)⟩

/-! ### Transfers -/

/-- An event of a transfer, not a bracket (spec/20_memory.md rules R67 to R72). -/
def PortEvent.transfer : PortEvent → Bool
  | .opened _ => false
  | .released _ => false
  | .committed _ => false
  | .aborted _ => false
  | .tookSym _ => true
  | .tookByte _ => true
  | .offeredByte _ _ => true
  | .offeredSym _ _ => true

/-- Only transfers happened on the ports: the host's record has grown by transfers, what is open stays
open and what is shut stays shut, and nothing else of the host's side changed. -/
def Moved (a b : Env) : Prop :=
  ∃ c1 c2 c3 c4 es, b = { a with
      ssrc := { a.ssrc with cur := c1 }, bsrc := { a.bsrc with cur := c2 },
      bsnk := { a.bsnk with cur := c3 }, ssnk := { a.ssnk with cur := c4 },
      trace := a.trace ++ es } ∧
    (c1.isSome = a.ssrc.cur.isSome ∧ c2.isSome = a.bsrc.cur.isSome ∧
      c3.isSome = a.bsnk.cur.isSome ∧ c4.isSome = a.ssnk.cur.isSome) ∧
    ∀ e ∈ es, e.transfer = true

theorem Moved.refl (a : Env) : Moved a a :=
  ⟨a.ssrc.cur, a.bsrc.cur, a.bsnk.cur, a.ssnk.cur, [], by simp, ⟨rfl, rfl, rfl, rfl⟩, by simp⟩

theorem Moved.trans {a b c : Env} (h : Moved a b) (h' : Moved b c) : Moved a c := by
  obtain ⟨c1, c2, c3, c4, es, rfl, hc, he⟩ := h
  obtain ⟨d1, d2, d3, d4, es', rfl, hd, he'⟩ := h'
  refine ⟨d1, d2, d3, d4, es ++ es', by simp, ?_, ?_⟩
  · exact ⟨hd.1.trans hc.1, hd.2.1.trans hc.2.1, hd.2.2.1.trans hc.2.2.1, hd.2.2.2.trans hc.2.2.2⟩
  · intro e h
    rcases List.mem_append.1 h with h | h
    · exact he e h
    · exact he' e h

theorem srcSym_moved (s : State) : Post (srcSym s)
    (fun r => r.2 = { s with env := r.2.env } ∧ Moved s.env r.2.env ∧
      r.2.env = { s.env with ssrc := r.2.env.ssrc, trace := r.2.env.trace }) (fun _ _ => False) := by
  obtain ⟨_, _, _, _, _, _, _, _, _, _, _, _, _, _, _, _, _, _, _, _, _, _,
    ⟨_, ⟨_, c⟩, _, _, _, _, _, _, _⟩⟩ := s
  rcases c with _ | ⟨_ | ⟨v, vs⟩, _ | _⟩
  · exact Post.of_refused
  all_goals exact Post.of_ok ⟨rfl, ⟨_, _, _, _, [_], rfl, ⟨rfl, rfl, rfl, rfl⟩, by simp [PortEvent.transfer]⟩, rfl⟩

theorem srcByte_moved (s : State) : Post (srcByte s)
    (fun r => r.2 = { s with env := r.2.env } ∧ Moved s.env r.2.env ∧
      r.2.env = { s.env with bsrc := r.2.env.bsrc, trace := r.2.env.trace }) (fun _ _ => False) := by
  obtain ⟨_, _, _, _, _, _, _, _, _, _, _, _, _, _, _, _, _, _, _, _, _, _,
    ⟨_, _, ⟨_, c⟩, _, _, _, _, _, _⟩⟩ := s
  rcases c with _ | ⟨_ | ⟨v, vs⟩, _ | _⟩
  · exact Post.of_refused
  all_goals exact Post.of_ok ⟨rfl, ⟨_, _, _, _, [_], rfl, ⟨rfl, rfl, rfl, rfl⟩, by simp [PortEvent.transfer]⟩, rfl⟩

theorem sinkByte_moved (b : Byte) (s : State) : Post (sinkByte b s)
    (fun r => r.2 = { s with env := r.2.env } ∧ Moved s.env r.2.env ∧
      r.2.env = { s.env with bsnk := r.2.env.bsnk, trace := r.2.env.trace }) (fun _ _ => False) := by
  obtain ⟨_, _, _, _, _, _, _, _, _, _, _, _, _, _, _, _, _, _, _, _, _, _,
    ⟨_, _, _, ⟨_, c, _⟩, _, _, _, _, _⟩⟩ := s
  rcases c with _ | ⟨items, _ | _ | k⟩
  · exact Post.of_refused
  all_goals exact Post.of_ok ⟨rfl, ⟨_, _, _, _, [_], rfl, ⟨rfl, rfl, rfl, rfl⟩, by simp [PortEvent.transfer]⟩, rfl⟩

theorem sinkSym_moved (v : Sym) (s : State) : Post (sinkSym v s)
    (fun r => r.2 = { s with env := r.2.env } ∧ Moved s.env r.2.env ∧
      r.2.env = { s.env with ssnk := r.2.env.ssnk, trace := r.2.env.trace }) (fun _ _ => False) := by
  obtain ⟨_, _, _, _, _, _, _, _, _, _, _, _, _, _, _, _, _, _, _, _, _, _,
    ⟨_, _, _, _, ⟨_, c, _⟩, _, _, _, _⟩⟩ := s
  rcases c with _ | ⟨items, _ | _ | k⟩
  · exact Post.of_refused
  all_goals exact Post.of_ok ⟨rfl, ⟨_, _, _, _, [_], rfl, ⟨rfl, rfl, rfl, rfl⟩, by simp [PortEvent.transfer]⟩, rfl⟩

/-! ### What each stretch writes -/

/-- What the loop of COUNT may change (rule R120). -/
structure CountRel (s t : State) : Prop where
  eq : t = { s with ft := t.ft, distinct := t.distinct, total := t.total, env := t.env }
  moved : Moved s.env t.env
  ports : t.env = { s.env with ssrc := t.env.ssrc, trace := t.env.trace }
  wf : Memory.wf s → Memory.wf t

/-- What the tree phases of BUILD may change (rule R145). -/
structure BuildRel (s t : State) : Prop where
  eq : t = { s with nnodes := t.nnodes, hsize := t.hsize, root := t.root, ns := t.ns, hp := t.hp }
  wf : Memory.wf s → Memory.wf t

/-- What GEN's traversal may change (rule R160). -/
structure GenRel (s t : State) : Prop where
  eq : t = { s with ct := t.ct }
  wf : Memory.wf s → Memory.wf t

/-- What ENCODE may change after its ports are open (rule R170). -/
structure EncodeRel (s t : State) : Prop where
  eq : t = { s with acc := t.acc, nbits := t.nbits, bytesOut := t.bytesOut, env := t.env }
  moved : Moved s.env t.env
  ports : t.env = { s.env with ssrc := t.env.ssrc, bsnk := t.env.bsnk, trace := t.env.trace }

/-- What `parse_header` may change after the tables are clear (rule R191). -/
structure HeaderRel (s t : State) : Prop where
  eq : t = { s with
    ftv := t.ftv, distinct := t.distinct, total := t.total, bytesIn := t.bytesIn, ft := t.ft, env := t.env }
  moved : Moved s.env t.env
  ports : t.env = { s.env with bsrc := t.env.bsrc, trace := t.env.trace }
  wf : Memory.wf s → Memory.wf t

/-- What the walk may change (rule R194). -/
structure WalkRel (s t : State) : Prop where
  eq : t = { s with
    bytesIn := t.bytesIn, shift := t.shift, nbitsIn := t.nbitsIn, cur := t.cur, remain := t.remain,
    env := t.env }
  moved : Moved s.env t.env
  ports : t.env = { s.env with bsrc := t.env.bsrc, ssnk := t.env.ssnk, trace := t.env.trace }

theorem CountRel.refl (s : State) : CountRel s s := ⟨rfl, .refl _, rfl, id⟩
theorem BuildRel.refl (s : State) : BuildRel s s := ⟨rfl, id⟩
theorem GenRel.refl (s : State) : GenRel s s := ⟨rfl, id⟩
theorem EncodeRel.refl (s : State) : EncodeRel s s := ⟨rfl, .refl _, rfl⟩
theorem HeaderRel.refl (s : State) : HeaderRel s s := ⟨rfl, .refl _, rfl, id⟩
theorem WalkRel.refl (s : State) : WalkRel s s := ⟨rfl, .refl _, rfl⟩

theorem CountRel.trans {s t u : State} (h : CountRel s t) (h' : CountRel t u) : CountRel s u :=
  ⟨h'.eq.trans (by rw [h.eq]), h.moved.trans h'.moved, h'.ports.trans (by rw [h.ports]), h'.wf ∘ h.wf⟩

theorem BuildRel.trans {s t u : State} (h : BuildRel s t) (h' : BuildRel t u) : BuildRel s u :=
  ⟨h'.eq.trans (by rw [h.eq]), h'.wf ∘ h.wf⟩

theorem GenRel.trans {s t u : State} (h : GenRel s t) (h' : GenRel t u) : GenRel s u :=
  ⟨h'.eq.trans (by rw [h.eq]), h'.wf ∘ h.wf⟩

theorem EncodeRel.trans {s t u : State} (h : EncodeRel s t) (h' : EncodeRel t u) : EncodeRel s u :=
  ⟨h'.eq.trans (by rw [h.eq]), h.moved.trans h'.moved, h'.ports.trans (by rw [h.ports])⟩

theorem HeaderRel.trans {s t u : State} (h : HeaderRel s t) (h' : HeaderRel t u) : HeaderRel s u :=
  ⟨h'.eq.trans (by rw [h.eq]), h.moved.trans h'.moved, h'.ports.trans (by rw [h.ports]), h'.wf ∘ h.wf⟩

theorem WalkRel.trans {s t u : State} (h : WalkRel s t) (h' : WalkRel t u) : WalkRel s u :=
  ⟨h'.eq.trans (by rw [h.eq]), h.moved.trans h'.moved, h'.ports.trans (by rw [h.ports])⟩

/-- A postcondition by a relation that composes: on both sides the state is related to `s`, and the
fault is one of `K`. -/
abbrev Keeps (R : State → State → Prop) (K : List FaultKind) (s : State) (m : Run State) : Prop :=
  Post m (R s) (fun k u => R s u ∧ k ∈ K)

theorem Keeps.bind {R : State → State → Prop} (ht : ∀ {a b c}, R a b → R b c → R a c)
    {K : List FaultKind} {s : State} {m : Run State} {f : State → Run State} (h : Keeps R K s m)
    (hf : ∀ u, Keeps R K u (f u)) : Keeps R K s (m >>= f) := by
  refine Post.bind h fun u hu => ?_
  exact (hf u).mono (fun v hv => ht hu hv) fun k v hv => ⟨ht hu hv.1, hv.2⟩

theorem Keeps.after {R : State → State → Prop} (ht : ∀ {a b c}, R a b → R b c → R a c)
    {K : List FaultKind} {s u : State} {m : Run State} (h : R s u) (hm : Keeps R K u m) :
    Keeps R K s m := hm.mono (fun _ hv => ht h hv) fun _ _ hv => ⟨ht h hv.1, hv.2⟩

theorem Keeps.weaken {R : State → State → Prop} {K K' : List FaultKind} {s : State} {m : Run State}
    (h : Keeps R K s m) (hk : K ⊆ K') : Keeps R K' s m :=
  h.mono (fun _ h => h) fun _ _ h => ⟨h.1, hk h.2⟩

/-! ### COUNT -/

theorem countStep_keeps (v : Sym) (s : State) : Keeps CountRel [.capacityError] s (countStep v s) := by
  unfold countStep
  split
  · exact Post.of_raised ⟨.refl s, by simp⟩
  · refine Post.of_ok ⟨?_, ?_, ?_, ?_⟩
    · split <;> rfl
    · split <;> exact .refl _
    · split <;> rfl
    · intro h
      split
      · exact Memory.wf_congr (Memory.wf_ftWrite h v (ftRead v s + 1#32)) rfl rfl rfl rfl rfl rfl
      · exact Memory.wf_congr (Memory.wf_ftWrite h v (ftRead v s + 1#32)) rfl rfl rfl rfl rfl rfl

theorem srcSym_countRel (s : State) : Post (srcSym s) (fun r => CountRel s r.2) (fun _ _ => False) :=
  (srcSym_moved s).mono
    (fun r ⟨h1, h2, h3⟩ => ⟨by rw [h1], h2, h3, fun h => by rw [h1]; exact h⟩) fun _ _ h => h

theorem countLoop_keeps : ∀ (n : Nat) (s : State),
    Keeps CountRel [.ioError, .capacityError] s (countLoop n s)
  | 0, _ => Post.of_fault
  | n + 1, s => by
    unfold countLoop
    refine Post.bind ((srcSym_countRel s).mono (fun _ h => h) fun _ _ h => h.elim) fun r hr => ?_
    obtain ⟨e, u⟩ := r
    rcases e with v | _ | _
    · refine Keeps.after .trans hr (Keeps.bind .trans ?_ (countLoop_keeps n))
      exact (countStep_keeps v u).weaken (by simp)
    · exact Post.of_ok hr
    · exact Post.of_raised ⟨hr, by simp⟩

/-! ### BUILD -/

theorem hpSwap_eq {i j : Nat} {s t : State} (h : hpSwap i j s = .ok t) : t = { s with hp := t.hp } := by
  unfold hpSwap at h
  obtain ⟨a, _, h⟩ := Run.bind_eq_ok.1 h
  obtain ⟨b, _, h⟩ := Run.bind_eq_ok.1 h
  obtain ⟨u, hu, h⟩ := Run.bind_eq_ok.1 h
  unfold hpWrite at hu h
  split at hu
  · split at h
    · cases hu; cases h; rfl
    · cases h
  · cases hu

theorem siftUp_eq : ∀ (n i : Nat) (s t : State), siftUp n i s = .ok t → t = { s with hp := t.hp }
  | 0, _, s, t, h => by cases h; rfl
  | n + 1, i, s, t, h => by
    unfold siftUp at h
    split at h
    · cases h; rfl
    · obtain ⟨c, _, h⟩ := Run.bind_eq_ok.1 h
      split at h
      · obtain ⟨u, hu, h⟩ := Run.bind_eq_ok.1 h
        exact (siftUp_eq n _ u t h).trans (by rw [hpSwap_eq hu])
      · cases h; rfl

theorem pqInsert_eq {n : NodeIx} {s t : State} (h : pqInsert n s = .ok t) :
    t = { s with hp := t.hp, hsize := t.hsize } := by
  unfold pqInsert at h
  obtain ⟨u, hu, h⟩ := Run.bind_eq_ok.1 h
  unfold hpWrite at hu
  split at hu
  · cases hu
    exact (siftUp_eq _ _ _ t h).trans (by rw [siftUp_eq _ _ _ t h])
  · cases hu

theorem siftDown_eq : ∀ (n i : Nat) (s t : State), siftDown n i s = .ok t → t = { s with hp := t.hp }
  | 0, _, s, t, h => by cases h; rfl
  | n + 1, i, s, t, h => by
    unfold siftDown at h
    obtain ⟨a, _, h⟩ := Run.bind_eq_ok.1 h
    obtain ⟨b, _, h⟩ := Run.bind_eq_ok.1 h
    split at h
    · cases h; rfl
    · obtain ⟨u, hu, h⟩ := Run.bind_eq_ok.1 h
      exact (siftDown_eq n _ u t h).trans (by rw [hpSwap_eq hu])

theorem pqExtractMin_eq {m : NodeIx} {s t : State} (h : pqExtractMin s = .ok (m, t)) :
    t = { s with hp := t.hp, hsize := t.hsize } := by
  unfold pqExtractMin at h
  split at h
  · cases h
  · obtain ⟨a, _, h⟩ := Run.bind_eq_ok.1 h
    obtain ⟨u, hu, h⟩ := Run.bind_eq_ok.1 h
    obtain ⟨v, hv, h⟩ := Run.bind_eq_ok.1 h
    cases h
    have h1 := siftDown_eq _ _ _ _ hv
    have h2 := hpSwap_eq hu
    rw [h1, h2]
    rfl

/-! ### The micro-operations of BUILD raise nothing -/

/-- A piece of pseudocode raises nothing. -/
def Silent (m : Run α) : Prop := ∀ k u, m ≠ .error (.raised k u)

theorem Silent.ok (a : α) : Silent (.ok a : Run α) := fun _ _ e => by cases e
theorem Silent.fault (r : Fault) : Silent (.error (.fault r) : Run α) := fun _ _ e => by cases e
theorem Silent.refused (r : Refusal) : Silent (.error (.refused r) : Run α) := fun _ _ e => by cases e

theorem Silent.bind {m : Run α} {f : α → Run β} (h : Silent m) (hf : ∀ a, Silent (f a)) :
    Silent (m >>= f) := by
  intro k u e
  rcases Run.bind_eq_error.1 e with e | ⟨a, _, e⟩
  · exact h k u e
  · exact hf a k u e

theorem nsRead_silent (n : NodeIx) (s : State) : Silent (nsRead n s) := by
  unfold nsRead
  split
  · split
    · exact .ok _
    · exact .refused _
  · exact .refused _

theorem nsAppend_silent (d : Node) (s : State) : Silent (nsAppend d s) := by
  unfold nsAppend
  split
  · exact .ok _
  · exact .fault _

theorem hpRead_silent (i : Nat) (s : State) : Silent (hpRead i s) := by
  unfold hpRead
  split
  · split
    · exact .ok _
    · exact .refused _
  · exact .refused _

theorem hpWrite_silent (i : Nat) (n : NodeIx) (s : State) : Silent (hpWrite i n s) := by
  unfold hpWrite
  split
  · exact .ok _
  · exact .fault _

theorem lessAt_silent (i j : Nat) (s : State) : Silent (lessAt i j s) :=
  .bind (hpRead_silent i s) fun _ => .bind (hpRead_silent j s) fun _ =>
    .bind (nsRead_silent _ s) fun _ => .bind (nsRead_silent _ s) fun _ => .ok _

theorem hpSwap_silent (i j : Nat) (s : State) : Silent (hpSwap i j s) :=
  .bind (hpRead_silent i s) fun _ => .bind (hpRead_silent j s) fun _ =>
    .bind (hpWrite_silent _ _ s) fun _ => hpWrite_silent _ _ _

theorem siftUp_silent : ∀ (n i : Nat) (s : State), Silent (siftUp n i s)
  | 0, _, s => .ok s
  | n + 1, i, s => by
    unfold siftUp
    split
    · exact .ok _
    · refine .bind (lessAt_silent _ _ _) fun c => ?_
      split
      · exact .bind (hpSwap_silent _ _ _) fun u => siftUp_silent n _ u
      · exact .ok _

theorem pqInsert_silent (n : NodeIx) (s : State) : Silent (pqInsert n s) :=
  .bind (hpWrite_silent _ _ _) fun _ => siftUp_silent _ _ _

theorem lesserOf_silent (c m : Nat) (s : State) : Silent (lesserOf c m s) := by
  unfold lesserOf
  split
  · exact .bind (lessAt_silent _ _ _) fun _ => .ok _
  · exact .ok _

theorem siftDown_silent : ∀ (n i : Nat) (s : State), Silent (siftDown n i s)
  | 0, _, s => .ok s
  | n + 1, i, s => by
    unfold siftDown
    refine .bind (lesserOf_silent _ _ _) fun a => .bind (lesserOf_silent _ _ _) fun b => ?_
    split
    · exact .ok _
    · exact .bind (hpSwap_silent _ _ _) fun u => siftDown_silent n _ u

theorem pqExtractMin_silent (s : State) : Silent (pqExtractMin s) := by
  unfold pqExtractMin
  split
  · exact .refused _
  · exact .bind (hpRead_silent _ _) fun _ => .bind (hpSwap_silent _ _ _) fun _ =>
      .bind (siftDown_silent _ _ _) fun _ => .ok _

/-! ### The tree phases -/

theorem nsAppend_buildRel {d : Node} {n : NodeIx} {s t : State} (h : nsAppend d s = .ok (n, t)) :
    BuildRel s t := by
  refine ⟨?_, fun hw => Memory.wf_nsAppend hw h⟩
  unfold nsAppend at h
  split at h
  · cases h; rfl
  · cases h

theorem pqInsert_buildRel {n : NodeIx} {s t : State} (h : pqInsert n s = .ok t) : BuildRel s t :=
  ⟨(pqInsert_eq h).trans (by rw [pqInsert_eq h]), fun hw => pqInsert_wf hw h⟩

theorem pqExtractMin_buildRel {m : NodeIx} {s t : State} (h : pqExtractMin s = .ok (m, t)) :
    BuildRel s t :=
  ⟨(pqExtractMin_eq h).trans (by rw [pqExtractMin_eq h]), fun hw => pqExtractMin_wf hw h⟩

/-- The piece raises nothing, and writes what the tree phases write. -/
abbrev Builds (s : State) (m : Run State) : Prop := Keeps BuildRel [] s m

theorem pqInsert_builds (n : NodeIx) (s : State) : Builds s (pqInsert n s) :=
  .of_never (fun _ h => pqInsert_buildRel h) (pqInsert_silent n s)

theorem pqExtractMin_post (s : State) {E : FaultKind → State → Prop} :
    Post (pqExtractMin s) (fun r => BuildRel s r.2) E :=
  .of_never (fun _ h => pqExtractMin_buildRel h) (pqExtractMin_silent s)

theorem nsAppend_post (d : Node) (s : State) {E : FaultKind → State → Prop} :
    Post (nsAppend d s) (fun r => BuildRel s r.2) E :=
  .of_never (fun _ h => nsAppend_buildRel h) (nsAppend_silent d s)

theorem nsRead_post (n : NodeIx) (s : State) {E : FaultKind → State → Prop} :
    Post (nsRead n s) (fun _ => True) E := .of_never (fun _ _ => trivial) (nsRead_silent n s)

theorem leafPhase_builds : ∀ (m : Store Count) (s : State), Builds s (leafPhase m s)
  | [], s => Post.of_ok (.refl s)
  | (k, f) :: m, s => by
    unfold leafPhase
    have hl : Post (newLeaf (BitVec.ofNat 16 k) f s) (fun r => BuildRel s r.2)
        (fun k u => BuildRel s u ∧ k ∈ []) := nsAppend_post _ s
    refine Post.bind hl fun r hr => ?_
    exact Keeps.after .trans hr (Keeps.bind .trans (pqInsert_builds _ _) (leafPhase_builds m))

theorem setRoot_buildRel (s : State) (n : NodeIx) : BuildRel s { s with root := n } :=
  ⟨rfl, fun h => Memory.wf_congr h rfl rfl rfl rfl rfl rfl⟩

theorem wrapLeaf_builds (s : State) : Builds s (wrapLeaf s) := by
  unfold wrapLeaf
  refine Post.bind (pqExtractMin_post s) fun r hr => ?_
  refine Post.bind (nsRead_post _ _) fun x _ => ?_
  refine Post.bind (Q := fun p => BuildRel r.2 p.2) ?_ fun p hp => ?_
  · exact nsAppend_post _ _
  · exact Post.of_ok (hr.trans (hp.trans (setRoot_buildRel _ _)))

theorem mergeOnce_builds (s : State) : Builds s (mergeOnce s) := by
  unfold mergeOnce
  refine Post.bind (pqExtractMin_post s) fun a ha => ?_
  refine Post.bind (pqExtractMin_post _) fun b hb => ?_
  refine Post.bind (nsRead_post _ _) fun x _ => Post.bind (nsRead_post _ _) fun y _ => ?_
  refine Post.bind (nsAppend_post _ _) fun c hc => ?_
  exact Keeps.after .trans (ha.trans (hb.trans hc)) (pqInsert_builds _ _)

theorem mergeLoop_builds : ∀ (n : Nat) (s : State), Builds s (mergeLoop n s)
  | 0, s => Post.of_ok (.refl s)
  | n + 1, s => by
    unfold mergeLoop
    split
    · exact Keeps.bind .trans (mergeOnce_builds s) (mergeLoop_builds n)
    · exact Post.of_ok (.refl s)

theorem mergeAll_builds (s : State) : Builds s (mergeAll s) := by
  unfold mergeAll
  refine Keeps.bind .trans (mergeLoop_builds _ s) fun u => ?_
  refine Post.bind (pqExtractMin_post u) fun r hr => ?_
  exact Post.of_ok (hr.trans (setRoot_buildRel _ _))

theorem growTree_builds (s : State) : Builds s (growTree s) := by
  unfold growTree
  refine Keeps.bind .trans (leafPhase_builds _ s) fun u => ?_
  split
  · exact wrapLeaf_builds u
  · exact mergeAll_builds u

theorem buildBody_eq (s : State) : buildBody s =
    if s.ftv = true then
      if s.distinct = 0#17 then .ok (.empty, dropCodes (dropTree s))
      else growTree (dropCodes (dropTree s)) >>= fun u => .ok (.done, { u with trv := true })
    else .error (.raised .sequenceError s) := by
  unfold buildBody require
  by_cases h : s.ftv = true
  · rw [if_pos h, if_pos h]
    by_cases h0 : s.distinct = 0#17
    · rw [if_pos h0]
      exact if_pos h0
    · rw [if_neg h0]
      exact if_neg h0
  · rw [if_neg h, if_neg h]
    rfl

/-! ### GEN -/

theorem genLoop_gens : ∀ (n : Nat) (st : List (NodeIx × Code)) (s : State),
    Keeps GenRel [] s (genLoop n st s)
  | _, [], s => by unfold genLoop; exact Post.of_ok (.refl s)
  | 0, _ :: _, _ => Post.of_fault
  | n + 1, (m, p) :: st, s => by
    unfold genLoop
    refine Post.bind (nsRead_post _ _) fun d _ => ?_
    split
    · exact Keeps.after .trans ⟨rfl, fun h => Memory.wf_ctWrite h _ _⟩ (genLoop_gens n _ _)
    · exact genLoop_gens n _ s

/-! ### ENCODE -/

theorem sinkByte_encodeRel (b : Byte) (s : State) :
    Post (sinkByte b s) (fun r => EncodeRel s r.2) (fun _ _ => False) :=
  (sinkByte_moved b s).mono
    (fun r ⟨h1, h2, h3⟩ => ⟨by rw [h1], h2, h3.trans (by rw [h3])⟩) fun _ _ h => h

theorem srcSym_encodeRel (s : State) :
    Post (srcSym s) (fun r => EncodeRel s r.2) (fun _ _ => False) :=
  (srcSym_moved s).mono
    (fun r ⟨h1, h2, h3⟩ => ⟨by rw [h1], h2, h3.trans (by rw [h3])⟩) fun _ _ h => h

theorem outByte_keeps (b : Byte) (s : State) : Keeps EncodeRel [.ioError] s (outByte b s) := by
  unfold outByte
  refine Post.bind ((sinkByte_encodeRel b s).mono (fun _ h => h) fun _ _ h => h.elim) fun r hr => ?_
  obtain ⟨a, u⟩ := r
  cases a
  · exact Post.of_ok (hr.trans ⟨rfl, .refl _, rfl⟩)
  · exact Post.of_raised ⟨hr, by simp⟩

theorem outBytes_keeps : ∀ (bs : List Byte) (s : State), Keeps EncodeRel [.ioError] s (outBytes bs s)
  | [], s => Post.of_ok (.refl s)
  | b :: bs, s => Keeps.bind .trans (outByte_keeps b s) (outBytes_keeps bs)

theorem emitEntries_keeps : ∀ (m : Store Count) (s : State),
    Keeps EncodeRel [.ioError] s (emitEntries m s)
  | [], s => Post.of_ok (.refl s)
  | _ :: m, s => Keeps.bind .trans (outBytes_keeps _ s) fun u =>
      Keeps.bind .trans (outBytes_keeps _ u) (emitEntries_keeps m)

theorem emitHeader_keeps (s : State) : Keeps EncodeRel [.ioError] s (emitHeader s) :=
  Keeps.bind .trans (outBytes_keeps _ s) fun u => emitEntries_keeps _ u

theorem putBit_keeps (b : Bool) (s : State) : Keeps EncodeRel [.ioError] s (putBit b s) := by
  unfold putBit
  split
  · exact Keeps.bind .trans (outByte_keeps _ s) fun u => Post.of_ok ⟨rfl, .refl _, rfl⟩
  · exact Post.of_ok ⟨rfl, .refl _, rfl⟩

theorem putCode_keeps : ∀ (c : Code) (s : State), Keeps EncodeRel [.ioError] s (putCode c s)
  | [], s => Post.of_ok (.refl s)
  | b :: c, s => Keeps.bind .trans (putBit_keeps b s) (putCode_keeps c)

theorem flushBits_keeps (s : State) : Keeps EncodeRel [.ioError] s (flushBits s) := by
  unfold flushBits
  split
  · exact Post.of_ok (.refl s)
  · exact Keeps.bind .trans (outByte_keeps _ s) fun u => Post.of_ok ⟨rfl, .refl _, rfl⟩

theorem packLoop_keeps : ∀ (n : Nat) (s : State),
    Keeps EncodeRel [.ioError, .noCodeError] s (packLoop n s)
  | 0, _ => Post.of_fault
  | n + 1, s => by
    unfold packLoop
    refine Post.bind ((srcSym_encodeRel s).mono (fun _ h => h) fun _ _ h => h.elim) fun r hr => ?_
    obtain ⟨e, u⟩ := r
    rcases e with v | _ | _
    · show Keeps EncodeRel _ s (if ctRead v u = [] then _ else _)
      split
      · exact Post.of_raised ⟨hr, by simp⟩
      · refine Keeps.after .trans hr (Keeps.bind .trans ?_ (packLoop_keeps n))
        exact (putCode_keeps _ u).weaken (by simp)
    · exact Post.of_ok hr
    · exact Post.of_raised ⟨hr, by simp⟩

theorem packBody_keeps (s : State) : Keeps EncodeRel [.ioError, .noCodeError] s (packBody s) := by
  unfold packBody
  refine Keeps.after .trans (u := { s with acc := 0#8, nbits := 0#3 }) ⟨rfl, .refl _, rfl⟩
    (Keeps.bind .trans (packLoop_keeps _ _) fun u => ?_)
  exact (flushBits_keeps u).weaken (by simp)

/-! ### DECODE -/

/-- The faults of the header (rule R192). -/
abbrev headerFaults : List FaultKind := [.ioError, .corruptHeaderError]

theorem hdrByte_post (s : State) : Post (hdrByte s) (fun r => HeaderRel s r.2)
    (fun k u => HeaderRel s u ∧ k ∈ headerFaults) := by
  unfold hdrByte
  refine Post.bind ((srcByte_moved s).mono (fun _ h => h) fun _ _ h => h.elim) fun r hr => ?_
  obtain ⟨e, u⟩ := r
  obtain ⟨h1, h2, h3⟩ := hr
  have h1 : u = { s with env := u.env } := h1
  have hrel : HeaderRel s u := ⟨h1.trans (by rw [h1]), h2, h3, fun h => by rw [h1]; exact h⟩
  rcases e with v | _ | _
  · exact Post.of_ok (hrel.trans ⟨rfl, .refl _, rfl, id⟩)
  · exact Post.of_raised ⟨hrel, by simp⟩
  · exact Post.of_raised ⟨hrel, by simp⟩

theorem post_bind_rel {R : State → State → Prop} (ht : ∀ {a b c}, R a b → R b c → R a c)
    {K : List FaultKind} {s : State} {m : Run (α × State)} {f : α × State → Run (β × State)}
    (h : Post m (fun r => R s r.2) fun k u => R s u ∧ k ∈ K)
    (hf : ∀ r, Post (f r) (fun q => R r.2 q.2) fun k u => R r.2 u ∧ k ∈ K) :
    Post (m >>= f) (fun q => R s q.2) fun k u => R s u ∧ k ∈ K :=
  Post.bind h fun r hr => (hf r).mono (fun _ h => ht hr h) fun _ _ h => ⟨ht hr h.1, h.2⟩

theorem get16be_post (s : State) : Post (get16be s) (fun r => HeaderRel s r.2)
    (fun k u => HeaderRel s u ∧ k ∈ headerFaults) := by
  unfold get16be
  refine post_bind_rel .trans (hdrByte_post s) fun r => post_bind_rel .trans (hdrByte_post r.2) fun q => ?_
  exact Post.of_ok (.refl _)

theorem get32be_post (s : State) : Post (get32be s) (fun r => HeaderRel s r.2)
    (fun k u => HeaderRel s u ∧ k ∈ headerFaults) := by
  unfold get32be
  exact post_bind_rel .trans (hdrByte_post s) fun r => post_bind_rel .trans (hdrByte_post r.2) fun q =>
    post_bind_rel .trans (hdrByte_post q.2) fun p => post_bind_rel .trans (hdrByte_post p.2) fun o =>
      Post.of_ok (.refl _)

theorem headerEntries_keeps : ∀ (n : Nat) (prev : Option Sym) (s : State),
    Keeps HeaderRel headerFaults s (headerEntries n prev s)
  | 0, _, s => Post.of_ok (.refl s)
  | n + 1, prev, s => by
    unfold headerEntries
    refine Post.bind (get16be_post s) fun r hr => ?_
    refine Keeps.after .trans hr (Post.bind (get32be_post r.2) fun q hq => ?_)
    refine Keeps.after .trans hq ?_
    show Keeps _ _ _ (if notAscending prev r.1 = true then _ else _)
    split
    · exact Post.of_raised ⟨.refl _, by simp⟩
    · split
      · exact Post.of_raised ⟨.refl _, by simp⟩
      · refine Keeps.after .trans (u := { ftWrite r.1 q.1 q.2 with
          total := (ftWrite r.1 q.1 q.2).total + q.1.setWidth 48 }) ⟨rfl, .refl _, rfl, fun h => ?_⟩
          (headerEntries_keeps n _ _)
        exact Memory.wf_congr (Memory.wf_ftWrite h r.1 q.1) rfl rfl rfl rfl rfl rfl

/-- `parse_header` after its opening (rule R191). -/
theorem parseHeader_keeps (s : State) :
    Keeps HeaderRel headerFaults (clearTables s) (parseHeader s) := by
  unfold parseHeader
  refine Post.bind (get32be_post _) fun r hr => ?_
  refine Keeps.after .trans hr ?_
  show Keeps _ _ _ (if r.1.toNat = 0 ∨ r.1.toNat > Config.dcMax then _ else _)
  split
  · exact Post.of_raised ⟨.refl _, by simp⟩
  · refine Keeps.bind .trans (headerEntries_keeps _ _ r.2) fun u => Post.of_ok ?_
    exact ⟨rfl, .refl _, rfl, fun h => Memory.wf_congr h rfl rfl rfl rfl rfl rfl⟩

/-- The faults of the walk (rules R194 to R199). -/
abbrev walkFaults : List FaultKind := [.ioError, .truncatedStreamError, .invalidCodeError]

theorem getBit_post (s : State) : Post (getBit s) (fun r => WalkRel s r.2)
    (fun k u => WalkRel s u ∧ k ∈ walkFaults) := by
  unfold getBit
  split
  · refine Post.bind ((srcByte_moved s).mono (fun _ h => h) fun _ _ h => h.elim) fun r hr => ?_
    obtain ⟨e, u⟩ := r
    obtain ⟨h1, h2, h3⟩ := hr
    have h1 : u = { s with env := u.env } := h1
    have hrel : WalkRel s u := ⟨h1.trans (by rw [h1]), h2, h3.trans (by rw [h3])⟩
    rcases e with v | _ | _
    · exact Post.of_ok (hrel.trans ⟨rfl, .refl _, rfl⟩)
    · exact Post.of_raised ⟨hrel, by simp⟩
    · exact Post.of_raised ⟨hrel, by simp⟩
  · exact Post.of_ok ⟨rfl, .refl _, rfl⟩

theorem outSym_keeps (v : Sym) (s : State) : Keeps WalkRel walkFaults s (outSym v s) := by
  unfold outSym
  refine Post.bind ((sinkSym_moved v s).mono (fun _ h => h) fun _ _ h => h.elim) fun r hr => ?_
  obtain ⟨a, u⟩ := r
  obtain ⟨h1, h2, h3⟩ := hr
  have h1 : u = { s with env := u.env } := h1
  have hrel : WalkRel s u := ⟨h1.trans (by rw [h1]), h2, h3.trans (by rw [h3])⟩
  cases a
  · exact Post.of_ok hrel
  · exact Post.of_raised ⟨hrel, by simp⟩

theorem walkStep_keeps (b : Bool) (s : State) : Keeps WalkRel walkFaults s (walkStep b s) := by
  unfold walkStep
  refine Post.bind (nsRead_post _ _) fun d _ => ?_
  show Keeps _ _ _ (if (if b = true then d.right else d.left) = Config.nil then _ else _)
  generalize (if b = true then d.right else d.left) = n
  split
  · exact Post.of_raised ⟨.refl _, by simp⟩
  · refine Keeps.after .trans (u := { s with cur := n }) ⟨rfl, .refl _, rfl⟩ ?_
    refine Post.bind (nsRead_post _ _) fun x _ => ?_
    split
    · exact Keeps.bind .trans (outSym_keeps _ _) fun u => Post.of_ok ⟨rfl, .refl _, rfl⟩
    · exact Post.of_ok (.refl _)

theorem walkLoop_keeps : ∀ (n : Nat) (s : State), Keeps WalkRel walkFaults s (walkLoop n s)
  | 0, _ => Post.of_fault
  | n + 1, s => by
    unfold walkLoop
    split
    · exact Post.of_ok (.refl s)
    · refine Post.bind (getBit_post s) fun r hr => ?_
      exact Keeps.after .trans hr (Keeps.bind .trans (walkStep_keeps _ _) (walkLoop_keeps n))

theorem walkBody_keeps (s : State) : Keeps WalkRel walkFaults s (walkBody s) :=
  Keeps.after .trans (u := { s with cur := s.root, remain := s.total, shift := 0#8, nbitsIn := 0#4 })
    ⟨rfl, .refl _, rfl⟩ (walkLoop_keeps _ _)

end Sys2Proof.Machine
end

