-- ==== Sys2Proof/Laws/Frame.lean ====
section
/-!
SUPPORT. What each command's pseudocode, as a whole, changes and leaves alone: registers, ports, the
host's record, the outputs, the faults it can raise.
-/

namespace Sys2Proof.Machine

/-! ### The host's side through a command -/

/-- No output was committed and no record but that of port events has changed. -/
structure Calm (a b : Env) : Prop where
  inbox : b.inbox = a.inbox
  outcomes : b.outcomes = a.outcomes
  csrReads : b.csrReads = a.csrReads
  draws : b.draws = a.draws
  bytesOut : b.bsnk.outputs = a.bsnk.outputs
  symsOut : b.ssnk.outputs = a.ssnk.outputs
  trace : ∃ es, b.trace = a.trace ++ es ∧ ∀ p, PortEvent.committed p ∉ es

theorem Calm.refl (a : Env) : Calm a a := ⟨rfl, rfl, rfl, rfl, rfl, rfl, [], by simp, by simp⟩

theorem Calm.trans {a b c : Env} (h : Calm a b) (h' : Calm b c) : Calm a c := by
  obtain ⟨es, he, hn⟩ := h.trace
  obtain ⟨es', he', hn'⟩ := h'.trace
  refine ⟨h'.inbox.trans h.inbox, h'.outcomes.trans h.outcomes, h'.csrReads.trans h.csrReads,
    h'.draws.trans h.draws, h'.bytesOut.trans h.bytesOut, h'.symsOut.trans h.symsOut, es ++ es', ?_, ?_⟩
  · rw [he', he, List.append_assoc]
  · intro p hp
    rcases List.mem_append.1 hp with hp | hp
    · exact hn p hp
    · exact hn' p hp

theorem Moved.calm {a b : Env} (h : Moved a b) : Calm a b := by
  obtain ⟨c1, c2, c3, c4, es, rfl, -, he⟩ := h
  exact ⟨rfl, rfl, rfl, rfl, rfl, rfl, es, rfl, fun p hp => by have := he _ hp; cases this⟩

theorem Moved.cur {a b : Env} (h : Moved a b) : b.ssrc.cur.isSome = a.ssrc.cur.isSome ∧
    b.bsrc.cur.isSome = a.bsrc.cur.isSome ∧ b.bsnk.cur.isSome = a.bsnk.cur.isSome ∧
    b.ssnk.cur.isSome = a.ssnk.cur.isSome := by
  obtain ⟨c1, c2, c3, c4, es, rfl, hc, -⟩ := h
  exact hc

/-- The ports of COUNT (rule R73). -/
abbrev CountPorts (a b : Env) : Prop := b = { a with ssrc := b.ssrc, trace := b.trace }

/-- The ports of ENCODE and COMPRESS (rule R73). -/
abbrev EncodePorts (a b : Env) : Prop :=
  b = { a with ssrc := b.ssrc, bsnk := b.bsnk, trace := b.trace }

/-- The ports of DECODE and DECOMPRESS (rule R73). -/
abbrev DecodePorts (a b : Env) : Prop :=
  b = { a with bsrc := b.bsrc, ssnk := b.ssnk, trace := b.trace }

theorem CountPorts.encode {a b : Env} (h : CountPorts a b) : EncodePorts a b :=
  Eq.trans h (by rw [h])

theorem EncodePorts.trans {a b c : Env} (h : EncodePorts a b) (h' : EncodePorts b c) :
    EncodePorts a c := Eq.trans h' (by rw [h])

theorem DecodePorts.trans {a b c : Env} (h : DecodePorts a b) (h' : DecodePorts b c) :
    DecodePorts a c := Eq.trans h' (by rw [h])

theorem openSsrc_calm (s : State) : Calm s.env (openSsrc s).env :=
  ⟨rfl, rfl, rfl, rfl, rfl, rfl, [_], rfl, by simp⟩

theorem openBsrc_calm (s : State) : Calm s.env (openBsrc s).env :=
  ⟨rfl, rfl, rfl, rfl, rfl, rfl, [_], rfl, by simp⟩

theorem openBsnk_calm (s : State) : Calm s.env (openBsnk s).env :=
  ⟨rfl, rfl, rfl, rfl, rfl, rfl, [_], rfl, by simp⟩

theorem openSsnk_calm (s : State) : Calm s.env (openSsnk s).env :=
  ⟨rfl, rfl, rfl, rfl, rfl, rfl, [_], rfl, by simp⟩

theorem releaseSsrc_calm (s : State) : Calm s.env (releaseSsrc s).env :=
  ⟨rfl, rfl, rfl, rfl, rfl, rfl, [_], rfl, by simp⟩

theorem releaseBsrc_calm (s : State) : Calm s.env (releaseBsrc s).env :=
  ⟨rfl, rfl, rfl, rfl, rfl, rfl, [_], rfl, by simp⟩

/-- What holds where a command that began in `s` raises `k` in `u`. -/
abbrev Fails (P : Env → Env → Prop) (K : List FaultKind) (s : State) (k : FaultKind) (u : State) : Prop :=
  P s.env u.env ∧ Calm s.env u.env ∧ k ∈ K

/-! ### COUNT -/

/-- What COUNT leaves when it ends (rules R120, R125). -/
structure CountEnd (s : State) (r : CmdOutcome × State) : Prop where
  eq : r.2 = { s with
    ftv := true, trv := false, ctv := false, distinct := r.2.distinct, total := r.2.total,
    nnodes := 0#17, hsize := 0#17, root := Config.nil, ft := r.2.ft, ns := [], hp := [], ct := [],
    env := r.2.env }
  ports : CountPorts s.env r.2.env
  calm : Calm s.env r.2.env
  shut : r.2.env.ssrc.cur = none
  wf : Memory.wf r.2
  outcome : r.1 = if r.2.distinct = 0#17 then .empty else .done

theorem countBody_end (s : State) : Post (countBody s) (CountEnd s)
    (Fails CountPorts [.ioError, .capacityError] s) := by
  unfold countBody
  have h0 := countLoop_keeps ((clearTables (openSsrc s)).env.ssrc.itemsLeft + 1) (clearTables (openSsrc s))
  have hp : CountPorts s.env (openSsrc s).env := rfl
  refine Post.bind (h0.mono (fun _ h => h) ?_) ?_
  · intro k u h
    exact ⟨Eq.trans h.1.ports rfl, (openSsrc_calm s).trans h.1.moved.calm, h.2⟩
  · intro u hu
    refine Post.of_ok ⟨?_, ?_, ?_, rfl, ?_, rfl⟩
    · show ({ releaseSsrc u with ftv := true } : State) = _
      rw [hu.eq]
      rfl
    · show CountPorts s.env (releaseSsrc u).env
      rw [releaseSsrc_env, hu.ports]
      rfl
    · exact ((openSsrc_calm s).trans hu.moved.calm).trans (releaseSsrc_calm u)
    · exact Memory.wf_congr (hu.wf (Memory.wf_clearTables _)) rfl rfl rfl rfl rfl rfl

/-! ### BUILD -/

/-- What BUILD leaves when it ends (rules R145, R151, R155). -/
structure BuildEnd (s : State) (r : CmdOutcome × State) : Prop where
  eq : r.2 = { s with
    trv := r.2.trv, ctv := false, nnodes := r.2.nnodes, hsize := r.2.hsize, root := r.2.root,
    ns := r.2.ns, hp := r.2.hp, ct := [] }
  wf : Memory.wf s → Memory.wf r.2
  valid : s.ftv = true
  outcome : r.1 = .empty ∧ s.distinct = 0#17 ∧ r.2 = dropCodes (dropTree s) ∨
    r.1 = .done ∧ s.distinct ≠ 0#17 ∧ r.2.trv = true

theorem buildBody_end (s : State) : Post (buildBody s) (BuildEnd s)
    (fun k u => u = s ∧ k = .sequenceError ∧ s.ftv = false) := by
  rw [buildBody_eq]
  by_cases h : s.ftv = true
  · rw [if_pos h]
    by_cases h0 : s.distinct = 0#17
    · rw [if_pos h0]
      exact Post.of_ok ⟨rfl, fun h => Memory.wf_dropCodes (Memory.wf_dropTree h), h, .inl ⟨rfl, h0, rfl⟩⟩
    · rw [if_neg h0]
      refine Post.bind ((growTree_builds _).mono (fun _ h => h) fun k u hu => by simp at hu) ?_
      intro u hu
      refine Post.of_ok ⟨?_, fun hw => ?_, h, .inr ⟨rfl, h0, rfl⟩⟩
      · show ({ u with trv := true } : State) = _
        rw [hu.eq]
        rfl
      · exact Memory.wf_congr (hu.wf (Memory.wf_dropCodes (Memory.wf_dropTree hw))) rfl rfl rfl rfl rfl rfl
  · rw [if_neg h]
    exact Post.of_raised ⟨rfl, rfl, by simpa using h⟩

/-! ### GEN -/

/-- What GEN leaves when it ends (rules R160, R166). -/
structure GenEnd (s : State) (r : CmdOutcome × State) : Prop where
  eq : r.2 = { s with ctv := true, ct := r.2.ct }
  wf : Memory.wf s → Memory.wf r.2
  valid : s.trv = true
  outcome : r.1 = .done

theorem genBody_end (s : State) : Post (genBody s) (GenEnd s)
    (fun k u => u = s ∧ k = .sequenceError ∧ s.trv = false) := by
  unfold genBody
  cases h : s.trv
  · exact Post.of_raised ⟨rfl, rfl, rfl⟩
  · simp only [require_true, Run.ok_bind]
    refine Post.bind ((genLoop_gens _ _ (dropCodes s)).mono (fun _ h => h) fun k u hu => by simp at hu) ?_
    intro u hu
    refine Post.of_ok ⟨?_, fun hw => ?_, h, rfl⟩
    · show ({ u with ctv := true } : State) = _
      rw [hu.eq]
      rfl
    · exact Memory.wf_congr (hu.wf (Memory.wf_dropCodes hw)) rfl rfl rfl rfl rfl rfl

/-! ### ENCODE -/

/-- What ENCODE leaves when it ends (rules R170, R181). -/
structure EncodeEnd (s : State) (r : CmdOutcome × State) : Prop where
  eq : r.2 = { s with acc := r.2.acc, nbits := r.2.nbits, bytesOut := r.2.bytesOut, env := r.2.env }
  ports : EncodePorts s.env r.2.env
  shut : r.2.env.ssrc.cur = none ∧ r.2.env.bsnk.cur = none
  valid : s.ftv = true ∧ s.ctv = true
  outcome : r.1 = .done
  output : ∃ u y es, r.2 = commitBsnk u ∧ r.2.env.bsnk.outputs = s.env.bsnk.outputs ++ [y] ∧
    r.2.env.trace = s.env.trace ++ es ++ [.committed .bsnk] ∧ ∀ p, PortEvent.committed p ∉ es

theorem encodeBody_end (s : State) : Post (encodeBody s) (EncodeEnd s)
    (fun k u => Fails EncodePorts [.ioError, .noCodeError, .sequenceError] s k u ∧
      (k = .sequenceError → u = s ∧ ¬ (s.ftv = true ∧ s.ctv = true))) := by
  unfold encodeBody
  by_cases hv : s.ftv = true ∧ s.ctv = true
  swap
  · have : (s.ftv && s.ctv) = false := by simpa using hv
    rw [this]
    exact Post.of_raised ⟨⟨rfl, .refl _, by simp⟩, fun _ => ⟨rfl, hv⟩⟩
  have : (s.ftv && s.ctv) = true := by simpa using hv
  rw [this]
  simp only [require_true, Run.ok_bind]
  let s1 : State := { openBsnk (openSsrc s) with bytesOut := 0#64 }
  have hp1 : EncodePorts s.env s1.env := rfl
  have hc1 : Calm s.env s1.env := (openSsrc_calm s).trans (openBsnk_calm (openSsrc s))
  have hk : Keeps EncodeRel [.ioError, .noCodeError] s1 (emitHeader s1 >>= packBody) :=
    Keeps.bind .trans ((emitHeader_keeps s1).weaken (by simp)) packBody_keeps
  have : (emitHeader s1 >>= fun s => packBody s >>= fun s =>
      (.ok (.done, commitBsnk (releaseSsrc s)) : Run (CmdOutcome × State))) =
      (emitHeader s1 >>= packBody) >>= fun s => .ok (.done, commitBsnk (releaseSsrc s)) := by
    rw [bind_assoc]
  refine this ▸ Post.bind (hk.mono (fun _ h => h) ?_) ?_
  · intro k u h
    refine ⟨⟨hp1.trans h.1.ports, hc1.trans h.1.moved.calm, ?_⟩, ?_⟩
    · have := h.2; simp at this ⊢; tauto
    · rintro rfl; simp at h
  · intro u hu
    have hcur := hu.moved.cur.2.2.1
    obtain ⟨t, ht⟩ : ∃ t, u.env.bsnk.cur = some t := by
      rw [← Option.isSome_iff_exists, hcur]; rfl
    have hc := (hc1.trans hu.moved.calm).trans (releaseSsrc_calm u)
    obtain ⟨es, he, hn⟩ := hc.trace
    refine Post.of_ok ⟨?_, ?_, ⟨rfl, ?_⟩, hv, rfl, releaseSsrc u, t.items, es, rfl, ?_, ?_, hn⟩
    · show commitBsnk (releaseSsrc u) = _
      rw [hu.eq]
      rfl
    · show EncodePorts s.env (commitBsnk (releaseSsrc u)).env
      rw [commitBsnk_env, releaseSsrc_env, hp1.trans hu.ports]
    · show (SnkPort.commit u.env.bsnk).cur = none
      simp [SnkPort.commit, ht]
    · show (SnkPort.commit u.env.bsnk).outputs = _
      rw [← hc.bytesOut]
      simp [SnkPort.commit, ht]
    · show (releaseSsrc u).env.trace ++ [PortEvent.committed .bsnk] = _
      rw [he]

/-! ### DECODE -/

/-- What DECODE leaves when it ends (rules R190, R204). -/
structure DecodeEnd (s : State) (r : CmdOutcome × State) : Prop where
  eq : r.2 = { s with
    ftv := true, trv := true, ctv := false, distinct := r.2.distinct, total := r.2.total,
    bytesIn := r.2.bytesIn, nnodes := r.2.nnodes, hsize := r.2.hsize, root := r.2.root,
    shift := r.2.shift, nbitsIn := r.2.nbitsIn, cur := r.2.cur, remain := r.2.remain, ft := r.2.ft,
    ns := r.2.ns, hp := r.2.hp, ct := [], env := r.2.env }
  ports : DecodePorts s.env r.2.env
  shut : r.2.env.bsrc.cur = none ∧ r.2.env.ssnk.cur = none
  wf : Memory.wf r.2
  distinct : r.2.distinct ≠ 0#17
  outcome : r.1 = .done
  output : ∃ u y es, r.2 = commitSsnk u ∧ r.2.env.ssnk.outputs = s.env.ssnk.outputs ++ [y] ∧
    r.2.env.trace = s.env.trace ++ es ++ [.committed .ssnk] ∧ ∀ p, PortEvent.committed p ∉ es

/-- A header that parsed has between 1 and 65536 entries, and leaves its table valid. -/
theorem parseHeader_valid {s t : State} (h : parseHeader s = .ok t) :
    t.ftv = true ∧ t.distinct ≠ 0#17 := by
  unfold parseHeader at h
  obtain ⟨⟨d, u⟩, hd, h⟩ := Run.bind_eq_ok.1 h
  have h : (if d.toNat = 0 ∨ d.toNat > Config.dcMax then _ else _) = _ := h
  split at h
  · cases h
  · rename_i hr
    obtain ⟨v, hv, h⟩ := Run.bind_eq_ok.1 h
    cases h
    refine ⟨rfl, fun h0 => hr (.inl ?_)⟩
    have := congrArg BitVec.toNat h0
    have hm : Config.dcMax = 65536 := rfl
    simp only [BitVec.toNat_setWidth, BitVec.toNat_ofNat] at this
    omega

theorem decodeBody_end (s : State) : Post (decodeBody s) (DecodeEnd s)
    (Fails DecodePorts [.ioError, .corruptHeaderError, .truncatedStreamError, .invalidCodeError] s) := by
  unfold decodeBody
  let s1 : State := { openSsnk (openBsrc s) with bytesIn := 0#64 }
  have hp1 : DecodePorts s.env s1.env := rfl
  have hc1 : Calm s.env s1.env := (openBsrc_calm s).trans (openSsnk_calm (openBsrc s))
  have hph := parseHeader_keeps s1
  have hq : Post (parseHeader s1)
      (fun t => HeaderRel (clearTables s1) t ∧ t.ftv = true ∧ t.distinct ≠ 0#17)
      (fun k u => HeaderRel (clearTables s1) u ∧ k ∈ headerFaults) :=
    ⟨fun t ht => ⟨hph.ok t ht, parseHeader_valid ht⟩, hph.raised⟩
  refine Post.bind (hq.mono (fun _ h => h) ?_) ?_
  · intro k u h
    refine ⟨?_, hc1.trans h.1.moved.calm, ?_⟩
    · have h2 := h.1.ports
      show u.env = _
      rw [h2]
      rfl
    · have := h.2; simp at this ⊢; tauto
  intro t ⟨ht, hv, hd⟩
  refine Post.bind ((buildBody_end t).mono (fun _ h => h) ?_) ?_
  · intro k u h
    rw [hv] at h
    exact absurd h.2.2 (by simp)
  intro ⟨o, b⟩ hb
  have hb2 : b.trv = true := by
    rcases hb.outcome with ⟨_, h, _⟩ | ⟨_, _, h⟩
    · exact absurd h hd
    · exact h
  have hbe : b.env = t.env := by have := hb.eq; simp only at this; rw [this]
  have hpt : DecodePorts s.env t.env := by
    have h2 := ht.ports
    show t.env = _
    rw [h2]; rfl
  have hct := hc1.trans ht.moved.calm
  refine Post.bind ((walkBody_keeps b).mono (fun _ h => h) ?_) ?_
  · intro k u h
    refine ⟨hpt.trans (by have := h.1.ports; rw [hbe] at this; exact this),
      hct.trans (by have := h.1.moved.calm; rw [hbe] at this; exact this), ?_⟩
    have := h.2; simp at this ⊢; tauto
  intro u hu
  have hmu := hu.moved
  rw [hbe] at hmu
  have hcur := (ht.moved.trans hmu).cur.2.2.2
  obtain ⟨q, hq⟩ : ∃ q, u.env.ssnk.cur = some q := by
    rw [← Option.isSome_iff_exists, hcur]; rfl
  have hpu := hu.ports
  rw [hbe] at hpu
  have hc := (hct.trans hmu.calm).trans (releaseBsrc_calm u)
  obtain ⟨es, he, hn⟩ := hc.trace
  have hwb := hb.wf (ht.wf (Memory.wf_clearTables _))
  refine Post.of_ok ⟨?_, ?_, ⟨rfl, ?_⟩, ?_, ?_, rfl, releaseBsrc u, q.items, es, rfl, ?_, ?_, hn⟩
  · show commitSsnk (releaseBsrc u) = _
    have e1 := hb.eq
    simp only at e1
    rw [hu.eq, e1, ht.eq]
    simp only [hb2, hv]
    rfl
  · show DecodePorts s.env (commitSsnk (releaseBsrc u)).env
    rw [commitSsnk_env, releaseBsrc_env, hpt.trans hpu]
  · show (SnkPort.commit u.env.ssnk).cur = none
    simp [SnkPort.commit, hq]
  · exact Memory.wf_congr hwb (by show u.ft = _; rw [hu.eq]) (by show u.ct = _; rw [hu.eq])
      (by show u.ns = _; rw [hu.eq]) (by show u.hp = _; rw [hu.eq]) (by show u.nnodes = _; rw [hu.eq])
      (by show u.hsize = _; rw [hu.eq])
  · show u.distinct ≠ 0#17
    have e1 := hb.eq
    simp only at e1
    rw [hu.eq, e1]
    exact hd
  · show (SnkPort.commit u.env.ssnk).outputs = _
    rw [← hc.symsOut]
    simp [SnkPort.commit, hq]
  · show (releaseBsrc u).env.trace ++ [PortEvent.committed .ssnk] = _
    rw [he]

/-! ### The composites -/

/-- What COMPRESS leaves when it ends (rule R212). -/
structure CompressEnd (s : State) (r : CmdOutcome × State) : Prop where
  eq : r.2 = { s with
    fault := 0#4, ftv := true, trv := r.2.trv, ctv := r.2.ctv, distinct := r.2.distinct,
    total := r.2.total, bytesIn := 0#64, bytesOut := r.2.bytesOut, nnodes := r.2.nnodes,
    hsize := r.2.hsize, root := r.2.root, acc := r.2.acc, nbits := r.2.nbits, ft := r.2.ft,
    ns := r.2.ns, hp := r.2.hp, ct := r.2.ct, env := r.2.env }
  ports : EncodePorts s.env r.2.env
  wf : Memory.wf r.2
  outcome :
    (r.1 = .empty ∧ r.2.distinct = 0#17 ∧ r.2.trv = false ∧ r.2.ctv = false ∧
      r.2.env.ssrc.cur = none ∧ Calm s.env r.2.env ∧ r.2.env.bsnk = s.env.bsnk) ∨
    (r.1 = .done ∧ r.2.distinct ≠ 0#17 ∧ r.2.trv = true ∧ r.2.ctv = true ∧
      (r.2.env.ssrc.cur = none ∧ r.2.env.bsnk.cur = none) ∧
      ∃ u y es, r.2 = commitBsnk u ∧ r.2.env.bsnk.outputs = s.env.bsnk.outputs ++ [y] ∧
        r.2.env.trace = s.env.trace ++ es ++ [.committed .bsnk] ∧ ∀ p, PortEvent.committed p ∉ es)

theorem compressBody_end (s : State) : Post (compressBody s) (CompressEnd s)
    (Fails EncodePorts [.ioError, .capacityError, .noCodeError] s) := by
  unfold compressBody
  refine Post.bind ((countBody_end (clearAll s)).mono (fun _ h => h) ?_) ?_
  · intro k u h
    exact ⟨h.1.encode, h.2.1, by have := h.2.2; simp at this ⊢; tauto⟩
  intro ⟨o, c⟩ hc
  have e1 := hc.eq
  simp only at e1
  show Post (if c.distinct = 0#17 then _ else _) _ _
  split
  · rename_i h0
    refine Post.of_ok ⟨?_, hc.ports.encode, hc.wf, .inl ⟨rfl, h0, ?_, ?_, hc.shut, hc.calm, ?_⟩⟩
    · show c = _
      rw [e1]; rfl
    · show c.trv = false
      rw [e1]
    · show c.ctv = false
      rw [e1]
    · have h2 : c.env = _ := hc.ports
      show c.env.bsnk = _
      rw [h2]; rfl
  rename_i h0
  have hcv : c.ftv = true := by rw [e1]
  refine Post.bind ((buildBody_end c).mono (fun _ h => h) ?_) ?_
  · intro k u h
    rw [hcv] at h
    exact absurd h.2.2 (by simp)
  intro ⟨o', b⟩ hb
  have e2 := hb.eq
  simp only at e2
  have hbt : b.trv = true := by
    rcases hb.outcome with ⟨_, h, _⟩ | ⟨_, _, h⟩
    · exact absurd h h0
    · exact h
  refine Post.bind ((genBody_end b).mono (fun _ h => h) ?_) ?_
  · intro k u h
    rw [hbt] at h
    exact absurd h.2.2 (by simp)
  intro ⟨o'', g⟩ hg
  have e3 := hg.eq
  simp only at e3
  have hge : g.env = c.env := by rw [e3, e2]
  have hgv : g.ftv = true ∧ g.ctv = true := by rw [e3, e2, hcv]; exact ⟨rfl, rfl⟩
  have hcp : EncodePorts s.env c.env := hc.ports.encode
  refine (encodeBody_end g).mono ?_ ?_
  · intro r hr
    have e4 := hr.eq
    have hpr := hr.ports
    rw [hge] at hpr
    obtain ⟨u, y, es, h1, h2, h3, h4⟩ := hr.output
    rw [hge] at h2 h3
    obtain ⟨es', h5, h6⟩ := hc.calm.trace
    refine ⟨?_, hcp.trans hpr, ?_, .inr ⟨hr.outcome, ?_, ?_, ?_, hr.shut, u, y, es' ++ es, h1, ?_, ?_, ?_⟩⟩
    · rw [e4, e3, e2, e1]
      rfl
    · have hw : Memory.wf g := hg.wf (hb.wf hc.wf)
      refine Memory.wf_congr hw ?_ ?_ ?_ ?_ ?_ ?_ <;> rw [e4]
    · rw [e4, e3, e2]; exact h0
    · rw [e4, e3]; exact hbt
    · rw [e4]; exact hgv.2
    · rw [h2]
      have := hc.calm.bytesOut
      simp only at this
      rw [this]; rfl
    · rw [h3]
      simp only at h5
      rw [h5]
      simp [clearAll]
    · intro p hp
      rcases List.mem_append.1 hp with hp | hp
      · exact h6 p hp
      · exact h4 p hp
  · intro k u ⟨⟨h1, h2, h3⟩, h4⟩
    rw [hge] at h1 h2
    refine ⟨hcp.trans h1, hc.calm.trans h2, ?_⟩
    by_cases hk : k = .sequenceError
    · exact absurd hgv (h4 hk).2
    · simp at h3 ⊢; tauto

/-- DECOMPRESS is DECODE after CLR (rule R213). -/
theorem decompressBody_end (s : State) : Post (decompressBody s) (DecodeEnd (clearAll s))
    (Fails DecodePorts [.ioError, .corruptHeaderError, .truncatedStreamError, .invalidCodeError] s) :=
  (decodeBody_end (clearAll s)).mono (fun _ h => h) fun _ _ h => h

end Sys2Proof.Machine
end

