-- ==== Sys2Proof/Laws/Tree.lean ====
section
/-!
SUPPORT. The tree of rules R39 and R44: what BUILD makes is one, every node has exactly one path from the
root, and every leaf has one.
-/

namespace Sys2Proof.Machine

/-! ### BUILD makes a tree -/

theorem Forest.internals {s : State} (h : Forest s s.ft) (h2 : 2 ≤ s.ft.length) : TreeInternals s := by
  intro n hn hl
  obtain ⟨d, x, y, h1, h3, h4, h5, h6, h7, h8, h9, -⟩ := h.internal n hn hl
  refine ⟨d, h1, h3, h4, ?_⟩
  rw [if_neg (by omega)]
  exact ⟨h5, h6, x, h7, y, h8, h9⟩

theorem Forest.greedy {s : State} (h : Forest s s.ft) : TreeGreedy s := by
  intro n hn hl
  obtain ⟨d, x, y, h1, -, -, h5, h6, h7, h8, -, h9, h10⟩ := h.internal n hn hl
  exact ⟨d, h1, h9, h10⟩

/-- What BUILD does with a valid table that is not empty (rules R145 to R155). -/
theorem buildBody_spec {s : State} (hv : s.ftv = true) (hft : ftWf s.ft) (hT : TableOk s)
    (hd : s.distinct ≠ 0#17) :
    ∃ t, buildBody s = .ok (.done, t) ∧ TreeOk t ∧ t.ns.Sorted ∧ t.ns.Below t.nnodes.toNat ∧
      (2 ≤ s.ft.length → TreeGreedy t) ∧
      (∀ p, s.ft = [p] → t.ns = [(0, leafNode (BitVec.ofNat 16 p.1) p.2),
        (1, internalNode (p.2.setWidth 48) 0#17 Config.nil)]) ∧
      t = { s with
        trv := true, ctv := false, nnodes := t.nnodes, hsize := 0#17, root := t.root, ns := t.ns,
        hp := [], ct := [] } := by
  have hF : Fresh (dropCodes (dropTree s)) := ⟨rfl, rfl, rfl, rfl⟩
  have hne : s.ft.length ≠ 0 := by
    intro h0
    apply hd
    apply BitVec.eq_of_toNat_eq
    rw [hT.1, h0]; rfl
  have hcap : s.ft.length ≤ 65536 := ftWf_length_le hft
  rw [buildBody_eq, if_pos hv, if_neg hd]
  by_cases h1 : s.ft.length = 1
  · obtain ⟨p, hp⟩ := List.length_eq_one_iff.1 h1
    rw [growTree_one hF (p := p) hp]
    refine ⟨_, rfl, ?_, ?_, ?_, fun h => by omega, ?_, rfl⟩
    · refine ⟨?_, ?_, ?_, ?_, ?_⟩
      · show 1 ≤ s.ft.length ∧ _ = (if s.ft.length = 1 then _ else _) ∧ _
        rw [if_pos h1, h1]
        exact ⟨le_refl _, rfl, rfl⟩
      · show ∀ k < s.ft.length, Store.get? [_, _] k = (s.ft[k]?).map _
        intro k hk
        obtain rfl : k = 0 := by omega
        rw [hp]
        rfl
      · show ∀ n < 2, s.ft.length ≤ n → ∃ d ∈ Store.get? [_, _] n, _ ∧ _ ∧ if s.ft.length = 1 then _ else _
        intro n hn hl
        obtain rfl : n = 1 := by omega
        refine ⟨_, rfl, rfl, rfl, ?_⟩
        show if s.ft.length = 1 then _ else _
        rw [if_pos h1]
        exact ⟨rfl, rfl, _, rfl, rfl⟩
      · show ∀ m < 2, _ = if m = 1 then 0 else 1
        intro m hm
        obtain rfl | rfl : m = 0 ∨ m = 1 := by omega
        · rfl
        · rfl
      · refine ⟨_, rfl, ?_⟩
        show p.2.setWidth 48 = s.total
        apply BitVec.eq_of_toNat_eq
        rw [setWidth48_toNat, hT.2, hp]
        simp [countSum]
    · show Store.Sorted [_, _]
      simp
    · intro q hq
      change q ∈ [_, _] at hq
      show q.1 < 2
      rcases List.mem_cons.1 hq with rfl | hq
      · exact Nat.zero_lt_two
      · rw [List.mem_singleton.1 hq]
        exact Nat.one_lt_two
    · intro q hq
      rw [hp] at hq
      cases hq
      rfl
  · have h2 : 2 ≤ s.ft.length := by omega
    obtain ⟨nn, ns, h3, h4, h5, h6, h7⟩ := growTree_many hF (by exact hft) (by exact h2)
    rw [h3]
    have hroot : (BitVec.ofNat 17 (2 * s.ft.length - 2)).toNat = 2 * s.ft.length - 2 := by
      simp; omega
    refine ⟨_, rfl, ?_, h5.sorted, h5.below, ?_, ?_, rfl⟩
    · refine ⟨?_, h5.leaf, ?_, ?_, ?_⟩
      · show 1 ≤ s.ft.length ∧ nn.toNat = (if s.ft.length = 1 then _ else _) ∧
          (BitVec.ofNat 17 (2 * s.ft.length - 2)).toNat + 1 = nn.toNat
        rw [if_neg h1, hroot, h4]
        change nn.toNat = 2 * s.ft.length - 1 at h4
        exact ⟨by omega, by show 2 * s.ft.length - 1 = _; rfl, by show _ = 2 * s.ft.length - 1; omega⟩
      · exact Forest.internals (s := { s with nnodes := nn, ns := ns }) (Forest.congr h5 rfl rfl) h2
      · show ∀ m < nn.toNat, _ = if m = (BitVec.ofNat 17 (2 * s.ft.length - 2)).toNat then _ else _
        rw [hroot]
        exact h6
      · have hlt : (BitVec.ofNat 17 (2 * s.ft.length - 2)).toNat < nn.toNat := by
          change nn.toNat = 2 * s.ft.length - 1 at h4
          rw [hroot]; omega
        obtain ⟨d, hd1, -, hd3⟩ := h5.nsRead hlt
        refine ⟨d, hd1, ?_⟩
        apply BitVec.eq_of_toNat_eq
        exact (hd3.symm.trans h7).trans hT.2.symm
    · intro _
      exact Forest.greedy (s := { s with nnodes := nn, ns := ns }) (Forest.congr h5 rfl rfl)
    · intro p hp
      rw [hp] at h2
      simp at h2

end Sys2Proof.Machine
end

