-- ==== Sys2Proof/Laws/Codes.lean ====
section
/-!
SUPPORT. Paths in the tree and GEN's traversal: one path to every node, a code for every present symbol,
and the traversal writes exactly those codes (spec/43_code_generator.md rules R160 to R166).
-/

namespace Sys2Proof.Machine

/-- A tree over the table, its memory in canonical form. -/
structure TreeAt (s : State) : Prop where
  ok : TreeOk s
  ft : ftWf s.ft
  sorted : s.ns.Sorted
  below : s.ns.Below s.nnodes.toNat

theorem TreeAt.congr {s t : State} (h : TreeAt s) (h1 : t.ft = s.ft) (h2 : t.ns = s.ns)
    (h3 : t.nnodes = s.nnodes) (h4 : t.root = s.root) (h5 : t.total = s.total) : TreeAt t := by
  refine ⟨?_, by rw [h1]; exact h.ft, by rw [h2]; exact h.sorted, by rw [h2, h3]; exact h.below⟩
  have h6 : ∀ m, parentCount t m = parentCount s m := parentCount_congr h2
  simpa only [TreeOk, TreeSize, TreeLeaves, TreeInternals, TreeParents, TreeTotal, h1, h2, h3, h4, h5,
    h6] using h.ok

section
variable {s : State} (h : TreeAt s)
include h

theorem TreeAt.len : 1 ≤ s.ft.length ∧ s.ft.length ≤ 65536 := ⟨h.ok.1.1, ftWf_length_le h.ft⟩

theorem TreeAt.size : s.nnodes.toNat = (if s.ft.length = 1 then 2 else 2 * s.ft.length - 1) ∧
    s.root.toNat + 1 = s.nnodes.toNat := h.ok.1.2

theorem TreeAt.size_le : s.ft.length < s.nnodes.toNat ∧ s.nnodes.toNat ≤ 131071 := by
  have h1 := h.size.1
  have h2 := h.len
  split at h1 <;> omega

theorem TreeAt.leafAt {k : Nat} (hk : k < s.ft.length) : ∃ p, s.ft[k]? = some p ∧
    s.ns.get? k = some (leafNode (BitVec.ofNat 16 p.1) p.2) := by
  refine ⟨s.ft[k], List.getElem?_eq_getElem hk, ?_⟩
  rw [h.ok.2.1 k hk, List.getElem?_eq_getElem hk]
  rfl

/-- An internal node: its left link leads down, its right link too unless the tree has one leaf. -/
theorem TreeAt.internalAt {n : Nat} (hn : n < s.nnodes.toNat) (hl : s.ft.length ≤ n) :
    ∃ d, s.ns.get? n = some d ∧ d.tag = .internal ∧ d.left.toNat < n ∧ d.left ≠ Config.nil ∧
      (d.right ≠ Config.nil → d.right.toNat < n) ∧ (d.right = Config.nil ↔ s.ft.length = 1) := by
  obtain ⟨d, h1, h2, -, h3⟩ := h.ok.2.2.1 n hn hl
  have hsz := h.size_le
  have hlen := h.len
  have hnil : Config.nil.toNat = 131071 := rfl
  refine ⟨d, h1, h2, ?_⟩
  by_cases hD : s.ft.length = 1
  · rw [if_pos hD] at h3
    obtain ⟨h3, h4, -⟩ := h3
    rw [h3, h4]
    exact ⟨by show 0 < n; omega, by decide, fun h => absurd rfl h, by simp [hD]⟩
  · rw [if_neg hD] at h3
    obtain ⟨h3, h4, -⟩ := h3
    refine ⟨h3, fun h => ?_, fun _ => h4, fun h => ?_, fun h => absurd h hD⟩
    · rw [h] at h3; omega
    · rw [h] at h4; omega

/-- A link that is not `NIL` leads down. -/
theorem TreeAt.child_lt {n : Nat} (hn : n < s.nnodes.toNat) {d : Node} (hd : s.ns.get? n = some d)
    (ht : d.tag = .internal) {b : Bool} (hc : childOf b d ≠ Config.nil) : (childOf b d).toNat < n := by
  by_cases hl : s.ft.length ≤ n
  · obtain ⟨d', h1, -, h3, -, h5, -⟩ := h.internalAt hn hl
    rw [hd] at h1
    cases h1
    cases b
    · exact h3
    · exact h5 hc
  · obtain ⟨p, -, hp⟩ := h.leafAt (k := n) (by omega)
    rw [hd] at hp
    cases hp
    cases ht

theorem TreeAt.listed {n : NodeIx} (hn : n.toNat < s.nnodes.toNat) :
    ∃ d, s.ns.get? n.toNat = some d ∧ nsRead n s = .ok d := by
  have : (s.ns.get? n.toNat).isSome := by
    by_cases hl : s.ft.length ≤ n.toNat
    · obtain ⟨d, h1, -⟩ := h.internalAt hn hl
      simp [h1]
    · obtain ⟨p, -, hp⟩ := h.leafAt (k := n.toNat) (by omega)
      simp [hp]
  exact Listed.nsRead ⟨hn, this⟩

theorem TreeAt.root_lt : s.root.toNat < s.nnodes.toNat := by have := h.size.2; omega

theorem TreeAt.root_internal : ∃ d, s.ns.get? s.root.toNat = some d ∧ d.tag = .internal := by
  have h1 := h.size
  have h2 := h.size_le
  obtain ⟨d, hd, ht, -⟩ := h.internalAt h.root_lt (by omega)
  exact ⟨d, hd, ht⟩

end

/-! ### Paths -/

theorem descend_congr {s t : State} (h : t.ns = s.ns) : ∀ (p : Code) (n : NodeIx),
    descend t n p = descend s n p
  | [], n => rfl
  | b :: p, n => by
    simp only [descend, h, descend_congr h p]

theorem descend_append (s : State) : ∀ (p q : Code) (n : NodeIx),
    descend s n (p ++ q) = (descend s n p).bind fun m => descend s m q
  | [], q, n => rfl
  | b :: p, q, n => by
    simp only [List.cons_append, descend]
    cases s.ns.get? n.toNat with
    | none => rfl
    | some d =>
      simp only
      split
      · exact descend_append s p q _
      · rfl

/-- One step of a path. -/
theorem descend_one (s : State) (b : Bool) (n m : NodeIx) : descend s n [b] = some m ↔
    ∃ d, s.ns.get? n.toNat = some d ∧ d.tag = .internal ∧ childOf b d = m ∧ m ≠ Config.nil := by
  simp only [descend]
  cases hg : s.ns.get? n.toNat with
  | none => simp
  | some d =>
    simp only [Option.some.injEq, exists_eq_left']
    constructor
    · intro h
      split at h
      · rename_i hc
        cases h
        exact ⟨hc.1, rfl, hc.2⟩
      · cases h
    · rintro ⟨h1, rfl, h3⟩
      rw [if_pos ⟨h1, h3⟩]

theorem descend_snoc {s : State} {p : Code} {b : Bool} {n m : NodeIx} :
    descend s n (p ++ [b]) = some m ↔ ∃ j, descend s n p = some j ∧ descend s j [b] = some m := by
  rw [descend_append]
  cases descend s n p <;> simp

section
variable {s : State} (h : TreeAt s)
include h

theorem TreeAt.descend_lt : ∀ {p : Code} {n m : NodeIx}, n.toNat < s.nnodes.toNat →
    descend s n p = some m → m.toNat < s.nnodes.toNat ∧ m.toNat ≤ n.toNat
  | [], n, m, hn, hd => by cases hd; exact ⟨hn, le_refl _⟩
  | b :: p, n, m, hn, hd => by
    rw [show b :: p = [b] ++ p from rfl, descend_append] at hd
    obtain ⟨j, h1, h2⟩ := Option.bind_eq_some_iff.1 hd
    obtain ⟨d, h3, h4, h5, h6⟩ := (descend_one s b n j).1 h1
    have := h.child_lt hn h3 h4 (b := b) (by rw [h5]; exact h6)
    rw [h5] at this
    obtain ⟨h7, h8⟩ := TreeAt.descend_lt (p := p) (n := j) (m := m) (by omega) h2
    exact ⟨h7, by omega⟩

omit h in
/-- A step of a path counts for the parents of the node it leads to. -/
theorem edge_parent {b : Bool} {j m : NodeIx} (hd : descend s j [b] = some m) :
    ∃ d, (j.toNat, d) ∈ s.ns ∧ d.tag = .internal ∧ childOf b d = m ∧ 1 ≤ childCount d m.toNat := by
  obtain ⟨d, h3, h4, h5, h6⟩ := (descend_one s b j m).1 hd
  refine ⟨d, Store.get?_some_mem h3, h4, h5, ?_⟩
  unfold childCount
  rw [if_pos h4, ← h5]
  cases b <;> simp [childOf]

/-- Two steps to one node are the same step (rule R44 (e)). -/
theorem TreeAt.edge_unique {b c : Bool} {j k m : NodeIx} (hm : m.toNat < s.nnodes.toNat)
    (h1 : descend s j [b] = some m) (h2 : descend s k [c] = some m) : j = k ∧ b = c := by
  obtain ⟨d, hd1, hd2, hd3, hd4⟩ := edge_parent h1
  obtain ⟨e, he1, he2, he3, he4⟩ := edge_parent h2
  have hp : parentCount s m.toNat ≤ 1 := by
    rw [h.ok.2.2.2.1 m.toNat hm]
    split <;> omega
  have hjk : j = k := by
    by_contra hne
    have hne' : ((j.toNat, d) : Nat × Node) ≠ (k.toNat, e) := by
      intro he
      exact hne (BitVec.eq_of_toNat_eq (congrArg Prod.fst he))
    have hn : s.ns.Nodup := h.sorted.imp fun hlt he => by rw [he] at hlt; exact lt_irrefl _ hlt
    have h3 : parentCount s m.toNat = childCount d m.toNat +
        ((s.ns.erase (j.toNat, d)).map fun p => childCount p.2 m.toNat).sum := by
      unfold parentCount
      rw [(List.perm_cons_erase hd1 |>.map _).sum_eq]
      rfl
    have h4 : (k.toNat, e) ∈ s.ns.erase (j.toNat, d) :=
      (List.mem_erase_of_ne (Ne.symm hne')).2 he1
    have h5 := List.single_le_sum (l := (s.ns.erase (j.toNat, d)).map fun p => childCount p.2 m.toNat)
      (fun _ _ => Nat.zero_le _) _ (List.mem_map.2 ⟨_, h4, rfl⟩)
    simp only at h5
    omega
  subst hjk
  refine ⟨rfl, ?_⟩
  have hde : d = e := by
    have h3 := Store.get?_of_mem h.sorted hd1
    have h4 := Store.get?_of_mem h.sorted he1
    rw [h3] at h4
    exact Option.some.inj h4
  subst hde
  by_contra hbc
  have h6 : childCount d m.toNat ≤ 1 := by
    have := List.single_le_sum (l := s.ns.map fun p => childCount p.2 m.toNat)
      (fun _ _ => Nat.zero_le _) _ (List.mem_map.2 ⟨_, hd1, rfl⟩)
    exact le_trans this hp
  have h7 : d.left = m ∧ d.right = m := by
    cases b <;> cases c <;> simp_all [childOf]
  unfold childCount at h6
  rw [if_pos hd2, h7.1, h7.2, if_pos rfl] at h6
  omega

/-- No step leads to the root. -/
theorem TreeAt.edge_root {b : Bool} {j : NodeIx} : descend s j [b] ≠ some s.root := by
  intro h1
  obtain ⟨d, hd1, hd2, hd3, hd4⟩ := edge_parent h1
  have hp := h.ok.2.2.2.1 s.root.toNat h.root_lt
  rw [if_pos rfl] at hp
  have := List.single_le_sum (l := s.ns.map fun p => childCount p.2 s.root.toNat)
    (fun _ _ => Nat.zero_le _) _ (List.mem_map.2 ⟨_, hd1, rfl⟩)
  have : childCount d s.root.toNat ≤ parentCount s s.root.toNat := this
  omega

/-- One path to every node. -/
theorem TreeAt.path_unique {p : Code} : ∀ {q : Code} {m : NodeIx}, descend s s.root p = some m →
    descend s s.root q = some m → p = q := by
  induction p using List.reverseRecOn with
  | nil =>
    intro q m hp hq
    cases hp
    rcases List.eq_nil_or_concat q with rfl | ⟨q, b, rfl⟩
    · rfl
    · rw [List.concat_eq_append, descend_snoc] at hq
      obtain ⟨j, -, hj⟩ := hq
      exact absurd hj h.edge_root
  | append_singleton p b ih =>
    intro q m hp hq
    have hm := (h.descend_lt h.root_lt hp).1
    obtain ⟨j, hj1, hj2⟩ := descend_snoc.1 hp
    rcases List.eq_nil_or_concat q with rfl | ⟨q, c, rfl⟩
    · cases hq
      exact absurd hj2 h.edge_root
    · rw [List.concat_eq_append] at hq ⊢
      obtain ⟨k, hk1, hk2⟩ := descend_snoc.1 hq
      obtain ⟨rfl, rfl⟩ := h.edge_unique hm hj2 hk2
      rw [ih hj1 hk1]

/-- Every node but the root has a parent. -/
theorem TreeAt.parent {m : NodeIx} (hm : m.toNat < s.nnodes.toNat) (hr : m ≠ s.root) :
    ∃ j b, j.toNat < s.nnodes.toNat ∧ m.toNat < j.toNat ∧ descend s j [b] = some m := by
  have hp := h.ok.2.2.2.1 m.toNat hm
  rw [if_neg (fun he => hr (BitVec.eq_of_toNat_eq he))] at hp
  have : ∃ p ∈ s.ns, childCount p.2 m.toNat ≠ 0 := by
    by_contra hcon
    push Not at hcon
    have : parentCount s m.toNat = 0 := by
      unfold parentCount
      apply List.sum_eq_zero
      intro c hc
      obtain ⟨p, hp, rfl⟩ := List.mem_map.1 hc
      exact hcon p hp
    omega
  obtain ⟨⟨j, d⟩, hj, hc⟩ := this
  have hlt := h.below _ hj
  have hsz := h.size_le
  have hjn : (BitVec.ofNat 17 j).toNat = j := by
    simp only [BitVec.toNat_ofNat]
    simp only at hlt
    omega
  have hg := Store.get?_of_mem h.sorted hj
  have hmn : m ≠ Config.nil := by
    intro h0
    have : Config.nil.toNat = 131071 := rfl
    rw [h0] at hm
    omega
  have ht : d.tag = .internal := by
    by_contra hcon
    unfold childCount at hc
    rw [if_neg hcon] at hc
    exact hc rfl
  have hb : ∃ b, childOf b d = m := by
    unfold childCount at hc
    rw [if_pos ht] at hc
    by_cases h1 : d.left.toNat = m.toNat
    · exact ⟨false, BitVec.eq_of_toNat_eq h1⟩
    · refine ⟨true, BitVec.eq_of_toNat_eq ?_⟩
      by_contra h2
      have h2 : d.right.toNat ≠ m.toNat := h2
      simp [h1, h2] at hc
  obtain ⟨b, hb⟩ := hb
  refine ⟨BitVec.ofNat 17 j, b, by rw [hjn]; exact hlt, ?_, ?_⟩
  · rw [hjn]
    have := h.child_lt hlt hg ht (b := b) (by rw [hb]; exact hmn)
    rw [hb] at this
    exact this
  · exact (descend_one s b _ m).2 ⟨d, by rw [hjn]; exact hg, ht, hb, hmn⟩

/-- Every node has a path from the root. -/
theorem TreeAt.path_exists : ∀ (k : Nat) (m : NodeIx), m.toNat < s.nnodes.toNat →
    s.nnodes.toNat - m.toNat ≤ k → ∃ p, descend s s.root p = some m
  | 0, m, hm, hk => by omega
  | k + 1, m, hm, hk => by
    by_cases hr : m = s.root
    · exact ⟨[], by rw [hr]; rfl⟩
    · obtain ⟨j, b, h1, h2, h3⟩ := h.parent hm hr
      obtain ⟨p, hp⟩ := TreeAt.path_exists k j h1 (by omega)
      exact ⟨p ++ [b], descend_snoc.2 ⟨j, hp, h3⟩⟩

theorem TreeAt.path (m : NodeIx) (hm : m.toNat < s.nnodes.toNat) : ∃! p, descend s s.root p = some m := by
  obtain ⟨p, hp⟩ := h.path_exists _ m hm (le_refl _)
  exact ⟨p, hp, fun q hq => h.path_unique hq hp⟩

/-- A path is no longer than the number of internal nodes it may pass (rule R165). -/
theorem TreeAt.path_length : ∀ {p : Code} {n m : NodeIx}, n.toNat < s.nnodes.toNat →
    descend s n p = some m → p.length ≤ n.toNat + 1 - s.ft.length
  | [], n, m, hn, hd => Nat.zero_le _
  | b :: p, n, m, hn, hd => by
    rw [show b :: p = [b] ++ p from rfl, descend_append] at hd
    obtain ⟨j, h1, h2⟩ := Option.bind_eq_some_iff.1 hd
    obtain ⟨d, h3, h4, h5, h6⟩ := (descend_one s b n j).1 h1
    have h7 := h.child_lt hn h3 h4 (b := b) (by rw [h5]; exact h6)
    rw [h5] at h7
    have hl : s.ft.length ≤ n.toNat := by
      by_contra hcon
      obtain ⟨q, -, hq⟩ := h.leafAt (k := n.toNat) (by omega)
      rw [h3] at hq
      cases hq
      cases h4
    have h8 := TreeAt.path_length (p := p) (n := j) (m := m) (by omega) h2
    simp only [List.length_cons]
    omega

/-- A leaf is a present symbol's, and only that symbol's. -/
theorem TreeAt.leaf_iff {n : NodeIx} {d : Node} (hn : n.toNat < s.nnodes.toNat)
    (hd : s.ns.get? n.toNat = some d) : d.tag = .leaf ↔ n.toNat < s.ft.length := by
  constructor
  · intro ht
    by_contra hcon
    obtain ⟨e, he, hte, -⟩ := h.internalAt hn (by omega)
    rw [hd] at he
    cases he
    rw [ht] at hte
    cases hte
  · intro hlt
    obtain ⟨p, -, hp⟩ := h.leafAt hlt
    rw [hd] at hp
    cases hp
    rfl

end

/-! ### GEN's traversal -/

/-- The nodes of a subtree with their paths, in the order GEN pops them; the first argument bounds the
depth. -/
def treeWalk (s : State) : Nat → NodeIx → Code → List (NodeIx × Code)
  | 0, _, _ => []
  | k + 1, n, p => (n, p) ::
    match s.ns.get? n.toNat with
    | none => []
    | some d =>
      if d.tag = .leaf then []
      else
        (if d.left = Config.nil then [] else treeWalk s k d.left (p ++ [false])) ++
        (if d.right = Config.nil then [] else treeWalk s k d.right (p ++ [true]))

/-- What GEN writes for a node: a leaf's code. -/
def writeCode (s u : State) (x : NodeIx × Code) : State :=
  match s.ns.get? x.1.toNat with
  | none => u
  | some d => if d.tag = .leaf then ctWrite d.sym x.2 u else u

theorem writeCode_eq (s u : State) (x : NodeIx × Code) :
    writeCode s u x = { u with ct := (writeCode s u x).ct } := by
  unfold writeCode
  split
  · rfl
  · split <;> rfl

theorem writeCodes_eq (s : State) : ∀ (l : List (NodeIx × Code)) (u : State),
    l.foldl (writeCode s) u = { u with ct := (l.foldl (writeCode s) u).ct }
  | [], u => rfl
  | x :: l, u => by
    simp only [List.foldl_cons]
    exact (writeCodes_eq s l (writeCode s u x)).trans (by rw [writeCode_eq s u x])

section
variable {s : State} (h : TreeAt s)
include h

theorem TreeAt.genLoop_walk : ∀ (k : Nat) (n : NodeIx) (p : Code), n.toNat < k →
    n.toNat < s.nnodes.toNat → ∀ (j : Nat) (st : List (NodeIx × Code)) (u : State),
    u.ns = s.ns → u.nnodes = s.nnodes →
    genLoop ((treeWalk s k n p).length + j) ((n, p) :: st) u =
      genLoop j st ((treeWalk s k n p).foldl (writeCode s) u)
  | 0, n, p, hk, _ => by omega
  | k + 1, n, p, hk, hn => by
    intro j st u hu hu'
    obtain ⟨d, hd, -⟩ := h.listed hn
    have hr : nsRead n u = .ok d := by
      unfold nsRead
      rw [hu', if_pos hn, hu, hd]
    by_cases ht : d.tag = .leaf
    · have hw : treeWalk s (k + 1) n p = [(n, p)] := by
        simp [treeWalk, hd, ht]
      have hc : writeCode s u (n, p) = ctWrite d.sym p u := by simp [writeCode, hd, ht]
      rw [hw]
      simp only [List.length_singleton, List.foldl_cons, List.foldl_nil, hc]
      rw [Nat.add_comm, genLoop, hr]
      simp only [Run.ok_bind, ht]
    · have hti : d.tag = .internal := by cases hx : d.tag <;> simp_all
      have hc : writeCode s u (n, p) = u := by simp [writeCode, hd, ht]
      have hcl : ∀ b, childOf b d ≠ Config.nil → (childOf b d).toNat < n.toNat :=
        fun b => h.child_lt hn hd hti
      have hl := hcl false
      have hr' := hcl true
      simp only [childOf, if_true, Bool.false_eq_true, if_false] at hl hr'
      have hw : treeWalk s (k + 1) n p = (n, p) ::
          ((if d.left = Config.nil then [] else treeWalk s k d.left (p ++ [false])) ++
          (if d.right = Config.nil then [] else treeWalk s k d.right (p ++ [true]))) := by
        simp [treeWalk, hd, ht]
      rw [hw]
      simp only [List.length_cons, List.foldl_cons, List.length_append, List.foldl_append, hc]
      rw [show ∀ a b : Nat, a + b + 1 + j = (a + (b + j)) + 1 by intros; omega, genLoop, hr]
      simp only [Run.ok_bind, hti, pushChild]
      by_cases h1 : d.left = Config.nil <;> by_cases h2 : d.right = Config.nil
      · simp [h1, h2]
      · simp only [h1, h2, if_true, if_false, List.length_nil, Nat.zero_add, List.foldl_nil]
        exact TreeAt.genLoop_walk k d.right _ (by have := hr' h2; omega) (by have := hr' h2; omega) j st u hu hu'
      · simp only [h1, h2, if_true, if_false, List.length_nil, Nat.zero_add, List.foldl_nil]
        exact TreeAt.genLoop_walk k d.left _ (by have := hl h1; omega) (by have := hl h1; omega) j st u hu hu'
      · simp only [h1, h2, if_false]
        rw [TreeAt.genLoop_walk k d.left _ (by have := hl h1; omega) (by have := hl h1; omega) _ _ u hu hu']
        have e := writeCodes_eq s (treeWalk s k d.left (p ++ [false])) u
        refine TreeAt.genLoop_walk k d.right _ (by have := hr' h2; omega) (by have := hr' h2; omega) j st _ ?_ ?_
        · rw [e]; exact hu
        · rw [e]; exact hu'

theorem TreeAt.mem_walk : ∀ (k : Nat) (n : NodeIx) (p : Code), n.toNat < k → n.toNat < s.nnodes.toNat →
    ∀ (m : NodeIx) (q : Code), (m, q) ∈ treeWalk s k n p ↔ ∃ r, q = p ++ r ∧ descend s n r = some m
  | 0, n, p, hk, _ => by omega
  | k + 1, n, p, hk, hn => by
    intro m q
    obtain ⟨d, hd, -⟩ := h.listed hn
    have hcl : ∀ b, d.tag = .internal → childOf b d ≠ Config.nil → (childOf b d).toNat < n.toNat :=
      fun b ht => h.child_lt hn hd ht
    have hstep : ∀ b r, descend s n (b :: r) = if d.tag = .internal ∧ childOf b d ≠ Config.nil then
        descend s (childOf b d) r else none := by
      intro b r
      simp only [descend, hd]
    have hnil : (∃ r, q = p ++ r ∧ descend s n r = some m) ↔ (m = n ∧ q = p) ∨
        ∃ b r, q = p ++ [b] ++ r ∧ d.tag = .internal ∧ childOf b d ≠ Config.nil ∧
          descend s (childOf b d) r = some m := by
      constructor
      · rintro ⟨r, hq, hr⟩
        cases r with
        | nil => cases hr; exact .inl ⟨rfl, by simpa using hq⟩
        | cons b r =>
          rw [hstep] at hr
          split at hr
          · rename_i hc
            exact .inr ⟨b, r, by simpa using hq, hc.1, hc.2, hr⟩
          · cases hr
      · rintro (⟨rfl, rfl⟩ | ⟨b, r, hq, h1, h2, h3⟩)
        · exact ⟨[], by simp, rfl⟩
        · exact ⟨b :: r, by simpa using hq, by rw [hstep, if_pos ⟨h1, h2⟩]; exact h3⟩
    rw [hnil]
    by_cases ht : d.tag = .leaf
    · have hw : treeWalk s (k + 1) n p = [(n, p)] := by simp [treeWalk, hd, ht]
      rw [hw]
      simp [ht]
    · have hti : d.tag = .internal := by cases hx : d.tag <;> simp_all
      have hsub : ∀ b, ((m, q) ∈ if childOf b d = Config.nil then [] else
          treeWalk s k (childOf b d) (p ++ [b])) ↔
          ∃ r, q = p ++ [b] ++ r ∧ d.tag = .internal ∧ childOf b d ≠ Config.nil ∧
            descend s (childOf b d) r = some m := by
        intro b
        by_cases hb : childOf b d = Config.nil
        · simp [hb]
        · have := hcl b hti hb
          rw [if_neg hb, TreeAt.mem_walk k (childOf b d) (p ++ [b]) (by omega) (by omega) m q]
          simp [hb, hti]
      have hw : treeWalk s (k + 1) n p = (n, p) ::
          ((if childOf false d = Config.nil then [] else treeWalk s k (childOf false d) (p ++ [false])) ++
          (if childOf true d = Config.nil then [] else treeWalk s k (childOf true d) (p ++ [true]))) := by
        simp [treeWalk, hd, ht, childOf]
      rw [hw, List.mem_cons, List.mem_append, hsub, hsub, Bool.exists_bool]
      simp

theorem TreeAt.walk_nodup : ∀ (k : Nat) (n : NodeIx) (p : Code), n.toNat < k →
    n.toNat < s.nnodes.toNat → (treeWalk s k n p).Nodup
  | 0, n, p, hk, _ => by omega
  | k + 1, n, p, hk, hn => by
    obtain ⟨d, hd, -⟩ := h.listed hn
    by_cases ht : d.tag = .leaf
    · have hw : treeWalk s (k + 1) n p = [(n, p)] := by simp [treeWalk, hd, ht]
      rw [hw]
      simp
    · have hti : d.tag = .internal := by cases hx : d.tag <;> simp_all
      have hcl : ∀ b, childOf b d ≠ Config.nil → (childOf b d).toNat < n.toNat :=
        fun b => h.child_lt hn hd hti
      let sub : Bool → List (NodeIx × Code) := fun b =>
        if childOf b d = Config.nil then [] else treeWalk s k (childOf b d) (p ++ [b])
      have hsub : ∀ b m q, (m, q) ∈ sub b → ∃ r, q = p ++ [b] ++ r := by
        intro b m q hm
        by_cases hb : childOf b d = Config.nil
        · simp [sub, hb] at hm
        · have hlt := hcl b hb
          simp only [sub, hb, if_false] at hm
          obtain ⟨r, hr, -⟩ := (h.mem_walk k _ _ (by omega) (by omega) m q).1 hm
          exact ⟨r, hr⟩
      have hnd : ∀ b, (sub b).Nodup := by
        intro b
        by_cases hb : childOf b d = Config.nil
        · simp [sub, hb]
        · have hlt := hcl b hb
          simp only [sub, hb, if_false]
          exact TreeAt.walk_nodup k _ _ (by omega) (by omega)
      have hw : treeWalk s (k + 1) n p = (n, p) :: (sub false ++ sub true) := by
        simp [treeWalk, hd, ht, childOf, sub]
      rw [hw, List.nodup_cons]
      refine ⟨?_, List.nodup_append.2 ⟨hnd false, hnd true, ?_⟩⟩
      · intro hm
        rcases List.mem_append.1 hm with hm | hm
        · obtain ⟨r, hr⟩ := hsub _ _ _ hm
          have := congrArg List.length hr
          simp at this
        · obtain ⟨r, hr⟩ := hsub _ _ _ hm
          have := congrArg List.length hr
          simp at this
      · rintro ⟨m, q⟩ h1 ⟨m', q'⟩ h2 he
        obtain ⟨r, hr⟩ := hsub _ _ _ h1
        obtain ⟨r', hr'⟩ := hsub _ _ _ h2
        cases he
        rw [hr] at hr'
        simp at hr'

/-- GEN pops no more entries than there are nodes. -/
theorem TreeAt.walk_length (k : Nat) (hk : s.root.toNat < k) :
    (treeWalk s k s.root []).length ≤ s.nnodes.toNat := by
  have hm := h.mem_walk k s.root [] hk h.root_lt
  have h1 : ((treeWalk s k s.root []).map fun x => x.1.toNat).Nodup := by
    refine List.Nodup.map_on ?_ (h.walk_nodup k s.root [] hk h.root_lt)
    rintro ⟨m, q⟩ h1 ⟨m', q'⟩ h2 he
    obtain rfl : m = m' := BitVec.eq_of_toNat_eq he
    obtain ⟨r, rfl, hr⟩ := (hm _ _).1 h1
    obtain ⟨r', rfl, hr'⟩ := (hm _ _).1 h2
    rw [h.path_unique hr hr']
  have h2 : ((treeWalk s k s.root []).map fun x => x.1.toNat) ⊆ List.range s.nnodes.toNat := by
    intro a ha
    obtain ⟨⟨m, q⟩, hx, rfl⟩ := List.mem_map.1 ha
    obtain ⟨r, -, hr⟩ := (hm _ _).1 hx
    exact List.mem_range.2 (h.descend_lt h.root_lt hr).1
  simpa using (h1.subperm h2).length_le

/-- The leaf of a symbol. -/
theorem TreeAt.leaf_sym {n m : NodeIx} {d e : Node} (hn : n.toNat < s.nnodes.toNat)
    (hm : m.toNat < s.nnodes.toNat) (hd : s.ns.get? n.toNat = some d) (he : s.ns.get? m.toNat = some e)
    (htd : d.tag = .leaf) (hte : e.tag = .leaf) (hs : d.sym = e.sym) : n = m := by
  obtain ⟨p, hp1, hp2⟩ := h.leafAt ((h.leaf_iff hn hd).1 htd)
  obtain ⟨q, hq1, hq2⟩ := h.leafAt ((h.leaf_iff hm he).1 hte)
  rw [hd] at hp2
  rw [he] at hq2
  cases hp2
  cases hq2
  have hpm := List.mem_of_getElem? hp1
  have hqm := List.mem_of_getElem? hq1
  have hps : p.1 < 65536 := h.ft.2.1 p hpm
  have hqs : q.1 < 65536 := h.ft.2.1 q hqm
  have hpq : p.1 = q.1 := by
    have := congrArg BitVec.toNat hs
    simp only [leafNode, BitVec.toNat_ofNat] at this
    omega
  obtain ⟨hi, hp⟩ := List.getElem?_eq_some_iff.1 hp1
  obtain ⟨hj, hq⟩ := List.getElem?_eq_some_iff.1 hq1
  apply BitVec.eq_of_toNat_eq
  have hpw := List.pairwise_iff_getElem.1 h.ft.1
  rcases lt_trichotomy n.toNat m.toNat with hlt | heq | hlt
  · have := hpw _ _ hi hj hlt
    rw [hp, hq] at this
    omega
  · exact heq
  · have := hpw _ _ hj hi hlt
    rw [hp, hq] at this
    omega

end

/-- What a run of code writes leaves at a symbol that at most one code is written for. -/
theorem ctRead_writeCodes (s : State) (v : Sym) : ∀ (l : List (NodeIx × Code)) (u : State),
    ctWf u.ct →
    (∀ x ∈ l, ∀ y ∈ l, ∀ d ∈ s.ns.get? x.1.toNat, ∀ e ∈ s.ns.get? y.1.toNat, d.tag = .leaf →
      e.tag = .leaf → d.sym = v → e.sym = v → x.2 = y.2) →
    (∀ x ∈ l, ∀ d ∈ s.ns.get? x.1.toNat, d.tag = .leaf → d.sym = v →
      ctRead v (l.foldl (writeCode s) u) = x.2) ∧
    ((∀ x ∈ l, ∀ d ∈ s.ns.get? x.1.toNat, d.tag = .leaf → d.sym ≠ v) →
      ctRead v (l.foldl (writeCode s) u) = ctRead v u)
  | [], u, _, _ => ⟨by simp, fun _ => rfl⟩
  | x :: l, u, hu, hl => by
    have hu' : ctWf (writeCode s u x).ct := by
      unfold writeCode
      split
      · exact hu
      · split
        · unfold ctWrite
          dsimp only
          split
          · exact ⟨Store.sorted_del hu.1 _, Store.below_del hu.2.1 _, fun p hp => hu.2.2 p (Store.mem_del hp)⟩
          · refine ⟨Store.sorted_put hu.1 _ _, Store.below_put hu.2.1 (BitVec.isLt _) _, fun p hp => ?_⟩
            rcases Store.mem_put hp with rfl | hp
            · assumption
            · exact hu.2.2 p hp
        · exact hu
    have hread : ctRead v (writeCode s u x) =
        if ∃ d ∈ s.ns.get? x.1.toNat, d.tag = .leaf ∧ d.sym = v then x.2 else ctRead v u := by
      unfold writeCode
      cases hg : s.ns.get? x.1.toNat with
      | none => simp
      | some d =>
        simp only [Option.mem_def, Option.some.injEq, exists_eq_left']
        by_cases ht : d.tag = .leaf
        · simp only [ht, if_true, true_and]
          unfold ctRead ctWrite
          dsimp only
          by_cases hv : d.sym = v
          · subst hv
            rw [if_pos rfl]
            split
            · rename_i h0
              rw [Store.get?_del_same hu.1, h0]; rfl
            · rw [Store.get?_put_same]; rfl
          · rw [if_neg hv]
            have hv' : v.toNat ≠ d.sym.toNat := fun he => hv (BitVec.eq_of_toNat_eq he.symm)
            split
            · rw [Store.get?_del_ne _ _ _ hv']
            · rw [Store.get?_put_ne _ _ _ _ hv']
        · simp [ht]
    obtain ⟨ih1, ih2⟩ := ctRead_writeCodes s v l (writeCode s u x) hu'
      fun x hx y hy => hl x (List.mem_cons_of_mem _ hx) y (List.mem_cons_of_mem _ hy)
    simp only [List.foldl_cons]
    refine ⟨?_, ?_⟩
    · intro y hy d hd ht hv
      rcases List.mem_cons.1 hy with rfl | hy
      · by_cases hex : ∃ z ∈ l, ∃ e ∈ s.ns.get? z.1.toNat, e.tag = .leaf ∧ e.sym = v
        · obtain ⟨z, hz, e, he, hte, hse⟩ := hex
          rw [ih1 z hz e he hte hse]
          exact hl z (List.mem_cons_of_mem _ hz) y (List.mem_cons_self ..) e he d hd hte ht hse hv
        · rw [ih2 fun z hz e he hte hse => hex ⟨z, hz, e, he, hte, hse⟩, hread, if_pos ⟨d, hd, ht, hv⟩]
      · exact ih1 y hy d hd ht hv
    · intro hn
      rw [ih2 fun y hy => hn y (List.mem_cons_of_mem _ hy), hread, if_neg]
      rintro ⟨d, hd, ht, hv⟩
      exact hn x (List.mem_cons_self ..) d hd ht hv

/-- What GEN does on a tree (rules R160 to R166). -/
theorem genBody_spec {s : State} (h : TreeAt s) (hv : s.trv = true) :
    ∃ ct, genBody s = .ok (.done, { s with ctv := true, ct := ct }) ∧
      CodesOk { s with ctv := true, ct := ct } := by
  let k := s.nnodes.toNat
  have hk : s.root.toNat < k := h.root_lt
  have hlen := h.walk_length k hk
  have hmem := h.mem_walk k s.root [] hk h.root_lt
  have hloop := h.genLoop_walk k s.root [] hk h.root_lt
    (s.nnodes.toNat - (treeWalk s k s.root []).length) [] (dropCodes s) rfl rfl
  rw [Nat.add_sub_cancel' hlen] at hloop
  let t := (treeWalk s k s.root []).foldl (writeCode s) (dropCodes s)
  have ht : t = { dropCodes s with ct := t.ct } := writeCodes_eq s _ _
  refine ⟨t.ct, ?_, ?_⟩
  · unfold genBody
    have hreq : require s.trv s = .ok () := by rw [hv]; rfl
    simp only [hreq, Run.ok_bind]
    rw [show (dropCodes s).nnodes = s.nnodes from rfl, show (dropCodes s).root = s.root from rfl, hloop]
    rw [show genLoop (s.nnodes.toNat - (treeWalk s k s.root []).length) []
      ((treeWalk s k s.root []).foldl (writeCode s) (dropCodes s)) = .ok t from by unfold genLoop; rfl]
    simp only [Run.ok_bind]
    exact congrArg (fun u : State => (.ok (.done, { u with ctv := true }) : Run (CmdOutcome × State))) ht
  · intro v p
    have huniq : ∀ x ∈ treeWalk s k s.root [], ∀ y ∈ treeWalk s k s.root [],
        ∀ d ∈ s.ns.get? x.1.toNat, ∀ e ∈ s.ns.get? y.1.toNat, d.tag = .leaf →
        e.tag = .leaf → d.sym = v → e.sym = v → x.2 = y.2 := by
      rintro ⟨m, q⟩ hx ⟨m', q'⟩ hy d hd e he htd hte hsd hse
      obtain ⟨r, rfl, hr⟩ := (hmem _ _).1 hx
      obtain ⟨r', rfl, hr'⟩ := (hmem _ _).1 hy
      have := h.leaf_sym (h.descend_lt h.root_lt hr).1 (h.descend_lt h.root_lt hr').1 hd he htd hte
        (hsd.trans hse.symm)
      subst this
      rw [h.path_unique hr hr']
    obtain ⟨h1, h2⟩ := ctRead_writeCodes s v _ (dropCodes s) (by exact ⟨.nil, by simp [dropCodes],
      by simp [dropCodes]⟩) huniq
    have hct : ∀ q, CodeTo { s with ctv := true, ct := t.ct } v q ↔ ∃ n, descend s s.root q = some n ∧
        ∃ d ∈ s.ns.get? n.toNat, d.tag = .leaf ∧ d.sym = v := by
      intro q
      have hde := descend_congr (s := s) (t := { s with ctv := true, ct := t.ct }) rfl
      unfold CodeTo
      simp only [hde]
    rw [hct]
    change (p ≠ [] ∧ ctRead v t = p) ↔ _
    constructor
    · rintro ⟨hp, hr⟩
      by_contra hcon
      apply hp
      rw [← hr]
      refine (h2 ?_).trans rfl
      rintro ⟨m, q⟩ hx d hd htd hsd
      obtain ⟨r, hq, hr'⟩ := (hmem _ _).1 hx
      rw [List.nil_append] at hq
      apply hcon
      refine ⟨m, ?_, d, hd, htd, hsd⟩
      rw [← hr, show ctRead v t = q from h1 _ hx d hd htd hsd, hq]
      exact hr'
    · rintro ⟨n, hn, d, hd, htd, hsd⟩
      refine ⟨?_, ?_⟩
      · rintro rfl
        cases hn
        obtain ⟨e, he, hte⟩ := h.root_internal
        rw [Option.mem_def, he] at hd
        cases hd
        rw [htd] at hte
        cases hte
      · exact h1 (n, p) ((hmem n p).2 ⟨p, rfl, hn⟩) d hd htd hsd

end Sys2Proof.Machine
end

