-- ==== Sys2Proof/Laws/Stream.lean ====
section
/-!
SUPPORT. Bytes and bits of the compressed stream (spec/30_encoding.md): how bits fill bytes, and what
sending bytes to a sink that takes them does.
-/

namespace Sys2Proof.Machine

/-! ### Bits and bytes -/

/-- The bytes that bits fill. -/
def fullBytes : List Bool → List Byte
  | b0 :: b1 :: b2 :: b3 :: b4 :: b5 :: b6 :: b7 :: bs =>
    byteOfBits [b0, b1, b2, b3, b4, b5, b6, b7] :: fullBytes bs
  | _ => []

/-- The bits after the last byte they fill, fewer than eight. -/
def leftBits : List Bool → List Bool
  | _ :: _ :: _ :: _ :: _ :: _ :: _ :: _ :: bs => leftBits bs
  | bs => bs

/-- What `put_bit` keeps in `ACC` for waiting bits (spec/44_bitstream_encoder.md rule R174). -/
def accOf (l : List Bool) : Byte := l.foldl (fun a b => a.extractLsb' 0 7 ++ BitVec.ofBool b) 0#8

theorem chunk_cases (l : List Bool) : l.length < 8 ∨
    ∃ a b c d e f g h bs, l = a :: b :: c :: d :: e :: f :: g :: h :: bs := by
  rcases l with _ | ⟨a, _ | ⟨b, _ | ⟨c, _ | ⟨d, _ | ⟨e, _ | ⟨f, _ | ⟨g, _ | ⟨h, bs⟩⟩⟩⟩⟩⟩⟩⟩
  case cons.cons.cons.cons.cons.cons.cons.cons => exact .inr ⟨a, b, c, d, e, f, g, h, bs, rfl⟩
  all_goals exact .inl (by simp)

theorem fullBytes_short {l : List Bool} (h : l.length < 8) : fullBytes l = [] ∧ leftBits l = l := by
  rcases l with _ | ⟨a, _ | ⟨b, _ | ⟨c, _ | ⟨d, _ | ⟨e, _ | ⟨f, _ | ⟨g, _ | ⟨h, bs⟩⟩⟩⟩⟩⟩⟩⟩
  case cons.cons.cons.cons.cons.cons.cons.cons => simp at h; omega
  all_goals exact ⟨rfl, rfl⟩

theorem packBits_short {l : List Bool} (h : l.length < 8) :
    packBits l = if l = [] then [] else [byteOfBits l] := by
  rcases l with _ | ⟨a, _ | ⟨b, _ | ⟨c, _ | ⟨d, _ | ⟨e, _ | ⟨f, _ | ⟨g, _ | ⟨h, bs⟩⟩⟩⟩⟩⟩⟩⟩
  case cons.cons.cons.cons.cons.cons.cons.cons => simp at h; omega
  all_goals rfl

theorem leftBits_length : ∀ (n : Nat) (l : List Bool), l.length ≤ n → (leftBits l).length < 8
  | n, l, h => by
    rcases chunk_cases l with hs | ⟨a, b, c, d, e, f, g, i, bs, rfl⟩
    · rw [(fullBytes_short hs).2]; exact hs
    · cases n with
      | zero => simp at h
      | succ n => exact leftBits_length n bs (by simp at h; omega)

theorem leftBits_lt (l : List Bool) : (leftBits l).length < 8 := leftBits_length _ l (le_refl _)

theorem packBits_length_aux : ∀ (n : Nat) (l : List Bool), l.length ≤ n →
    (packBits l).length = (l.length + 7) / 8 ∧ (fullBytes l).length = l.length / 8 ∧
    packBits l = fullBytes l ++ packBits (leftBits l)
  | n, l, h => by
    rcases chunk_cases l with hs | ⟨a, b, c, d, e, f, g, i, bs, rfl⟩
    · obtain ⟨h1, h2⟩ := fullBytes_short hs
      rw [h1, h2]
      refine ⟨?_, by simp; omega, rfl⟩
      rw [packBits_short hs]
      split
      · rename_i h0; rw [h0]; rfl
      · rename_i h0
        have : l.length ≠ 0 := fun h => h0 (List.length_eq_zero_iff.1 h)
        simp only [List.length_singleton]
        omega
    · cases n with
      | zero => simp at h
      | succ n =>
        obtain ⟨h1, h2, h3⟩ := packBits_length_aux n bs (by simp at h; omega)
        refine ⟨?_, ?_, ?_⟩
        · show (packBits bs).length + 1 = _
          simp only [List.length_cons]
          omega
        · show (fullBytes bs).length + 1 = _
          simp only [List.length_cons]
          omega
        · show _ :: packBits bs = _ :: (fullBytes bs ++ packBits (leftBits bs))
          rw [← h3]

theorem packBits_length (l : List Bool) : (packBits l).length = (l.length + 7) / 8 :=
  (packBits_length_aux _ l (le_refl _)).1

theorem fullBytes_length (l : List Bool) : (fullBytes l).length = l.length / 8 :=
  (packBits_length_aux _ l (le_refl _)).2.1

theorem packBits_eq (l : List Bool) : packBits l = fullBytes l ++ packBits (leftBits l) :=
  (packBits_length_aux _ l (le_refl _)).2.2

/-- One more bit. -/
theorem bits_snoc_aux (b : Bool) : ∀ (n : Nat) (l : List Bool), l.length ≤ n →
    (fullBytes (l ++ [b]) = if (leftBits l).length = 7
      then fullBytes l ++ [byteOfBits (leftBits l ++ [b])] else fullBytes l) ∧
    leftBits (l ++ [b]) = if (leftBits l).length = 7 then [] else leftBits l ++ [b]
  | n, l, h => by
    rcases chunk_cases l with hs | ⟨a, c, d, e, f, g, i, j, bs, rfl⟩
    · obtain ⟨h1, h2⟩ := fullBytes_short hs
      rw [h1, h2]
      by_cases h7 : l.length = 7
      · rw [if_pos h7, if_pos h7]
        rcases l with _ | ⟨a, _ | ⟨c, _ | ⟨d, _ | ⟨e, _ | ⟨f, _ | ⟨g, _ | ⟨i, _ | ⟨j, bs⟩⟩⟩⟩⟩⟩⟩⟩
        all_goals first | (exact ⟨rfl, rfl⟩) | (exfalso; simp at h7)
      · rw [if_neg h7, if_neg h7]
        have : (l ++ [b]).length < 8 := by simp; omega
        exact fullBytes_short this
    · cases n with
      | zero => simp at h
      | succ n =>
        obtain ⟨h1, h2⟩ := bits_snoc_aux b n bs (by simp at h; omega)
        refine ⟨?_, h2⟩
        show _ :: fullBytes (bs ++ [b]) = if (leftBits bs).length = 7 then _ :: _ else _ :: _
        rw [h1]
        show _ = if (leftBits bs).length = 7 then _ :: (fullBytes bs ++ [byteOfBits (leftBits bs ++ [b])])
          else _ :: fullBytes bs
        split <;> rfl

theorem fullBytes_snoc (l : List Bool) (b : Bool) : fullBytes (l ++ [b]) =
    if (leftBits l).length = 7 then fullBytes l ++ [byteOfBits (leftBits l ++ [b])] else fullBytes l :=
  (bits_snoc_aux b _ l (le_refl _)).1

theorem leftBits_snoc (l : List Bool) (b : Bool) : leftBits (l ++ [b]) =
    if (leftBits l).length = 7 then [] else leftBits l ++ [b] :=
  (bits_snoc_aux b _ l (le_refl _)).2

/-- `ACC` after the eighth bit is the byte. -/
theorem accOf_full : ∀ a b c d e f g h : Bool,
    accOf [a, b, c, d, e, f, g, h] = byteOfBits [a, b, c, d, e, f, g, h] := by decide

theorem byteOfBits_snoc {l : List Bool} (h : l.length = 7) (b : Bool) :
    (accOf l).extractLsb' 0 7 ++ BitVec.ofBool b = byteOfBits (l ++ [b]) := by
  rcases l with _ | ⟨a, _ | ⟨c, _ | ⟨d, _ | ⟨e, _ | ⟨f, _ | ⟨g, _ | ⟨i, _ | ⟨j, bs⟩⟩⟩⟩⟩⟩⟩⟩
  all_goals first | (exact accOf_full a c d e f g i b) | (exfalso; simp at h)

theorem accOf_snoc (l : List Bool) (b : Bool) :
    accOf (l ++ [b]) = (accOf l).extractLsb' 0 7 ++ BitVec.ofBool b := by
  simp [accOf, List.foldl_append]

/-- `ACC` shifted to the byte boundary is the padded byte (spec/44_bitstream_encoder.md rule R177). -/
theorem accOf_shift {l : List Bool} (h : l.length < 8) : accOf l <<< (8 - l.length) = byteOfBits l := by
  have h1 : ∀ a, accOf [a] <<< 7 = byteOfBits [a] := by decide
  have h2 : ∀ a b, accOf [a, b] <<< 6 = byteOfBits [a, b] := by decide
  have h3 : ∀ a b c, accOf [a, b, c] <<< 5 = byteOfBits [a, b, c] := by decide
  have h4 : ∀ a b c d, accOf [a, b, c, d] <<< 4 = byteOfBits [a, b, c, d] := by decide
  have h5 : ∀ a b c d e, accOf [a, b, c, d, e] <<< 3 = byteOfBits [a, b, c, d, e] := by decide
  have h6 : ∀ a b c d e f, accOf [a, b, c, d, e, f] <<< 2 = byteOfBits [a, b, c, d, e, f] := by decide
  have h7 : ∀ a b c d e f g, accOf [a, b, c, d, e, f, g] <<< 1 = byteOfBits [a, b, c, d, e, f, g] := by
    decide
  rcases l with _ | ⟨a, _ | ⟨b, _ | ⟨c, _ | ⟨d, _ | ⟨e, _ | ⟨f, _ | ⟨g, _ | ⟨i, bs⟩⟩⟩⟩⟩⟩⟩⟩
  · decide
  · exact h1 a
  · exact h2 a b
  · exact h3 a b c
  · exact h4 a b c d
  · exact h5 a b c d e
  · exact h6 a b c d e f
  · exact h7 a b c d e f g
  · simp at h; omega

/-! ### Bytes to a sink that takes them -/

/-- The byte sink is open and takes `n` more bytes. -/
def Room (s : State) (n : Nat) : Prop := ∃ t, s.env.bsnk.cur = some t ∧ Accepts t.room n

/-- The state after bytes were accepted (spec/44_bitstream_encoder.md rule R176). -/
def sent (bs : List Byte) (s : State) : State :=
  { s with
    bytesOut := s.bytesOut + BitVec.ofNat 64 bs.length,
    env := { s.env with
      bsnk := { s.env.bsnk with
        cur := s.env.bsnk.cur.map fun t => ⟨t.items ++ bs, t.room.map fun k => k - bs.length⟩ },
      trace := s.env.trace ++ bs.map fun b => .offeredByte b .ok } }

theorem sent_nil (s : State) : sent [] s = s := by
  obtain ⟨_, _, _, _, _, _, _, _, _, _, _, _, _, _, _, _, _, _, _, _, _, _,
    ⟨_, _, _, ⟨_, c, _⟩, _, _, _, _, _⟩⟩ := s
  rcases c with _ | ⟨items, _ | k⟩ <;> simp [sent]

theorem sent_append (a b : List Byte) (s : State) : sent (a ++ b) s = sent b (sent a s) := by
  obtain ⟨_, _, _, _, _, _, _, _, _, _, _, _, _, _, _, _, _, _, _, _, _, _,
    ⟨_, _, _, ⟨_, c, _⟩, _, _, _, _, _⟩⟩ := s
  have : ∀ x : BitVec 64, x + BitVec.ofNat 64 (a.length + b.length) =
      x + BitVec.ofNat 64 a.length + BitVec.ofNat 64 b.length := by
    intro x; rw [BitVec.ofNat_add, BitVec.add_assoc]
  rcases c with _ | ⟨items, _ | k⟩ <;> simp [sent, this, Nat.sub_sub]

theorem Room.mono {s : State} {n m : Nat} (h : Room s n) (hm : m ≤ n) : Room s m := by
  obtain ⟨t, h1, h2⟩ := h
  exact ⟨t, h1, fun k hk => le_trans hm (h2 k hk)⟩

theorem Room.sent {s : State} {n : Nat} (bs : List Byte) (h : Room s (bs.length + n)) :
    Room (Machine.sent bs s) n := by
  obtain ⟨t, h1, h2⟩ := h
  refine ⟨⟨t.items ++ bs, t.room.map fun k => k - bs.length⟩, by simp [Machine.sent, h1], ?_⟩
  intro k hk
  obtain ⟨j, hj, rfl⟩ := Option.map_eq_some_iff.1 hk
  have := h2 j hj
  omega

theorem outByte_sent {s : State} (b : Byte) (h : Room s 1) : outByte b s = .ok (sent [b] s) := by
  obtain ⟨⟨items, r⟩, h1, h2⟩ := h
  rcases r with _ | _ | k
  · simp [outByte, sinkByte_ok h1, sent, h1]
  · have := h2 0 rfl
    omega
  · simp [outByte, sinkByte_room h1, sent, h1]

theorem outBytes_sent : ∀ (bs : List Byte) (s : State), Room s bs.length →
    outBytes bs s = .ok (sent bs s)
  | [], s, _ => by rw [sent_nil]; rfl
  | b :: bs, s, h => by
    rw [outBytes, outByte_sent b (h.mono (by simp))]
    simp only [Run.ok_bind]
    rw [outBytes_sent bs _ (Room.sent [b] (h.mono (by simp; omega))), ← sent_append]
    rfl

/-- A sink that answers `Err` at byte `k` ends the sending there (spec/20_memory.md rule R69). -/
theorem outBytes_refused : ∀ (bs : List Byte) (s : State) (items : List Byte) (k : Nat),
    s.env.bsnk.cur = some ⟨items, some k⟩ → k < bs.length →
    ∃ b, bs[k]? = some b ∧
      outBytes bs s = .error (.raised .ioError (note (.offeredByte b .err) (sent (bs.take k) s)))
  | [], _, _, _, _, h => by simp at h
  | b :: bs, s, items, 0, hc, _ => by
    refine ⟨b, rfl, ?_⟩
    rw [outBytes, outByte, sinkByte_err hc, List.take_zero, sent_nil]
    rfl
  | b :: bs, s, items, k + 1, hc, h => by
    obtain ⟨c, h1, h2⟩ := outBytes_refused bs (sent [b] s) (items ++ [b]) k (by simp [sent, hc])
      (by simpa using h)
    refine ⟨c, h1, ?_⟩
    rw [outBytes, outByte_sent b ⟨_, hc, by intro j hj; cases hj; omega⟩]
    simp only [Run.ok_bind]
    rw [h2, ← sent_append]
    rfl

/-! ### The header out -/

theorem bytes32_eq (v : BitVec 32) : bytes32 v = bytesBE 4 v.toNat := by
  simp only [bytes32, bytesBE]
  have h : ∀ k, v.extractLsb' k 8 = BitVec.ofNat 8 (v.toNat / 2 ^ k) := by
    intro k
    apply BitVec.eq_of_toNat_eq
    simp [BitVec.extractLsb'_toNat, Nat.shiftRight_eq_div_pow]
  rw [h, h, h, h]

theorem bytes16_eq (v : Sym) : bytes16 v = bytesBE 2 v.toNat := by
  show [v.extractLsb' 8 8, v.extractLsb' 0 8] = _
  simp only [bytesBE]
  have h : ∀ k, v.extractLsb' k 8 = BitVec.ofNat 8 (v.toNat / 2 ^ k) := by
    intro k
    apply BitVec.eq_of_toNat_eq
    simp [BitVec.extractLsb'_toNat, Nat.shiftRight_eq_div_pow]
  rw [h, h]

theorem bytesBE_length : ∀ n v, (bytesBE n v).length = n
  | 0, _ => rfl
  | n + 1, v => by simp [bytesBE, bytesBE_length n v]

/-- The bytes of one header entry (rule R97). -/
def entryBytes (p : Nat × Count) : List Byte := bytesBE 2 p.1 ++ bytesBE 4 p.2.toNat

theorem entryBytes_length (p : Nat × Count) : (entryBytes p).length = 6 := by
  simp [entryBytes, bytesBE_length]

theorem headerBytes_eq (m : Store Count) :
    headerBytes m = bytesBE 4 m.length ++ m.flatMap entryBytes := rfl

theorem entries_length : ∀ m : Store Count, (m.flatMap entryBytes).length = 6 * m.length
  | [] => rfl
  | p :: m => by
    rw [List.flatMap_cons, List.length_append, entryBytes_length, entries_length m, List.length_cons]
    omega

theorem headerBytes_length (m : Store Count) : (headerBytes m).length = 4 + 6 * m.length := by
  rw [headerBytes_eq, List.length_append, bytesBE_length, entries_length]

theorem emitEntries_sent : ∀ (m : Store Count) (s : State), (∀ p ∈ m, p.1 < 65536) →
    Room s (m.flatMap entryBytes).length → emitEntries m s = .ok (sent (m.flatMap entryBytes) s)
  | [], s, _, _ => by rw [List.flatMap_nil, sent_nil]; rfl
  | (v, c) :: m, s, hm, h => by
    have hv : v < 65536 := hm (v, c) (by simp)
    have e1 : bytes16 (BitVec.ofNat 16 v) = bytesBE 2 v := by
      rw [bytes16_eq]
      simp [Nat.mod_eq_of_lt hv]
    have e2 : (entryBytes (v, c)).length = 6 := entryBytes_length _
    rw [List.flatMap_cons, List.length_append] at h
    rw [emitEntries, put16be, e1, outBytes_sent _ _ (h.mono (by rw [bytesBE_length]; omega))]
    simp only [Run.ok_bind]
    rw [put32be, bytes32_eq, outBytes_sent _ _ (Room.sent _ (h.mono (by
      rw [bytesBE_length, bytesBE_length]; omega)))]
    simp only [Run.ok_bind]
    rw [← sent_append]
    show emitEntries m (sent (entryBytes (v, c)) s) = _
    rw [emitEntries_sent m _ (fun p hp => hm p (List.mem_cons_of_mem _ hp)) (Room.sent _ h),
      ← sent_append]
    rfl

/-- `emit_header()` to a sink that takes it (rule R172). -/
theorem emitHeader_sent {s : State} (hft : ftWf s.ft) (hd : s.distinct.toNat = s.ft.length)
    (h : Room s (headerBytes s.ft).length) : emitHeader s = .ok (sent (headerBytes s.ft) s) := by
  have e1 : bytes32 (s.distinct.setWidth 32) = bytesBE 4 s.ft.length := by
    rw [bytes32_eq, ← hd]
    have := s.distinct.isLt
    simp only [BitVec.toNat_setWidth]
    rw [Nat.mod_eq_of_lt (by omega)]
  rw [headerBytes_eq, List.length_append] at h
  unfold emitHeader
  rw [put32be, e1, outBytes_sent _ _ (h.mono (by omega))]
  simp only [Run.ok_bind]
  show emitEntries s.ft _ = _
  rw [emitEntries_sent _ _ (fun p hp => hft.2.1 p hp) (Room.sent _ h), ← sent_append]
  rfl

/-! ### Code bits out -/

/-- The state with bits waiting in the bit buffer. -/
def buffered (l : List Bool) (s : State) : State :=
  { s with acc := accOf l, nbits := BitVec.ofNat 3 l.length }

theorem putBit_sent {l : List Bool} (hl : l.length < 8) (b : Bool) {s : State}
    (h : Room s (fullBytes (l ++ [b])).length) :
    putBit b (buffered l s) =
      .ok (buffered (leftBits (l ++ [b])) (sent (fullBytes (l ++ [b])) s)) := by
  obtain ⟨h1, h2⟩ := fullBytes_short hl
  rw [fullBytes_snoc, h1, h2] at h
  rw [fullBytes_snoc, leftBits_snoc, h1, h2]
  unfold putBit
  have hn : (buffered l s).nbits = BitVec.ofNat 3 l.length := rfl
  by_cases h7 : l.length = 7
  · rw [if_pos h7] at h ⊢
    rw [if_pos h7, hn, h7, if_pos rfl]
    show (outByte ((accOf l).extractLsb' 0 7 ++ BitVec.ofBool b) (buffered l s) >>= _) = _
    rw [byteOfBits_snoc h7, outByte_sent (s := buffered l s) _ h]
    rfl
  · rw [if_neg h7] at h ⊢
    rw [if_neg h7, sent_nil, hn]
    dsimp only
    rw [if_neg (by
      intro he
      have := congrArg BitVec.toNat he
      simp at this
      omega)]
    congr 1
    show ({ s with
      acc := (accOf l).extractLsb' 0 7 ++ BitVec.ofBool b
      nbits := BitVec.ofNat 3 l.length + 1#3 } : State) = _
    rw [← accOf_snoc]
    unfold buffered
    congr 1
    rw [List.length_append, List.length_singleton, BitVec.ofNat_add]

theorem fullBytes_split_aux (b : List Bool) : ∀ (n : Nat) (a : List Bool), a.length ≤ n →
    fullBytes (a ++ b) = fullBytes a ++ fullBytes (leftBits a ++ b) ∧
    leftBits (a ++ b) = leftBits (leftBits a ++ b)
  | n, a, h => by
    rcases chunk_cases a with hs | ⟨c, d, e, f, g, i, j, k, bs, rfl⟩
    · obtain ⟨h1, h2⟩ := fullBytes_short hs
      rw [h1, h2]
      exact ⟨rfl, rfl⟩
    · cases n with
      | zero => simp at h
      | succ n =>
        obtain ⟨h1, h2⟩ := fullBytes_split_aux b n bs (by simp at h; omega)
        refine ⟨?_, h2⟩
        show _ :: fullBytes (bs ++ b) = _ :: (fullBytes bs ++ fullBytes (leftBits bs ++ b))
        rw [h1]

theorem fullBytes_append (a b : List Bool) :
    fullBytes (a ++ b) = fullBytes a ++ fullBytes (leftBits a ++ b) :=
  (fullBytes_split_aux b _ a (le_refl _)).1

theorem leftBits_append (a b : List Bool) : leftBits (a ++ b) = leftBits (leftBits a ++ b) :=
  (fullBytes_split_aux b _ a (le_refl _)).2

/-- `put_code` to a sink that takes the bytes it fills (rules R174, R175). -/
theorem putCode_sent : ∀ (c : Code) (l : List Bool) (s : State), l.length < 8 →
    Room s (fullBytes (l ++ c)).length →
    putCode c (buffered l s) = .ok (buffered (leftBits (l ++ c)) (sent (fullBytes (l ++ c)) s))
  | [], l, s, hl, _ => by
    obtain ⟨h1, h2⟩ := fullBytes_short hl
    rw [List.append_nil, h1, h2, sent_nil]
    rfl
  | b :: c, l, s, hl, h => by
    have e1 : fullBytes (l ++ b :: c) =
        fullBytes (l ++ [b]) ++ fullBytes (leftBits (l ++ [b]) ++ c) := by
      rw [← fullBytes_append, List.append_assoc]; rfl
    have e2 : leftBits (l ++ b :: c) = leftBits (leftBits (l ++ [b]) ++ c) := by
      rw [← leftBits_append, List.append_assoc]; rfl
    rw [e1, List.length_append] at h
    rw [putCode, putBit_sent hl b (h.mono (by omega))]
    simp only [Run.ok_bind]
    rw [putCode_sent c _ _ (leftBits_lt _) (Room.sent _ h), e1, e2, sent_append]

/-- `flush_bits` to a sink that takes the byte (rule R177). -/
theorem flushBits_sent {l : List Bool} (hl : l.length < 8) {s : State} (h : Room s (packBits l).length) :
    flushBits (buffered l s) = .ok (buffered [] (sent (packBits l) s)) := by
  unfold flushBits
  have hn : (buffered l s).nbits = BitVec.ofNat 3 l.length := rfl
  rw [hn]
  rw [packBits_short hl] at h ⊢
  by_cases h0 : l = []
  · subst h0
    rw [if_pos rfl, sent_nil]
    exact if_pos rfl
  · have hlen : l.length ≠ 0 := fun h => h0 (List.length_eq_zero_iff.1 h)
    rw [if_neg h0] at h ⊢
    rw [if_neg (by
      intro he
      have := congrArg BitVec.toNat he
      simp at this
      omega)]
    have e : (BitVec.ofNat 3 l.length).toNat = l.length := by simp; omega
    show (outByte (accOf l <<< (8 - (BitVec.ofNat 3 l.length).toNat)) (buffered l s) >>= _) = _
    rw [e, accOf_shift hl, outByte_sent (s := buffered l s) _ h]
    rfl

end Sys2Proof.Machine
end

