-- ==== Sys2Proof/Laws/Encoder.lean ====
section
/-!
SUPPORT. What ENCODE does over a second pass (spec/44_bitstream_encoder.md): the symbols it packs, the
stream it writes, and where it stops when the host or the table stops it.
-/

namespace Sys2Proof.Machine

theorem codeBits_cons (s : State) (v : Sym) (vs : List Sym) :
    codeBits s (v :: vs) = ctRead v s ++ codeBits s vs := rfl

theorem symsTaken_append (a b : List PortEvent) : symsTaken (a ++ b) = symsTaken a ++ symsTaken b :=
  List.filterMap_append ..

theorem bytesOffered_append (a b : List PortEvent) :
    bytesOffered (a ++ b) = bytesOffered a ++ bytesOffered b := List.filterMap_append ..

theorem symsTaken_offers (bs : List Byte) (a : Answer) :
    symsTaken (bs.map fun b => PortEvent.offeredByte b a) = [] := by
  unfold symsTaken
  rw [List.filterMap_map]
  exact List.filterMap_eq_nil_iff.2 fun _ _ => rfl

theorem bytesOffered_offers (bs : List Byte) (a : Answer) :
    bytesOffered (bs.map fun b => PortEvent.offeredByte b a) = bs.map fun b => (b, a) := by
  unfold bytesOffered
  rw [List.filterMap_map]
  exact List.filterMap_eq_map' .. ▸ rfl

/-- The state after symbols were taken and bytes sent, in the course of events `es`. -/
def packed (ws : List Sym) (e : Terminator) (bs : List Byte) (es : List PortEvent) (s : State) : State :=
  { s with
    bytesOut := s.bytesOut + BitVec.ofNat 64 bs.length
    env := { s.env with
      ssrc := { s.env.ssrc with cur := some ⟨ws, e⟩ }
      bsnk := (sent bs s).env.bsnk
      trace := s.env.trace ++ es } }

theorem packed_step (s : State) (F B : List Byte) (ws : List Sym) (e : Terminator)
    (es : List PortEvent) (c : Option (Pass Sym)) (ev : PortEvent) :
    packed ws e B es (sent F { s with env := { s.env with
      ssrc := { s.env.ssrc with cur := c }, trace := s.env.trace ++ [ev] } }) =
    packed ws e (F ++ B) ([ev] ++ (F.map fun b => .offeredByte b .ok) ++ es) s := by
  obtain ⟨_, _, _, _, _, _, _, _, _, _, _, _, _, _, _, _, _, _, _, _, _, _,
    ⟨_, _, _, ⟨_, c, _⟩, _, _, _, _, _⟩⟩ := s
  have : ∀ x : BitVec 64, x + BitVec.ofNat 64 (F.length + B.length) =
      x + BitVec.ofNat 64 F.length + BitVec.ofNat 64 B.length := by
    intro x; rw [BitVec.ofNat_add, BitVec.add_assoc]
  rcases c with _ | ⟨items, _ | k⟩ <;> simp [packed, sent, this, Nat.sub_sub]

/-- The loop of `pack_body` over symbols that have codes, to a sink that takes the bytes they fill
(rules R173, R99). -/
theorem packLoop_prefix : ∀ (vs : List Sym) (s : State) (l : List Bool) (n : Nat) (ws : List Sym)
    (e : Terminator), l.length < 8 → s.env.ssrc.cur = some ⟨vs ++ ws, e⟩ →
    (∀ v ∈ vs, ctRead v s ≠ []) → Room s (fullBytes (l ++ codeBits s vs)).length →
    ∃ es, packLoop (vs.length + n) (buffered l s) =
        packLoop n (buffered (leftBits (l ++ codeBits s vs))
          (packed ws e (fullBytes (l ++ codeBits s vs)) es s)) ∧
      symsTaken es = vs.map .item ∧
      bytesOffered es = (fullBytes (l ++ codeBits s vs)).map fun b => (b, .ok)
  | [], s, l, n, ws, e, hl, hc, _, _ => by
    obtain ⟨h1, h2⟩ := fullBytes_short hl
    refine ⟨[], ?_, rfl, ?_⟩
    · show packLoop (0 + n) _ = packLoop n (buffered (leftBits (l ++ [])) (packed ws e (fullBytes (l ++ [])) [] s))
      rw [List.append_nil, h1, h2, Nat.zero_add]
      congr 2
      have := sent_nil s
      obtain ⟨_, _, _, _, _, _, _, _, _, _, _, _, _, _, _, _, _, _, _, _, _, _,
        ⟨_, ⟨_, c⟩, _, _, _, _, _, _, _⟩⟩ := s
      simp only [List.nil_append] at hc
      subst hc
      simp [packed, this]
    · show _ = (fullBytes (l ++ [])).map _
      rw [List.append_nil, h1]
      rfl
  | v :: vs, s, l, n, ws, e, hl, hc, hcodes, hroom => by
    rw [codeBits_cons, ← List.append_assoc, fullBytes_append, List.length_append] at hroom
    let F := fullBytes (l ++ ctRead v s)
    let u : State := { s with env := { s.env with
      ssrc := { s.env.ssrc with cur := some ⟨vs ++ ws, e⟩ },
      trace := s.env.trace ++ [.tookSym (.item v)] } }
    have hct : ∀ w, ctRead w (sent F u) = ctRead w s := fun w => rfl
    have hcb : codeBits (sent F u) vs = codeBits s vs := rfl
    have hroom' : Room u (F.length + (fullBytes (leftBits (l ++ ctRead v s) ++ codeBits s vs)).length) :=
      hroom
    obtain ⟨es, h1, h2, h3⟩ := packLoop_prefix vs (sent F u) (leftBits (l ++ ctRead v s)) n ws e
      (leftBits_lt _) rfl (fun w hw => hcodes w (List.mem_cons_of_mem _ hw)) (Room.sent F hroom')
    rw [hcb] at h1 h3
    refine ⟨[.tookSym (.item v)] ++ (F.map fun b => .offeredByte b .ok) ++ es, ?_, ?_, ?_⟩
    · rw [List.length_cons, Nat.add_right_comm, packLoop]
      rw [srcSym_cons (s := buffered l s) hc]
      simp only [Run.ok_bind]
      have hne : ctRead v s ≠ [] := hcodes v (List.mem_cons_self ..)
      refine (if_neg hne).trans ?_
      show (putCode (ctRead v s) (buffered l u) >>= fun s => packLoop (vs.length + n) s) = _
      rw [putCode_sent _ l u hl (hroom'.mono (Nat.le_add_right ..))]
      simp only [Run.ok_bind]
      rw [h1, codeBits_cons, ← List.append_assoc, fullBytes_append (l ++ ctRead v s),
        leftBits_append (l ++ ctRead v s)]
      congr 2
      exact packed_step s F _ ws e es _ _
    · rw [symsTaken_append, symsTaken_append, symsTaken_offers, h2]
      rfl
    · rw [bytesOffered_append, bytesOffered_append, bytesOffered_offers, h3, codeBits_cons,
        ← List.append_assoc, fullBytes_append (l ++ ctRead v s), List.map_append,
        show bytesOffered [PortEvent.tookSym (.item v)] = [] from rfl, List.nil_append]

theorem streamOf_eq (s : State) (vs : List Sym) : streamOf s vs =
    headerBytes s.ft ++ (fullBytes (codeBits s vs) ++ packBits (leftBits (codeBits s vs))) := by
  rw [← packBits_eq]
  rfl

/-- The state after the two ports of ENCODE are open. -/
def encodeOpened (s : State) : State := { openBsnk (openSsrc s) with bytesOut := 0#64 }

theorem encodeOpened_room {s : State} {r : Option Nat} {rs : List (Option Nat)} {n : Nat}
    (h : s.env.bsnk.scripts = r :: rs) (ha : Accepts r n) : Room (encodeOpened s) n := by
  refine ⟨⟨[], r⟩, ?_, ha⟩
  simp [encodeOpened, openBsnk, openSsrc, note, SnkPort.start, h]

/-- ENCODE up to the end of the symbols it can pack: the header is out, the symbols `vs` are packed, and
the loop goes on with `n` events to spare (rules R170 to R175). -/
theorem encodeBody_prefix {s : State} {vs ws : List Sym} {e : Terminator} {ps : List (Pass Sym)}
    {r : Option Nat} {rs : List (Option Nat)} (hv : s.ftv = true ∧ s.ctv = true) (hft : ftWf s.ft)
    (hd : s.distinct.toNat = s.ft.length) (hp : s.env.ssrc.passes = ⟨vs ++ ws, e⟩ :: ps)
    (hs : s.env.bsnk.scripts = r :: rs) (hc : ∀ v ∈ vs, ctRead v s ≠ [])
    (ha : Accepts r (headerBytes s.ft ++ fullBytes (codeBits s vs)).length) :
    ∃ es, encodeBody s =
        (packLoop (ws.length + 1) (buffered (leftBits (codeBits s vs))
          (packed ws e (fullBytes (codeBits s vs)) es (sent (headerBytes s.ft) (encodeOpened s)))) >>=
          flushBits >>= fun u => .ok (.done, commitBsnk (releaseSsrc u))) ∧
      symsTaken es = vs.map .item ∧
      bytesOffered es = (fullBytes (codeBits s vs)).map fun b => (b, .ok) := by
  rw [List.length_append] at ha
  have hroom := encodeOpened_room hs ha
  have hcur : (sent (headerBytes s.ft) (encodeOpened s)).env.ssrc.cur = some ⟨vs ++ ws, e⟩ := by
    simp [encodeOpened, openBsnk, openSsrc, note, SrcPort.start, hp, sent]
  have hcb : codeBits (sent (headerBytes s.ft) (encodeOpened s)) vs = codeBits s vs := rfl
  obtain ⟨es, h1, h2, h3⟩ := packLoop_prefix vs (sent (headerBytes s.ft) (encodeOpened s)) [] (ws.length + 1)
    ws e (by simp) hcur hc (by rw [List.nil_append, hcb]; exact Room.sent _ hroom)
  rw [List.nil_append, hcb] at h1 h3
  refine ⟨es, ?_, h2, h3⟩
  have hreq : (s.ftv && s.ctv) = true := by simp [hv]
  have hemit : emitHeader (encodeOpened s) = .ok (sent (headerBytes s.ft) (encodeOpened s)) :=
    emitHeader_sent (s := encodeOpened s) hft hd (hroom.mono (Nat.le_add_right ..))
  have hleft : (sent (headerBytes s.ft) (encodeOpened s)).env.ssrc.itemsLeft = vs.length + ws.length := by
    simp [SrcPort.itemsLeft, hcur]
  unfold encodeBody
  rw [hreq]
  simp only [require_true, Run.ok_bind]
  rw [show ({ openBsnk (openSsrc s) with bytesOut := 0#64 } : State) = encodeOpened s from rfl, hemit]
  simp only [Run.ok_bind]
  unfold packBody
  rw [hleft, show ({ sent (headerBytes s.ft) (encodeOpened s) with acc := 0#8, nbits := 0#3 } : State) =
    buffered [] (sent (headerBytes s.ft) (encodeOpened s)) from rfl, Nat.add_assoc, h1]

/-- ENCODE over a pass all of whose symbols have codes, to a host that takes the stream (rules R95,
R170, R181). -/
theorem encodeBody_spec {s : State} {vs : List Sym} {ps : List (Pass Sym)}
    {r : Option Nat} {rs : List (Option Nat)} (hv : s.ftv = true ∧ s.ctv = true) (hft : ftWf s.ft)
    (hd : s.distinct.toNat = s.ft.length) (hp : s.env.ssrc.passes = ⟨vs, .eos⟩ :: ps)
    (hs : s.env.bsnk.scripts = r :: rs) (hc : ∀ v ∈ vs, ctRead v s ≠ [])
    (ha : Accepts r (streamOf s vs).length) :
    ∃ es, encodeBody s = .ok (.done, { s with
        acc := 0#8
        nbits := 0#3
        bytesOut := BitVec.ofNat 64 (streamOf s vs).length
        env := { s.env with
          ssrc := { passes := ps, cur := none }
          bsnk := { scripts := rs, cur := none, outputs := s.env.bsnk.outputs ++ [streamOf s vs] }
          trace := s.env.trace ++ [.opened .ssrc, .opened .bsnk] ++ es ++
            [.released .ssrc, .committed .bsnk] } }) ∧
      symsTaken es = (vs.map fun v => .item v) ++ [.eos] ∧
      bytesOffered es = (streamOf s vs).map fun b => (b, .ok) := by
  have hlen := ha
  rw [streamOf_eq, List.length_append, List.length_append] at hlen
  obtain ⟨es, h1, h2, h3⟩ := encodeBody_prefix (ws := []) hv hft hd (by rw [List.append_nil]; exact hp) hs hc
    (r := r) (fun k hk => le_trans (by rw [List.length_append]; omega) (hlen k hk))
  let H := headerBytes s.ft
  let F := fullBytes (codeBits s vs)
  let P := packBits (leftBits (codeBits s vs))
  let u := packed [] .eos F es (sent H (encodeOpened s))
  let u2 : State := note (.tookSym .eos) u
  have hroom : Room u2 P.length := by
    have := Room.sent F (Room.sent H (encodeOpened_room hs hlen))
    exact this
  refine ⟨(H.map fun b => .offeredByte b .ok) ++ es ++ [.tookSym .eos] ++
    (P.map fun b => .offeredByte b .ok), ?_, ?_, ?_⟩
  · rw [h1, List.length_nil, Nat.zero_add, packLoop]
    rw [srcSym_eos (s := buffered (leftBits (codeBits s vs)) u) rfl]
    simp only [Run.ok_bind]
    show (flushBits (buffered (leftBits (codeBits s vs)) u2) >>= _) = _
    rw [flushBits_sent (leftBits_lt _) hroom]
    simp only [Run.ok_bind]
    rw [show packBits (leftBits (codeBits s vs)) = P from rfl]
    have hS : streamOf s vs = H ++ (F ++ P) := streamOf_eq s vs
    rw [hS]
    clear_value H F P
    obtain ⟨_, _, _, _, _, _, _, _, _, _, _, _, _, _, _, _, _, _, _, _, _, _,
      ⟨_, ⟨_, c⟩, _, ⟨_, c', _⟩, _, _, _, _, _⟩⟩ := s
    simp only at hp hs
    subst hp hs
    have hx : BitVec.ofNat 64 H.length + BitVec.ofNat 64 F.length + BitVec.ofNat 64 P.length =
        BitVec.ofNat 64 (H.length + (F.length + P.length)) := by
      rw [BitVec.ofNat_add, BitVec.ofNat_add, BitVec.add_assoc]
    rcases r with _ | k <;>
      simp [buffered, sent, u2, u, packed, encodeOpened, openBsnk, openSsrc, note, SrcPort.start,
        SnkPort.start, commitBsnk, releaseSsrc, SrcPort.stop, SnkPort.commit, accOf, hx]
  · simp only [symsTaken_append, symsTaken_offers, h2, List.nil_append, List.append_nil]
    rfl
  · rw [streamOf_eq]
    simp only [bytesOffered_append, bytesOffered_offers, h3, List.map_append]
    rw [show bytesOffered [PortEvent.tookSym .eos] = [] from rfl, List.append_nil, List.append_assoc]

end Sys2Proof.Machine
end

