-- ==== Sys2Proof/Laws/Header.lean ====
section
/-!
SUPPORT. Reading back what ENCODE writes: bytes of the header (spec/30_encoding.md rules R96 to R98,
R101) and `parse_header` on the header of a table (spec/45_bitstream_decoder.md rules R191, R205).
-/

namespace Sys2Proof.Machine

/-- The state after header or body bytes were taken. -/
def got (bs rest : List Byte) (e : Terminator) (s : State) : State :=
  { s with
    bytesIn := s.bytesIn + BitVec.ofNat 64 bs.length
    env := { s.env with
      bsrc := { s.env.bsrc with cur := some ⟨rest, e⟩ }
      trace := s.env.trace ++ bs.map fun b => .tookByte (.item b) } }

/-- The events of bytes taken. -/
def takes (bs : List Byte) : List PortEvent := bs.map fun b => .tookByte (.item b)

theorem got_got (a b r r' : List Byte) (e e' : Terminator) (s : State) :
    got b r' e' (got a r e s) = got (a ++ b) r' e' s := by
  have : s.bytesIn + BitVec.ofNat 64 a.length + BitVec.ofNat 64 b.length =
      s.bytesIn + BitVec.ofNat 64 (a ++ b).length := by
    rw [List.length_append, BitVec.ofNat_add, BitVec.add_assoc]
  simp only [got, this, List.append_assoc, List.map_append]

theorem got_cur (a r : List Byte) (e : Terminator) (s : State) :
    (got a r e s).env.bsrc.cur = some ⟨r, e⟩ := rfl

theorem hdrByte_got {s : State} {b : Byte} {bs : List Byte} {e : Terminator}
    (h : s.env.bsrc.cur = some ⟨b :: bs, e⟩) : hdrByte s = .ok (b, got [b] bs e s) := by
  rw [hdrByte, srcByte_cons h]
  rfl

theorem get32be_got {s : State} {b0 b1 b2 b3 : Byte} {bs : List Byte} {e : Terminator}
    (h : s.env.bsrc.cur = some ⟨b0 :: b1 :: b2 :: b3 :: bs, e⟩) :
    get32be s = .ok (b0 ++ b1 ++ b2 ++ b3, got [b0, b1, b2, b3] bs e s) := by
  rw [get32be, hdrByte_got h]
  simp only [Run.ok_bind]
  rw [hdrByte_got (got_cur ..)]
  simp only [Run.ok_bind]
  rw [hdrByte_got (got_cur ..)]
  simp only [Run.ok_bind]
  rw [hdrByte_got (got_cur ..)]
  simp only [Run.ok_bind, got_got]
  rfl

theorem get16be_got {s : State} {b0 b1 : Byte} {bs : List Byte} {e : Terminator}
    (h : s.env.bsrc.cur = some ⟨b0 :: b1 :: bs, e⟩) :
    get16be s = .ok (b0 ++ b1, got [b0, b1] bs e s) := by
  rw [get16be, hdrByte_got h]
  simp only [Run.ok_bind]
  rw [hdrByte_got (got_cur ..)]
  simp only [Run.ok_bind, got_got]
  rfl

theorem join32 {v : Nat} (h : v < 2 ^ 32) :
    BitVec.ofNat 8 (v / 2 ^ (8 * 3)) ++ BitVec.ofNat 8 (v / 2 ^ (8 * 2)) ++
      BitVec.ofNat 8 (v / 2 ^ (8 * 1)) ++ BitVec.ofNat 8 (v / 2 ^ (8 * 0)) = BitVec.ofNat 32 v := by
  apply BitVec.eq_of_toNat_eq
  simp only [BitVec.toNat_append, BitVec.toNat_ofNat, Nat.shiftLeft_eq]
  have hor : ∀ a b : Nat, b < 256 → a * 2 ^ 8 ||| b = a * 2 ^ 8 + b := by
    intro a b hb
    rw [Nat.mul_comm, ← Nat.two_pow_add_eq_or_of_lt (i := 8) hb]
  rw [hor _ _ (Nat.mod_lt _ (by decide)), hor _ _ (Nat.mod_lt _ (by decide)),
    hor _ _ (Nat.mod_lt _ (by decide))]
  omega

theorem join16 {v : Nat} (h : v < 2 ^ 16) :
    BitVec.ofNat 8 (v / 2 ^ (8 * 1)) ++ BitVec.ofNat 8 (v / 2 ^ (8 * 0)) = BitVec.ofNat 16 v := by
  apply BitVec.eq_of_toNat_eq
  simp only [BitVec.toNat_append, BitVec.toNat_ofNat, Nat.shiftLeft_eq]
  have hor : ∀ a b : Nat, b < 256 → a * 2 ^ 8 ||| b = a * 2 ^ 8 + b := by
    intro a b hb
    rw [Nat.mul_comm, ← Nat.two_pow_add_eq_or_of_lt (i := 8) hb]
  rw [hor _ _ (Nat.mod_lt _ (by decide))]
  omega

/-- A 32-bit field is read back. -/
theorem get32be_field {s : State} {v : Nat} (hv : v < 2 ^ 32) {bs : List Byte} {e : Terminator}
    (h : s.env.bsrc.cur = some ⟨bytesBE 4 v ++ bs, e⟩) :
    get32be s = .ok (BitVec.ofNat 32 v, got (bytesBE 4 v) bs e s) := by
  rw [get32be_got h, join32 hv]
  rfl

/-- A symbol field is read back. -/
theorem get16be_field {s : State} {v : Nat} (hv : v < 2 ^ 16) {bs : List Byte} {e : Terminator}
    (h : s.env.bsrc.cur = some ⟨bytesBE 2 v ++ bs, e⟩) :
    get16be s = .ok (BitVec.ofNat 16 v, got (bytesBE 2 v) bs e s) := by
  rw [get16be_got h, join16 hv]
  rfl

/-- The entries of a header are read into the table, behind smaller symbols (rules R191, R192). -/
theorem headerEntries_got (body : List Byte) (e : Terminator) : ∀ (m f0 : Store Count) (prev : Option Sym)
    (s : State), ftWf (f0 ++ m) → s.ft = f0 → (∀ p ∈ m, ∀ q ∈ prev, q.toNat < p.1) →
    s.env.bsrc.cur = some ⟨m.flatMap entryBytes ++ body, e⟩ →
    headerEntries m.length prev s = .ok (got (m.flatMap entryBytes) body e
      { s with ft := f0 ++ m, total := s.total + BitVec.ofNat 48 (countSum m) })
  | [], f0, prev, s, _, hf, _, hc => by
    rw [List.append_nil]
    obtain ⟨_, _, _, _, _, _, _, _, _, _, _, _, _, _, _, _, _, _, _, _, _, _,
      ⟨_, _, ⟨_, c⟩, _, _, _, _, _, _⟩⟩ := s
    simp only [List.flatMap_nil, List.nil_append] at hc hf
    subst hc hf
    simp [headerEntries, got, countSum]
  | (v, c) :: m, f0, prev, s, hwf, hf, hprev, hc => by
    have hv : v < 65536 := hwf.2.1 (v, c) (by simp)
    have hc0 : c ≠ 0#32 := hwf.2.2 (v, c) (by simp)
    have hvn : (BitVec.ofNat 16 v).toNat = v := by simp [Nat.mod_eq_of_lt hv]
    have hbelow : f0.Below v := by
      intro p hp
      exact (List.pairwise_append.1 hwf.1).2.2 p hp (v, c) (by simp)
    rw [List.flatMap_cons, List.append_assoc] at hc
    have hc' : s.env.bsrc.cur =
        some ⟨bytesBE 2 v ++ (bytesBE 4 c.toNat ++ (m.flatMap entryBytes ++ body)), e⟩ := by
      rw [hc, entryBytes, List.append_assoc]
    rw [List.length_cons, headerEntries, get16be_field hv hc']
    simp only [Run.ok_bind]
    rw [get32be_field (v := c.toNat) (by have := c.isLt; omega) (got_cur ..)]
    simp only [Run.ok_bind, got_got]
    have hcc : BitVec.ofNat 32 c.toNat = c := by simp
    rw [hcc]
    have hna : notAscending prev (BitVec.ofNat 16 v) = false := by
      cases prev with
      | none => rfl
      | some q =>
        have := hprev (v, c) (by simp) q rfl
        simp only [notAscending, hvn]
        simp only at this
        simp
        omega
    rw [hna]
    simp only [Bool.false_eq_true, if_false]
    rw [if_neg hc0]
    let s1 := got (bytesBE 2 v ++ bytesBE 4 c.toNat) (m.flatMap entryBytes ++ body) e s
    let s2 : State := { s1 with ft := f0 ++ [(v, c)], total := s.total + c.setWidth 48 }
    have hs2 : ({ ftWrite (BitVec.ofNat 16 v) c s1 with
        total := (ftWrite (BitVec.ofNat 16 v) c s1).total + c.setWidth 48 } : State) = s2 := by
      have : (ftWrite (BitVec.ofNat 16 v) c s1).ft = f0 ++ [(v, c)] := by
        show (if c = 0#32 then _ else _) = _
        rw [if_neg hc0, hvn, ← Store.put_eq_append hbelow, ← hf]
        rfl
      show ({ s1 with ft := _, total := _ } : State) = { s1 with ft := _, total := _ }
      congr 1
    have ih := headerEntries_got body e m (f0 ++ [(v, c)]) (some (BitVec.ofNat 16 v)) s2
      (by simpa using hwf) rfl ?_ rfl
    swap
    · intro p hp q hq
      cases hq
      rw [hvn]
      have h1 := (List.pairwise_append.1 hwf.1).2.1
      exact (List.pairwise_cons.1 h1).1 p hp
    refine Eq.trans (congrArg (headerEntries m.length (some (BitVec.ofNat 16 v))) hs2) (ih.trans ?_)
    have hsum : s.total + c.setWidth 48 + BitVec.ofNat 48 (countSum m) =
        s.total + BitVec.ofNat 48 (countSum ((v, c) :: m)) := by
      have : c.setWidth 48 = BitVec.ofNat 48 c.toNat := by
        apply BitVec.eq_of_toNat_eq
        rw [setWidth48_toNat, BitVec.toNat_ofNat]
        have := c.isLt
        omega
      rw [countSum_cons, BitVec.ofNat_add, BitVec.add_assoc, this]
    have hg := got_got (bytesBE 2 v ++ bytesBE 4 c.toNat) (m.flatMap entryBytes)
      (m.flatMap entryBytes ++ body) body e e
      { s with ft := f0 ++ (v, c) :: m, total := s.total + BitVec.ofNat 48 (countSum ((v, c) :: m)) }
    rw [List.flatMap_cons]
    refine congrArg Except.ok (Eq.trans ?_ hg)
    show got _ _ _ { s2 with ft := _, total := s.total + c.setWidth 48 + BitVec.ofNat 48 (countSum m) } = _
    rw [hsum, List.append_assoc]
    rfl

/-- `parse_header` on the header of a table gives the table (rules R191, R205). -/
theorem parseHeader_got {s : State} {m : Store Count} (hwf : ftWf m) (hne : m ≠ []) {body : List Byte}
    {e : Terminator} (h : s.env.bsrc.cur = some ⟨headerBytes m ++ body, e⟩) :
    parseHeader s = .ok (got (headerBytes m) body e { clearTables s with
      ft := m
      total := BitVec.ofNat 48 (countSum m)
      distinct := BitVec.ofNat 17 m.length
      ftv := true }) := by
  have hlen : m.length ≤ 65536 := ftWf_length_le hwf
  have hpos : m.length ≠ 0 := fun h => hne (List.length_eq_zero_iff.1 h)
  rw [headerBytes_eq, List.append_assoc] at h
  have h' : (clearTables s).env.bsrc.cur = some ⟨bytesBE 4 m.length ++ (m.flatMap entryBytes ++ body), e⟩ := h
  rw [parseHeader, get32be_field (by omega) h']
  simp only [Run.ok_bind]
  have hd : (BitVec.ofNat 32 m.length).toNat = m.length := by simp; omega
  have hm : Config.dcMax = 65536 := rfl
  rw [hd]
  refine (if_neg (by omega)).trans ?_
  rw [headerEntries_got body e m [] none _ hwf rfl (by simp) (got_cur ..)]
  simp only [Run.ok_bind, List.nil_append]
  have hw : (BitVec.ofNat 32 m.length).setWidth 17 = BitVec.ofNat 17 m.length := by
    apply BitVec.eq_of_toNat_eq
    simp only [BitVec.toNat_setWidth, BitVec.toNat_ofNat]
    omega
  rw [hw, headerBytes_eq]
  have hg := got_got (bytesBE 4 m.length) (m.flatMap entryBytes) (m.flatMap entryBytes ++ body) body e e
    { clearTables s with
      ft := m
      total := BitVec.ofNat 48 (countSum m)
      distinct := BitVec.ofNat 17 m.length
      ftv := true }
  have h0 : (got (bytesBE 4 m.length) (m.flatMap entryBytes ++ body) e (clearTables s)).total +
      BitVec.ofNat 48 (countSum m) = BitVec.ofNat 48 (countSum m) := BitVec.zero_add _
  rw [← hg, h0]
  rfl

end Sys2Proof.Machine
end

