-- ==== Sys2Proof/Laws/Corrupt.lean ====
section
/-!
SUPPORT. Where `parse_header` stops in a header that is corrupt or cut off
(spec/45_bitstream_decoder.md rule R192, spec/60_exceptions.md rule R243 (b)).
-/

namespace Sys2Proof.Machine

/-- The event after the last byte of a pass. -/
def Terminator.event : Terminator → SrcEvent Byte
  | .eos => .eos
  | .err => .err

/-- What `hdr_byte` raises at the event after the last byte of a pass (rule R101). -/
def Terminator.headerFault : Terminator → FaultKind
  | .eos => .corruptHeaderError
  | .err => .ioError

/-- The state after a pass was taken to its last byte and the event after it. -/
def gotAll (bs : List Byte) (e : Terminator) (s : State) : State := note (.tookByte e.event) (got bs [] e s)

/-- The pass ends where a header byte is due. -/
abbrev EndsHeader (e : Terminator) (u : State) : Exit := .raised e.headerFault u

theorem gotAll_got (a b : List Byte) (r : List Byte) (e e' : Terminator) (s : State) :
    gotAll b e (got a r e' s) = gotAll (a ++ b) e s := by
  unfold gotAll
  rw [got_got]

theorem got_nil {s : State} {bs : List Byte} {e : Terminator} (h : s.env.bsrc.cur = some ⟨bs, e⟩) :
    got [] bs e s = s := by
  obtain ⟨_, _, _, _, _, _, _, _, _, _, _, _, _, _, _, _, _, _, _, _, _, _,
    ⟨_, _, ⟨_, c⟩, _, _, _, _, _, _⟩⟩ := s
  simp only at h
  subst h
  simp [got]

theorem hdrByte_ends {s : State} {e : Terminator} (h : s.env.bsrc.cur = some ⟨[], e⟩) :
    hdrByte s = .error (EndsHeader e (gotAll [] e s)) := by
  rw [gotAll, got_nil h]
  cases e
  · rw [hdrByte, srcByte_eos h]
    rfl
  · rw [hdrByte, srcByte_err h]
    rfl

theorem get32be_ends {s : State} {bs : List Byte} {e : Terminator}
    (h : s.env.bsrc.cur = some ⟨bs, e⟩) (hl : bs.length < 4) :
    get32be s = .error (EndsHeader e (gotAll bs e s)) := by
  rcases bs with _ | ⟨a, _ | ⟨b, _ | ⟨c, _ | ⟨d, bs⟩⟩⟩⟩
  · rw [get32be, hdrByte_ends h]
    rfl
  · rw [get32be, hdrByte_got h]
    simp only [Run.ok_bind]
    rw [hdrByte_ends (got_cur ..), gotAll_got]
    rfl
  · rw [get32be, hdrByte_got h]
    simp only [Run.ok_bind]
    rw [hdrByte_got (got_cur ..)]
    simp only [Run.ok_bind]
    rw [hdrByte_ends (got_cur ..), gotAll_got, gotAll_got]
    rfl
  · rw [get32be, hdrByte_got h]
    simp only [Run.ok_bind]
    rw [hdrByte_got (got_cur ..)]
    simp only [Run.ok_bind]
    rw [hdrByte_got (got_cur ..)]
    simp only [Run.ok_bind]
    rw [hdrByte_ends (got_cur ..), gotAll_got, gotAll_got, gotAll_got]
    rfl
  · simp at hl
    omega

theorem get16be_ends {s : State} {bs : List Byte} {e : Terminator}
    (h : s.env.bsrc.cur = some ⟨bs, e⟩) (hl : bs.length < 2) :
    get16be s = .error (EndsHeader e (gotAll bs e s)) := by
  rcases bs with _ | ⟨a, _ | ⟨b, bs⟩⟩
  · rw [get16be, hdrByte_ends h]
    rfl
  · rw [get16be, hdrByte_got h]
    simp only [Run.ok_bind]
    rw [hdrByte_ends (got_cur ..), gotAll_got]
    rfl
  · simp at hl

/-! ### Fields as numbers -/

theorem toNat_append_byte {w : Nat} (a : BitVec w) (b : Byte) : (a ++ b).toNat = a.toNat * 256 + b.toNat := by
  rw [BitVec.toNat_append, Nat.shiftLeft_eq, Nat.mul_comm, ← Nat.two_pow_add_eq_or_of_lt b.isLt,
    Nat.mul_comm]

theorem numBE_two (a b : Byte) : numBE [a, b] = (a ++ b).toNat := by
  rw [toNat_append_byte]
  simp [numBE]

theorem numBE_four (a b c d : Byte) : numBE [a, b, c, d] = (a ++ b ++ c ++ d).toNat := by
  rw [toNat_append_byte, toNat_append_byte, toNat_append_byte]
  simp [numBE]

/-- Entry `k` of a byte sequence that holds it whole. -/
theorem entry_bytes {bs : List Byte} {k : Nat} (h : 10 + 6 * k ≤ bs.length) :
    ∃ a b c d e f, bs.drop (4 + 6 * k) = a :: b :: c :: d :: e :: f :: bs.drop (4 + 6 * (k + 1)) ∧
      hdrSym bs k = (a ++ b).toNat ∧ hdrFreq bs k = (c ++ d ++ e ++ f).toNat := by
  have hl : 6 ≤ (bs.drop (4 + 6 * k)).length := by
    rw [List.length_drop]
    omega
  have h6 : bs.drop (4 + 6 * (k + 1)) = (bs.drop (4 + 6 * k)).drop 6 := by
    rw [List.drop_drop]
    congr 1
  have h2 : bs.drop (6 + 6 * k) = (bs.drop (4 + 6 * k)).drop 2 := by
    rw [List.drop_drop]
    congr 1
    omega
  rw [h6, hdrSym, hdrFreq, h2]
  generalize bs.drop (4 + 6 * k) = l at hl
  rcases l with _ | ⟨a, _ | ⟨b, _ | ⟨c, _ | ⟨d, _ | ⟨e, _ | ⟨f, r⟩⟩⟩⟩⟩⟩
  case cons.cons.cons.cons.cons.cons => exact ⟨a, b, c, d, e, f, rfl, numBE_two a b, numBE_four c d e f⟩
  all_goals exfalso; simp at hl; try omega

/-! ### The entries -/

/-- `prev` before entry `k`. -/
def PrevAt (bs : List Byte) (k : Nat) (prev : Option Sym) : Prop :=
  (k = 0 → prev = none) ∧ (1 ≤ k → ∃ p, prev = some p ∧ p.toNat = hdrSym bs (k - 1))

theorem PrevAt.notAscending {bs : List Byte} {k : Nat} {prev : Option Sym} (h : PrevAt bs k prev) (v : Sym) :
    notAscending prev v = true ↔ 1 ≤ k ∧ v.toNat ≤ hdrSym bs (k - 1) := by
  rcases Nat.eq_zero_or_pos k with h0 | h0
  · rw [h.1 h0]
    simp only [Machine.notAscending, Bool.false_eq_true, false_iff]
    omega
  · obtain ⟨p, hp, hv⟩ := h.2 h0
    rw [hp]
    simp only [Machine.notAscending, decide_eq_true_eq, hv]
    exact ⟨fun h => ⟨h0, h⟩, fun h => h.2⟩

/-- How `n` entries from entry `k` on end (rules R191, R192): read and all good, a check that fails, or
the end of the pass. -/
inductive EntriesEnd (bs : List Byte) (e : Terminator) (k n : Nat) (s : State) (m : Run State) : Prop
  | good (t : State) (run : m = .ok t) (size : 4 + 6 * (k + n) ≤ bs.length)
      (checks : ∀ j < k + n, ¬ EntryFails bs j)
  | bad (j : Nat) (u : State) (late : j < k + n) (size : 10 + 6 * j ≤ bs.length)
      (fails : EntryFails bs j) (first : ∀ i < j, ¬ EntryFails bs i)
      (run : m = .error (.raised .corruptHeaderError u))
      (trace : u.env.trace = s.env.trace ++ takes ((bs.take (10 + 6 * j)).drop (4 + 6 * k)))
  | short (j : Nat) (u : State) (late : j < k + n) (size : bs.length < 10 + 6 * j)
      (checks : ∀ i < j, ¬ EntryFails bs i) (run : m = .error (EndsHeader e u))
      (trace : u.env.trace = s.env.trace ++ takes (bs.drop (4 + 6 * k)) ++ [.tookByte e.event])

theorem headerEntries_ends (bs : List Byte) (e : Terminator) : ∀ (n k : Nat) (prev : Option Sym) (s : State),
    PrevAt bs k prev → (∀ j < k, ¬ EntryFails bs j) → 4 + 6 * k ≤ bs.length →
    s.env.bsrc.cur = some ⟨bs.drop (4 + 6 * k), e⟩ → EntriesEnd bs e k n s (headerEntries n prev s)
  | 0, k, prev, s, _, hc, hl, _ => .good s rfl hl hc
  | n + 1, k, prev, s, hp, hc, hl, hcur => by
    have hrun : headerEntries (n + 1) prev s = (get16be s >>= fun x => get32be x.2 >>= fun y =>
        if notAscending prev x.1 then .error (.raised .corruptHeaderError y.2)
        else if y.1 = 0#32 then .error (.raised .corruptHeaderError y.2)
        else headerEntries n (some x.1) { ftWrite x.1 y.1 y.2 with
          total := (ftWrite x.1 y.1 y.2).total + y.1.setWidth 48 }) := rfl
    by_cases hs : bs.length < 10 + 6 * k
    · have hd : (bs.drop (4 + 6 * k)).length < 6 := by rw [List.length_drop]; omega
      by_cases h2 : (bs.drop (4 + 6 * k)).length < 2
      · refine .short k (gotAll (bs.drop (4 + 6 * k)) e s) (by omega) hs hc ?_ ?_
        · rw [hrun, get16be_ends hcur h2]
          rfl
        · rfl
      · obtain ⟨a, b, r, hr⟩ : ∃ a b r, bs.drop (4 + 6 * k) = a :: b :: r := by
          rcases hq : bs.drop (4 + 6 * k) with _ | ⟨a, _ | ⟨b, r⟩⟩
          · rw [hq] at h2; simp at h2
          · rw [hq] at h2; simp at h2
          · exact ⟨a, b, r, rfl⟩
        rw [hr] at hcur hd
        refine .short k (gotAll (a :: b :: r) e s) (by omega) hs hc ?_ ?_
        · rw [hrun, get16be_got hcur]
          simp only [Run.ok_bind]
          rw [get32be_ends (got_cur ..) (by simp at hd; omega), gotAll_got]
          rfl
        · rw [hr]
          rfl
    · obtain ⟨a, b, c, d, x, f, hr, hsym, hfreq⟩ := entry_bytes (bs := bs) (k := k) (by omega)
      rw [hr] at hcur
      have h10 : (bs.take (10 + 6 * k)).drop (4 + 6 * k) = [a, b, c, d, x, f] := by
        rw [List.drop_take, hr]
        rw [show 10 + 6 * k - (4 + 6 * k) = 6 by omega]
        rfl
      let u := got [a, b, c, d, x, f] (bs.drop (4 + 6 * (k + 1))) e s
      have hrun2 : headerEntries (n + 1) prev s =
          if notAscending prev (a ++ b) then .error (.raised .corruptHeaderError u)
          else if c ++ d ++ x ++ f = 0#32 then .error (.raised .corruptHeaderError u)
          else headerEntries n (some (a ++ b)) { ftWrite (a ++ b) (c ++ d ++ x ++ f) u with
            total := (ftWrite (a ++ b) (c ++ d ++ x ++ f) u).total + (c ++ d ++ x ++ f).setWidth 48 } := by
        rw [hrun, get16be_got hcur]
        simp only [Run.ok_bind]
        rw [get32be_got (got_cur ..)]
        simp only [Run.ok_bind]
        rw [got_got]
        rfl
      have hasc := hp.notAscending (a ++ b)
      rw [← hsym] at hasc
      have hzero : c ++ d ++ x ++ f = 0#32 ↔ hdrFreq bs k = 0 := by
        rw [hfreq]
        exact ⟨fun h => by rw [h]; rfl, fun h => BitVec.eq_of_toNat_eq h⟩
      by_cases hbad : EntryFails bs k
      · refine .bad k u (by omega) (by omega) hbad hc ?_ ?_
        · rw [hrun2]
          split
          · rfl
          · rename_i hna
            rw [if_pos (hzero.2 (hbad.resolve_right fun h => hna (hasc.2 h)))]
        · rw [h10]
          rfl
      · rw [if_neg fun h => hbad (.inr (hasc.1 h)), if_neg fun h => hbad (.inl (hzero.1 h))] at hrun2
        rw [hrun2]
        have hc' : ∀ j < k + 1, ¬ EntryFails bs j := by
          intro j hj
          rcases Nat.lt_succ_iff_lt_or_eq.1 hj with h | h
          · exact hc j h
          · exact h ▸ hbad
        have hdrop : ∀ l : List Byte, l.drop (4 + 6 * (k + 1)) = (l.drop (4 + 6 * k)).drop 6 := by
          intro l
          rw [List.drop_drop]
          congr 1
        rcases headerEntries_ends bs e n (k + 1) (some (a ++ b)) { ftWrite (a ++ b) (c ++ d ++ x ++ f) u with
            total := (ftWrite (a ++ b) (c ++ d ++ x ++ f) u).total + (c ++ d ++ x ++ f).setWidth 48 }
          ⟨by omega, fun _ => ⟨a ++ b, rfl, hsym.symm⟩⟩ hc' (by omega) rfl with
          ⟨t, run, size, checks⟩ | ⟨j, v, late, size, fails, first, run, trace⟩ |
          ⟨j, v, late, size, checks, run, trace⟩
        · exact .good t run (by omega) fun j hj => checks j (by omega)
        · have hkj : k < j := by
            by_contra h
            exact hc' j (by omega) fails
          refine .bad j v (by omega) size fails first run (trace.trans ?_)
          show s.env.trace ++ takes [a, b, c, d, x, f] ++ takes _ = _
          have h1 : (bs.take (10 + 6 * j)).drop (4 + 6 * k) =
              [a, b, c, d, x, f] ++ (bs.take (10 + 6 * j)).drop (4 + 6 * (k + 1)) := by
            rw [List.drop_take, List.drop_take, hr]
            obtain ⟨i, hi⟩ : ∃ i, 10 + 6 * j - (4 + 6 * k) = i + 6 := ⟨6 * j - 6 * k, by omega⟩
            rw [hi, show 10 + 6 * j - (4 + 6 * (k + 1)) = i by omega]
            rfl
          rw [h1, List.append_assoc]
          simp only [takes, List.map_append]
        · refine .short j v (by omega) size checks run (trace.trans ?_)
          show s.env.trace ++ takes [a, b, c, d, x, f] ++ takes _ ++ _ = _
          rw [hr, List.append_assoc s.env.trace]
          simp only [takes, ← List.map_append, List.cons_append, List.nil_append]

/-! ### The header -/

/-- The `distinctCount` field of a byte sequence that holds it whole. -/
theorem count_bytes {bs : List Byte} (h : 4 ≤ bs.length) :
    ∃ a b c d, bs = a :: b :: c :: d :: bs.drop 4 ∧ hdrCount bs = (a ++ b ++ c ++ d).toNat := by
  rcases bs with _ | ⟨a, _ | ⟨b, _ | ⟨c, _ | ⟨d, r⟩⟩⟩⟩
  case cons.cons.cons.cons => exact ⟨a, b, c, d, rfl, numBE_four a b c d⟩
  all_goals exfalso; simp at h

/-- How `parse_header` ends (rules R191, R192): a good header, a check that fails, or the end of the pass
inside the header. -/
inductive HeaderEnd (bs : List Byte) (e : Terminator) (s : State) : Prop
  | good (t : State) (run : parseHeader s = .ok t) (ok : HeaderOk bs)
  | bad (n : Nat) (u : State) (fails : HeaderFailsAt bs n)
      (run : parseHeader s = .error (.raised .corruptHeaderError u))
      (trace : u.env.trace = s.env.trace ++ takes (bs.take n))
  | short (u : State) (size : bs.length < 4 ∨ bs.length < 4 + 6 * hdrCount bs)
      (checks : ∀ n, ¬ HeaderFailsAt bs n) (run : parseHeader s = .error (EndsHeader e u))
      (trace : u.env.trace = s.env.trace ++ takes bs ++ [.tookByte e.event])

theorem parseHeader_ends {bs : List Byte} {e : Terminator} {s : State}
    (h : s.env.bsrc.cur = some ⟨bs, e⟩) : HeaderEnd bs e s := by
  have hrun : parseHeader s = (get32be (clearTables s) >>= fun x =>
      if x.1.toNat = 0 ∨ x.1.toNat > Config.dcMax then .error (.raised .corruptHeaderError x.2)
      else headerEntries x.1.toNat none x.2 >>= fun t =>
        .ok { t with distinct := x.1.setWidth 17, ftv := true }) := rfl
  by_cases h4 : bs.length < 4
  · refine .short (gotAll bs e (clearTables s)) (.inl h4) ?_ ?_ rfl
    · rintro n ⟨hn, ⟨rfl, -⟩ | ⟨k, -, -, rfl, -⟩⟩ <;> omega
    · rw [hrun, get32be_ends (s := clearTables s) h h4]
      rfl
  obtain ⟨a, b, c, d, hbs, hd⟩ := count_bytes (bs := bs) (by omega)
  have h' : (clearTables s).env.bsrc.cur = some ⟨a :: b :: c :: d :: bs.drop 4, e⟩ := by
    rw [← hbs]
    exact h
  rw [get32be_got h'] at hrun
  simp only [Run.ok_bind, ← hd] at hrun
  have ht : bs.take 4 = [a, b, c, d] := by
    rw [hbs]
    rfl
  by_cases hc : hdrCount bs = 0 ∨ Config.dcMax < hdrCount bs
  · refine .bad 4 _ ⟨by omega, .inl ⟨rfl, hc⟩⟩ (hrun.trans (if_pos hc)) ?_
    rw [ht]
    rfl
  replace hrun := hrun.trans (if_neg hc)
  simp only [not_or, not_lt] at hc
  rcases headerEntries_ends bs e (hdrCount bs) 0 none
      (got [a, b, c, d] (bs.drop 4) e (clearTables s))
      ⟨fun _ => rfl, fun h => absurd h (by omega)⟩ (fun j hj => absurd hj (by omega)) (by omega) rfl with
    ⟨t, run, size, checks⟩ | ⟨j, v, late, size, fails, first, run, trace⟩ |
    ⟨j, v, late, size, checks, run, trace⟩
  · rw [run] at hrun
    rw [Nat.zero_add] at size checks
    refine .good _ hrun ⟨by omega, by omega, hc.2, size, ?_, ?_⟩
    · intro k hk
      have := checks k hk
      have : hdrFreq bs k ≠ 0 := fun h => this (.inl h)
      omega
    · intro k hk h1
      by_contra hlt
      exact checks k hk (.inr ⟨h1, by omega⟩)
  · rw [run] at hrun
    refine .bad (10 + 6 * j) v ⟨size, .inr ⟨j, by omega, hc.2, rfl, fails, first⟩⟩ hrun (trace.trans ?_)
    show s.env.trace ++ takes [a, b, c, d] ++ takes _ = _
    have : bs.take (10 + 6 * j) = [a, b, c, d] ++ (bs.take (10 + 6 * j)).drop 4 := by
      rw [← ht, List.drop_take, show 10 + 6 * j = 4 + (10 + 6 * j - 4) by omega, List.take_add]
      congr 2
      omega
    rw [this, List.append_assoc]
    simp only [takes, List.map_append]
    rfl
  · rw [run] at hrun
    refine .short v (.inr (by omega)) ?_ hrun (trace.trans ?_)
    · rintro n ⟨hn, ⟨rfl, h0 | h0⟩ | ⟨k, -, -, rfl, hk, -⟩⟩
      · omega
      · omega
      · exact checks k (by omega) hk
    · show s.env.trace ++ takes [a, b, c, d] ++ takes _ ++ _ = _
      rw [show takes bs = takes [a, b, c, d] ++ takes (bs.drop 4) by
        rw [takes, hbs]; rfl]
      simp only [List.append_assoc]

/-- DECODE ends where `parse_header` does (rules R190, R192). -/
theorem decodeBody_header {s : State} {bs : List Byte} {e : Terminator} {ps : List (Pass Byte)}
    (h : s.env.bsrc.passes = ⟨bs, e⟩ :: ps) :
    HeaderOk bs ∨
    (∃ n u, HeaderFailsAt bs n ∧ decodeBody s = .error (.raised .corruptHeaderError u) ∧
      u.env.trace = s.env.trace ++ ([.opened .bsrc, .opened .ssnk] ++ takes (bs.take n))) ∨
    ∃ u, ¬ HeaderOk bs ∧ (∀ n, ¬ HeaderFailsAt bs n) ∧ decodeBody s = .error (EndsHeader e u) ∧
      u.env.trace = s.env.trace ++
        ([.opened .bsrc, .opened .ssnk] ++ takes bs ++ [.tookByte e.event]) := by
  let s1 : State := { openSsnk (openBsrc s) with bytesIn := 0#64 }
  have hcur : s1.env.bsrc.cur = some ⟨bs, e⟩ := by
    simp [s1, openSsnk, openBsrc, note, SrcPort.start, h]
  have htr : s1.env.trace = s.env.trace ++ [.opened .bsrc, .opened .ssnk] := by
    simp [s1, openSsnk, openBsrc, note]
  have hrun : decodeBody s = (parseHeader s1 >>= fun s => buildBody s >>= fun r => walkBody r.2 >>= fun s =>
      (.ok (.done, commitSsnk (releaseBsrc s)) : Run (CmdOutcome × State))) := rfl
  rcases parseHeader_ends hcur with ⟨_, _, ok⟩ | ⟨n, u, fails, run, trace⟩ | ⟨u, size, checks, run, trace⟩
  · exact .inl ok
  · refine .inr (.inl ⟨n, u, fails, ?_, ?_⟩)
    · rw [hrun, run]
      rfl
    · rw [trace, htr, List.append_assoc]
  · refine .inr (.inr ⟨u, ?_, checks, ?_, ?_⟩)
    · rintro ⟨h1, -, -, h2, -⟩
      omega
    · rw [hrun, run]
      rfl
    · rw [trace, htr]
      simp only [List.append_assoc]

/-- A header that fails a check is not well-formed, and it fails its first check at one place. -/
theorem HeaderFailsAt.not_ok {bs : List Byte} {n : Nat} (h : HeaderFailsAt bs n) : ¬ HeaderOk bs := by
  rintro ⟨-, h1, h2, -, h3, h4⟩
  rcases h with ⟨-, ⟨-, h | h⟩ | ⟨k, hk, -, -, h | ⟨h5, h6⟩, -⟩⟩
  · omega
  · omega
  · have := h3 k hk
    omega
  · have := h4 k hk h5
    omega

theorem HeaderFailsAt.unique {bs : List Byte} {n m : Nat} (h : HeaderFailsAt bs n) (h' : HeaderFailsAt bs m) :
    n = m := by
  rcases h with ⟨-, ⟨rfl, h⟩ | ⟨k, hk, hd, rfl, h, hf⟩⟩ <;>
    rcases h' with ⟨-, ⟨rfl, h'⟩ | ⟨j, hj, hd', rfl, h', hf'⟩⟩
  · rfl
  · omega
  · omega
  · rcases Nat.lt_trichotomy k j with hkj | rfl | hkj
    · exact absurd h (hf' k hkj)
    · rfl
    · exact absurd h' (hf j hkj)

end Sys2Proof.Machine
end

