-- ==== Sys2Proof/Laws/Graft.lean ====
section
/-!
SUPPORT. BUILD's phases read nothing but the table and the tree memories: the tree is a function of the
table alone (spec/42_tree_builder.md rule R154).
-/

namespace Sys2Proof.Machine

variable {α β : Type}

/-- `b` with the tree memories and registers of `s`. -/
def graft (b s : State) : State :=
  { b with nnodes := s.nnodes, hsize := s.hsize, root := s.root, ns := s.ns, hp := s.hp }

/-- A piece of pseudocode does to a grafted state what it does to the state grafted. -/
def Grafts (f : State → Run State) : Prop := ∀ b s, f (graft b s) = Except.map (graft b) (f s)

/-- The same for a piece that also answers a value. -/
def GraftsTo (f : State → Run (α × State)) : Prop :=
  ∀ b s, f (graft b s) = Except.map (fun r => (r.1, graft b r.2)) (f s)

/-- The same for a piece that only reads. -/
def Reads (f : State → Run α) : Prop := ∀ b s, f (graft b s) = f s

theorem Grafts.id : Grafts (fun s => .ok s) := fun _ _ => rfl

theorem Grafts.bind {f g : State → Run State} (hf : Grafts f) (hg : Grafts g) :
    Grafts fun s => f s >>= g := by
  intro b s
  show (f (graft b s) >>= g) = Except.map (graft b) (f s >>= g)
  rw [hf]
  cases f s with
  | error e => rfl
  | ok t => exact hg b t

theorem GraftsTo.bind {f : State → Run (α × State)} {g : α → State → Run State} (hf : GraftsTo f)
    (hg : ∀ a, Grafts (g a)) : Grafts fun s => f s >>= fun r => g r.1 r.2 := by
  intro b s
  show (f (graft b s) >>= fun r => g r.1 r.2) = Except.map (graft b) (f s >>= fun r => g r.1 r.2)
  rw [hf]
  cases f s with
  | error e => rfl
  | ok r => exact hg r.1 b r.2

theorem Reads.bind {f : State → Run α} {g : α → State → Run State} (hf : Reads f)
    (hg : ∀ a, Grafts (g a)) : Grafts fun s => f s >>= fun a => g a s := by
  intro b s
  show (f (graft b s) >>= fun a => g a (graft b s)) = Except.map (graft b) (f s >>= fun a => g a s)
  rw [hf]
  cases f s with
  | error e => rfl
  | ok a => exact hg a b s

theorem Reads.bindReads {f : State → Run α} {g : α → State → Run β} (hf : Reads f)
    (hg : ∀ a, Reads (g a)) : Reads fun s => f s >>= fun a => g a s := by
  intro b s
  show (f (graft b s) >>= fun a => g a (graft b s)) = (f s >>= fun a => g a s)
  rw [hf]
  cases f s with
  | error e => rfl
  | ok a => exact hg a b s

theorem nsRead_reads (n : NodeIx) : Reads (nsRead n) := fun _ _ => rfl
theorem hpRead_reads (i : Nat) : Reads (hpRead i) := fun _ _ => rfl

theorem hpWrite_grafts (i : Nat) (n : NodeIx) : Grafts (hpWrite i n) := by
  intro b s
  unfold hpWrite
  split <;> rfl

theorem nsAppend_grafts (d : Node) : GraftsTo (nsAppend d) := by
  intro b s
  show (if s.nnodes.toNat < Config.nodeMax then _ else _) = Except.map _ (if _ then _ else _)
  split <;> rfl

theorem lessAt_reads (i j : Nat) : Reads (lessAt i j) :=
  Reads.bindReads (hpRead_reads i) fun _ => Reads.bindReads (hpRead_reads j) fun _ =>
    Reads.bindReads (nsRead_reads _) fun _ => Reads.bindReads (nsRead_reads _) fun _ => fun _ _ => rfl

theorem hpSwap_grafts (i j : Nat) : Grafts (hpSwap i j) :=
  Reads.bind (hpRead_reads i) fun _ => Reads.bind (hpRead_reads j) fun _ =>
    Grafts.bind (hpWrite_grafts _ _) (hpWrite_grafts _ _)

theorem siftUp_grafts : ∀ (n i : Nat), Grafts (siftUp n i)
  | 0, _ => fun _ _ => rfl
  | n + 1, i => by
    intro b s
    unfold siftUp
    by_cases h : i = 0
    · rw [if_pos h, if_pos h]; rfl
    · rw [if_neg h, if_neg h]
      refine Reads.bind (lessAt_reads i ((i - 1) / 2)) (g := fun c s => if c = true then
        hpSwap i ((i - 1) / 2) s >>= siftUp n ((i - 1) / 2) else .ok s) (fun c => ?_) b s
      cases c
      · exact Grafts.id
      · exact Grafts.bind (hpSwap_grafts _ _) (siftUp_grafts n _)

theorem pqInsert_grafts (n : NodeIx) : Grafts (pqInsert n) := by
  intro b s
  show (hpWrite s.hsize.toNat n (graft b s) >>= _) = Except.map _ (hpWrite s.hsize.toNat n s >>= _)
  rw [hpWrite_grafts]
  cases hpWrite s.hsize.toNat n s with
  | error e => rfl
  | ok t => exact siftUp_grafts _ _ b { t with hsize := t.hsize + 1#17 }

theorem lesserOf_reads (c m : Nat) : Reads (lesserOf c m) := by
  intro b s
  show (if c < s.hsize.toNat then _ else _) = if c < s.hsize.toNat then _ else _
  split
  · exact Reads.bindReads (lessAt_reads c m)
      (g := fun x _ => .ok (if x = true then c else m)) (fun _ => fun _ _ => rfl) b s
  · rfl

theorem siftDown_grafts : ∀ (n i : Nat), Grafts (siftDown n i)
  | 0, _ => fun _ _ => rfl
  | n + 1, i => by
    refine Reads.bind (lesserOf_reads _ _) fun a => Reads.bind (lesserOf_reads _ _)
      (g := fun sm s => if sm = i then .ok s else hpSwap i sm s >>= siftDown n sm) fun c => ?_
    by_cases h : c = i
    · simp only [if_pos h]; exact Grafts.id
    · simp only [if_neg h]
      exact Grafts.bind (hpSwap_grafts _ _) (siftDown_grafts n _)

theorem pqExtractMin_grafts : GraftsTo pqExtractMin := by
  intro b s
  unfold pqExtractMin
  show (if s.hsize = 0#17 then _ else _) = Except.map _ (if s.hsize = 0#17 then _ else _)
  split
  · rfl
  · rw [hpRead_reads]
    cases hpRead 0 s with
    | error e => rfl
    | ok m =>
      simp only [Run.ok_bind]
      show (hpSwap 0 (s.hsize.toNat - 1) (graft b s) >>= _) = _
      rw [hpSwap_grafts]
      cases hpSwap 0 (s.hsize.toNat - 1) s with
      | error e => rfl
      | ok t =>
        show (siftDown _ 0 (graft b (hpShrink (s.hsize.toNat - 1) t)) >>= _) =
          Except.map _ (siftDown _ 0 (hpShrink (s.hsize.toNat - 1) t) >>= _)
        rw [siftDown_grafts]
        show (Except.map (graft b) (siftDown (hpShrink (s.hsize.toNat - 1) t).hsize.toNat 0 _) >>= _) = _
        cases siftDown (hpShrink (s.hsize.toNat - 1) t).hsize.toNat 0 (hpShrink (s.hsize.toNat - 1) t) with
        | error e => rfl
        | ok u => rfl

theorem leafPhase_grafts : ∀ m : Store Count, Grafts (leafPhase m)
  | [] => Grafts.id
  | (k, f) :: m =>
    GraftsTo.bind (nsAppend_grafts (leafNode (BitVec.ofNat 16 k) f)) fun n =>
      Grafts.bind (pqInsert_grafts n) (leafPhase_grafts m)

theorem setRoot_grafts (n : NodeIx) : Grafts fun s => .ok { s with root := n } := fun _ _ => rfl

theorem wrapLeaf_grafts : Grafts wrapLeaf :=
  GraftsTo.bind pqExtractMin_grafts fun l => Reads.bind (nsRead_reads l) fun x =>
    GraftsTo.bind (nsAppend_grafts (internalNode x.freq l Config.nil)) fun m => setRoot_grafts m

theorem mergeOnce_grafts : Grafts mergeOnce :=
  GraftsTo.bind pqExtractMin_grafts fun a => GraftsTo.bind pqExtractMin_grafts fun c =>
    Reads.bind (nsRead_reads a) fun x => Reads.bind (nsRead_reads c) fun y =>
      GraftsTo.bind (nsAppend_grafts (internalNode (x.freq + y.freq) a c)) fun m => pqInsert_grafts m

theorem mergeLoop_grafts : ∀ n : Nat, Grafts (mergeLoop n)
  | 0 => Grafts.id
  | n + 1 => by
    intro b s
    unfold mergeLoop
    show (if s.hsize.toNat > 1 then _ else _) = Except.map _ (if s.hsize.toNat > 1 then _ else _)
    split
    · exact Grafts.bind mergeOnce_grafts (mergeLoop_grafts n) b s
    · rfl

theorem mergeAll_grafts : Grafts mergeAll := by
  intro b s
  exact Grafts.bind (mergeLoop_grafts s.hsize.toNat)
    (GraftsTo.bind pqExtractMin_grafts fun r => setRoot_grafts r) b s

/-- The two phases of BUILD over a given table. -/
theorem growTree_graft (b s : State) (h : b.ft = s.ft) :
    growTree (graft b s) = Except.map (graft b) (growTree s) := by
  unfold growTree
  show (leafPhase b.ft (graft b s) >>= _) = _
  rw [h]
  refine Grafts.bind (leafPhase_grafts s.ft) (g := fun s => if s.hsize = 1#17 then wrapLeaf s else
    mergeAll s) (fun b u => ?_) b s
  show (if u.hsize = 1#17 then wrapLeaf (graft b u) else mergeAll (graft b u)) =
    Except.map (graft b) (if u.hsize = 1#17 then wrapLeaf u else mergeAll u)
  by_cases h1 : u.hsize = 1#17
  · rw [if_pos h1, if_pos h1]; exact wrapLeaf_grafts b u
  · rw [if_neg h1, if_neg h1]; exact mergeAll_grafts b u

/-- Two tables alike give trees alike (rule R154). -/
theorem buildBody_alike {s s' t t' : State} {o o' : CmdOutcome} (h : s'.ft = s.ft)
    (hd : s.distinct ≠ 0#17) (hd' : s'.distinct ≠ 0#17) (ht : buildBody s = .ok (o, t))
    (ht' : buildBody s' = .ok (o', t')) :
    t'.ns = t.ns ∧ t'.nnodes = t.nnodes ∧ t'.root = t.root ∧ t'.hsize = t.hsize ∧ t'.hp = t.hp := by
  have hv : s.ftv = true := ((buildBody_end s).ok _ ht).valid
  have hv' : s'.ftv = true := ((buildBody_end s').ok _ ht').valid
  rw [buildBody_eq, if_pos hv, if_neg hd] at ht
  rw [buildBody_eq, if_pos hv', if_neg hd'] at ht'
  obtain ⟨u, hu, ht⟩ := Run.bind_eq_ok.1 ht
  obtain ⟨u', hu', ht'⟩ := Run.bind_eq_ok.1 ht'
  have hg : dropCodes (dropTree s') = graft (dropCodes (dropTree s')) (dropCodes (dropTree s)) := rfl
  rw [hg, growTree_graft _ _ (by exact h), hu] at hu'
  cases hu'
  cases ht
  cases ht'
  exact ⟨rfl, rfl, rfl, rfl, rfl⟩

end Sys2Proof.Machine
end

