-- ==== Sys2Proof/Laws/Walk.lean ====
section
/-!
SUPPORT. The walk of DECODE (spec/45_bitstream_decoder.md rules R194 to R200): bits delivered MSB-first,
a path followed from the root to a leaf, a symbol emitted for each code.
-/

namespace Sys2Proof.Machine

/-! ### Bits in -/

/-- The state with the bits `w` still to deliver from `SHIFT`. -/
def loaded (w : List Bool) (s : State) : State :=
  { s with shift := byteOfBits w, nbitsIn := BitVec.ofNat 4 w.length }

theorem bitsOfByte_length (x : Byte) : (bitsOfByte x).length = 8 := by simp [bitsOfByte]

theorem bitsOf_cons (x : Byte) (bs : List Byte) : bitsOf (x :: bs) = bitsOfByte x ++ bitsOf bs := rfl

theorem bitsOf_length : ∀ bs : List Byte, (bitsOf bs).length = 8 * bs.length
  | [] => rfl
  | x :: bs => by
    rw [bitsOf_cons, List.length_append, bitsOfByte_length, bitsOf_length bs, List.length_cons]
    omega

theorem byteOfBits_bits : ∀ x : Byte, byteOfBits (bitsOfByte x) = x := by decide

/-- `SHIFT` delivers its top bit and moves up (rule R195). -/
theorem byteOfBits_shift {b : Bool} {w : List Bool} (h : w.length < 8) :
    (byteOfBits (b :: w)).getLsbD 7 = b ∧ byteOfBits (b :: w) <<< 1 = byteOfBits w := by
  have h0 : ∀ b, (byteOfBits [b]).getLsbD 7 = b ∧ byteOfBits [b] <<< 1 = byteOfBits [] := by decide
  have h1 : ∀ b a, (byteOfBits [b, a]).getLsbD 7 = b ∧ byteOfBits [b, a] <<< 1 = byteOfBits [a] := by decide
  have h2 : ∀ b a c, (byteOfBits [b, a, c]).getLsbD 7 = b ∧
      byteOfBits [b, a, c] <<< 1 = byteOfBits [a, c] := by decide
  have h3 : ∀ b a c d, (byteOfBits [b, a, c, d]).getLsbD 7 = b ∧
      byteOfBits [b, a, c, d] <<< 1 = byteOfBits [a, c, d] := by decide
  have h4 : ∀ b a c d e, (byteOfBits [b, a, c, d, e]).getLsbD 7 = b ∧
      byteOfBits [b, a, c, d, e] <<< 1 = byteOfBits [a, c, d, e] := by decide
  have h5 : ∀ b a c d e f, (byteOfBits [b, a, c, d, e, f]).getLsbD 7 = b ∧
      byteOfBits [b, a, c, d, e, f] <<< 1 = byteOfBits [a, c, d, e, f] := by decide
  have h6 : ∀ b a c d e f g, (byteOfBits [b, a, c, d, e, f, g]).getLsbD 7 = b ∧
      byteOfBits [b, a, c, d, e, f, g] <<< 1 = byteOfBits [a, c, d, e, f, g] := by decide
  have h7 : ∀ b a c d e f g i, (byteOfBits [b, a, c, d, e, f, g, i]).getLsbD 7 = b ∧
      byteOfBits [b, a, c, d, e, f, g, i] <<< 1 = byteOfBits [a, c, d, e, f, g, i] := by decide
  rcases w with _ | ⟨a, _ | ⟨c, _ | ⟨d, _ | ⟨e, _ | ⟨f, _ | ⟨g, _ | ⟨i, _ | ⟨j, w⟩⟩⟩⟩⟩⟩⟩⟩
  · exact h0 b
  · exact h1 b a
  · exact h2 b a c
  · exact h3 b a c d
  · exact h4 b a c d e
  · exact h5 b a c d e f
  · exact h6 b a c d e f g
  · exact h7 b a c d e f g i
  · simp at h; omega

theorem shiftOut_loaded {b : Bool} {w : List Bool} (h : w.length < 8) (s : State) :
    shiftOut (loaded (b :: w) s) = (b, loaded w s) := by
  obtain ⟨h1, h2⟩ := byteOfBits_shift (b := b) h
  have h3 : BitVec.ofNat 4 (w.length + 1) - 1#4 = BitVec.ofNat 4 w.length := by
    rw [BitVec.ofNat_add, BitVec.add_sub_cancel]
  show ((byteOfBits (b :: w)).getLsbD 7, ({ s with
    shift := byteOfBits (b :: w) <<< 1
    nbitsIn := BitVec.ofNat 4 (w.length + 1) - 1#4 } : State)) = _
  rw [h1, h2, h3]
  rfl

theorem getBit_loaded {b : Bool} {w : List Bool} (h : w.length < 8) (s : State) :
    getBit (loaded (b :: w) s) = .ok (b, loaded w s) := by
  unfold getBit
  have hn : (loaded (b :: w) s).nbitsIn = BitVec.ofNat 4 (w.length + 1) := rfl
  rw [if_neg (by
    rw [hn]
    intro he
    have := congrArg BitVec.toNat he
    simp at this
    omega), shiftOut_loaded h]

/-- A byte is fetched only when a bit is needed (rule R195). -/
theorem getBit_fetch {s : State} {x : Byte} {bs : List Byte} {e : Terminator} {b : Bool} {w : List Bool}
    (h : s.env.bsrc.cur = some ⟨x :: bs, e⟩) (hx : bitsOfByte x = b :: w) :
    getBit (loaded [] s) = .ok (b, loaded w (got [x] bs e s)) := by
  have hw : w.length = 7 := by
    have := bitsOfByte_length x
    rw [hx] at this
    simpa using this
  unfold getBit
  rw [if_pos (show (loaded [] s).nbitsIn = 0#4 from rfl), srcByte_cons (s := loaded [] s) h]
  simp only [Run.ok_bind]
  have : x = byteOfBits (b :: w) := by rw [← hx, byteOfBits_bits]
  show Except.ok (shiftOut { got [x] bs e s with shift := x, nbitsIn := 8#4 }) = _
  have e1 : ({ got [x] bs e s with shift := x, nbitsIn := 8#4 } : State) =
      loaded (b :: w) (got [x] bs e s) := by
    rw [this]
    unfold loaded
    rw [List.length_cons, hw]
  rw [e1, shiftOut_loaded (by omega)]

theorem getBit_end {s : State} {e : Terminator} (h : s.env.bsrc.cur = some ⟨[], e⟩) :
    getBit (loaded [] s) = .error (.raised
      (match e with | .eos => .truncatedStreamError | .err => .ioError)
      (note (.tookByte (match e with | .eos => .eos | .err => .err)) (loaded [] s))) := by
  unfold getBit
  rw [if_pos (show (loaded [] s).nbitsIn = 0#4 from rfl)]
  cases e
  · rw [srcByte_eos (s := loaded [] s) h]
    rfl
  · rw [srcByte_err (s := loaded [] s) h]
    rfl

/-- The next bit, wherever it comes from: what is left after it, and the bytes taken for it. -/
theorem getBit_next {s : State} {b : Bool} {w rest : List Bool} {bs : List Byte} {e : Terminator}
    (hw : w.length < 8) (h : s.env.bsrc.cur = some ⟨bs, e⟩) (hb : w ++ bitsOf bs = b :: rest) :
    ∃ w' tk bs', w'.length < 8 ∧ bs = tk ++ bs' ∧ w' ++ bitsOf bs' = rest ∧
      getBit (loaded w s) = .ok (b, loaded w' (got tk bs' e s)) := by
  have hnil : got [] bs e s = s := by
    obtain ⟨_, _, _, _, _, _, _, _, _, _, _, _, _, _, _, _, _, _, _, _, _, _,
      ⟨_, _, ⟨_, c⟩, _, _, _, _, _, _⟩⟩ := s
    simp only at h
    subst h
    simp [got]
  cases w with
  | cons c w =>
    simp only [List.cons_append, List.cons.injEq] at hb
    obtain ⟨rfl, hb⟩ := hb
    refine ⟨w, [], bs, by simp at hw; omega, rfl, hb, ?_⟩
    rw [hnil]
    exact getBit_loaded (by simp at hw; omega) s
  | nil =>
    cases bs with
    | nil => simp [bitsOf] at hb
    | cons x bs =>
      rw [List.nil_append, bitsOf_cons] at hb
      cases hx : bitsOfByte x with
      | nil =>
        have := bitsOfByte_length x
        rw [hx] at this
        cases this
      | cons c w =>
        rw [hx] at hb
        simp only [List.cons_append, List.cons.injEq] at hb
        obtain ⟨rfl, hb⟩ := hb
        have hl : w.length = 7 := by
          have := bitsOfByte_length x
          rw [hx] at this
          simpa using this
        exact ⟨w, [x], bs, by omega, rfl, hb, getBit_fetch h hx⟩

/-! ### Symbols to a sink that takes them -/

/-- The symbol sink is open and takes `n` more symbols. -/
def SymRoom (s : State) (n : Nat) : Prop := ∃ t, s.env.ssnk.cur = some t ∧ Accepts t.room n

/-- The host's side after symbols were accepted. -/
def put (vs : List Sym) (p : SnkPort Sym) : SnkPort Sym :=
  { p with cur := p.cur.map fun t => ⟨t.items ++ vs, t.room.map fun k => k - vs.length⟩ }

theorem put_nil (p : SnkPort Sym) : put [] p = p := by
  obtain ⟨_, c, _⟩ := p
  rcases c with _ | ⟨items, _ | k⟩ <;> simp [put]

theorem put_append (a b : List Sym) (p : SnkPort Sym) : put b (put a p) = put (a ++ b) p := by
  obtain ⟨_, c, _⟩ := p
  rcases c with _ | ⟨items, _ | k⟩ <;> simp [put, Nat.sub_sub]

theorem sinkSym_put {s : State} (v : Sym) (h : SymRoom s 1) :
    sinkSym v s = .ok (.ok, { s with env := { s.env with
      ssnk := put [v] s.env.ssnk
      trace := s.env.trace ++ [.offeredSym v .ok] } }) := by
  obtain ⟨⟨items, r⟩, h1, h2⟩ := h
  rcases r with _ | _ | k
  · simp [sinkSym_ok h1, put, h1]
  · have := h2 0 rfl
    omega
  · simp [sinkSym_room h1, put, h1]

/-! ### The walk -/

/-- The state in the course of the walk: cursor, symbols owed, bytes taken, symbols emitted, events. -/
def walked (n : NodeIx) (rem : Freq) (tk bs : List Byte) (e : Terminator) (vs : List Sym)
    (es : List PortEvent) (s : State) : State :=
  { s with
    cur := n
    remain := rem
    bytesIn := s.bytesIn + BitVec.ofNat 64 tk.length
    env := { s.env with
      bsrc := { s.env.bsrc with cur := some ⟨bs, e⟩ }
      ssnk := put vs s.env.ssnk
      trace := s.env.trace ++ es } }

theorem walked_walked (n n' : NodeIx) (r r' : Freq) (a b x y : List Byte) (e e' : Terminator)
    (vs ws : List Sym) (es fs : List PortEvent) (s : State) :
    walked n' r' b y e' ws fs (walked n r a x e vs es s) =
      walked n' r' (a ++ b) y e' (vs ++ ws) (es ++ fs) s := by
  have : s.bytesIn + BitVec.ofNat 64 a.length + BitVec.ofNat 64 b.length =
      s.bytesIn + BitVec.ofNat 64 (a ++ b).length := by
    rw [List.length_append, BitVec.ofNat_add, BitVec.add_assoc]
  simp only [walked, this, List.append_assoc, put_append]

theorem got_walked (tk bs : List Byte) (e : Terminator) (s : State) :
    got tk bs e s = walked s.cur s.remain tk bs e [] (takes tk) s := by
  simp [got, walked, takes, put_nil]

theorem SymRoom.walked {s : State} {k : Nat} (n : NodeIx) (r : Freq) (tk bs : List Byte) (e : Terminator)
    (vs : List Sym) (es : List PortEvent) (h : SymRoom s (vs.length + k)) :
    SymRoom (Machine.walked n r tk bs e vs es s) k := by
  obtain ⟨t, h1, h2⟩ := h
  refine ⟨⟨t.items ++ vs, t.room.map fun k => k - vs.length⟩, by simp [Machine.walked, put, h1], ?_⟩
  intro j hj
  obtain ⟨i, hi, rfl⟩ := Option.map_eq_some_iff.1 hj
  have := h2 i hi
  omega

theorem SymRoom.mono {s : State} {n m : Nat} (h : SymRoom s n) (hm : m ≤ n) : SymRoom s m := by
  obtain ⟨t, h1, h2⟩ := h
  exact ⟨t, h1, fun k hk => le_trans hm (h2 k hk)⟩

theorem TreeAt.walked {s : State} (h : TreeAt s) (n : NodeIx) (r : Freq) (tk bs : List Byte)
    (e : Terminator) (vs : List Sym) (es : List PortEvent) (w : List Bool) :
    TreeAt (loaded w (Machine.walked n r tk bs e vs es s)) := h.congr rfl rfl rfl rfl rfl

/-- A step of the walk to an internal node (rule R196). -/
theorem walkStep_internal {s : State} (h : TreeAt s) {b : Bool} {m : NodeIx} {d : Node}
    (hc : s.cur.toNat < s.nnodes.toNat) (hd : descend s s.cur [b] = some m)
    (hm : s.ns.get? m.toNat = some d) (ht : d.tag = .internal) :
    walkStep b s = .ok { s with cur := m } := by
  obtain ⟨x, h1, h2, h3, h4⟩ := (descend_one s b _ _).1 hd
  have hr : nsRead s.cur s = .ok x := by unfold nsRead; rw [if_pos hc, h1]
  have hml : m.toNat < s.nnodes.toNat := (h.descend_lt hc hd).1
  have hr' : ∀ c, nsRead m { s with cur := c } = .ok d := by
    intro c
    unfold nsRead
    rw [if_pos hml, hm]
  have hnx : (if b = true then x.right else x.left) = m := by rw [← h3]; cases b <;> rfl
  unfold walkStep
  rw [hr]
  simp only [Run.ok_bind, hnx]
  rw [if_neg h4, hr']
  simp only [Run.ok_bind, ht]

/-- A step of the walk to a leaf emits its symbol (rule R196). -/
theorem walkStep_leaf {s : State} (h : TreeAt s) {b : Bool} {m : NodeIx} {d : Node}
    (hc : s.cur.toNat < s.nnodes.toNat) (hd : descend s s.cur [b] = some m)
    (hm : s.ns.get? m.toNat = some d) (ht : d.tag = .leaf) (hroom : SymRoom s 1) :
    walkStep b s = .ok { s with
      cur := s.root
      remain := s.remain - 1#48
      env := { s.env with
        ssnk := put [d.sym] s.env.ssnk
        trace := s.env.trace ++ [.offeredSym d.sym .ok] } } := by
  obtain ⟨x, h1, h2, h3, h4⟩ := (descend_one s b _ _).1 hd
  have hr : nsRead s.cur s = .ok x := by unfold nsRead; rw [if_pos hc, h1]
  have hml : m.toNat < s.nnodes.toNat := (h.descend_lt hc hd).1
  have hr' : ∀ c, nsRead m { s with cur := c } = .ok d := by
    intro c
    unfold nsRead
    rw [if_pos hml, hm]
  have hnx : (if b = true then x.right else x.left) = m := by rw [← h3]; cases b <;> rfl
  have hs := sinkSym_put (s := { s with cur := m }) d.sym hroom
  unfold walkStep
  rw [hr]
  simp only [Run.ok_bind, hnx]
  rw [if_neg h4, hr']
  simp only [Run.ok_bind, ht, outSym]
  rw [hs]
  rfl

/-- The walk along a path that ends in an internal node: bits are taken, nothing is emitted. -/
theorem walkLoop_inner {s : State} (h : TreeAt s) (hroot : s.remain ≠ 0#48) : ∀ (p : Code) (n m : NodeIx)
    (w rest : List Bool) (bs : List Byte) (e : Terminator) (k : Nat) (d : Node),
    n.toNat < s.nnodes.toNat → s.env.bsrc.cur = some ⟨bs, e⟩ → s.cur = n → w.length < 8 →
    w ++ bitsOf bs = p ++ rest → descend s n p = some m → s.ns.get? m.toNat = some d →
    d.tag = .internal →
    ∃ w' tk bs', w'.length < 8 ∧ bs = tk ++ bs' ∧ w' ++ bitsOf bs' = rest ∧
      walkLoop (p.length + k) (loaded w s) =
        walkLoop k (loaded w' (walked m s.remain tk bs' e [] (takes tk) s))
  | [], n, m, w, rest, bs, e, k, d, hn, hc, hcur, hw, hb, hd, hm, ht => by
    cases hd
    refine ⟨w, [], bs, hw, rfl, hb, ?_⟩
    have : walked n s.remain [] bs e [] (takes []) s = s := by
      obtain ⟨_, _, _, _, _, _, _, _, _, _, _, _, _, _, _, _, _, _, _, _, _, _,
        ⟨_, _, ⟨_, c⟩, _, _, _, _, _, _⟩⟩ := s
      simp only at hc hcur
      subst hc hcur
      simp [walked, takes, put_nil]
    rw [this, List.length_nil, Nat.zero_add]
  | b :: p, n, m, w, rest, bs, e, k, d, hn, hc, hcur, hw, hb, hd, hm, ht => by
    rw [show b :: p = [b] ++ p from rfl, descend_append] at hd
    obtain ⟨j, hj1, hj2⟩ := Option.bind_eq_some_iff.1 hd
    have hjl := (h.descend_lt hn hj1).1
    obtain ⟨dj, hdj, -⟩ := h.listed hjl
    have htj : dj.tag = .internal := by
      cases p with
      | nil => cases hj2; rw [hdj] at hm; cases hm; exact ht
      | cons c p =>
        simp only [descend, hdj] at hj2
        split at hj2
        · rename_i hx; exact hx.1
        · cases hj2
    obtain ⟨w1, tk1, bs1, hw1, hbs1, hb1, hg⟩ := getBit_next hw hc (by simpa using hb)
    let s1 : State := walked j s.remain tk1 bs1 e [] (takes tk1) s
    have hstep : walkStep b (loaded w1 (got tk1 bs1 e s)) = .ok (loaded w1 s1) := by
      have hT : TreeAt (loaded w1 (got tk1 bs1 e s)) := h.congr rfl rfl rfl rfl rfl
      rw [walkStep_internal hT (m := j) (d := dj) (by show s.cur.toNat < _; rw [hcur]; exact hn)
        ((descend_congr rfl _ _).trans (by show descend s s.cur [b] = _; rw [hcur]; exact hj1)) hdj htj,
        got_walked]
      rfl
    have hT1 : TreeAt s1 := h.congr rfl rfl rfl rfl rfl
    obtain ⟨w', tk, bs', h1, h2, h3, h4⟩ := walkLoop_inner (s := s1) hT1 hroot p j m w1 rest bs1 e k d hjl rfl rfl
      hw1 hb1 ((descend_congr (s := s) (t := s1) rfl _ _).trans hj2) hm ht
    refine ⟨w', tk1 ++ tk, bs', h1, by rw [hbs1, h2, List.append_assoc], h3, ?_⟩
    rw [List.length_cons, Nat.add_right_comm, walkLoop]
    refine (if_neg hroot).trans ?_
    rw [hg]
    simp only [Run.ok_bind]
    rw [hstep]
    simp only [Run.ok_bind]
    rw [h4]
    have : takes (tk1 ++ tk) = takes tk1 ++ takes tk := List.map_append ..
    rw [this, show s1.remain = s.remain from rfl]
    show walkLoop k (loaded w' (walked m s.remain tk bs' e [] (takes tk) (walked j s.remain tk1 bs1 e [] (takes tk1) s))) = _
    rw [walked_walked, List.append_nil]

/-- The events of the walk: the bytes taken and the symbols emitted. -/
structure WalkEvents (es : List PortEvent) (tk : List Byte) (vs : List Sym) : Prop where
  taken : bytesTaken es = tk.map .item
  offered : symsOffered es = vs.map fun v => (v, .ok)

theorem WalkEvents.append {es fs : List PortEvent} {a b : List Byte} {vs ws : List Sym}
    (h : WalkEvents es a vs) (h' : WalkEvents fs b ws) : WalkEvents (es ++ fs) (a ++ b) (vs ++ ws) := by
  refine ⟨?_, ?_⟩
  · rw [List.map_append, ← h.taken, ← h'.taken]
    exact List.filterMap_append ..
  · rw [List.map_append, ← h.offered, ← h'.offered]
    exact List.filterMap_append ..

theorem WalkEvents.takes (tk : List Byte) : WalkEvents (Machine.takes tk) tk [] := by
  refine ⟨?_, ?_⟩
  · unfold bytesTaken Machine.takes
    rw [List.filterMap_map]
    exact List.filterMap_eq_map' .. ▸ rfl
  · unfold symsOffered Machine.takes
    rw [List.filterMap_map]
    exact List.filterMap_eq_nil_iff.2 fun _ _ => rfl

/-- One code: its bits are taken, its symbol is emitted, the cursor is back at the root (rule R196). -/
theorem walkLoop_code {s : State} (h : TreeAt s) (hrem : s.remain ≠ 0#48) {v : Sym} {p : Code}
    {w rest : List Bool} {bs : List Byte} {e : Terminator} (k : Nat) (hp : CodeTo s v p)
    (hc : s.env.bsrc.cur = some ⟨bs, e⟩) (hcur : s.cur = s.root) (hw : w.length < 8)
    (hb : w ++ bitsOf bs = p ++ rest) (hroom : SymRoom s 1) :
    ∃ w' tk bs' es, w'.length < 8 ∧ bs = tk ++ bs' ∧ w' ++ bitsOf bs' = rest ∧ WalkEvents es tk [v] ∧
      walkLoop (p.length + k) (loaded w s) =
        walkLoop k (loaded w' (walked s.root (s.remain - 1#48) tk bs' e [v] es s)) := by
  obtain ⟨n, hn, d, hd, htd, hsd⟩ := hp
  rcases List.eq_nil_or_concat p with rfl | ⟨q, b, rfl⟩
  · cases hn
    obtain ⟨x, hx, htx⟩ := h.root_internal
    rw [Option.mem_def, hx] at hd
    cases hd
    rw [htx] at htd
    cases htd
  rw [List.concat_eq_append] at *
  obtain ⟨j, hj1, hj2⟩ := descend_snoc.1 hn
  have hjl := (h.descend_lt h.root_lt hj1).1
  obtain ⟨x, hx, hx', -⟩ := (descend_one s b j n).1 hj2
  obtain ⟨w1, tk1, bs1, h1, h2, h3, h4⟩ := walkLoop_inner h hrem q s.root j w ([b] ++ rest) bs e (1 + k) x
    h.root_lt hc hcur hw (by rw [hb, List.append_assoc]) hj1 hx hx'
  let s1 : State := walked j s.remain tk1 bs1 e [] (takes tk1) s
  obtain ⟨w2, tk2, bs2, h5, h6, h7, h8⟩ := getBit_next (s := s1) (e := e) h1 rfl h3
  have hT : TreeAt (loaded w2 (got tk2 bs2 e s1)) := h.congr rfl rfl rfl rfl rfl
  have hroom1 : SymRoom (loaded w2 (got tk2 bs2 e s1)) 1 :=
    SymRoom.walked j s.remain tk1 bs1 e [] (takes tk1) (by simpa using hroom)
  have hstep := walkStep_leaf hT (b := b) (m := n) (d := d) hjl ((descend_congr rfl _ _).trans hj2) hd htd
    hroom1
  refine ⟨w2, tk1 ++ tk2, bs2, takes tk1 ++ takes tk2 ++ [.offeredSym v .ok], h5, ?_, h7, ?_, ?_⟩
  · rw [h2, h6, List.append_assoc]
  · have := ((WalkEvents.takes tk1).append (WalkEvents.takes tk2)).append
      (⟨rfl, rfl⟩ : WalkEvents [.offeredSym v .ok] [] [v])
    simpa using this
  · rw [List.length_append, List.length_singleton, Nat.add_assoc, h4, Nat.add_comm 1 k, walkLoop]
    refine (if_neg hrem).trans ?_
    rw [h8]
    simp only [Run.ok_bind]
    rw [hstep]
    simp only [Run.ok_bind]
    congr 1
    rw [hsd]
    have e1 : got tk2 bs2 e s1 = walked j s.remain (tk1 ++ tk2) bs2 e [] (takes tk1 ++ takes tk2) s := by
      rw [got_walked]
      exact walked_walked ..
    rw [e1]
    simp only [loaded, walked, put_nil, List.append_assoc]

theorem CodeTo.congr {s t : State} {v : Sym} {p : Code} (h : CodeTo s v p) (h1 : t.ns = s.ns)
    (h2 : t.root = s.root) : CodeTo t v p := by
  obtain ⟨n, hn, hx⟩ := h
  exact ⟨n, by rw [descend_congr h1, h2]; exact hn, by rw [h1]; exact hx⟩

theorem Spells.congr {s t : State} : ∀ {vs : List Sym} {bs : List Bool}, Spells s vs bs →
    t.ns = s.ns → t.root = s.root → Spells t vs bs
  | [], _, h, _, _ => h
  | _ :: _, _, ⟨p, q, hp, hq, he⟩, h1, h2 => ⟨p, q, hp.congr h1 h2, Spells.congr hq h1 h2, he⟩

/-- The codes of symbols, one after the other. -/
theorem walkLoop_codes : ∀ (vs : List Sym) (s : State) (w bits rest : List Bool) (bs : List Byte)
    (e : Terminator) (k : Nat), TreeAt s → vs.length ≤ s.remain.toNat → Spells s vs bits →
    s.env.bsrc.cur = some ⟨bs, e⟩ → s.cur = s.root → w.length < 8 → w ++ bitsOf bs = bits ++ rest →
    SymRoom s vs.length →
    ∃ w' tk bs' es, w'.length < 8 ∧ bs = tk ++ bs' ∧ w' ++ bitsOf bs' = rest ∧ WalkEvents es tk vs ∧
      walkLoop (bits.length + k) (loaded w s) =
        walkLoop k (loaded w' (walked s.root (s.remain - BitVec.ofNat 48 vs.length) tk bs' e vs es s))
  | [], s, w, bits, rest, bs, e, k, _, _, hsp, hc, hcur, hw, hb, _ => by
    cases hsp
    refine ⟨w, [], bs, [], hw, rfl, hb, ⟨rfl, rfl⟩, ?_⟩
    have : walked s.root (s.remain - BitVec.ofNat 48 0) [] bs e [] [] s = s := by
      rw [← hcur]
      obtain ⟨_, _, _, _, _, _, _, _, _, _, _, _, _, _, _, _, _, _, _, _, _, _,
        ⟨_, _, ⟨_, c⟩, _, _, _, _, _, _⟩⟩ := s
      simp only at hc hcur
      subst hc hcur
      simp [walked, put_nil]
    rw [List.length_nil, List.length_nil, this, Nat.zero_add]
  | v :: vs, s, w, bits, rest, bs, e, k, h, hrem, hsp, hc, hcur, hw, hb, hroom => by
    obtain ⟨p, q, hp, hq, rfl⟩ := hsp
    have hrem0 : s.remain ≠ 0#48 := by
      intro h0
      rw [h0] at hrem
      simp at hrem
    rw [List.append_assoc] at hb
    obtain ⟨w1, tk1, bs1, es1, h1, h2, h3, h4, h5⟩ := walkLoop_code h hrem0 (q.length + k) hp hc hcur hw hb
      (hroom.mono (by simp))
    let s1 : State := walked s.root (s.remain - 1#48) tk1 bs1 e [v] es1 s
    have hr1 : s1.remain.toNat = s.remain.toNat - 1 := by
      show (s.remain - 1#48).toNat = _
      simp only [List.length_cons] at hrem
      rw [BitVec.toNat_sub_of_le (by rw [BitVec.le_def]; simp; omega)]
      rfl
    obtain ⟨w', tk, bs', es, h6, h7, h8, h9, h10⟩ := walkLoop_codes vs s1 w1 q rest bs1 e k
      (h.congr rfl rfl rfl rfl rfl) (by rw [hr1]; simp only [List.length_cons] at hrem; omega) (hq.congr rfl rfl)
      rfl rfl h1 h3 (SymRoom.walked _ _ _ _ _ _ _ (by simpa [Nat.add_comm] using hroom))
    refine ⟨w', tk1 ++ tk, bs', es1 ++ es, h6, by rw [h2, h7, List.append_assoc], h8, h4.append h9, ?_⟩
    rw [List.length_append, Nat.add_assoc, h5, h10]
    congr 2
    have hr : s.remain - 1#48 - BitVec.ofNat 48 vs.length =
        s.remain - BitVec.ofNat 48 (v :: vs).length := by
      rw [List.length_cons, Nat.add_comm, BitVec.ofNat_add, BitVec.sub_sub]
    rw [← hr]
    exact walked_walked ..

/-- How many bytes the walk has taken when it has taken `bits` (rule R202). -/
theorem taken_length {bits rest w' : List Bool} {bs tk bs' : List Byte} (h1 : bitsOf bs = bits ++ rest)
    (h2 : bs = tk ++ bs') (h3 : w' ++ bitsOf bs' = rest) (h4 : w'.length < 8) :
    tk.length = (bits.length + 7) / 8 := by
  have e1 := congrArg List.length h1
  have e2 := congrArg List.length h3
  rw [bitsOf_length, h2] at e1
  rw [List.length_append, bitsOf_length] at e2
  simp only [List.length_append] at e1
  omega

/-- `walk_body()` over a body that begins with the codes of `TOTAL` symbols (rules R194, R197, R200). -/
theorem walkBody_spec {s : State} (h : TreeAt s) {vs : List Sym} {bits rest : List Bool} {bs : List Byte}
    {e : Terminator} (hsp : Spells s vs bits) (hc : s.env.bsrc.cur = some ⟨bs, e⟩)
    (hb : bitsOf bs = bits ++ rest) (hroom : SymRoom s vs.length) (ht : s.total.toNat = vs.length) :
    ∃ w es, walkBody s = .ok (loaded w (walked s.root 0#48 (bs.take ((bits.length + 7) / 8))
        (bs.drop ((bits.length + 7) / 8)) e vs es s)) ∧
      WalkEvents es (bs.take ((bits.length + 7) / 8)) vs := by
  let s0 : State := { s with cur := s.root, remain := s.total }
  have hlen := congrArg List.length hb
  rw [bitsOf_length, List.length_append] at hlen
  have hfuel : 8 * s.env.bsrc.itemsLeft + 1 = bits.length + (rest.length + 1) := by
    simp only [SrcPort.itemsLeft, hc]
    omega
  obtain ⟨w', tk, bs', es, h1, h2, h3, h4, h5⟩ := walkLoop_codes vs s0 [] bits rest bs e (rest.length + 1)
    (h.congr rfl rfl rfl rfl rfl) (by show vs.length ≤ s.total.toNat; omega) (hsp.congr rfl rfl) hc rfl (by simp)
    (by simpa using hb) hroom
  have htk := taken_length hb h2 h3 h1
  have e1 : bs.take ((bits.length + 7) / 8) = tk := by rw [h2, ← htk]; simp
  have e2 : bs.drop ((bits.length + 7) / 8) = bs' := by rw [h2, ← htk]; simp
  rw [e1, e2]
  refine ⟨w', es, ?_, h4⟩
  unfold walkBody
  rw [hfuel]
  refine h5.trans ?_
  have hr : s.total - BitVec.ofNat 48 vs.length = 0#48 := by
    have : BitVec.ofNat 48 vs.length = s.total := by
      apply BitVec.eq_of_toNat_eq
      rw [← ht]
      simp
    rw [this]
    simp
  show walkLoop (rest.length + 1) (loaded w' (walked s.root (s.total - BitVec.ofNat 48 vs.length) tk bs' e vs es s0)) = _
  rw [hr, walkLoop]
  exact if_pos rfl

end Sys2Proof.Machine
end

