-- ==== Sys2Proof/Laws/Decoding.lean ====
section
/-!
SUPPORT. What DECODE does with a well-formed header and a body (spec/45_bitstream_decoder.md rules R190
to R204), in terms of the tree BUILD makes of the header's table.
-/

namespace Sys2Proof.Machine

/-- BUILD, in any state with the table `m`, makes the tree of `τ`. -/
theorem BuiltFrom.build {m : Store Count} {τ s : State} (h : BuiltFrom m τ) (hwf : ftWf m)
    (hne : m ≠ []) (hv : s.ftv = true) (hft : s.ft = m) (hT : TableOk s) :
    ∃ t, buildBody s = .ok (.done, t) ∧ TreeAt t ∧ t = { s with
      trv := true, ctv := false, nnodes := τ.nnodes, hsize := 0#17, root := τ.root, ns := τ.ns,
      hp := [], ct := [] } := by
  obtain ⟨b, ⟨hbi, hbv, hbf, hbT, hbd⟩, hbm, hex⟩ := h
  have hlen : m.length ≤ 65536 := ftWf_length_le hwf
  have hd : s.distinct ≠ 0#17 := by
    intro h0
    have := hT.1
    rw [h0, hft] at this
    exact hne (List.length_eq_zero_iff.1 this.symm)
  obtain ⟨t, h1, h2, h3, h4, -, -, h5⟩ := buildBody_spec hv (by rw [hft]; exact hwf) hT hd
  obtain ⟨t', h1', -, -, -, -, -, -⟩ := buildBody_spec (s := { b with ctrl := .busy }) hbv hbf hbT hbd
  obtain ⟨e1, e2, e3, -, -⟩ := buildBody_alike (s := { b with ctrl := .busy })
    (hft.trans hbm.symm) hbd hd h1' h1
  have hτ : τ = finish .done t' := by
    rw [exec_idle hbi] at hex
    change conclude (buildBody _) = _ at hex
    rw [h1'] at hex
    cases hex
    rfl
  have f1 : τ.ns = t'.ns := by rw [hτ]; rfl
  have f2 : τ.nnodes = t'.nnodes := by rw [hτ]; rfl
  have f3 : τ.root = t'.root := by rw [hτ]; rfl
  refine ⟨t, h1, ⟨h2, ?_, h3, h4⟩, ?_⟩
  · rw [h5]
    show ftWf s.ft
    rw [hft]
    exact hwf
  · rw [f1, f2, f3, ← e1, ← e2, ← e3]
    exact h5

/-- The state of DECODE when the header is read and the tree is built. -/
def decodeReady (m : Store Count) (τ : State) (body : List Byte) (e : Terminator) (s : State) : State :=
  { got (headerBytes m) body e { openSsnk (openBsrc s) with bytesIn := 0#64 } with
    ftv := true, trv := true, ctv := false, distinct := BitVec.ofNat 17 m.length,
    total := BitVec.ofNat 48 (countSum m), nnodes := τ.nnodes, hsize := 0#17, root := τ.root, ft := m,
    ns := τ.ns, hp := [], ct := [] }

/-- DECODE up to the walk: the header gives the table, BUILD gives the tree (rules R190 to R193). -/
theorem decodeBody_prefix {s τ : State} {m : Store Count} {body : List Byte} {e : Terminator}
    {ps : List (Pass Byte)} (hwf : ftWf m) (hne : m ≠ []) (hτ : BuiltFrom m τ)
    (hp : s.env.bsrc.passes = ⟨headerBytes m ++ body, e⟩ :: ps) :
    TreeAt (decodeReady m τ body e s) ∧ decodeBody s =
      (walkBody (decodeReady m τ body e s) >>= fun u => .ok (.done, commitSsnk (releaseBsrc u))) := by
  have hlen : m.length ≤ 65536 := ftWf_length_le hwf
  have hsum := countSum_lt hwf
  let s1 : State := { openSsnk (openBsrc s) with bytesIn := 0#64 }
  have hcur : s1.env.bsrc.cur = some ⟨headerBytes m ++ body, e⟩ := by
    simp [s1, openSsnk, openBsrc, note, SrcPort.start, hp]
  have hph := parseHeader_got hwf hne hcur
  let u : State := got (headerBytes m) body e { clearTables s1 with
    ft := m
    total := BitVec.ofNat 48 (countSum m)
    distinct := BitVec.ofNat 17 m.length
    ftv := true }
  have hT : TableOk u := by
    refine ⟨?_, ?_⟩
    · show (BitVec.ofNat 17 m.length).toNat = m.length
      simp only [BitVec.toNat_ofNat]
      omega
    · show (BitVec.ofNat 48 (countSum m)).toNat = countSum m
      simp only [BitVec.toNat_ofNat]
      exact Nat.mod_eq_of_lt hsum
  obtain ⟨t, ht1, ht2, ht3⟩ := hτ.build hwf hne (s := u) rfl rfl hT
  have ht : t = decodeReady m τ body e s := by rw [ht3]; rfl
  refine ⟨ht ▸ ht2, ?_⟩
  show (parseHeader s1 >>= fun s => buildBody s >>= fun r => walkBody r.2 >>= fun s =>
    (.ok (.done, commitSsnk (releaseBsrc s)) : Run (CmdOutcome × State))) = _
  rw [hph]
  simp only [Run.ok_bind]
  rw [show buildBody (got (headerBytes m) body e { clearTables s1 with
    ft := m
    total := BitVec.ofNat 48 (countSum m)
    distinct := BitVec.ofNat 17 m.length
    ftv := true }) = .ok (.done, t) from ht1, ht]
  rfl

/-- DECODE of a header and a body that begins with the codes of `TOTAL` symbols, to a host that takes
them (rules R190, R197, R200, R204). -/
theorem decodeBody_spec {s τ : State} {m : Store Count} {body : List Byte} {e : Terminator}
    {ps : List (Pass Byte)} {r : Option Nat} {rs : List (Option Nat)} {vs : List Sym}
    {bits rest : List Bool} (hp : s.env.bsrc.passes = ⟨headerBytes m ++ body, e⟩ :: ps)
    (hs : s.env.ssnk.scripts = r :: rs) (hb : BodyStarts m τ body vs bits rest)
    (hn : vs.length = countSum m) (ha : Accepts r vs.length) :
    ∃ w es, decodeBody s = .ok (.done, { s with
        ftv := true, trv := true, ctv := false, distinct := BitVec.ofNat 17 m.length,
        total := BitVec.ofNat 48 (countSum m),
        bytesIn := BitVec.ofNat 64 (4 + 6 * m.length + (bits.length + 7) / 8),
        nnodes := τ.nnodes, hsize := 0#17, root := τ.root, shift := byteOfBits w,
        nbitsIn := BitVec.ofNat 4 w.length,
        cur := τ.root, remain := 0#48, ft := m, ns := τ.ns, hp := [], ct := [],
        env := { s.env with
          bsrc := { passes := ps, cur := none }
          ssnk := { scripts := rs, cur := none, outputs := s.env.ssnk.outputs ++ [vs] }
          trace := s.env.trace ++ [.opened .bsrc, .opened .ssnk] ++ es ++
            [.released .bsrc, .committed .ssnk] } }) ∧
      WalkEvents es ((headerBytes m ++ body).take (4 + 6 * m.length + (bits.length + 7) / 8)) vs := by
  obtain ⟨hwf, hne, hτ, hsp, hbits⟩ := hb
  obtain ⟨hT, hd⟩ := decodeBody_prefix (s := s) hwf hne hτ hp
  have hroom : SymRoom (decodeReady m τ body e s) vs.length := by
    refine ⟨⟨[], r⟩, ?_, ha⟩
    simp [decodeReady, got, openSsnk, openBsrc, note, SnkPort.start, hs]
  have hsum := countSum_lt hwf
  obtain ⟨w, es, h1, h2⟩ := walkBody_spec hT (hsp.congr rfl rfl) (bs := body) (e := e) rfl hbits hroom (by
    show (BitVec.ofNat 48 (countSum m)).toNat = _
    rw [hn]
    simp only [BitVec.toNat_ofNat]
    exact Nat.mod_eq_of_lt hsum)
  have hlen : (headerBytes m).length = 4 + 6 * m.length := headerBytes_length m
  have hblen : (body.take ((bits.length + 7) / 8)).length = (bits.length + 7) / 8 := by
    have := congrArg List.length hbits
    rw [bitsOf_length, List.length_append] at this
    rw [List.length_take]
    omega
  refine ⟨w, takes (headerBytes m) ++ es, ?_, ?_⟩
  · rw [hd, h1]
    simp only [Run.ok_bind]
    have hmin : min ((bits.length + 7) / 8) body.length = (bits.length + 7) / 8 := by
      rw [← List.length_take]
      exact hblen
    obtain ⟨_, _, _, _, _, _, _, _, _, _, _, _, _, _, _, _, _, _, _, _, _, _,
      ⟨_, _, ⟨_, c⟩, _, ⟨_, c', _⟩, _, _, _, _⟩⟩ := s
    simp only at hp hs
    subst hp hs
    rcases r with _ | k <;>
      simp [loaded, walked, decodeReady, got, takes, put, openSsnk, openBsrc, note, SrcPort.start,
        SnkPort.start, commitSsnk, releaseBsrc, SrcPort.stop, SnkPort.commit, hlen, hmin,
        ← BitVec.ofNat_add]
  · have := (WalkEvents.takes (headerBytes m)).append h2
    rw [List.nil_append] at this
    rw [← hlen, List.take_length_add_append]
    exact this

end Sys2Proof.Machine
end

