-- ==== Sys2Proof/Laws/PerInstr.lean ====
section
/-!
SUPPORT. Statements about every instruction as syntax, one lemma per constructor
(spec/30_encoding.md rules R90 and R92).
-/

namespace Sys2Proof.Laws.EncodeRoundTrip

/-- The word of an instruction decodes to it, also as the host numbers its bits, and is no other
instruction's word. -/
def Statement (i : Instr) : Prop :=
  decode (encode i) = .command i ∧ decodeTableWord 8 (encode i).toNat = some i ∧
  legalWord (encode i) = true ∧ ∀ j, encode j = encode i → j = i

theorem clr : Statement .clr :=
  ⟨by decide, by decide, by decide, fun j => by cases j <;> decide⟩

theorem count : Statement .count :=
  ⟨by decide, by decide, by decide, fun j => by cases j <;> decide⟩

theorem build : Statement .build :=
  ⟨by decide, by decide, by decide, fun j => by cases j <;> decide⟩

theorem gen : Statement .gen :=
  ⟨by decide, by decide, by decide, fun j => by cases j <;> decide⟩

theorem encode : Statement .encode :=
  ⟨by decide, by decide, by decide, fun j => by cases j <;> decide⟩

theorem decode : Statement .decode :=
  ⟨by decide, by decide, by decide, fun j => by cases j <;> decide⟩

theorem compress : Statement .compress :=
  ⟨by decide, by decide, by decide, fun j => by cases j <;> decide⟩

theorem decompress : Statement .decompress :=
  ⟨by decide, by decide, by decide, fun j => by cases j <;> decide⟩

end Sys2Proof.Laws.EncodeRoundTrip
end

