-- ==== Sys2Proof/Laws/Refused.lean ====
section
/-!
SUPPORT. Where ENCODE stops when the source or the sink answers `Err`
(spec/20_memory.md rule R74, spec/60_exceptions.md rule R243 (e)).
-/

namespace Sys2Proof.Machine

/-- The state in which byte `k` of `bs` was refused, the bytes before it sent. -/
def refusedAt (k : Nat) (bs : List Byte) (s : State) : State :=
  { sent (bs.take k) s with env := { (sent (bs.take k) s).env with
      trace := s.env.trace ++ ((bs.take k).map fun b => .offeredByte b .ok) ++
        (bs[k]?).toList.map fun b => .offeredByte b .err } }

/-- The byte sink is open and answers `Err` to its byte `k`. -/
def RefusesAt (s : State) (k : Nat) : Prop := ∃ items, s.env.bsnk.cur = some ⟨items, some k⟩

theorem RefusesAt.sent {s : State} {k : Nat} {bs : List Byte} (h : RefusesAt s k) :
    RefusesAt (Machine.sent bs s) (k - bs.length) := by
  obtain ⟨items, h⟩ := h
  exact ⟨items ++ bs, by simp [Machine.sent, h]⟩

theorem RefusesAt.room {s : State} {k n : Nat} (h : RefusesAt s k) (hn : n ≤ k) : Room s n := by
  obtain ⟨items, h⟩ := h
  exact ⟨_, h, fun j hj => by cases hj; exact hn⟩

theorem outBytes_refusedAt {s : State} {k : Nat} {bs : List Byte} (h : RefusesAt s k) (hk : k < bs.length) :
    outBytes bs s = .error (.raised .ioError (refusedAt k bs s)) := by
  obtain ⟨items, h⟩ := h
  obtain ⟨b, h1, h2⟩ := outBytes_refused bs s items k h hk
  rw [h2, refusedAt, h1]
  rfl

theorem refusedAt_sent {a b : List Byte} {k : Nat} (h : a.length ≤ k) (s : State) :
    refusedAt (k - a.length) b (sent a s) = refusedAt k (a ++ b) s := by
  unfold refusedAt
  have h1 : (a ++ b).take k = a ++ b.take (k - a.length) := by
    rw [List.take_append, List.take_of_length_le h]
  have h2 : (a ++ b)[k]? = b[k - a.length]? := List.getElem?_append_right h
  rw [h1, h2, sent_append]
  have : (sent a s).env.trace = s.env.trace ++ a.map fun b => .offeredByte b .ok := rfl
  simp only [this, List.map_append, List.append_assoc]

theorem refusedAt_append {a b : List Byte} {k : Nat} (h : k < a.length) (s : State) :
    refusedAt k a s = refusedAt k (a ++ b) s := by
  unfold refusedAt
  rw [List.take_append_of_le_length (by omega), List.getElem?_append_left h]

/-! ### The header -/

theorem outBytes_append : ∀ (a b : List Byte) (s : State),
    outBytes (a ++ b) s = outBytes a s >>= outBytes b
  | [], _, _ => rfl
  | x :: a, b, s => by
    show (outByte x s >>= outBytes (a ++ b)) = (outByte x s >>= outBytes a) >>= outBytes b
    rw [bind_assoc]
    congr 1
    funext u
    exact outBytes_append a b u

theorem emitEntries_eq : ∀ (m : Store Count) (s : State), (∀ p ∈ m, p.1 < 65536) →
    emitEntries m s = outBytes (m.flatMap entryBytes) s
  | [], _, _ => rfl
  | (v, c) :: m, s, hm => by
    have hv : v < 65536 := hm (v, c) (by simp)
    have e1 : bytes16 (BitVec.ofNat 16 v) = bytesBE 2 v := by
      rw [bytes16_eq]
      congr 1
      simp [Nat.mod_eq_of_lt hv]
    rw [List.flatMap_cons, entryBytes, List.append_assoc, outBytes_append]
    show (put16be _ s >>= fun s => put32be c s >>= emitEntries m) = _
    rw [put16be, e1]
    congr 1
    funext u
    rw [outBytes_append, put32be, bytes32_eq]
    congr 1
    funext w
    exact emitEntries_eq m w fun p hp => hm p (List.mem_cons_of_mem _ hp)

/-- `emit_header()` sends the bytes of the header one after the other (rules R95 to R98, R172). -/
theorem emitHeader_eq {s : State} (hft : ftWf s.ft) (hd : s.distinct.toNat = s.ft.length) :
    emitHeader s = outBytes (headerBytes s.ft) s := by
  have e1 : bytes32 (s.distinct.setWidth 32) = bytesBE 4 s.ft.length := by
    rw [bytes32_eq, ← hd]
    have := s.distinct.isLt
    simp only [BitVec.toNat_setWidth]
    rw [Nat.mod_eq_of_lt (by omega)]
  rw [headerBytes_eq, outBytes_append]
  show (put32be (s.distinct.setWidth 32) s >>= fun t => emitEntries t.ft t) = _
  rw [put32be, e1]
  have hk : ∀ (bs : List Byte) (t u : State), outBytes bs t = .ok u → u.ft = t.ft := by
    intro bs
    induction bs with
    | nil => intro t u h; cases h; rfl
    | cons b bs ih =>
      intro t u h
      obtain ⟨w, h1, h2⟩ := Run.bind_eq_ok.1 h
      rw [ih w u h2]
      unfold outByte at h1
      obtain ⟨⟨a, x⟩, h3, h4⟩ := Run.bind_eq_ok.1 h1
      unfold sinkByte at h3
      split at h3
      · cases h3
        cases a <;> cases h4
        rfl
      · cases h3
  cases hr : outBytes (bytesBE 4 s.ft.length) s with
  | error x => rfl
  | ok u =>
    simp only [Run.ok_bind]
    rw [hk _ _ _ hr]
    exact emitEntries_eq s.ft u fun p hp => hft.2.1 p hp

/-! ### Code bits -/

/-- Once a byte was refused, what `ACC` and `NBITS` hold is of no account. -/
theorem putBit_refused {l : List Bool} (hl : l.length < 8) (b : Bool) {s : State} {k : Nat}
    (h : RefusesAt s k) (hk : k < (fullBytes (l ++ [b])).length) :
    putBit b (buffered l s) =
      .error (.raised .ioError (buffered l (refusedAt k (fullBytes (l ++ [b])) s))) := by
  obtain ⟨h1, h2⟩ := fullBytes_short hl
  rw [fullBytes_snoc, h1, h2] at hk ⊢
  by_cases h7 : l.length = 7
  · rw [if_pos h7] at hk ⊢
    obtain rfl : k = 0 := by simpa using hk
    obtain ⟨items, h⟩ := h
    have hn : (buffered l s).nbits = BitVec.ofNat 3 l.length := rfl
    unfold putBit
    rw [hn, h7, if_pos rfl]
    show (outByte ((accOf l).extractLsb' 0 7 ++ BitVec.ofBool b) (buffered l s) >>= _) = _
    rw [byteOfBits_snoc h7, outByte, sinkByte_err (s := buffered l s) h, refusedAt, List.take_zero, sent_nil,
      List.map_nil, List.append_nil]
    rfl
  · rw [if_neg h7] at hk
    simp at hk

theorem putCode_refused : ∀ (c : Code) (l : List Bool) (s : State) (k : Nat), l.length < 8 →
    RefusesAt s k → k < (fullBytes (l ++ c)).length →
    ∃ l', putCode c (buffered l s) =
      .error (.raised .ioError (buffered l' (refusedAt k (fullBytes (l ++ c)) s)))
  | [], l, s, k, hl, _, hk => by
    rw [List.append_nil, (fullBytes_short hl).1] at hk
    simp at hk
  | b :: c, l, s, k, hl, h, hk => by
    have e1 : fullBytes (l ++ b :: c) =
        fullBytes (l ++ [b]) ++ fullBytes (leftBits (l ++ [b]) ++ c) := by
      rw [← fullBytes_append, List.append_assoc]; rfl
    rw [e1, List.length_append] at hk
    by_cases hb : k < (fullBytes (l ++ [b])).length
    · refine ⟨l, ?_⟩
      rw [putCode, putBit_refused hl b h hb, e1, ← refusedAt_append hb]
      rfl
    · obtain ⟨l', h1⟩ := putCode_refused c (leftBits (l ++ [b])) (sent (fullBytes (l ++ [b])) s)
        (k - (fullBytes (l ++ [b])).length) (leftBits_lt _) h.sent (by omega)
      refine ⟨l', ?_⟩
      rw [putCode, putBit_sent hl b (h.room (by omega))]
      simp only [Run.ok_bind]
      rw [h1, e1, refusedAt_sent (by omega)]

theorem flushBits_refused {l : List Bool} (hl : l.length < 8) {s : State} {k : Nat} (h : RefusesAt s k)
    (hk : k < (packBits l).length) :
    flushBits (buffered l s) = .error (.raised .ioError (buffered l (refusedAt k (packBits l) s))) := by
  unfold flushBits
  have hn : (buffered l s).nbits = BitVec.ofNat 3 l.length := rfl
  rw [hn]
  rw [packBits_short hl] at hk ⊢
  by_cases h0 : l = []
  · subst h0
    simp at hk
  · have hlen : l.length ≠ 0 := fun h => h0 (List.length_eq_zero_iff.1 h)
    rw [if_neg h0] at hk ⊢
    obtain rfl : k = 0 := by simpa using hk
    obtain ⟨items, h⟩ := h
    rw [if_neg (by
      intro he
      have := congrArg BitVec.toNat he
      simp at this
      omega)]
    have e : (BitVec.ofNat 3 l.length).toNat = l.length := by simp; omega
    show (outByte (accOf l <<< (8 - (BitVec.ofNat 3 l.length).toNat)) (buffered l s) >>= _) = _
    rw [e, accOf_shift hl, outByte, sinkByte_err (s := buffered l s) h, refusedAt, List.take_zero, sent_nil,
      List.map_nil, List.append_nil]
    rfl

/-! ### ENCODE -/

/-- Bytes offered to a sink that answers `Err` to byte `k` of `bs`. -/
def offeredUpTo (k : Nat) (bs : List Byte) : List (Byte × Answer) :=
  ((bs.take k).map fun b => (b, .ok)) ++ (bs[k]?).toList.map fun b => (b, .err)

theorem offeredUpTo_append {a b : List Byte} {k : Nat} (h : k < a.length) :
    offeredUpTo k (a ++ b) = offeredUpTo k a := by
  unfold offeredUpTo
  rw [List.take_append_of_le_length (by omega), List.getElem?_append_left h]

theorem offeredUpTo_sent {a b : List Byte} {k : Nat} (h : a.length ≤ k) :
    offeredUpTo k (a ++ b) = (a.map fun b => (b, .ok)) ++ offeredUpTo (k - a.length) b := by
  unfold offeredUpTo
  rw [List.take_append, List.take_of_length_le h, List.getElem?_append_right h, List.map_append,
    List.append_assoc]

/-- The events of bytes offered to a sink that answers `Err` to byte `k` of `bs`. -/
def refusal (k : Nat) (bs : List Byte) : List PortEvent :=
  ((bs.take k).map fun b => .offeredByte b .ok) ++ (bs[k]?).toList.map fun b => .offeredByte b .err

theorem refusedAt_trace (k : Nat) (bs : List Byte) (s : State) :
    (refusedAt k bs s).env.trace = s.env.trace ++ refusal k bs := by
  rw [refusal, ← List.append_assoc]
  rfl

theorem bytesOffered_refusal (k : Nat) (bs : List Byte) : bytesOffered (refusal k bs) = offeredUpTo k bs := by
  rw [refusal, bytesOffered_append, bytesOffered_offers, bytesOffered_offers]
  rfl

theorem symsTaken_refusal (k : Nat) (bs : List Byte) : symsTaken (refusal k bs) = [] := by
  rw [refusal, symsTaken_append, symsTaken_offers, symsTaken_offers]
  rfl

/-- The header and the bytes that the codes of some symbols fill. -/
def filled (s : State) (vs : List Sym) : List Byte := headerBytes s.ft ++ fullBytes (codeBits s vs)

theorem filled_length (s : State) (vs : List Sym) :
    (filled s vs).length = 4 + 6 * s.ft.length + (codeBits s vs).length / 8 := by
  rw [filled, List.length_append, headerBytes_length, fullBytes_length]

theorem filled_append (s : State) (a b : List Sym) :
    filled s (a ++ b) = filled s a ++ fullBytes (leftBits (codeBits s a) ++ codeBits s b) := by
  unfold filled
  rw [show codeBits s (a ++ b) = codeBits s a ++ codeBits s b from List.flatMap_append, fullBytes_append,
    List.append_assoc]

theorem streamOf_filled (s : State) (vs : List Sym) :
    streamOf s vs = filled s vs ++ packBits (leftBits (codeBits s vs)) := by
  rw [streamOf_eq, filled, List.append_assoc]

/-- The state after the symbols `vs` were packed, in the course of events `es`. -/
def packedTo (vs ws : List Sym) (e : Terminator) (es : List PortEvent) (s : State) : State :=
  packed ws e (fullBytes (codeBits s vs)) es (sent (headerBytes s.ft) (encodeOpened s))

/-- The events up to there. -/
def eventsTo (s : State) (es : List PortEvent) : List PortEvent :=
  [.opened .ssrc, .opened .bsnk] ++ ((headerBytes s.ft).map fun b => .offeredByte b .ok) ++ es

/-- ENCODE up to the end of the symbols it can pack, in these terms (rules R170 to R175). -/
theorem encodeBody_packed {s : State} {vs ws : List Sym} {e : Terminator} {ps : List (Pass Sym)}
    {r : Option Nat} {rs : List (Option Nat)} (hv : s.ftv = true ∧ s.ctv = true) (hft : ftWf s.ft)
    (hd : s.distinct.toNat = s.ft.length) (hp : s.env.ssrc.passes = ⟨vs ++ ws, e⟩ :: ps)
    (hs : s.env.bsnk.scripts = r :: rs) (hc : ∀ v ∈ vs, ctRead v s ≠ [])
    (ha : Accepts r (filled s vs).length) :
    ∃ es, encodeBody s =
        (packLoop (ws.length + 1) (buffered (leftBits (codeBits s vs)) (packedTo vs ws e es s)) >>=
          flushBits >>= fun u => .ok (.done, commitBsnk (releaseSsrc u))) ∧
      symsTaken es = vs.map .item ∧
      bytesOffered es = (fullBytes (codeBits s vs)).map fun b => (b, .ok) :=
  encodeBody_prefix hv hft hd hp hs hc ha

theorem packedTo_cur (vs ws : List Sym) (e : Terminator) (es : List PortEvent) (s : State) :
    (packedTo vs ws e es s).env.ssrc.cur = some ⟨ws, e⟩ := rfl

theorem packedTo_ctRead (vs ws : List Sym) (e : Terminator) (es : List PortEvent) (s : State) (v : Sym) :
    ctRead v (packedTo vs ws e es s) = ctRead v s := by
  simp only [ctRead, packedTo, packed, sent, encodeOpened, openBsnk, openSsrc, note]

theorem packedTo_trace (vs ws : List Sym) (e : Terminator) (es : List PortEvent) (s : State) :
    (packedTo vs ws e es s).env.trace = s.env.trace ++ eventsTo s es := by
  simp [packedTo, eventsTo, packed, sent, encodeOpened, openBsnk, openSsrc, note]

theorem symsTaken_eventsTo (s : State) (es : List PortEvent) : symsTaken (eventsTo s es) = symsTaken es := by
  rw [eventsTo, symsTaken_append, symsTaken_append, symsTaken_offers]
  rfl

theorem bytesOffered_eventsTo {s : State} {es : List PortEvent} {vs : List Sym}
    (h : bytesOffered es = (fullBytes (codeBits s vs)).map fun b => (b, .ok)) :
    bytesOffered (eventsTo s es) = (filled s vs).map fun b => (b, .ok) := by
  rw [eventsTo, bytesOffered_append, bytesOffered_append, bytesOffered_offers, h, filled, List.map_append]
  rfl

theorem encodeOpened_refuses {s : State} {k : Nat} {rs : List (Option Nat)}
    (h : s.env.bsnk.scripts = some k :: rs) : RefusesAt (encodeOpened s) k :=
  ⟨[], by simp [encodeOpened, openBsnk, openSsrc, note, SnkPort.start, h]⟩

theorem packedTo_refuses {s : State} {k : Nat} {rs : List (Option Nat)}
    (h : s.env.bsnk.scripts = some k :: rs) (vs ws : List Sym) (e : Terminator) (es : List PortEvent) :
    RefusesAt (packedTo vs ws e es s) (k - (filled s vs).length) := by
  have := ((encodeOpened_refuses h).sent (bs := headerBytes s.ft)).sent (bs := fullBytes (codeBits s vs))
  rw [filled, List.length_append, ← Nat.sub_sub]
  exact this

/-- A symbol of the pass taken. -/
def tookSymbol (v : Sym) (vs : List Sym) (e : Terminator) (s : State) : State :=
  { s with env := { s.env with
    ssrc := { s.env.ssrc with cur := some ⟨vs, e⟩ }, trace := s.env.trace ++ [.tookSym (.item v)] } }

/-- The loop of `pack_body` at a symbol whose code is refused (rules R173, R176). -/
theorem packLoop_refused {s : State} {v : Sym} {vs : List Sym} {e : Terminator} {l : List Bool} {k n : Nat}
    (hl : l.length < 8) (h : s.env.ssrc.cur = some ⟨v :: vs, e⟩) (hv : ctRead v s ≠ [])
    (hr : RefusesAt s k) (hk : k < (fullBytes (l ++ ctRead v s)).length) :
    ∃ l', packLoop (n + 1) (buffered l s) = .error (.raised .ioError
      (buffered l' (refusedAt k (fullBytes (l ++ ctRead v s)) (tookSymbol v vs e s)))) := by
  obtain ⟨l', h1⟩ := putCode_refused (ctRead v s) l (tookSymbol v vs e s) k hl hr hk
  refine ⟨l', ?_⟩
  rw [packLoop, srcSym_cons (s := buffered l s) h]
  simp only [Run.ok_bind]
  refine (if_neg hv).trans ?_
  show (putCode (ctRead v s) (buffered l (tookSymbol v vs e s)) >>= fun s => packLoop n s) = _
  rw [h1]
  rfl

/-- The loop of `pack_body` at a symbol without a code (rule R179). -/
theorem packLoop_noCode {s : State} {v : Sym} {vs : List Sym} {e : Terminator} {l : List Bool} {n : Nat}
    (h : s.env.ssrc.cur = some ⟨v :: vs, e⟩) (hv : ctRead v s = []) :
    packLoop (n + 1) (buffered l s) =
      .error (.raised .noCodeError (buffered l (tookSymbol v vs e s))) := by
  rw [packLoop, srcSym_cons (s := buffered l s) h]
  exact if_pos hv

/-- The loop of `pack_body` at an unreadable source (rule R74). -/
theorem packLoop_err {s : State} {l : List Bool} {n : Nat} (h : s.env.ssrc.cur = some ⟨[], .err⟩) :
    packLoop (n + 1) (buffered l s) = .error (.raised .ioError (note (.tookSym .err) (buffered l s))) := by
  rw [packLoop, srcSym_err (s := buffered l s) h]
  rfl

/-- The byte the sink refuses ends ENCODE (rules R69, R74): in the header, or in the code of the first
symbol that fills it, whatever comes after. -/
theorem encodeBody_refused {s : State} {vs post : List Sym} {e : Terminator} {ps : List (Pass Sym)}
    {k : Nat} {rs : List (Option Nat)} (hv : s.ftv = true ∧ s.ctv = true) (hft : ftWf s.ft)
    (hd : s.distinct.toNat = s.ft.length) (hp : s.env.ssrc.passes = ⟨vs ++ post, e⟩ :: ps)
    (hs : s.env.bsnk.scripts = some k :: rs) (hc : ∀ v ∈ vs, ctRead v s ≠ [])
    (hk : k < (filled s vs).length) :
    ∃ u es n, encodeBody s = .error (.raised .ioError u) ∧ u.env.trace = s.env.trace ++ es ∧
      bytesOffered es = offeredUpTo k (streamOf s vs) ∧ symsTaken es = (vs.take n).map .item ∧
      k < (filled s (vs.take n)).length ∧ ∀ m < n, (filled s (vs.take m)).length ≤ k := by
  by_cases hh : k < (headerBytes s.ft).length
  · refine ⟨refusedAt k (headerBytes s.ft) (encodeOpened s),
      [.opened .ssrc, .opened .bsnk] ++ refusal k (headerBytes s.ft), 0, ?_, ?_, ?_, ?_, ?_, by omega⟩
    · have hreq : (s.ftv && s.ctv) = true := by simp [hv]
      unfold encodeBody
      rw [hreq]
      simp only [require_true, Run.ok_bind]
      rw [show ({ openBsnk (openSsrc s) with bytesOut := 0#64 } : State) = encodeOpened s from rfl,
        emitHeader_eq (s := encodeOpened s) hft hd]
      show (outBytes (headerBytes s.ft) (encodeOpened s) >>= _) = _
      rw [outBytes_refusedAt (encodeOpened_refuses hs) hh]
      rfl
    · rw [refusedAt_trace, ← List.append_assoc]
      simp [encodeOpened, openBsnk, openSsrc, note]
    · rw [bytesOffered_append, bytesOffered_refusal, streamOf_eq, offeredUpTo_append hh]
      rfl
    · rw [symsTaken_append, symsTaken_refusal]
      rfl
    · rw [filled, List.length_append]
      omega
  · have hex : ∃ n, k < (filled s (vs.take n)).length := ⟨vs.length, by rwa [List.take_length]⟩
    obtain ⟨n, hn, hmin⟩ : ∃ n, k < (filled s (vs.take n)).length ∧
        ∀ m < n, (filled s (vs.take m)).length ≤ k :=
      ⟨Nat.find hex, Nat.find_spec hex, fun m hm => by have := Nat.find_min hex hm; omega⟩
    obtain ⟨m, rfl⟩ : ∃ m, n = m + 1 := by
      rcases n with _ | m
      · rw [List.take_zero, filled, List.length_append] at hn
        simp only [codeBits, List.flatMap_nil, fullBytes, List.length_nil] at hn
        omega
      · exact ⟨m, rfl⟩
    have hm := hmin m (by omega)
    have hlt : m < vs.length := by
      by_contra h
      rw [List.take_of_length_le (by omega)] at hm hn
      omega
    have hin : vs[m] ∈ vs := List.getElem_mem hlt
    have hsub : ∀ w ∈ vs.take m, ctRead w s ≠ [] := fun w hw => hc w (List.mem_of_mem_take hw)
    have htk : vs.take (m + 1) = vs.take m ++ [vs[m]] := List.take_succ_eq_append_getElem hlt
    have hvs : vs = vs.take (m + 1) ++ vs.drop (m + 1) := (List.take_append_drop ..).symm
    rw [htk] at hn hvs
    generalize vs[m] = v at *
    generalize vs.take m = a at *
    generalize vs.drop (m + 1) = b at *
    have hp' : s.env.ssrc.passes = ⟨a ++ (v :: (b ++ post)), e⟩ :: ps := by
      rw [hp, hvs]
      simp
    obtain ⟨es, h1, h2, h3⟩ := encodeBody_packed hv hft hd hp' hs hsub (fun j hj => by cases hj; exact hm)
    have hF := filled_append s a [v]
    rw [show codeBits s [v] = ctRead v s from List.append_nil _] at hF
    have hk2 : k - (filled s a).length < (fullBytes (leftBits (codeBits s a) ++ ctRead v s)).length := by
      rw [hF, List.length_append] at hn
      omega
    have hct := packedTo_ctRead a (v :: (b ++ post)) e es s v
    obtain ⟨l', h4⟩ := packLoop_refused (n := (b ++ post).length + 1) (leftBits_lt (codeBits s a))
      (packedTo_cur a (v :: (b ++ post)) e es s) (by rw [hct]; exact hc v hin)
      (packedTo_refuses hs a (v :: (b ++ post)) e es) (by rw [hct]; exact hk2)
    rw [hct] at h4
    refine ⟨_, eventsTo s es ++ [.tookSym (.item v)] ++ refusal (k - (filled s a).length)
        (fullBytes (leftBits (codeBits s a) ++ ctRead v s)), m + 1,
      by rw [h1, List.length_cons, h4]; rfl, ?_, ?_, ?_, ?_, hmin⟩
    · show (refusedAt _ _ (tookSymbol v (b ++ post) e (packedTo a (v :: (b ++ post)) e es s))).env.trace = _
      rw [refusedAt_trace]
      show (packedTo a (v :: (b ++ post)) e es s).env.trace ++ [PortEvent.tookSym (.item v)] ++ _ = _
      rw [packedTo_trace]
      simp only [List.append_assoc]
    · have hS : streamOf s vs = filled s a ++ (fullBytes (leftBits (codeBits s a) ++ ctRead v s) ++
          (fullBytes (leftBits (codeBits s (a ++ [v])) ++ codeBits s b) ++
            packBits (leftBits (codeBits s vs)))) := by
        have h5 := filled_append s (a ++ [v]) b
        rw [← hvs, hF] at h5
        rw [streamOf_filled, h5]
        simp only [List.append_assoc]
      rw [hS, offeredUpTo_sent hm, offeredUpTo_append hk2, bytesOffered_append, bytesOffered_append,
        bytesOffered_refusal, bytesOffered_eventsTo h3]
      rw [show bytesOffered [PortEvent.tookSym (.item v)] = [] from rfl, List.append_nil]
    · rw [htk, symsTaken_append, symsTaken_append, symsTaken_refusal, symsTaken_eventsTo, h2, List.map_append,
        List.append_nil]
      rfl
    · rw [htk]
      exact hn

/-- The padded last byte refused ends ENCODE after the whole pass (rules R74, R177). -/
theorem encodeBody_last_refused {s : State} {vs : List Sym} {ps : List (Pass Sym)} {k : Nat}
    {rs : List (Option Nat)} (hv : s.ftv = true ∧ s.ctv = true) (hft : ftWf s.ft)
    (hd : s.distinct.toNat = s.ft.length) (hp : s.env.ssrc.passes = ⟨vs, .eos⟩ :: ps)
    (hs : s.env.bsnk.scripts = some k :: rs) (hc : ∀ v ∈ vs, ctRead v s ≠ [])
    (hk : (filled s vs).length ≤ k) (hl : k < (streamOf s vs).length) :
    ∃ u es, encodeBody s = .error (.raised .ioError u) ∧ u.env.trace = s.env.trace ++ es ∧
      bytesOffered es = offeredUpTo k (streamOf s vs) ∧
      symsTaken es = (vs.map fun v => .item v) ++ [.eos] := by
  obtain ⟨es, h1, h2, h3⟩ := encodeBody_packed (ws := []) hv hft hd (by rw [List.append_nil]; exact hp) hs hc
    (fun j hj => by cases hj; exact hk)
  rw [streamOf_filled, List.length_append] at hl
  have hk2 : k - (filled s vs).length < (packBits (leftBits (codeBits s vs))).length := by omega
  have h4 : packLoop 1 (buffered (leftBits (codeBits s vs)) (packedTo vs [] .eos es s)) =
      .ok (buffered (leftBits (codeBits s vs)) (note (.tookSym .eos) (packedTo vs [] .eos es s))) := by
    rw [packLoop, srcSym_eos (s := buffered (leftBits (codeBits s vs)) (packedTo vs [] .eos es s)) rfl]
    rfl
  have h5 := flushBits_refused (s := note (.tookSym .eos) (packedTo vs [] .eos es s))
    (leftBits_lt (codeBits s vs)) (packedTo_refuses hs vs [] .eos es) hk2
  refine ⟨_, eventsTo s es ++ [.tookSym .eos] ++ refusal (k - (filled s vs).length)
      (packBits (leftBits (codeBits s vs))),
    by rw [h1, List.length_nil, Nat.zero_add, h4, Run.ok_bind, h5]; rfl, ?_, ?_, ?_⟩
  · show (refusedAt _ _ (note (.tookSym .eos) (packedTo vs [] .eos es s))).env.trace = _
    rw [refusedAt_trace]
    show (packedTo vs [] .eos es s).env.trace ++ [PortEvent.tookSym .eos] ++ _ = _
    rw [packedTo_trace]
    simp only [List.append_assoc]
  · rw [streamOf_filled, offeredUpTo_sent hk, bytesOffered_append, bytesOffered_append, bytesOffered_refusal,
      bytesOffered_eventsTo h3, show bytesOffered [PortEvent.tookSym .eos] = [] from rfl, List.append_nil]
  · rw [symsTaken_append, symsTaken_append, symsTaken_refusal, symsTaken_eventsTo, h2, List.append_nil]
    rfl

/-- `Err` at the source, or a symbol without a code, ends ENCODE after the symbols it could pack; the
sink need only take the header and the bytes their codes fill (rules R74, R179). -/
theorem encodeBody_cut {s : State} {vs ws : List Sym} {e : Terminator} {ps : List (Pass Sym)}
    {r : Option Nat} {rs : List (Option Nat)} (hv : s.ftv = true ∧ s.ctv = true) (hft : ftWf s.ft)
    (hd : s.distinct.toNat = s.ft.length) (hp : s.env.ssrc.passes = ⟨vs ++ ws, e⟩ :: ps)
    (hs : s.env.bsnk.scripts = r :: rs) (hc : ∀ v ∈ vs, ctRead v s ≠ [])
    (ha : Accepts r (filled s vs).length) {k : FaultKind} {ev : SrcEvent Sym}
    (hw : ws = [] ∧ e = .err ∧ k = .ioError ∧ ev = .err ∨
      ∃ v post, ws = v :: post ∧ ctRead v s = [] ∧ k = .noCodeError ∧ ev = .item v) :
    ∃ u es, encodeBody s = .error (.raised k u) ∧ u.env.trace = s.env.trace ++ es ∧
      symsTaken es = (vs.map fun v => .item v) ++ [ev] ∧
      bytesOffered es = (filled s vs).map (fun b => (b, .ok)) ∧
      u.env.ssrc.passes = ps ∧ u.env.bsnk.scripts = rs := by
  obtain ⟨es, h1, h2, h3⟩ := encodeBody_packed hv hft hd hp hs hc ha
  have hps : (packedTo vs ws e es s).env.ssrc.passes = ps ∧
      (packedTo vs ws e es s).env.bsnk.scripts = rs := by
    simp [packedTo, packed, sent, encodeOpened, openBsnk, openSsrc, note, SrcPort.start, SnkPort.start, hp, hs]
  obtain ⟨u, hu, hut, hup⟩ : ∃ u, packLoop (ws.length + 1) (buffered (leftBits (codeBits s vs))
        (packedTo vs ws e es s)) = .error (.raised k u) ∧
      u.env.trace = (packedTo vs ws e es s).env.trace ++ [.tookSym ev] ∧
      u.env.ssrc.passes = (packedTo vs ws e es s).env.ssrc.passes ∧
      u.env.bsnk.scripts = (packedTo vs ws e es s).env.bsnk.scripts := by
    rcases hw with ⟨rfl, rfl, rfl, rfl⟩ | ⟨v, post, rfl, hn, rfl, rfl⟩
    · refine ⟨note (.tookSym .err) (buffered (leftBits (codeBits s vs)) (packedTo vs [] .err es s)), ?_,
        rfl, rfl, rfl⟩
      exact packLoop_err (packedTo_cur vs [] .err es s)
    · refine ⟨buffered (leftBits (codeBits s vs)) (tookSymbol v post e (packedTo vs (v :: post) e es s)), ?_,
        rfl, rfl, rfl⟩
      exact packLoop_noCode (packedTo_cur vs (v :: post) e es s) (by rw [packedTo_ctRead]; exact hn)
  refine ⟨u, eventsTo s es ++ [.tookSym ev],
    by rw [h1, hu]; rfl, ?_, ?_, ?_,
    hup.1.trans hps.1, hup.2.trans hps.2⟩
  · rw [hut, packedTo_trace, List.append_assoc]
  · rw [symsTaken_append, symsTaken_eventsTo, h2]
    rfl
  · rw [bytesOffered_append, bytesOffered_eventsTo h3,
      show bytesOffered [PortEvent.tookSym ev] = [] from rfl, List.append_nil]

end Sys2Proof.Machine
end

