-- ==== Sys2Proof/Tests/Slice0.lean ====
section
/-!
SUPPORT. Tests against the vectors of spec/95_test_vectors.md, one step each, the decoder against words
written out bit by bit, the refusals of WellFormed, and for every obligation with hypotheses a state and
operands that meet them.
-/

namespace Sys2Proof.Tests

set_option Elab.async false

open Sys2Proof.Machine

/-! ### WellFormed and the decoder -/

/-- Rule R93: the all-zero word is not a command word, and the check refuses it. -/
theorem test_word_00_refused : legalWord 0b00000000#8 = false := by decide

/-- Rule R93: the first word above the table. -/
theorem test_word_09_refused : legalWord 0b00001001#8 = false := by decide

/-- Rule R93: the last word. -/
theorem test_word_ff_refused : legalWord 0b11111111#8 = false := by decide

/-- Rule R92: the eight command words are legal; no command has a field that could be ill-formed. -/
theorem test_command_words_legal :
    ∀ i : Instr, legalWord (encode i) = true ∧ i.wellFormed = true := by
  intro i; cases i <;> decide

theorem test_decode_clr : decode 0b00000001#8 = .command .clr := by decide
theorem test_decode_count : decode 0b00000010#8 = .command .count := by decide
theorem test_decode_build : decode 0b00000011#8 = .command .build := by decide
theorem test_decode_gen : decode 0b00000100#8 = .command .gen := by decide
theorem test_decode_encode : decode 0b00000101#8 = .command .encode := by decide
theorem test_decode_decode : decode 0b00000110#8 = .command .decode := by decide
theorem test_decode_compress : decode 0b00000111#8 = .command .compress := by decide
theorem test_decode_decompress : decode 0b00001000#8 = .command .decompress := by decide

/-- Rule R92: the mask covers all eight bits, so a high bit makes a word illegal. -/
theorem test_decode_high_bit : decode 0b10000001#8 = .illegalWord 0x81#8 := by decide

/-! ### Small states -/

/-- Whether an outcome is a next state of which `p` holds. -/
def ends (o : Host.Outcome State Fault Refusal) (p : State → Bool) : Bool :=
  match o with
  | .next t => p t
  | .fault _ => false
  | .refused _ => false

/-- The reset state with passes listed on `SSRC` and `BSRC` and room listed on both sinks. -/
def host (ss : List (Pass Sym)) (bs : List (Pass Byte)) (room : Option Nat) : State :=
  { State.reset with env := { Env.fresh with
      ssrc := { passes := ss, cur := none }, bsrc := { passes := bs, cur := none },
      bsnk := { scripts := [room, room], cur := none, outputs := [] },
      ssnk := { scripts := [room, room], cur := none, outputs := [] } } }

/-- The symbols of the spec's scenario, rule R120's worked example. -/
def scenario : List Sym :=
  [0x61#16, 0x61#16, 0x61#16, 0x61#16, 0x61#16, 0x62#16, 0x62#16, 0x62#16, 0x63#16, 0x63#16, 0x64#16]

/-- The 31 bytes of vector V-EN1. -/
def scenarioBytes : List Byte :=
  [0x00#8, 0x00#8, 0x00#8, 0x04#8, 0x00#8, 0x61#8, 0x00#8, 0x00#8, 0x00#8, 0x05#8,
   0x00#8, 0x62#8, 0x00#8, 0x00#8, 0x00#8, 0x03#8, 0x00#8, 0x63#8, 0x00#8, 0x00#8, 0x00#8, 0x02#8] ++
  [0x00#8, 0x64#8, 0x00#8, 0x00#8, 0x00#8, 0x01#8, 0x05#8, 0x5F#8, 0xE0#8]

/-- The frequency table of the scenario, vector V-FC1. -/
def scenarioTable : Store Count := [(0x61, 5#32), (0x62, 3#32), (0x63, 2#32), (0x64, 1#32)]

/-- The state after a COUNT of the scenario, its host listing one more such pass. -/
def counted : State :=
  { host [⟨scenario, .eos⟩] [] none with
    ftv := true, distinct := 4#17, total := 11#48, ft := scenarioTable }

/-- The code table of vector V-CG1. -/
def scenarioCodes : Store Code :=
  [(0x61, [false]), (0x62, [true, false]), (0x63, [true, true, true]), (0x64, [true, true, false])]

/-- The node store of vector V-TB1. -/
def scenarioTree : Store Node :=
  [(0, leafNode 0x61#16 5#32), (1, leafNode 0x62#16 3#32), (2, leafNode 0x63#16 2#32),
   (3, leafNode 0x64#16 1#32), (4, internalNode 3#48 3#17 2#17), (5, internalNode 6#48 1#17 4#17),
   (6, internalNode 11#48 0#17 5#17)]

/-- The state after BUILD of the scenario. -/
def built : State :=
  { counted with trv := true, nnodes := 7#17, root := 6#17, ns := scenarioTree }

/-- The state after GEN of the scenario. -/
def generated : State := { built with ctv := true, ct := scenarioCodes }

/-- A one-symbol table, vector V-TB2. -/
def single : State :=
  { host [⟨[0x61#16, 0x61#16], .eos⟩] [] none with
    ftv := true, distinct := 1#17, total := 4#48, ft := [(0x61, 4#32)] }

/-- Its tree. -/
def singleTree : State :=
  { single with
    trv := true, nnodes := 2#17, root := 1#17,
    ns := [(0, leafNode 0x61#16 4#32), (1, internalNode 4#48 0#17 0x1FFFF#17)] }

/-- Its codes. -/
def singleCodes : State := { singleTree with ctv := true, ct := [(0x61, [false])] }

/-! ### One step per instruction against the vectors -/

/-- V-FC1. -/
theorem test_count_scenario :
    ends (exec .count (host [⟨scenario, .eos⟩] [] none)) (fun t =>
      decide (t.ft = scenarioTable ∧ t.distinct = 4#17 ∧ t.total = 11#48 ∧
        csrValue 0#8 t = 0x04#64)) = true := by decide +kernel

/-- V-FC6: the third event raises `IOError`. -/
theorem test_count_io_error :
    ends (exec .count (host [⟨[0x61#16, 0x62#16], .err⟩] [] none)) (fun t =>
      decide (t.ctrl = .faulted ∧ t.fault = 1#4 ∧ t.ft = [] ∧ t.env.ssrc.cur = none)) = true := by
  decide +kernel

/-- V-TB1: the tree of the scenario. -/
theorem test_build_scenario :
    ends (exec .build counted) (fun t =>
      decide (t.ns = scenarioTree ∧ t.nnodes = 7#17 ∧ t.root = 6#17 ∧ t.hsize = 0#17 ∧
        csrValue 0#8 t = 0x0C#64)) = true := by decide +kernel

/-- V-TB9: no table. -/
theorem test_build_no_table :
    ends (exec .build State.reset) (fun t => decide (t.ctrl = .faulted ∧ t.fault = 9#4)) = true := by
  decide +kernel

/-- V-CG1. -/
theorem test_gen_scenario :
    ends (exec .gen built) (fun t =>
      decide (t.ct = scenarioCodes ∧ csrValue 0#8 t = 0x1C#64)) = true := by decide +kernel

/-- V-CG8: a table but no tree. -/
theorem test_gen_no_tree :
    ends (exec .gen counted) (fun t => decide (t.ctrl = .faulted ∧ t.fault = 9#4)) = true := by
  decide +kernel

/-- V-EN1. -/
theorem test_encode_scenario :
    ends (exec .encode generated) (fun t =>
      decide (t.env.bsnk.outputs = [scenarioBytes] ∧ t.bytesOut = 31#64)) = true := by
  decide +kernel

/-- V-EN10 (a): the sink answers `Err` to the 5th byte. -/
theorem test_encode_sink_error :
    ends (exec .encode { generated with env := { generated.env with
        bsnk := { generated.env.bsnk with scripts := [some 4] } } }) (fun t =>
      decide (t.fault = 1#4 ∧ t.env.bsnk.outputs = [] ∧
        bytesOffered t.env.trace = [(0x00#8, .ok), (0x00#8, .ok), (0x00#8, .ok), (0x04#8, .ok),
          (0x00#8, .err)])) = true := by decide +kernel

/-- V-DE1. -/
theorem test_decode_scenario :
    ends (exec .decode (host [] [⟨scenarioBytes, .eos⟩] none)) (fun t =>
      decide (t.env.ssnk.outputs = [scenario] ∧ t.bytesIn = 31#64 ∧ t.ns = scenarioTree ∧
        csrValue 0#8 t = 0x0C#64)) = true := by decide +kernel

/-- V-DE4 (a): the last byte is missing. -/
theorem test_decode_truncated :
    ends (exec .decode (host [] [⟨scenarioBytes.dropLast, .eos⟩] none)) (fun t =>
      decide (t.fault = 4#4 ∧ t.env.ssnk.outputs = [] ∧ csrValue 0#8 t = 0x02#64)) = true := by
  decide +kernel

/-- V-SY6: COMPRESS of the scenario writes the stream of V-EN1. -/
theorem test_compress_scenario :
    ends (exec .compress (host [⟨scenario, .eos⟩, ⟨scenario, .eos⟩] [] none)) (fun t =>
      decide (t.env.bsnk.outputs = [scenarioBytes] ∧ csrValue 0#8 t = 0x1C#64)) = true := by
  decide +kernel

/-- Rule R212: an empty input opens no sink. -/
theorem test_compress_empty :
    ends (exec .compress (host [⟨[], .eos⟩] [] none)) (fun t =>
      decide (csrValue 0#8 t = 0x24#64 ∧ t.env.outcomes = [.empty] ∧
        PortEvent.opened .bsnk ∉ t.env.trace)) = true := by decide +kernel

/-- Rule R213, worked example. -/
theorem test_decompress_single :
    ends (exec .decompress (host [] [⟨[0#8, 0#8, 0#8, 1#8, 0#8, 0x61#8, 0#8, 0#8, 0#8, 4#8, 0#8], .eos⟩]
        none)) (fun t =>
      decide (t.env.ssnk.outputs = [[0x61#16, 0x61#16, 0x61#16, 0x61#16]] ∧ t.bytesIn = 11#64)) = true := by
  decide +kernel

/-- V-DE7: a stream of zero bytes has a corrupt header. -/
theorem test_decompress_no_bytes :
    ends (exec .decompress (host [] [⟨[], .eos⟩] none)) (fun t =>
      decide (t.fault = 3#4 ∧ t.env.outcomes = [.fault .corruptHeaderError])) = true := by
  decide +kernel

/-- V-SY3: CLR after V-EN1. -/
theorem test_clr_idle :
    ends (exec .clr { generated with bytesOut := 31#64 }) (fun t =>
      decide ({ t with env := Env.fresh } = State.reset)) = true := by decide +kernel

/-- Rule R211, worked example: CLR after a truncated stream. -/
theorem test_clr_faulted :
    ends (exec .clr { State.reset with ctrl := .faulted, fault := 4#4 }) (fun t =>
      decide (csrValue 0#8 t = 0#64 ∧ csrValue 1#8 t = 0#64)) = true := by decide +kernel

/-! ### Micro-operations -/

/-- The node store of vectors V-PQ1 and V-PQ3: frequencies 5, 3, 2, 1. -/
def queue (hp : List NodeIx) : State :=
  { State.reset with
    nnodes := 4#17, hsize := BitVec.ofNat 17 hp.length,
    ns := [(0, leafNode 0#16 5#32), (1, leafNode 1#16 3#32), (2, leafNode 2#16 2#32),
      (3, leafNode 3#16 1#32)],
    hp := (List.range hp.length).zip hp }

/-- V-PQ1: the last insert climbs to the top. -/
theorem test_pq_insert_climbs :
    (match pqInsert 3#17 (queue [2#17, 0#17, 1#17]) with
      | .ok t => decide (t = queue [3#17, 2#17, 1#17, 0#17])
      | .error _ => false) = true := by decide +kernel

/-- V-PQ3: extract with sift-down. -/
theorem test_pq_extract_sifts :
    (match pqExtractMin (queue [3#17, 2#17, 1#17, 0#17]) with
      | .ok (m, t) => decide (m = 3#17 ∧ t = queue [2#17, 0#17, 1#17])
      | .error _ => false) = true := by decide +kernel

/-- V-FC7: one more than `COUNT_MAX`. -/
theorem test_count_step_capacity :
    (match countStep 0x61#16 { counted with ft := [(0x61, 4294967295#32)] } with
      | .ok _ => false
      | .error (.raised k t) => decide (k = .capacityError ∧ t.ft = [(0x61, 4294967295#32)])
      | .error _ => false) = true := by decide +kernel

/-! ### The command port, the CSR port and reset -/

/-- V-SY1: an illegal word in `IDLE`. -/
theorem test_step_illegal_word :
    ends (step (presentWord 0x00#8 counted)) (fun t =>
      decide (t.ctrl = .faulted ∧ t.fault = 8#4 ∧ t.ft = [])) = true := by decide +kernel

/-- V-SY2: a legal word in `FAULTED` is dropped. -/
theorem test_step_faulted_drops :
    ends (step (presentWord 0x02#8 { State.reset with ctrl := .faulted, fault := 8#4 })) (fun t =>
      decide (t = { State.reset with ctrl := .faulted, fault := 8#4 })) = true := by decide +kernel

/-- V-SY4: CSR reads in the state after V-EN1. -/
theorem test_csr_values :
    csrValue 0#8 { generated with bytesOut := 31#64 } = 0x1C#64 ∧ csrValue 2#8 generated = 4#64 ∧
    csrValue 3#8 generated = 11#64 ∧ csrValue 5#8 { generated with bytesOut := 31#64 } = 31#64 ∧
    csrValue 6#8 generated = 0#64 := by decide +kernel

/-- Rule R262: reset after one port event of COUNT leaves the opening bracket and nothing else. -/
theorem test_step_word_then_reset :
    ends (step { counted with env := { counted.env with inbox := [.wordThenReset 0x02#8 1] } }) (fun t =>
      decide (t.ft = [] ∧ t.env.trace = [.opened .ssrc] ∧ t.env.ssrc.passes = [] ∧
        t.env.ssrc.cur = none)) = true := by decide +kernel

/-! ### Witnesses: states and operands that meet the hypotheses of the obligations -/

/-- A state with a move of the host. -/
def moved (m : HostMove) (s : State) : State := { s with env := { s.env with inbox := [m] } }

/-- A faulted state. -/
def faulted : State := { State.reset with ctrl := .faulted, fault := 8#4 }

/-- A state in the middle of a command, which no step leaves. -/
def busy : State := { State.reset with ctrl := .busy }

/-- A claim about the members of a list, checked member by member. -/
theorem all_of {α : Type} {p : α → Prop} [DecidablePred p] (l : List α)
    (h : l.all (fun a => decide (p a)) = true) : ∀ a ∈ l, p a := by simpa using h

theorem test_witness_IllegalWords :
    (0x00#8 = 0x00#8 ∨ 9 ≤ (0x00#8).toNat) ∧ (9 ≤ (0x09#8).toNat ∧ 9 ≤ (0xFF#8).toNat) ∧
    counted.ctrl = .idle ∧ faulted.ctrl = .faulted ∧ ¬ (9 ≤ (0x08#8).toNat) := by decide

theorem test_witness_StepRunsDecoded :
    counted.ctrl ≠ .busy ∧ decode 0x02#8 = .command .count ∧ decodeTableWord 8 2 = some .count ∧
    busy.ctrl = .busy ∧ State.reset.env.inbox = [] := by decide

theorem test_witness_WordAcceptance :
    (moved (.word 0x02#8) busy).env.inbox = .word 0x02#8 :: [] ∧
    (moved (.word 0x02#8) busy).ctrl = .busy ∧
    (moved (.word 0x01#8) faulted).ctrl = .faulted ∧ (0x02#8 : Byte) ≠ 0x01#8 ∧
    (moved (.word 0x08#8) counted).ctrl = .idle ∧ decode 0x08#8 = .command .decompress ∧
    decode 0x09#8 = .illegalWord 0x09#8 := by decide

theorem test_witness_ResetValuesHold : faulted.ctrl ≠ .busy := by decide

theorem test_witness_ResetMove : (moved .reset busy).env.inbox = .reset :: [] := by decide

theorem test_witness_ResetCutsCommand :
    (moved (.wordThenReset 0x02#8 1) counted).env.inbox = .wordThenReset 0x02#8 1 :: [] ∧
    (moved (.wordThenReset 0x02#8 1) counted).ctrl ≠ .busy ∧
    ends (acceptWord 0x02#8 { moved (.wordThenReset 0x02#8 1) counted with
      env := { (moved (.wordThenReset 0x02#8 1) counted).env with inbox := [] } })
      (fun _ => true) = true := by decide +kernel

/-- Every number of the map is some byte, and each clause has its own numbers. -/
theorem test_witness_CsrMap :
    (moved (.readCsr 5#8) generated).ctrl ≠ .busy ∧
    (moved (.readCsr 5#8) generated).env.inbox = .readCsr 5#8 :: [] ∧
    (0#8).toNat = 0 ∧ (5#8).toNat = 5 ∧ 6 ≤ (6#8).toNat ∧ 6 ≤ (255#8).toNat := by decide

theorem test_witness_CsrWhileBusy :
    (moved (.readCsr 0#8) busy).ctrl = .busy ∧
    (moved (.readCsr 0#8) busy).env.inbox = .readCsr 0#8 :: [] := by decide

theorem test_witness_OutcomeVisible :
    counted.ctrl = .idle ∧ FlagsOk counted ∧
    ends (exec .build counted) (fun _ => true) = true := by decide +kernel

theorem test_witness_MemoryReadAfterWrite :
    Memory.wf generated ∧ generated.nnodes.toNat < Config.nodeMax ∧
    Memory.wf (queue [2#17, 0#17, 1#17]) ∧ 2 < (queue [2#17, 0#17, 1#17]).hsize.toNat ∧
    2 < Config.heapCap := by decide +kernel

/-- A state whose `BSNK` and `BSRC` are open. -/
def opened (room : Option Nat) (p : Pass Byte) : State :=
  { counted with env := { counted.env with
      bsnk := { counted.env.bsnk with cur := some ⟨[], room⟩ },
      bsrc := { counted.env.bsrc with cur := some p } } }

theorem test_witness_FieldAssembly :
    (opened none ⟨[1#8, 2#8, 3#8, 4#8], .eos⟩).env.bsnk.cur = some ⟨[], none⟩ ∧
    (opened (some 0) ⟨[], .eos⟩).env.bsnk.cur = some ⟨[], some 0⟩ ∧
    (opened none ⟨[1#8, 2#8, 3#8, 4#8], .eos⟩).env.bsrc.cur =
      some ⟨1#8 :: 2#8 :: 3#8 :: 4#8 :: [], .eos⟩ ∧
    (opened none ⟨[1#8, 2#8], .err⟩).env.bsrc.cur = some ⟨1#8 :: 2#8 :: [], .err⟩ ∧
    (opened none ⟨[], .eos⟩).env.bsrc.cur = some ⟨[], .eos⟩ ∧
    (opened none ⟨[], .err⟩).env.bsrc.cur = some ⟨[], .err⟩ := by decide

theorem test_witness_HeaderWellFormed :
    (opened none ⟨scenarioBytes, .eos⟩).env.bsrc.cur = some ⟨scenarioBytes, .eos⟩ ∧
    ftWf scenarioTable ∧ headerBytes scenarioTable ++ [0x05#8, 0x5F#8, 0xE0#8] = scenarioBytes ∧
    HeaderOk scenarioBytes := by decide +kernel

theorem test_witness_FaultTable :
    State.reset.ctrl = .idle ∧ ends (exec .gen State.reset) (fun t =>
      decide (t.env.outcomes = State.reset.env.outcomes ++ [.fault .sequenceError])) = true := by
  decide +kernel

theorem test_witness_SequenceErrors :
    counted.ctrl = .idle ∧ PortsClosed counted ∧ counted.trv = false ∧ counted.ctv = false ∧
    State.reset.ctrl = .idle ∧ PortsClosed State.reset ∧ State.reset.ftv = false := by decide

theorem test_witness_WaysOutOfFaulted :
    (moved (.word 0x02#8) faulted).ctrl = .faulted ∧
    (moved (.word 0x02#8) faulted).env.inbox = .word 0x02#8 :: [] ∧
    ends (step (moved (.word 0x02#8) faulted)) (fun _ => true) = true ∧
    ends (step (moved (.word 0x01#8) faulted)) (fun _ => true) = true ∧
    ends (step (moved (.wordThenReset 0x02#8 0) faulted)) (fun _ => true) = true := by decide +kernel

theorem test_witness_OutputsOnlyOnDone :
    PortsClosed generated ∧ ends (exec .encode generated) (fun t =>
      decide (t.env.outcomes = generated.env.outcomes ++ [.done])) = true ∧
    ends (exec .count (host [⟨[], .eos⟩] [] none)) (fun t =>
      decide (t.env.outcomes = [.empty])) = true ∧
    ends (exec .decode (host [] [⟨scenarioBytes, .eos⟩] none)) (fun t =>
      decide (t.env.outcomes = [.done])) = true := by decide +kernel

theorem test_witness_ClrResult : counted.ctrl ≠ .busy ∧ faulted.ctrl ≠ .busy := by decide

theorem test_witness_FrameOfRegisters :
    generated.ctrl = .idle ∧
    ends (exec .encode generated) (fun t => decide (t.ctrl = .idle)) = true := by decide +kernel

theorem test_witness_FrameOfPorts :
    counted.ctrl = .idle ∧ PortsClosed counted ∧
    ends (exec .build counted) (fun _ => true) = true := by decide +kernel

theorem test_witness_NoStaleState :
    counted.ctrl = .idle ∧ (generated).ctrl = .idle ∧ generated.env = counted.env := by decide

theorem test_witness_CountStepRule :
    ftRead 0x61#16 { counted with ft := [(0x61, 0xFFFFFFFF#32)] } = 0xFFFFFFFF#32 ∧
    ftRead 0x61#16 { counted with ft := [(0x61, 0xFFFFFFFE#32)] } ≠ 0xFFFFFFFF#32 ∧
    ftRead 0x62#16 counted ≠ 0xFFFFFFFF#32 := by decide

theorem count_le_of_length {vs : List Sym} {n : Nat} (h : vs.length ≤ n) (v : Sym) :
    vs.count v ≤ n := le_trans List.count_le_length h

theorem test_witness_CountResult :
    (host [⟨scenario, .eos⟩] [] none).ctrl = .idle ∧
    (host [⟨scenario, .eos⟩] [] none).env.ssrc.passes = ⟨scenario, .eos⟩ :: [] ∧
    (∀ v, scenario.count v ≤ 4294967295) ∧ scenario.reverse.Perm scenario :=
  ⟨by decide, by decide, count_le_of_length (by decide), List.reverse_perm _⟩

theorem test_witness_CountIoError :
    (host [⟨scenario, .err⟩] [] none).ctrl = .idle ∧ PortsClosed (host [⟨scenario, .err⟩] [] none) ∧
    (host [⟨scenario, .err⟩] [] none).env.ssrc.passes = ⟨scenario, .err⟩ :: [] ∧
    ∀ v, scenario.count v ≤ 4294967295 :=
  ⟨by decide, by decide, by decide, count_le_of_length (by decide)⟩

/-- A pass of `n` equal symbols and one more. -/
theorem too_many (n : Nat) : ∃ (pre : List Sym) (s : State),
    s.ctrl = .idle ∧ PortsClosed s ∧ s.env.ssrc.passes = ⟨pre ++ 0x61#16 :: [0x62#16], .err⟩ :: [] ∧
    pre.count 0x61#16 = n ∧ ∀ w, pre.count w ≤ n :=
  ⟨List.replicate n 0x61#16, host [⟨List.replicate n 0x61#16 ++ 0x61#16 :: [0x62#16], .err⟩] [] none,
    rfl, ⟨rfl, rfl, rfl, rfl⟩, rfl, List.count_replicate_self,
    count_le_of_length (le_of_eq List.length_replicate)⟩

theorem test_witness_CountCapacity : ∃ (pre : List Sym) (s : State),
    s.ctrl = .idle ∧ PortsClosed s ∧ s.env.ssrc.passes = ⟨pre ++ 0x61#16 :: [0x62#16], .err⟩ :: [] ∧
    pre.count 0x61#16 = 4294967295 ∧ ∀ w, pre.count w ≤ 4294967295 := too_many 4294967295

theorem test_witness_UnlistedStreams :
    State.reset.ctrl = .idle ∧ State.reset.env.ssrc.passes = [] ∧
    State.reset.env.bsrc.passes = [] ∧ State.reset.env.bsnk.scripts = [] ∧
    State.reset.env.ssnk.scripts = [] := by decide

theorem test_witness_LessIsStrictTotal :
    nsRead 0#17 (queue []) = .ok (leafNode 0#16 5#32) ∧
    nsRead 1#17 (queue []) = .ok (leafNode 1#16 3#32) ∧ (0#17 : NodeIx) ≠ 1#17 ∧
    nodeLess (queue []) 3#17 1#17 = true ∧ nodeLess (queue []) 1#17 0#17 = true := by decide

/-- The heap invariant, checked position by position. -/
theorem heap_edges (s : State)
    (h : (List.range s.hsize.toNat).all (fun i => decide (i = 0) ||
      match s.hp.get? ((i - 1) / 2), s.hp.get? i with
      | some a, some b => nodeLess s a b
      | _, _ => false) = true) :
    ∀ i < s.hsize.toNat, 1 ≤ i →
      ∃ a ∈ s.hp.get? ((i - 1) / 2), ∃ b ∈ s.hp.get? i, nodeLess s a b = true := by
  intro i hi h1
  have h2 := List.all_eq_true.1 h i (List.mem_range.2 hi)
  rw [decide_eq_false (by omega : ¬ i = 0), Bool.false_or] at h2
  split at h2
  · rename_i a b ha hb
    exact ⟨a, ha, b, hb, h2⟩
  · exact absurd h2 (by decide)

theorem test_witness_PqInsertKeepsHeap :
    HeapOk (queue [2#17, 0#17, 1#17]) ∧ (queue [2#17, 0#17, 1#17]).hsize.toNat < 65536 ∧
    (3#17).toNat < (queue [2#17, 0#17, 1#17]).nnodes.toNat ∧
    ((queue [2#17, 0#17, 1#17]).ns.get? (3#17).toNat).isSome ∧
    3#17 ∉ queueList (queue [2#17, 0#17, 1#17]) :=
  ⟨⟨by decide, by decide, by decide, by decide, by decide, all_of _ (by decide), heap_edges _ (by decide)⟩,
    by decide, by decide, by decide, by decide⟩

/-- Two layouts of the same queue. -/
theorem test_witness_PqExtractsLeast :
    HeapOk (queue [3#17, 2#17, 1#17, 0#17]) ∧ (queue [3#17, 2#17, 1#17, 0#17]).hsize ≠ 0#17 ∧
    HeapOk (queue [3#17, 1#17, 2#17, 0#17]) ∧
    (queue [3#17, 1#17, 2#17, 0#17]).ns = (queue [3#17, 2#17, 1#17, 0#17]).ns ∧
    (queueList (queue [3#17, 1#17, 2#17, 0#17])).Perm
      (queueList (queue [3#17, 2#17, 1#17, 0#17])) :=
  ⟨⟨by decide, by decide, by decide, by decide, by decide, all_of _ (by decide), heap_edges _ (by decide)⟩, by decide,
    ⟨by decide, by decide, by decide, by decide, by decide, all_of _ (by decide), heap_edges _ (by decide)⟩, by decide,
    by decide⟩

/-- For BuildResult, BuildShape, BuildMergesLeast and BuildReproducible: a table of one symbol and a
table of four. -/
theorem test_witness_BuildReady :
    BuildReady single ∧ BuildReady counted ∧ 2 ≤ counted.ft.length ∧
    BuildReady generated ∧ generated.ft = counted.ft ∧ single.ft = [(0x61, 4#32)] := by decide +kernel

theorem test_witness_BuildEmpty :
    ({ State.reset with ftv := true }).ctrl = .idle ∧ ({ State.reset with ftv := true }).ftv = true ∧
    ({ State.reset with ftv := true }).distinct = 0#17 := by decide

theorem test_witness_BuildDegenerate :
    single.ctrl = .idle ∧ single.ftv = true ∧ single.distinct = 1#17 ∧
    single.ft = [((0x61#16).toNat, 4#32)] := by decide

theorem tree_ok_built : TreeOk built :=
  ⟨by decide, by decide +kernel, by decide +kernel, by decide +kernel, by decide +kernel⟩

/-- For GenResult, CodesPrefixFree and CodeLengthBound. -/
theorem test_witness_GenReady :
    GenReady built ∧ TableOk built ∧ GenReady singleTree ∧ TableOk singleTree ∧
    ftRead 0x61#16 built ≠ 0#32 ∧ ftRead 0x62#16 built ≠ 0#32 :=
  ⟨⟨by decide, by decide, by decide, tree_ok_built⟩, by decide,
    ⟨by decide, by decide, by decide, by decide, by decide, by decide, by decide, by decide⟩, by decide,
    by decide, by decide⟩

/-- A host with room for exactly the stream. -/
def generatedFor (vs : List Sym) (e : Terminator) (room : Option Nat) : State :=
  { generated with env := (host [⟨vs, e⟩] [] room).env }

theorem test_witness_EncodeResult :
    (generatedFor scenario .eos (some 31)).ctrl = .idle ∧ generated.ftv = true ∧
    generated.ctv = true ∧ ftWf generated.ft ∧ TableOk generated ∧
    (generatedFor scenario .eos (some 31)).env.ssrc.passes = ⟨scenario, .eos⟩ :: [] ∧
    (generatedFor scenario .eos (some 31)).env.bsnk.scripts = some 31 :: [some 31] ∧
    (∀ v ∈ scenario, ctRead v generated ≠ []) ∧
    Accepts (some 31) (streamOf generated scenario).length :=
  ⟨by decide, by decide, by decide, by decide, by decide, by decide, by decide, all_of _ (by decide),
    by decide +kernel⟩

/-- The last premise of StreamLayout; the others are those of EncodeResult. -/
theorem test_witness_StreamLayout :
    ftWf generated.ft ∧ generated.ft[3]? = some (0x64, 1#32) ∧
    ∀ v, scenario.count v = (ftRead v generated).toNat := by
  refine ⟨by decide, by decide, fun v => ?_⟩
  by_cases h : v ∈ scenario
  · exact all_of scenario (p := fun v => scenario.count v = (ftRead v generated).toNat)
      (by decide +kernel) v h
  · rw [List.count_eq_zero_of_not_mem h]
    have h1 : ∀ k ∈ [0x61, 0x62, 0x63, 0x64], v.toNat ≠ k := by
      intro k hk he
      obtain rfl : v = BitVec.ofNat 16 k := by rw [← he]; simp
      fin_cases hk <;> exact h (by decide)
    simp only [List.mem_cons, List.not_mem_nil, or_false, forall_eq_or_imp, forall_eq] at h1
    simp [ftRead, generated, built, counted, scenarioTable, Store.get?, h1]

theorem test_witness_PackingRule :
    (opened none ⟨[0x05#8, 0x5F#8], .eos⟩).acc = 0#8 ∧
    (opened none ⟨[0x05#8, 0x5F#8], .eos⟩).nbits = 0#3 ∧
    (opened none ⟨[0x05#8, 0x5F#8], .eos⟩).nbitsIn = 0#4 ∧
    (opened none ⟨[0x05#8, 0x5F#8], .eos⟩).env.bsnk.cur = some ⟨[], none⟩ ∧
    (opened none ⟨[0x05#8, 0x5F#8], .eos⟩).env.bsrc.cur = some ⟨[0x05#8, 0x5F#8], .eos⟩ ∧
    9 ≤ 8 * [0x05#8, 0x5F#8].length := by decide

theorem test_witness_EncodeNoCode :
    (generatedFor ([0x61#16] ++ 0x65#16 :: []) .eos (some 31)).ctrl = .idle ∧
    PortsClosed (generatedFor ([0x61#16] ++ 0x65#16 :: []) .eos (some 31)) ∧
    ftWf generated.ft ∧ TableOk generated ∧
    (generatedFor ([0x61#16] ++ 0x65#16 :: []) .eos (some 31)).env.ssrc.passes =
      ⟨[0x61#16] ++ 0x65#16 :: [], .eos⟩ :: [] ∧
    (∀ w ∈ [0x61#16], ctRead w generated ≠ []) ∧ ctRead 0x65#16 generated = [] ∧
    Accepts (some 28) (4 + 6 * generated.ft.length + (codeBits generated [0x61#16]).length / 8) :=
  ⟨by decide, by decide, by decide, by decide, by decide, all_of _ (by decide), by decide,
    by decide +kernel⟩

/-- Each clause: room for all but the padded byte; `Err` at the first and the last byte that header and
codes fill, before a symbol without a code in a pass that ends in `Err`; `Err` at the padded byte. -/
theorem test_witness_EncodeIoErrors :
    (generatedFor (scenario ++ []) .err (some 30)).env.ssrc.passes = ⟨scenario ++ [], .err⟩ :: [] ∧
    PortsClosed (generatedFor (scenario ++ []) .err (some 30)) ∧
    Accepts (some 30) (4 + 6 * generated.ft.length + (codeBits generated scenario).length / 8) ∧
    (generatedFor (scenario ++ [0x65#16]) .err (some 29)).env.ssrc.passes =
      ⟨scenario ++ [0x65#16], .err⟩ :: [] ∧
    29 < 4 + 6 * generated.ft.length + (codeBits generated scenario).length / 8 ∧
    0 < 4 + 6 * generated.ft.length + (codeBits generated scenario).length / 8 ∧
    (generatedFor scenario .eos (some 30)).env.bsnk.scripts = some 30 :: [some 30] ∧
    30 < (streamOf generated scenario).length ∧ 0 < (streamOf generated scenario).length := by
  decide +kernel

theorem test_witness_HeaderFidelity :
    ftWf counted.ft ∧ TableOk counted ∧ counted.ft ≠ [] ∧
    (opened none ⟨headerBytes counted.ft ++ [0x05#8], .err⟩).env.bsnk.cur = some ⟨[], none⟩ ∧
    (opened none ⟨headerBytes counted.ft ++ [0x05#8], .err⟩).env.bsrc.cur =
      some ⟨headerBytes counted.ft ++ [0x05#8], .err⟩ := by decide +kernel

/-- What BUILD makes of the one-symbol table. -/
theorem single_built : BuiltFrom [(0x61, 4#32)]
    { singleTree with env := { singleTree.env with outcomes := [.done] } } :=
  ⟨single, by decide +kernel, rfl, by rfl⟩

/-- The code of the one symbol. -/
theorem single_code (t : State) (h : t.ns = singleTree.ns) (hr : t.root = 1#17) :
    CodeTo t 0x61#16 [false] := by
  refine ⟨0#17, ?_, leafNode 0x61#16 4#32, ?_, rfl, rfl⟩
  · simp only [descend, hr, h]
    decide
  · rw [h]
    decide

theorem spells_single (t : State) (h : t.ns = singleTree.ns) (hr : t.root = 1#17) :
    ∀ n, Spells t (List.replicate n 0x61#16) (List.replicate n false)
  | 0 => rfl
  | n + 1 => ⟨[false], List.replicate n false, single_code t h hr, spells_single t h hr n, rfl⟩

/-- For DecodeResult and DecompressResult: four symbols, and four padding bits that are not all 0. -/
theorem test_witness_DecodeResult :
    ∃ τ, BodyStarts [(0x61, 4#32)] τ [0x05#8] (List.replicate 4 0x61#16) (List.replicate 4 false)
        [false, true, false, true] ∧
      (List.replicate 4 0x61#16).length = countSum [(0x61, 4#32)] ∧
      (host [] [⟨headerBytes [(0x61, 4#32)] ++ [0x05#8], .err⟩] (some 4)).env.bsrc.passes =
        ⟨headerBytes [(0x61, 4#32)] ++ [0x05#8], .err⟩ :: [] ∧
      Accepts (some 4) (List.replicate 4 0x61#16).length :=
  ⟨_, ⟨by decide, by decide, single_built, spells_single _ (by decide) (by decide) 4, by decide⟩, by decide,
    by decide, by decide⟩

/-- Each clause; the failing headers that end in `Err` are those of V-DE9 (b) and (c), the header cut off by
`Err` is that of V-DE9 (a). -/
theorem test_witness_DecodeCorruptHeader :
    (host [] [⟨[], .eos⟩] none).env.bsrc.passes = ⟨[], .eos⟩ :: [] ∧ ¬ HeaderOk [] ∧
    ¬ HeaderOk [0#8, 0#8, 0#8, 0#8] ∧ HeaderOk scenarioBytes ∧
    HeaderFailsAt [0#8, 0#8, 0#8, 0#8] 4 ∧ HeaderFailsAt [0#8, 1#8, 0#8, 1#8] 4 ∧
    HeaderFailsAt [0#8, 0#8, 0#8, 1#8, 0#8, 0x61#8, 0#8, 0#8, 0#8, 0#8] 10 ∧
    ¬ HeaderOk [0#8, 0#8, 0#8] ∧ ∀ n, ¬ HeaderFailsAt [0#8, 0#8, 0#8] n := by
  refine ⟨by decide, by decide, by decide, by decide +kernel, by decide, by decide,
    ⟨by decide, .inr ⟨0, by decide, by decide, rfl, .inl (by decide), fun j hj => absurd hj (by omega)⟩⟩,
    by decide, ?_⟩
  rintro n ⟨hn, ⟨rfl, -⟩ | ⟨k, -, -, rfl, -⟩⟩
  · exact absurd hn (by decide)
  · simp only [List.length_cons, List.length_nil] at hn
    omega

/-- V-DE9 (c): the corrupt entry is reported and the `Err` after it is not taken. -/
theorem test_decode_corrupt_before_err :
    ends (exec .decode (host [] [⟨[0#8, 0#8, 0#8, 1#8, 0#8, 0x61#8, 0#8, 0#8, 0#8, 0#8], .err⟩] none))
      (fun t => decide (t.env.outcomes = [.fault .corruptHeaderError] ∧
        (bytesTaken t.env.trace).length = 10)) = true := by decide +kernel

/-- For DecodeTruncated and the second clause of DecodeIoErrors: a body of no bytes. -/
theorem test_witness_DecodeTruncated :
    ∃ τ, BodyStarts [(0x61, 4#32)] τ [] [] [] [] ∧ ([] : List Sym).length < countSum [(0x61, 4#32)] ∧
      MidCode τ [] ∧ Accepts (some 0) ([] : List Sym).length :=
  ⟨_, ⟨by decide, by decide, single_built, rfl, rfl⟩, by decide,
    ⟨1#17, rfl, internalNode 4#48 0#17 0x1FFFF#17, rfl, rfl⟩, by decide⟩

theorem test_witness_DecodeInvalidCode :
    (host [] [⟨headerBytes [((0x61#16).toNat, 4#32)] ++ [0x20#8], .eos⟩] (some 2)).ctrl = .idle ∧
    (4#32 : Count) ≠ 0#32 ∧
    bitsOf [0x20#8] = List.replicate 2 false ++ true :: [false, false, false, false, false] ∧
    2 < (4#32).toNat ∧ Accepts (some 2) 2 ∧
    ends (exec .decode (host [] [⟨headerBytes [((0x61#16).toNat, 4#32)] ++ [0x20#8], .eos⟩] (some 2)))
      (fun t => decide (t.env.outcomes = [.fault .invalidCodeError])) = true := by decide +kernel

theorem test_witness_DecodeIoErrors :
    ftWf scenarioTable ∧ headerBytes scenarioTable = scenarioBytes.take 27 ++ [0x01#8] ∧
    (∃ τ, BodyStarts [(0x61, 4#32)] τ [0x00#8] (List.replicate 4 0x61#16) (List.replicate 4 false)
      [false, false, false, false] ∧
      (List.replicate 4 0x61#16).length ≤ countSum [(0x61, 4#32)] ∧
      3 < (List.replicate 4 0x61#16).length) :=
  ⟨by decide, by decide +kernel, _,
    ⟨by decide, by decide, single_built, spells_single _ (by decide) (by decide) 4, by decide⟩, by decide, by decide⟩

theorem test_witness_CompositeExpansion :
    (host [⟨scenario, .eos⟩, ⟨scenario, .eos⟩] [] none).env.ssrc.passes =
      ⟨scenario, .eos⟩ :: [⟨scenario, .eos⟩] ∧ scenario ≠ [] ∧
    (host [⟨[], .err⟩] [] none).env.ssrc.passes = ⟨[], .err⟩ :: [] := by decide

theorem test_witness_EmptyInput :
    (host [⟨[], .eos⟩] [] none).ctrl = .idle ∧ (host [⟨[], .eos⟩] [] none).fault = 0#4 ∧
    (host [⟨[], .eos⟩] [] none).env.ssrc.passes = ⟨[], .eos⟩ :: [] ∧
    ends (exec .build { State.reset with ftv := true }) (fun t =>
      decide (t.env.outcomes = [.empty])) = true := by decide +kernel

/-- For CompressResult and RoundTrip; the second premise is met by `y` and any later bytes. -/
theorem test_witness_RoundTrip :
    (host [⟨scenario, .eos⟩, ⟨scenario, .eos⟩] [] none).ctrl = .idle ∧
    (host [⟨scenario, .eos⟩, ⟨scenario, .eos⟩] [] none).env.ssrc.passes =
      ⟨scenario, .eos⟩ :: ⟨scenario, .eos⟩ :: [] ∧
    (host [⟨scenario, .eos⟩, ⟨scenario, .eos⟩] [] none).env.bsnk.scripts = none :: [none] ∧
    scenario ≠ [] ∧ (∀ v, scenario.count v ≤ 4294967295) ∧
    (host [] [⟨scenarioBytes ++ [0xDE#8], .err⟩] none).env.bsrc.passes =
      ⟨scenarioBytes ++ [0xDE#8], .err⟩ :: [] ∧
    (host [] [⟨scenarioBytes ++ [0xDE#8], .err⟩] none).env.ssnk.scripts = none :: [none] :=
  ⟨by decide, by decide, by decide, by decide, count_le_of_length (by decide), by decide, by decide⟩

theorem test_witness_StepKeepsMemoryForm :
    Memory.wf (moved (.word 0x04#8) built) ∧
    ends (step (moved (.word 0x04#8) built)) (fun _ => true) = true := by decide +kernel

theorem test_witness_StepKeepsFlags :
    (moved (.word 0x04#8) built).ctrl ≠ .busy ∧ FlagsOk (moved (.word 0x04#8) built) ∧
    FaultOk (moved (.word 0x04#8) built) ∧
    ends (step (moved (.word 0x04#8) built)) (fun _ => true) = true := by decide +kernel

/-- For StepKeepsInv and EveryCommandEnds: a state with a tree. -/
theorem test_witness_StepKeepsInv :
    Inv (moved (.word 0x04#8) built) ∧
    ends (step (moved (.word 0x04#8) built)) (fun _ => true) = true :=
  ⟨⟨⟨by decide, by decide, by decide, by decide, by decide, by decide, by decide, by decide, by decide,
    by decide⟩, fun _ => tree_ok_built, fun h => absurd h (by decide)⟩, by decide +kernel⟩

end Sys2Proof.Tests
end

section
/-! PROOFS. A step runs the decoded command (spec/00_scope.md rule R5). -/

namespace Sys2Proof.Machine

/-- The host's question has an answer exactly for a word of at most 8 bits (spec/30_encoding.md rule R90),
and the answer is the decoder's. -/
theorem decodeTableWord_eq_some_iff {nbits w : Nat} {i : Instr} :
    decodeTableWord nbits w = some i ↔ nbits ≤ 8 ∧ decode (tableWord nbits w) = .command i := by
  unfold decodeTableWord
  by_cases hn : nbits ≤ 8
  · cases hd : decode (tableWord nbits w) <;> simp [hn]
  · simp [hn]

/-- A presented word that decodes to a command is executed on the state as it was before the word was presented
(spec/30_encoding.md rule R91). -/
theorem step_presentWord_command {s : State} {w : Byte} {i : Instr} (hb : s.ctrl ≠ .busy)
    (hd : decode w = .command i) : step (presentWord w s) = exec i s :=
  (step_presentWord w hb).trans (acceptWord_command hd s)

/-- Settles O3: each clause is the step's rule for that move; the word `withFetchWord` places is a presented
word, and the host's question reads it as the decoder does. -/
theorem stepRunsDecoded : Obligations.StepRunsDecoded := by
  refine ⟨?command, ?fetched, ?busy, ?noMove⟩
  case command => exact fun s w i hb hd => step_presentWord_command hb hd
  case fetched =>
    intro s nbits w i hb ht
    obtain ⟨-, hd⟩ := decodeTableWord_eq_some_iff.mp ht
    exact step_presentWord_command hb hd
  case busy => exact fun s w hb => step_presentWord_busy w hb
  case noMove => exact fun s hin => step_none hin

end Sys2Proof.Machine
end

section
/-! PROOFS. The state of HCC between steps (spec/10_state.md): one induction over what a step can do, and the
claims on flags, frames, status registers and the whole invariant. -/

namespace Sys2Proof.Machine

/-! ### What a step can do -/

/-- CLR is carried out in `IDLE` and in `FAULTED` alike (spec/46_system_commands.md rule R211). -/
theorem exec_clr {s : State} (hs : s.ctrl ≠ .busy) : exec .clr s = .next (finish .done (clearAll s)) := by
  cases hc : s.ctrl with
  | idle => simp [exec, execClr, hc]
  | busy => exact absurd hc hs
  | faulted => simp [exec, execClr, hc]

/-- What is enough for every step to keep `P`: taking a move and each of its answers keep it or leave it, whatever
the host does (spec/70_reset_and_hazards.md rule R272). -/
structure Stable (P : State → Prop) : Prop where
  take : ∀ (s : State) (ms : List HostMove), P s → P { s with env := { s.env with inbox := ms } }
  read : ∀ (n : Byte) (s : State), P s → P (csrRead n s)
  reset : ∀ s : State, P (resetCore s)
  clear : ∀ s : State, P s → P (finish .done (clearAll s))
  fault : ∀ (k : FaultKind) (s : State), P (recordOutcome (.fault k) (faultEntry k s))
  body : ∀ (i : Instr) (s u : State) (o : CmdOutcome), s.ctrl = .idle → P s →
    bodyOf i { s with ctrl := .busy } = .ok (o, u) → P (finish o u)

section
variable {P : State → Prop} (hP : Stable P) {s t : State}
include hP

theorem Stable.exec {i : Instr} (hs : P s) (h : exec i s = .next t) : P t := by
  cases hc : s.ctrl with
  | idle =>
    rw [exec_idle hc] at h
    obtain ⟨o, u, hu, rfl⟩ | ⟨k, u, -, rfl⟩ := conclude_next h
    · exact hP.body i s u o hc hs hu
    · exact hP.fault k u
  | busy =>
    rw [exec_busy hc] at h
    cases h
    exact hs
  | faulted =>
    by_cases hi : i = .clr
    · subst hi
      rw [exec_clr (by simp [hc])] at h
      cases h
      exact hP.clear s hs
    · rw [exec_faulted hc hi] at h
      cases h
      exact hs

theorem Stable.illegalWord (hs : P s) (h : illegalWord s = .next t) : P t := by
  unfold Machine.illegalWord at h
  split at h <;> cases h
  · exact hP.fault _ _
  · exact hs
  · exact hs

theorem Stable.acceptWord {w : Byte} (hs : P s) (h : acceptWord w s = .next t) : P t := by
  obtain ⟨i, hd, -⟩ | hd := decode_cases w
  · rw [acceptWord_command hd] at h
    exact hP.exec hs h
  · rw [acceptWord_illegal hd] at h
    exact hP.illegalWord hs h

theorem Stable.hostMove {m : HostMove} (hs : P s) (h : hostMove m s = .next t) : P t := by
  cases m with
  | word w => exact hP.acceptWord hs h
  | readCsr n => cases h; exact hP.read n s hs
  | reset => cases h; exact hP.reset s
  | wordThenReset w k =>
    change wordThenReset w k s = .next t at h
    unfold wordThenReset at h
    split at h <;> cases h
    exact hP.reset _

/-- A stable property is kept by every step (spec/70_reset_and_hazards.md rule R272). -/
theorem Stable.step (hs : P s) (h : step s = .next t) : P t := by
  cases hin : s.env.inbox with
  | nil =>
    rw [step_none hin] at h
    cases h
    exact hs
  | cons m ms =>
    cases hw : mustWait m s with
    | true =>
      rw [step_wait hin hw] at h
      cases h
      exact hs
    | false =>
      rw [step_move hin hw] at h
      exact hP.hostMove (hP.take s ms hs) h

end

/-! ### Flags and `FAULT` (spec/10_state.md rules R29, R47) -/

theorem FaultKind.code_mem (k : FaultKind) : k.code ∈ [FaultKind.ioError.code, FaultKind.corruptHeaderError.code,
    FaultKind.truncatedStreamError.code, FaultKind.illegalCommand.code, FaultKind.sequenceError.code,
    FaultKind.capacityError.code, FaultKind.noCodeError.code, FaultKind.invalidCodeError.code] := by
  cases k <;> simp

/-- The subject of rules R21, R29 and R47: no command in progress, flags and `FAULT` consistent. -/
structure ControlOk (s : State) : Prop where
  ctrl : s.ctrl ≠ .busy
  flags : FlagsOk s
  fault : FaultOk s

/-- In `IDLE` the flags may stand as rule R47 orders them. -/
theorem ControlOk.of_idle {s : State} (hc : s.ctrl = .idle) (hf : s.fault = 0#4)
    (hct : s.ctv = true → s.trv = true) (htr : s.trv = true → s.ftv = true ∧ s.distinct ≠ 0#17) :
    ControlOk s := by
  refine ⟨by simp [hc], ⟨hct, htr, ?_⟩, fun _ => hf, ?_⟩ <;> simp [hc]

/-- With the flags clear only `FAULT` is left to agree with `STATE`. -/
theorem ControlOk.of_flags_clear {s : State} (hc : s.ctrl ≠ .busy) (hf : FaultOk s) (h1 : s.ftv = false)
    (h2 : s.trv = false) (h3 : s.ctv = false) : ControlOk s := by
  refine ⟨hc, ⟨?_, ?_, fun _ => ⟨h1, h2, h3⟩⟩, hf⟩ <;> simp [h2, h3]

theorem ControlOk.reset : ControlOk State.reset :=
  .of_flags_clear (by decide) (by decide) rfl rfl rfl

/-- A command that ends in `Done` or `Empty` leaves `FAULT` 0 and the flags in order (rule R47). -/
theorem ControlOk.finish {i : Instr} {s u : State} {o : CmdOutcome} (hi : s.ctrl = .idle) (hs : ControlOk s)
    (h : bodyOf i { s with ctrl := .busy } = .ok (o, u)) : ControlOk (finish o u) := by
  obtain ⟨-, ⟨hct, htr, -⟩, hf, -⟩ := hs
  have hf := hf hi
  suffices hu : u.fault = 0#4 ∧ (u.ctv = true → u.trv = true) ∧
      (u.trv = true → u.ftv = true ∧ u.distinct ≠ 0#17) from .of_idle rfl hu.1 hu.2.1 hu.2.2
  cases i with
  | clr => cases h; simp
  | count =>
    have he : u = _ := ((countBody_end _).ok _ h).eq
    rw [he]
    exact ⟨hf, by simp, by simp⟩
  | build =>
    have hE := (buildBody_end _).ok _ h
    have he : u = _ := hE.eq
    obtain ⟨-, -, hu⟩ | ⟨-, hd, -⟩ := hE.outcome
    · dsimp only at hu
      subst hu
      exact ⟨hf, by simp, by simp⟩
    · rw [he]
      exact ⟨hf, by simp, fun _ => ⟨hE.valid, hd⟩⟩
  | gen =>
    have hE := (genBody_end _).ok _ h
    have he : u = _ := hE.eq
    rw [he]
    exact ⟨hf, fun _ => hE.valid, htr⟩
  | encode =>
    have he : u = _ := ((encodeBody_end _).ok _ h).eq
    rw [he]
    exact ⟨hf, hct, htr⟩
  | decode =>
    have hE := (decodeBody_end _).ok _ h
    have he : u = _ := hE.eq
    have hd : u.distinct ≠ 0#17 := hE.distinct
    rw [he]
    exact ⟨hf, by simp, fun _ => ⟨rfl, hd⟩⟩
  | compress =>
    have hE := (compressBody_end _).ok _ h
    have he : u = _ := hE.eq
    refine ⟨by rw [he], ?_⟩
    obtain ⟨-, -, ht, hv, -⟩ | ⟨-, hd, ht, -⟩ := hE.outcome
    · dsimp only at ht hv
      simp [ht, hv]
    · exact ⟨fun _ => ht, fun _ => ⟨by rw [he], hd⟩⟩
  | decompress =>
    have hE := (decompressBody_end _).ok _ h
    have he : u = _ := hE.eq
    have hd : u.distinct ≠ 0#17 := hE.distinct
    rw [he]
    exact ⟨rfl, by simp, fun _ => ⟨rfl, hd⟩⟩

theorem ControlOk.stable : Stable ControlOk where
  take := fun _ _ ⟨hc, hfl, hfa⟩ => ⟨hc, hfl, hfa⟩
  read := fun _ _ ⟨hc, hfl, hfa⟩ => ⟨hc, hfl, hfa⟩
  reset := fun _ => .of_flags_clear (by simp) (by simp [FaultOk]) rfl rfl rfl
  clear := fun _ _ => .of_idle rfl rfl (by simp) (by simp)
  fault := fun k _ => .of_flags_clear (by simp)
    ⟨by simp, fun _ => k.code_mem⟩ rfl rfl rfl
  body := fun _ _ _ _ hi hs h => hs.finish hi h

/-- Settles O58: control, flags and `FAULT` are in order at reset, and their order is stable. -/
theorem stepKeepsFlags : Obligations.StepKeepsFlags := by
  refine ⟨⟨ControlOk.reset.ctrl, ControlOk.reset.flags, ControlOk.reset.fault⟩, fun s t hc hfl hfa h => ?_⟩
  obtain ⟨hc', hfl', hfa'⟩ := ControlOk.stable.step ⟨hc, hfl, hfa⟩ h
  exact ⟨hc', hfl', hfa'⟩

end Sys2Proof.Machine
end

section
/-! PROOFS. The whole invariant between commands (spec/10_state.md rules R29, R35, R39, R44, R47): it falls into
what is said of control, of the ports and of the tables, and each part is kept by every step. -/

namespace Sys2Proof.Machine

/-! ### The part of the invariant that is about tables, tree and codes -/

/-- The tables, tree and codes are what the flags say (rules R35, R39, R44, R162). Unlike `Inv` this speaks neither
of control nor of ports, so each piece of a composite keeps it. -/
structure TablesOk (s : State) : Prop where
  wf : Memory.wf s
  table : TableOk s
  queue : s.hsize = 0#17
  noTable : s.ftv = false → s.ft = []
  noTree : s.trv = false → s.nnodes = 0#17 ∧ s.root = Config.nil
  noCodes : s.ctv = false → s.ct = []
  tree : s.trv = true → TreeOk s
  codes : s.ctv = true → CodesOk s

theorem inv_iff {s : State} : Inv s ↔ ControlOk s ∧ PortsClosed s ∧ TablesOk s := by
  constructor
  · rintro ⟨⟨hc, hp, hw, hfl, hfa, hT, hq, hft, htr, hct⟩, ht, hk⟩
    exact ⟨⟨hc, hfl, hfa⟩, hp, ⟨hw, hT, hq, hft, htr, hct, ht, hk⟩⟩
  · rintro ⟨⟨hc, hfl, hfa⟩, hp, ⟨hw, hT, hq, hft, htr, hct, ht, hk⟩⟩
    exact ⟨⟨hc, hp, hw, hfl, hfa, hT, hq, hft, htr, hct⟩, ht, hk⟩

theorem CodesOk.congr {s t : State} (h : CodesOk s) (hns : t.ns = s.ns) (hroot : t.root = s.root)
    (hct : t.ct = s.ct) : CodesOk t := by
  intro v p
  have hr : ctRead v t = ctRead v s := by simp only [ctRead, hct]
  rw [hr]
  exact (h v p).trans ⟨fun c => c.congr hns hroot, fun c => c.congr hns.symm hroot.symm⟩

section
variable {s t u : State} {o : CmdOutcome}

theorem TablesOk.of_clear (h : TablesClear s) (hns : s.ns = []) (hhp : s.hp = []) : TablesOk s := by
  obtain ⟨-, h2, h3, h4, h5, -, -, h8, h9, h10, h11, h12⟩ := h
  refine ⟨Memory.wf_of_empty h11 h12 hns hhp, ?_, h9, fun _ => h11, fun _ => ⟨h8, h10⟩, fun _ => h12, ?_, ?_⟩
  · simp [TableOk, h4, h5, h11, countSum]
  · simp [h2]
  · simp [h3]

/-- `STATE`, `FAULT`, the byte counters, the scratch registers and the host's side are no part of it. -/
theorem TablesOk.congr (h : TablesOk s) (he : t = { s with
    ctrl := t.ctrl, fault := t.fault, bytesIn := t.bytesIn, bytesOut := t.bytesOut, acc := t.acc,
    nbits := t.nbits, shift := t.shift, nbitsIn := t.nbitsIn, cur := t.cur, remain := t.remain,
    env := t.env }) : TablesOk t := by
  rw [he]
  exact ⟨h.wf, h.table, h.queue, h.noTable, h.noTree, h.noCodes, h.tree,
    fun hc => (h.codes hc).congr rfl rfl rfl⟩

theorem TablesOk.treeAt (h : TablesOk s) (ht : s.trv = true) : TreeAt s := by
  obtain ⟨hft, -, ⟨hsorted, hbelow⟩, -⟩ := h.wf
  exact ⟨h.tree ht, hft, hsorted, hbelow⟩

/-- A valid table whose tree and codes are dropped (spec/42_tree_builder.md rule R156). -/
theorem TablesOk.of_table (hw : Memory.wf s) (hT : TableOk s) (hq : s.hsize = 0#17) (hv : s.ftv = true)
    (htr : s.trv = false) (hn : s.nnodes = 0#17 ∧ s.root = Config.nil) (hcv : s.ctv = false)
    (hct : s.ct = []) : TablesOk s :=
  ⟨hw, hT, hq, by simp [hv], fun _ => hn, fun _ => hct, by simp [htr], by simp [hcv]⟩

theorem TablesOk.clearAll (s : State) : TablesOk (clearAll s) :=
  .of_clear (by simp [TablesClear]) rfl rfl

/-! ### COUNT -/

/-- One counted symbol keeps rule R35. -/
theorem countStep_table {v : Sym} (hw : ftWf s.ft) (hT : TableOk s) (h : countStep v s = .ok t) :
    ftWf t.ft ∧ TableOk t := by
  by_cases hm : ftRead v s = Config.countMax
  · rw [countStep_max hm] at h
    cases h
  · rw [countStep_ok hm] at h
    cases h
    exact ⟨addOne_wf hw hm, addOne_table hw hm hT.1 hT.2⟩

theorem countLoop_table : ∀ (n : Nat) (s t : State), ftWf s.ft → TableOk s → countLoop n s = .ok t →
    TableOk t
  | 0, _, _, _, _, h => by cases h
  | n + 1, s, t, hw, hT, h => by
    obtain ⟨⟨e, u⟩, hu, h⟩ := Run.bind_eq_ok.1 h
    obtain ⟨he, -⟩ := (srcSym_moved s).ok _ hu
    dsimp only at he
    have hwu : ftWf u.ft := by rw [he]; exact hw
    have hTu : TableOk u := by rw [he]; exact hT
    cases e with
    | item v =>
      obtain ⟨w, hcs, h⟩ := Run.bind_eq_ok.1 h
      obtain ⟨hww, hTw⟩ := countStep_table hwu hTu hcs
      exact countLoop_table n w t hww hTw h
    | eos => cases h; exact hTu
    | err => cases h

/-- COUNT leaves a table and nothing built from it, whatever was there (rule R120). -/
theorem countBody_tables (h : countBody s = .ok (o, u)) : TablesOk u := by
  have hE := (countBody_end s).ok _ h
  have he : u = _ := hE.eq
  have hT : TableOk u := by
    obtain ⟨v, hv, h⟩ := Run.bind_eq_ok.1 h
    cases h
    exact countLoop_table _ _ v ⟨.nil, by simp, by simp⟩ ⟨rfl, rfl⟩ hv
  exact .of_table hE.wf hT (by rw [he]) (by rw [he]) (by rw [he]) (by rw [he]; exact ⟨rfl, rfl⟩) (by rw [he])
    (by rw [he])

/-! ### `parse_header` -/

theorem hdrByte_eq {b : Byte} (h : hdrByte s = .ok (b, t)) :
    t = { s with bytesIn := t.bytesIn, env := t.env } := by
  obtain ⟨⟨e, u⟩, hu, h⟩ := Run.bind_eq_ok.1 h
  obtain ⟨he, -⟩ := (srcByte_moved s).ok _ hu
  dsimp only at he
  cases e with
  | item x => cases h; rw [he]
  | eos => cases h
  | err => cases h

theorem get16be_eq {v : Sym} (h : get16be s = .ok (v, t)) :
    t = { s with bytesIn := t.bytesIn, env := t.env } := by
  obtain ⟨⟨b0, s1⟩, h0, h⟩ := Run.bind_eq_ok.1 h
  obtain ⟨⟨b1, s2⟩, h1, h⟩ := Run.bind_eq_ok.1 h
  cases h
  rw [hdrByte_eq h1, hdrByte_eq h0]

theorem get32be_eq {v : BitVec 32} (h : get32be s = .ok (v, t)) :
    t = { s with bytesIn := t.bytesIn, env := t.env } := by
  obtain ⟨⟨b0, s1⟩, h0, h⟩ := Run.bind_eq_ok.1 h
  obtain ⟨⟨b1, s2⟩, h1, h⟩ := Run.bind_eq_ok.1 h
  obtain ⟨⟨b2, s3⟩, h2, h⟩ := Run.bind_eq_ok.1 h
  obtain ⟨⟨b3, s4⟩, h3, h⟩ := Run.bind_eq_ok.1 h
  cases h
  rw [hdrByte_eq h3, hdrByte_eq h2, hdrByte_eq h1, hdrByte_eq h0]

/-- What holds of the table between two entries of a header: `TOTAL` is the sum of the counts so far, and every
symbol that passes the check against `prev` is greater than those listed (rules R191, R192). -/
structure PartTable (prev : Option Sym) (s : State) : Prop where
  wf : ftWf s.ft
  total : s.total.toNat = countSum s.ft
  ascending : ∀ v : Sym, notAscending prev v = false → s.ft.Below v.toNat

/-- An entry that passes both checks is listed last. -/
theorem PartTable.entry {prev : Option Sym} {v : Sym} {f : Count} (h : PartTable prev s)
    (hv : notAscending prev v = false) (hf : f ≠ 0#32) :
    (ftWrite v f s).ft.length = s.ft.length + 1 ∧
    PartTable (some v) { ftWrite v f s with total := (ftWrite v f s).total + f.setWidth 48 } := by
  have hput : (ftWrite v f s).ft = s.ft.put v.toNat f := by simp [hf]
  have happ : s.ft.put v.toNat f = s.ft ++ [(v.toNat, f)] := Store.put_eq_append (h.ascending v hv) f
  have hwf : ftWf (s.ft.put v.toNat f) := ftWf_put h.wf v.isLt hf
  have hsum : countSum (s.ft.put v.toNat f) = countSum s.ft + f.toNat := by
    rw [happ, countSum_append]
    simp [countSum]
  refine ⟨by rw [hput, happ, List.length_append]; rfl, ?_, ?_, ?_⟩
  · rw [hput]
    exact hwf
  · have hlt := countSum_lt hwf
    show (s.total + f.setWidth 48).toNat = countSum (ftWrite v f s).ft
    rw [hput, BitVec.toNat_add, setWidth48_toNat, h.total, hsum]
    exact Nat.mod_eq_of_lt (hsum ▸ hlt)
  · intro w hw
    have hvw : v.toNat < w.toNat := by simpa [notAscending] using hw
    show (ftWrite v f s).ft.Below w.toNat
    rw [hput]
    exact Store.below_put (Store.below_mono (h.ascending v hv) hvw.le) hvw f

theorem headerEntries_table : ∀ (n : Nat) (prev : Option Sym) (s t : State), PartTable prev s →
    headerEntries n prev s = .ok t → t.ft.length = s.ft.length + n ∧ t.total.toNat = countSum t.ft
  | 0, _, _, _, hs, h => by cases h; exact ⟨rfl, hs.total⟩
  | n + 1, prev, s, t, hs, h => by
    obtain ⟨⟨v, s1⟩, hv, h⟩ := Run.bind_eq_ok.1 h
    obtain ⟨⟨f, s2⟩, hf, h⟩ := Run.bind_eq_ok.1 h
    have he : s2 = { s with bytesIn := s2.bytesIn, env := s2.env } := by rw [get32be_eq hf, get16be_eq hv]
    have hs2 : PartTable prev s2 := by rw [he]; exact ⟨hs.wf, hs.total, hs.ascending⟩
    have hl2 : s2.ft.length = s.ft.length := by rw [he]
    dsimp only at h
    split at h
    · cases h
    · split at h
      · cases h
      · rename_i hna hf0
        obtain ⟨hlen, hpart⟩ := hs2.entry (by simpa using hna) hf0
        obtain ⟨hl, ht⟩ := headerEntries_table n (some v) _ t hpart h
        refine ⟨?_, ht⟩
        dsimp only at hl
        omega

/-- A header that parsed leaves its table and nothing built from it (rule R191). -/
theorem parseHeader_tables (h : parseHeader s = .ok t) : TablesOk t := by
  have hR := (parseHeader_keeps s).ok _ h
  have he := hR.eq
  have hT : TableOk t := by
    obtain ⟨⟨d, s1⟩, hd, h⟩ := Run.bind_eq_ok.1 h
    dsimp only at h
    split at h
    · cases h
    · rename_i hr
      obtain ⟨u, hu, h⟩ := Run.bind_eq_ok.1 h
      cases h
      have hs1 : PartTable none s1 ∧ s1.ft = [] := by
        rw [get32be_eq hd]
        exact ⟨⟨⟨.nil, by simp, by simp⟩, rfl, by simp⟩, rfl⟩
      obtain ⟨hl, ht⟩ := headerEntries_table _ none s1 u hs1.1 hu
      rw [hs1.2, List.length_nil, Nat.zero_add] at hl
      refine ⟨?_, ht⟩
      show (d.setWidth 17).toNat = u.ft.length
      have hmax : Config.dcMax = 65536 := rfl
      rw [hl, BitVec.toNat_setWidth]
      omega
  exact .of_table (hR.wf (Memory.wf_clearTables s)) hT (by rw [he]; rfl) (parseHeader_valid h).1 (by rw [he]; rfl)
    (by rw [he]; exact ⟨rfl, rfl⟩) (by rw [he]; rfl) (by rw [he]; rfl)

/-! ### BUILD, GEN, ENCODE -/

/-- BUILD leaves the tree of the table it finds, or none when that is empty (rules R145, R151). -/
theorem buildBody_tables (hs : TablesOk s) (h : buildBody s = .ok (o, u)) : TablesOk u := by
  have hE := (buildBody_end s).ok _ h
  obtain ⟨-, -, hu⟩ | ⟨-, hd, -⟩ := hE.outcome
  · dsimp only at hu
    subst hu
    exact .of_table (hE.wf hs.wf) hs.table rfl hE.valid rfl ⟨rfl, rfl⟩ rfl rfl
  · obtain ⟨t, ht, htree, -, -, -, -, he⟩ := buildBody_spec hE.valid hs.wf.1 hs.table hd
    rw [h] at ht
    cases ht
    refine ⟨hE.wf hs.wf, by rw [he]; exact hs.table, by rw [he], ?_, ?_, fun _ => by rw [he], fun _ => htree, ?_⟩
    · rw [he]
      exact hs.noTable
    · rw [he]
      simp
    · rw [he]
      simp

/-- GEN leaves the code table of the tree it finds (rule R162). -/
theorem genBody_tables (hs : TablesOk s) (h : genBody s = .ok (o, u)) : TablesOk u := by
  have hE := (genBody_end s).ok _ h
  obtain ⟨ct, hct, hcodes⟩ := genBody_spec (hs.treeAt hE.valid) hE.valid
  rw [h] at hct
  cases hct
  exact ⟨hE.wf hs.wf, hs.table, hs.queue, hs.noTable, hs.noTree, by simp, hs.tree, fun _ => hcodes⟩

theorem encodeBody_tables (hs : TablesOk s) (h : encodeBody s = .ok (o, u)) : TablesOk u := by
  have he : u = _ := ((encodeBody_end s).ok _ h).eq
  exact hs.congr (he.trans (by rw [he]))

/-! ### The commands -/

/-- DECODE leaves its header's table and tree: the walk touches neither (rule R204). -/
theorem decodeBody_tables (h : decodeBody s = .ok (o, u)) : TablesOk u := by
  obtain ⟨t, ht, h⟩ := Run.bind_eq_ok.1 h
  obtain ⟨⟨o', b⟩, hb, h⟩ := Run.bind_eq_ok.1 h
  obtain ⟨w, hw, h⟩ := Run.bind_eq_ok.1 h
  cases h
  have he := ((walkBody_keeps b).ok _ hw).eq
  have hwt : TablesOk w := (buildBody_tables (parseHeader_tables ht) hb).congr (he.trans (by rw [he]))
  exact hwt.congr rfl

theorem compressBody_tables (h : compressBody s = .ok (o, u)) : TablesOk u := by
  obtain ⟨⟨o1, c⟩, hc, h⟩ := Run.bind_eq_ok.1 h
  have htc := countBody_tables hc
  dsimp only at h
  split at h
  · cases h
    exact htc
  · obtain ⟨⟨o2, b⟩, hb, h⟩ := Run.bind_eq_ok.1 h
    obtain ⟨⟨o3, g⟩, hg, h⟩ := Run.bind_eq_ok.1 h
    exact encodeBody_tables (genBody_tables (buildBody_tables htc hb) hg) h

theorem bodyOf_tables {i : Instr} (hs : TablesOk s) (h : bodyOf i s = .ok (o, u)) : TablesOk u := by
  cases i with
  | clr => cases h; exact .clearAll s
  | count => exact countBody_tables h
  | build => exact buildBody_tables hs h
  | gen => exact genBody_tables hs h
  | encode => exact encodeBody_tables hs h
  | decode => exact decodeBody_tables h
  | compress => exact compressBody_tables h
  | decompress => exact decodeBody_tables h

/-- A command that ends leaves no port open: those it opened it has shut, the others it never touched
(spec/20_memory.md rule R73). -/
theorem bodyOf_closed {i : Instr} (hs : PortsClosed s) (h : bodyOf i s = .ok (o, u)) : PortsClosed u := by
  obtain ⟨h1, h2, h3, h4⟩ := hs
  cases i with
  | clr => cases h; exact ⟨h1, h2, h3, h4⟩
  | count =>
    have hE := (countBody_end s).ok _ h
    have hp : u.env = _ := hE.ports
    exact ⟨hE.shut, by rw [hp]; exact h2, by rw [hp]; exact h3, by rw [hp]; exact h4⟩
  | build =>
    have he : u = _ := ((buildBody_end s).ok _ h).eq
    rw [he]
    exact ⟨h1, h2, h3, h4⟩
  | gen =>
    have he : u = _ := ((genBody_end s).ok _ h).eq
    rw [he]
    exact ⟨h1, h2, h3, h4⟩
  | encode =>
    have hE := (encodeBody_end s).ok _ h
    have hp : u.env = _ := hE.ports
    exact ⟨hE.shut.1, by rw [hp]; exact h2, hE.shut.2, by rw [hp]; exact h4⟩
  | decode =>
    have hE := (decodeBody_end s).ok _ h
    have hp : u.env = _ := hE.ports
    exact ⟨by rw [hp]; exact h1, hE.shut.1, by rw [hp]; exact h3, hE.shut.2⟩
  | compress =>
    have hE := (compressBody_end s).ok _ h
    have hp : u.env = _ := hE.ports
    have hsrc : u.env.ssrc.cur = none ∧ u.env.bsnk.cur = none := by
      obtain ⟨-, -, -, -, hsrc, -, hsnk⟩ | ⟨-, -, -, -, hshut, -⟩ := hE.outcome
      · exact ⟨hsrc, (congrArg SnkPort.cur hsnk).trans h3⟩
      · exact hshut
    exact ⟨hsrc.1, by rw [hp]; exact h2, hsrc.2, by rw [hp]; exact h4⟩
  | decompress =>
    have hE := (decompressBody_end s).ok _ h
    have hp : u.env = _ := hE.ports
    exact ⟨by rw [hp]; exact h1, hE.shut.1, by rw [hp]; exact h3, hE.shut.2⟩

end

/-! ### Every step -/

theorem portsClosed_stable : Stable fun s => PortsClosed s where
  take := fun _ _ h => h
  read := fun _ _ h => h
  reset := fun _ => ⟨rfl, rfl, rfl, rfl⟩
  clear := fun _ h => h
  fault := fun _ s => closePorts_closed s
  body := fun _ s u _ _ hs h => bodyOf_closed (s := { s with ctrl := .busy }) (u := u) hs h

theorem TablesOk.stable : Stable TablesOk where
  take := fun _ _ h => h.congr rfl
  read := fun _ _ h => h.congr rfl
  reset := fun _ => .of_clear (by simp [TablesClear]) rfl rfl
  clear := fun s _ => (TablesOk.clearAll s).congr rfl
  fault := fun _ _ => .of_clear (by simp [TablesClear]) rfl rfl
  body := fun _ _ _ _ _ hs h => (bodyOf_tables (hs.congr rfl) h).congr rfl

/-- Settles O59: each of the three parts of the invariant is stable. -/
theorem stepKeepsInv : Obligations.StepKeepsInv := by
  intro s t hs h
  obtain ⟨hc, hp, ht⟩ := inv_iff.1 hs
  exact inv_iff.2 ⟨ControlOk.stable.step hc h, portsClosed_stable.step hp h, TablesOk.stable.step ht h⟩

/-- Settles O56: at reset everything is clear and nothing is open. -/
theorem invAtReset : Obligations.InvAtReset :=
  ⟨inv_iff.2 ⟨ControlOk.reset, ⟨rfl, rfl, rfl, rfl⟩, .of_clear (by simp [TablesClear, State.reset]) rfl rfl⟩,
    Memory.wf_reset⟩

end Sys2Proof.Machine
end

section
/-! PROOFS. The register frames of the commands, the values of the reset table and the status registers
(spec/10_state.md rules R23, R27, R28, R45, R46). -/

namespace Sys2Proof.Machine

/-! ### What a command that ends in `Done` or `Empty` leaves unchanged (rule R23) -/

/-- A command that leaves `IDLE` for `IDLE` ran its pseudocode to the end: a fault would leave `FAULTED`. -/
theorem exec_ended {i : Instr} {s t : State} (hs : s.ctrl = .idle) (h : exec i s = .next t)
    (ht : t.ctrl = .idle) : ∃ o u, bodyOf i { s with ctrl := .busy } = .ok (o, u) ∧ t = finish o u := by
  rw [exec_idle hs] at h
  obtain ended | ⟨k, u, -, rfl⟩ := conclude_next h
  · exact ended
  · simp at ht

/-- The `IDLE` that `finish` writes is the `IDLE` the command began in. -/
theorem set_idle_eq {s : State} (hs : s.ctrl = .idle) : { s with ctrl := .idle } = s := by rw [← hs]

/-- Settles O20: each clause is the frame of the command's pseudocode, `STATE` back at `IDLE`. -/
theorem frameOfRegisters : Obligations.FrameOfRegisters := by
  intro i s t hs h ht
  obtain ⟨o, u, hu, rfl⟩ := exec_ended hs h ht
  refine ⟨?count, ?build, ?gen, ?encode, ?decode, ?compress, ?decompress⟩
  case count =>
    rintro rfl
    have he : u = _ := ((countBody_end _).ok _ hu).eq
    exact Eq.trans (by rw [he]; rfl) (set_idle_eq hs)
  case build =>
    rintro rfl
    have he : u = _ := ((buildBody_end _).ok _ hu).eq
    exact Eq.trans (by rw [he]; rfl) (set_idle_eq hs)
  case gen =>
    rintro rfl
    have he : u = _ := ((genBody_end _).ok _ hu).eq
    exact Eq.trans (by rw [he]; rfl) (set_idle_eq hs)
  case encode =>
    rintro rfl
    have he : u = _ := ((encodeBody_end _).ok _ hu).eq
    exact Eq.trans (by rw [he]; rfl) (set_idle_eq hs)
  case decode =>
    rintro rfl
    have he : u = _ := ((decodeBody_end _).ok _ hu).eq
    rw [he]
    exact ⟨rfl, rfl, rfl, rfl⟩
  case compress =>
    rintro rfl
    have he : u = _ := ((compressBody_end _).ok _ hu).eq
    rw [he]
    exact ⟨rfl, rfl, rfl, rfl, rfl, rfl⟩
  case decompress =>
    rintro rfl
    have he : u = _ := ((decompressBody_end _).ok _ hu).eq
    rw [he]
    exact ⟨rfl, rfl, rfl, rfl⟩

/-! ### The values of the reset table (rule R45) -/

theorem emptyBit_of_ftv_false {s : State} (h : s.ftv = false) : emptyBit s = false := by simp [emptyBit, h]

/-- Settles O5: the three clauses are what reset, CLR and fault entry write. -/
theorem resetValuesHold : Obligations.ResetValuesHold := by
  refine ⟨⟨?reset, emptyBit_of_ftv_false rfl, fun _ => rfl, fun _ => rfl⟩, fun s hs => ?clr, fun k s => ?fault⟩
  case reset => simp [ResetValues, TablesClear, State.reset]
  case clr => exact ⟨_, exec_clr hs, by simp [ResetValues, TablesClear], emptyBit_of_ftv_false rfl⟩
  case fault =>
    obtain ⟨-, -, hclear, -⟩ := faultEntry_faultedWith k s
    exact ⟨hclear, emptyBit_of_ftv_false rfl⟩

/-! ### The status registers (rules R27, R28, R46) -/

/-- Outside `BUSY` a read only records the CSR map's value for the host. -/
theorem csrRead_stable (n : Byte) {s : State} (hs : s.ctrl ≠ .busy) : csrRead n s =
    { s with env := { s.env with csrReads := s.env.csrReads ++ [(n, csrStable n s)] } } := by
  have hv : csrValue n s = csrStable n s := by
    cases hc : s.ctrl with
    | idle => simp [csrValue, hc]
    | busy => exact absurd hc hs
    | faulted => simp [csrValue, hc]
  simp only [csrRead, hv, if_neg hs]

/-- In `BUSY` a read records a free value and uses up one draw. -/
theorem csrRead_busy (n : Byte) {s : State} (hs : s.ctrl = .busy) : csrRead n s = { s with env := { s.env with
    csrReads := s.env.csrReads ++ [(n, csrBusy n s)], draws := s.env.draws + 1 } } := by
  have hv : csrValue n s = csrBusy n s := by simp [csrValue, hs]
  simp only [csrRead, hv, if_pos hs]

theorem ctrl_bits_of_ne_busy {c : Ctrl} (h : c ≠ .busy) : c.bits = if c = .idle then 0#2 else 2#2 := by
  cases c with
  | idle => rfl
  | busy => exact absurd rfl h
  | faulted => rfl

/-- The numbers above the map read 0. -/
theorem csrStable_unmapped {n : Byte} {s : State} (h : 6 ≤ n.toNat) : csrStable n s = 0#64 := by
  obtain ⟨k, hk⟩ := Nat.exists_eq_add_of_le' h
  simp [csrStable, hk]

/-- Settles O8: a read outside `BUSY` answers the CSR map's value, whose `STATUS` word has its fields where rule
R28 puts them. -/
theorem csrMap : Obligations.CsrMap := by
  intro s n ms hs hin
  have hstep : step s = .next { s with env := { s.env with
      inbox := ms, csrReads := s.env.csrReads ++ [(n, csrStable n s)] } } :=
    (step_readCsr hin).trans (congrArg _ (csrRead_stable n hs))
  refine ⟨csrStable n s, hstep, fun h => ?status, fun h => ?_, fun h => ?_, fun h => ?_, fun h => ?_, fun h => ?_,
    csrStable_unmapped, by decide⟩
  case status =>
    have hv : csrStable n s = statusWord s := by simp [csrStable, h]
    obtain ⟨h0, h2, h3, h4, h5, h6⟩ := status_fields (emptyBit s) s.ctv s.trv s.ftv s.ctrl.bits
    rw [hv]
    refine ⟨h0.trans (ctrl_bits_of_ne_busy hs), h2, h3, h4, ?_, h6⟩
    rw [statusWord, h5]
    simp [emptyBit]
  all_goals simp [csrStable, h, BitVec.setWidth_eq_append]

/-- Settles O9: a read in `BUSY` answers a draw, with the bits of `BUSY` in CSR 0. -/
theorem csrWhileBusy : Obligations.CsrWhileBusy := by
  intro s n ms hs hin
  refine ⟨csrBusy n s, (step_readCsr hin).trans (congrArg _ (csrRead_busy n hs)), fun h => ?_⟩
  subst h
  exact low_two _ _

end Sys2Proof.Machine
end

section
/-! PROOFS. The four memories (spec/20_memory.md rules R61 to R64): their canonical form is kept by every step, and
a write is read back. -/

namespace Sys2Proof.Machine

/-! ### The canonical form -/

/-- The form is kept by every command that ends: COUNT, DECODE and the composites leave memories they wrote
themselves, the others keep the form of what they find. -/
theorem bodyOf_wf {i : Instr} {s u : State} {o : CmdOutcome} (hs : Memory.wf s) (h : bodyOf i s = .ok (o, u)) :
    Memory.wf u := by
  cases i with
  | clr => cases h; exact Memory.wf_clearAll s
  | count => exact ((countBody_end s).ok _ h).wf
  | build => exact ((buildBody_end s).ok _ h).wf hs
  | gen => exact ((genBody_end s).ok _ h).wf hs
  | encode =>
    have he : u = _ := ((encodeBody_end s).ok _ h).eq
    rw [he]
    exact Memory.wf_congr hs rfl rfl rfl rfl rfl rfl
  | decode => exact ((decodeBody_end s).ok _ h).wf
  | compress => exact ((compressBody_end s).ok _ h).wf
  | decompress => exact ((decompressBody_end s).ok _ h).wf

theorem memoryWf_stable : Stable fun s => Memory.wf s where
  take := fun _ _ h => h
  read := fun _ _ h => h
  reset := Memory.wf_resetCore
  clear := fun s _ => Memory.wf_clearAll s
  fault := Memory.wf_faultEntry
  body := fun _ s u _ _ hs h => bodyOf_wf (s := { s with ctrl := .busy }) (u := u) hs h

/-- Settles O57: the canonical form is stable. -/
theorem stepKeepsMemoryForm : Obligations.StepKeepsMemoryForm := fun _ _ hs h => memoryWf_stable.step hs h

/-! ### Read after write -/

/-- A table lists no entry that is the value `d` of an unlisted one: `d` is written by listing nothing, and every
value written is read back (rules R61, R64). -/
theorem Store.getD_write {α : Type} [DecidableEq α] {m : Store α} (hm : m.Sorted) (a b : Nat) (c d : α) :
    ((if c = d then m.del a else m.put a c).get? b).getD d = if b = a then c else (m.get? b).getD d := by
  by_cases hb : b = a
  · subst hb
    rw [if_pos rfl]
    split
    · rw [get?_del_same hm, ‹c = d›]
      rfl
    · rw [get?_put_same]
      rfl
  · rw [if_neg hb]
    split
    · rw [get?_del_ne _ _ _ hb]
    · rw [get?_put_ne _ _ _ _ hb]

theorem ftRead_ftWrite {s : State} (hs : s.ft.Sorted) (v w : Sym) (c : Count) :
    ftRead w (ftWrite v c s) = if w = v then c else ftRead w s :=
  (Store.getD_write hs v.toNat w.toNat c 0#32).trans (by simp only [BitVec.toNat_inj, ftRead])

theorem ctRead_ctWrite {s : State} (hs : s.ct.Sorted) (v w : Sym) (c : Code) :
    ctRead w (ctWrite v c s) = if w = v then c else ctRead w s :=
  (Store.getD_write hs v.toNat w.toNat c []).trans (by simp only [BitVec.toNat_inj, ctRead])

/-- The node appended is read back (rule R62). -/
theorem nsRead_addNode_new {d : Node} {s : State} (h : s.nnodes.toNat < 131071) :
    nsRead s.nnodes (addNode d s) = .ok d := by
  have hlt : s.nnodes.toNat < (addNode d s).nnodes.toNat := by rw [addNode_nnodes h]; omega
  simp [nsRead, hlt, addNode_get_new]

/-- The nodes below the one appended read as before (rule R62). -/
theorem nsRead_addNode_old {d : Node} {s : State} {m : NodeIx} (h : s.nnodes.toNat < 131071)
    (hm : m.toNat < s.nnodes.toNat) : nsRead m (addNode d s) = nsRead m s := by
  have hlt : m.toNat < (addNode d s).nnodes.toNat := by rw [addNode_nnodes h]; omega
  simp [nsRead, hlt, hm, addNode_get_old hm]

/-- The state after `HP[i] <- n` (rule R63). -/
def setPosition (i : Nat) (n : NodeIx) (s : State) : State := { s with hp := s.hp.put i n }

theorem hpWrite_eq {i : Nat} (n : NodeIx) (s : State) (h : i < 65536) : hpWrite i n s = .ok (setPosition i n s) :=
  if_pos h

/-- A position in use that is written is read back, and the others read as before (rule R63). -/
theorem hpRead_setPosition {i : Nat} (n : NodeIx) {s : State} (hi : i < s.hsize.toNat) (j : Nat) :
    hpRead j (setPosition i n s) = if j = i then .ok n else hpRead j s := by
  have hsize : (setPosition i n s).hsize = s.hsize := rfl
  have hget : (setPosition i n s).hp.get? j = if j = i then some n else s.hp.get? j := Store.get?_put ..
  unfold hpRead
  rw [hsize, hget]
  by_cases hj : j = i
  · subst hj
    simp [hi]
  · simp [hj]

/-- Settles O11: the four memories one by one, each by what a write leaves at every index. -/
theorem memoryReadAfterWrite : Obligations.MemoryReadAfterWrite := by
  rintro s ⟨⟨hft, -⟩, ⟨hct, -⟩, -, -⟩
  refine ⟨ftRead_ftWrite hft, ctRead_ctWrite hct, fun d hn => ?node, fun i n hi hcap => ?position⟩
  case node =>
    exact ⟨addNode d s, nsAppend_eq hn, addNode_nnodes hn, nsRead_addNode_new hn, fun m => nsRead_addNode_old hn⟩
  case position =>
    refine ⟨setPosition i n s, hpWrite_eq n s hcap, ?_, fun j hj => ?_⟩
    · rw [hpRead_setPosition n hi, if_pos rfl]
    · rw [hpRead_setPosition n hi, if_neg hj]

end Sys2Proof.Machine
end

section
/-! PROOFS. The host's side of a command (spec/20_memory.md rules R66, R71 to R73): which ports it uses, that it
leaves none open, and which outputs it makes. -/

namespace Sys2Proof.Machine

/-! ### The ports of a command (rule R73) -/

/-- A command leaves the host's side alone but for its own ports and the record of port events. -/
def UsesPorts : Instr → Env → Env → Prop
  | .clr, a, b => b = a
  | .count, a, b => CountPorts a b
  | .build, a, b => b = a
  | .gen, a, b => b = a
  | .encode, a, b => EncodePorts a b
  | .decode, a, b => DecodePorts a b
  | .compress, a, b => EncodePorts a b
  | .decompress, a, b => DecodePorts a b

/-- Whether its pseudocode ends or raises a fault. -/
theorem bodyOf_ports (i : Instr) (s : State) :
    Post (bodyOf i s) (fun r => UsesPorts i s.env r.2.env) (fun _ u => UsesPorts i s.env u.env) := by
  cases i with
  | clr => exact Post.of_ok rfl
  | count => exact (countBody_end s).mono (fun _ h => h.ports) fun _ _ h => h.1
  | build =>
    refine (buildBody_end s).mono (fun r h => ?_) fun _ _ h => congrArg State.env h.1
    show r.2.env = s.env
    rw [h.eq]
  | gen =>
    refine (genBody_end s).mono (fun r h => ?_) fun _ _ h => congrArg State.env h.1
    show r.2.env = s.env
    rw [h.eq]
  | encode => exact (encodeBody_end s).mono (fun _ h => h.ports) fun _ _ h => h.1.1
  | decode => exact (decodeBody_end s).mono (fun _ h => h.ports) fun _ _ h => h.1
  | compress => exact (compressBody_end s).mono (fun _ h => h.ports) fun _ _ h => h.1
  | decompress => exact (decompressBody_end s).mono (fun _ h => h.ports) fun _ _ h => h.1

section
variable {i : Instr} {a b : Env}

/-- The host's moves, its record of CSR reads and outcomes, and the draws are no command's business. -/
theorem UsesPorts.rest (h : UsesPorts i a b) :
    b.inbox = a.inbox ∧ b.csrReads = a.csrReads ∧ b.draws = a.draws ∧ b.outcomes = a.outcomes := by
  cases i <;> (change b = _ at h; rw [h]; exact ⟨rfl, rfl, rfl, rfl⟩)

theorem UsesPorts.ssnk_of_encoder (h : UsesPorts i a b) (hi : i = .encode ∨ i = .compress) : b.ssnk = a.ssnk := by
  obtain rfl | rfl := hi <;> (change b = _ at h; rw [h])

theorem UsesPorts.bsnk_of_decoder (h : UsesPorts i a b) (hi : i = .decode ∨ i = .decompress) : b.bsnk = a.bsnk := by
  obtain rfl | rfl := hi <;> (change b = _ at h; rw [h])

end

theorem SrcPort.shut_eq {α : Type} {p : SrcPort α} (h : p.cur = none) : { p with cur := none } = p := by
  rw [← h]

theorem SnkPort.shut_eq {α : Type} {p : SnkPort α} (h : p.cur = none) : { p with cur := none } = p := by
  rw [← h]

/-- Fault entry closes only ports the command opened, when none was open before it. -/
theorem UsesPorts.close {i : Instr} {s u : State} (hs : PortsClosed s) (h : UsesPorts i s.env u.env) :
    UsesPorts i s.env (closePorts u).env := by
  obtain ⟨h1, h2, h3, h4⟩ := hs
  have e1 := SrcPort.shut_eq h1
  have e2 := SrcPort.shut_eq h2
  have e3 := SnkPort.shut_eq h3
  have e4 := SnkPort.shut_eq h4
  have untouched (he : u.env = s.env) : (closePorts u).env = s.env := by
    have hu : PortsClosed u := by rw [PortsClosed, he]; exact ⟨h1, h2, h3, h4⟩
    rw [closePorts_of_closed hu, he]
  have count (he : CountPorts s.env u.env) : CountPorts s.env (closePorts u).env := by
    rw [closePorts_eq, CountPorts, he]
    simp only [e2, e3, e4]
  have encode (he : EncodePorts s.env u.env) : EncodePorts s.env (closePorts u).env := by
    rw [closePorts_eq, EncodePorts, he]
    simp only [e2, e4]
  have decode (he : DecodePorts s.env u.env) : DecodePorts s.env (closePorts u).env := by
    rw [closePorts_eq, DecodePorts, he]
    simp only [e1, e3]
  cases i with
  | clr => exact untouched h
  | count => exact count h
  | build => exact untouched h
  | gen => exact untouched h
  | encode => exact encode h
  | decode => exact decode h
  | compress => exact encode h
  | decompress => exact decode h

/-! ### The outputs of a command (rules R71, R72, R201) -/

/-- The outputs a command with outcome `o` adds: none unless `o` is `Done`, and then one on the sink it writes. -/
structure Outputs (i : Instr) (o : CmdOutcome) (a b : Env) : Prop where
  none : o ≠ .done → b.bsnk.outputs = a.bsnk.outputs ∧ b.ssnk.outputs = a.ssnk.outputs
  bytes : o = .done → i = .encode ∨ i = .compress → ∃ y, b.bsnk.outputs = a.bsnk.outputs ++ [y]
  syms : o = .done → i = .decode ∨ i = .decompress → ∃ y, b.ssnk.outputs = a.ssnk.outputs ++ [y]

section
variable {i : Instr} {o : CmdOutcome} {a b : Env} {s u : State}

theorem Outputs.of_none (h : b.bsnk.outputs = a.bsnk.outputs ∧ b.ssnk.outputs = a.ssnk.outputs)
    (hi : o = .done → i ∈ [.clr, .count, .build, .gen]) : Outputs i o a b := by
  refine ⟨fun _ => h, fun ho hw => ?_, fun ho hw => ?_⟩ <;>
    obtain rfl | rfl := hw <;> exact absurd (hi ho) (by decide)

theorem Outputs.of_bytes {y : List Byte} (h : b.bsnk.outputs = a.bsnk.outputs ++ [y])
    (hi : i = .encode ∨ i = .compress) : Outputs i .done a b := by
  refine ⟨fun ho => absurd rfl ho, fun _ _ => ⟨y, h⟩, fun _ hw => ?_⟩
  obtain rfl | rfl := hi <;> simp at hw

theorem Outputs.of_syms {y : List Sym} (h : b.ssnk.outputs = a.ssnk.outputs ++ [y])
    (hi : i = .decode ∨ i = .decompress) : Outputs i .done a b := by
  refine ⟨fun ho => absurd rfl ho, fun _ hw => ?_, fun _ _ => ⟨y, h⟩⟩
  obtain rfl | rfl := hi <;> simp at hw

/-- The outputs of a command that ends: `Commit` is the last thing ENCODE, DECODE and the composites do. -/
theorem bodyOf_outputs (h : bodyOf i s = .ok (o, u)) : Outputs i o s.env u.env := by
  cases i with
  | clr => cases h; exact .of_none ⟨rfl, rfl⟩ (by simp)
  | count =>
    have hE := (countBody_end s).ok _ h
    exact .of_none ⟨hE.calm.bytesOut, hE.calm.symsOut⟩ (by simp)
  | build =>
    have he : u.env = s.env := (bodyOf_ports .build s).ok _ h
    exact .of_none (by rw [he]; exact ⟨rfl, rfl⟩) (by simp)
  | gen =>
    have he : u.env = s.env := (bodyOf_ports .gen s).ok _ h
    exact .of_none (by rw [he]; exact ⟨rfl, rfl⟩) (by simp)
  | encode =>
    have hE := (encodeBody_end s).ok _ h
    obtain ⟨-, y, -, -, hy, -⟩ := hE.output
    obtain rfl : o = .done := hE.outcome
    exact .of_bytes hy (.inl rfl)
  | decode =>
    have hE := (decodeBody_end s).ok _ h
    obtain ⟨-, y, -, -, hy, -⟩ := hE.output
    obtain rfl : o = .done := hE.outcome
    exact .of_syms hy (.inl rfl)
  | compress =>
    have hE := (compressBody_end s).ok _ h
    obtain ⟨ho, -, -, -, -, hcalm, -⟩ | ⟨ho, -, -, -, -, -, y, -, -, hy, -⟩ := hE.outcome
    · obtain rfl : o = .empty := ho
      exact .of_none ⟨hcalm.bytesOut, hcalm.symsOut⟩ (by simp)
    · obtain rfl : o = .done := ho
      exact .of_bytes hy (.inr rfl)
  | decompress =>
    have hE := (decompressBody_end s).ok _ h
    obtain ⟨-, y, -, -, hy, -⟩ := hE.output
    obtain rfl : o = .done := hE.outcome
    exact .of_syms hy (.inr rfl)

/-- Where a command raises a fault it has committed nothing. -/
theorem bodyOf_raised_calm {k : FaultKind} (h : bodyOf i s = .error (.raised k u)) : Calm s.env u.env := by
  cases i with
  | clr => cases h
  | count => exact ((countBody_end s).raised k u h).2.1
  | build =>
    obtain ⟨rfl, -⟩ := (buildBody_end s).raised k u h
    exact .refl _
  | gen =>
    obtain ⟨rfl, -⟩ := (genBody_end s).raised k u h
    exact .refl _
  | encode => exact ((encodeBody_end s).raised k u h).1.2.1
  | decode => exact ((decodeBody_end s).raised k u h).2.1
  | compress => exact ((compressBody_end s).raised k u h).2.1
  | decompress => exact ((decompressBody_end s).raised k u h).2.1

/-- What the host sees of a command accepted in `IDLE` with no port open, on every exit: its ports, its outputs, its
outcome, and every port closed. -/
theorem exec_host {t : State} (hi : s.ctrl = .idle) (hs : PortsClosed s) (h : exec i s = .next t) :
    ∃ o v, t.env = { v with outcomes := s.env.outcomes ++ [o] } ∧ UsesPorts i s.env v ∧ Outputs i o s.env v ∧
      PortsClosed t := by
  rw [exec_idle hi] at h
  obtain ⟨o, u, hu, rfl⟩ | ⟨k, u, hu, rfl⟩ := conclude_next h
  · have hp : UsesPorts i s.env u.env := (bodyOf_ports i _).ok _ hu
    obtain ⟨-, -, -, ho⟩ := hp.rest
    exact ⟨o, u.env, by rw [finish_env, ho], hp, bodyOf_outputs (s := { s with ctrl := .busy }) hu,
      bodyOf_closed (s := { s with ctrl := .busy }) (u := u) hs hu⟩
  · have hp : UsesPorts i s.env (closePorts u).env := ((bodyOf_ports i _).raised k u hu).close hs
    obtain ⟨-, -, -, ho⟩ := hp.rest
    have hcalm : Calm s.env u.env := bodyOf_raised_calm (s := { s with ctrl := .busy }) hu
    obtain ⟨hb, hv⟩ := closePorts_outputs u
    exact ⟨.fault k, (closePorts u).env, by rw [recordOutcome_env, faultEntry_env, ho], hp,
      .of_none ⟨hb.trans hcalm.bytesOut, hv.trans hcalm.symsOut⟩ (by simp), closePorts_closed u⟩

end

/-! ### A command that raises a fault (spec/60_exceptions.md rule R240) -/

section
variable {i : Instr} {k : FaultKind} {s u : State}

/-- A fault raised in `u` leaves the state of fault entry in `u`, the outcome, and no output. -/
theorem exec_raised (hi : s.ctrl = .idle) (h : bodyOf i { s with ctrl := .busy } = .error (.raised k u)) :
    exec i s = .next (recordOutcome (.fault k) (faultEntry k u)) ∧
    FaultOutcome k s (recordOutcome (.fault k) (faultEntry k u)) := by
  have hcalm : Calm s.env u.env := bodyOf_raised_calm (s := { s with ctrl := .busy }) h
  refine ⟨?_, faultOutcome_of_raised hcalm.outcomes hcalm.bytesOut hcalm.symsOut⟩
  rw [exec_idle hi, h]
  rfl

theorem faulted_trace (k : FaultKind) (u : State) :
    (recordOutcome (.fault k) (faultEntry k u)).env.trace = u.env.trace ++ closings u := by
  rw [faultEntry_eq]
  rfl

theorem closings_brackets (u : State) : ∀ e ∈ closings u, e.transfer = false := by
  intro e he
  simp only [closings, List.mem_append, List.mem_ite_nil_right, List.mem_singleton] at he
  obtain ((⟨-, rfl⟩ | ⟨-, rfl⟩) | ⟨-, rfl⟩) | ⟨-, rfl⟩ := he <;> rfl

/-- Fault entry transfers nothing. -/
theorem closings_empty (u : State) :
    symsTaken (closings u) = [] ∧ bytesOffered (closings u) = [] ∧ symsOffered (closings u) = [] := by
  refine ⟨?_, ?_, ?_⟩ <;>
    (refine List.filterMap_eq_nil_iff.2 fun e he => ?_
     have ht := closings_brackets u e he
     cases e <;> simp_all [PortEvent.transfer])

end

/-- Settles O18: the sink a command does not write is none of its ports. -/
theorem outputsOnlyOnDone : Obligations.OutputsOnlyOnDone := by
  intro i s t o hi hs h ho
  obtain ⟨o', v, hv, hports, hout, hclosed⟩ := exec_host hi hs h
  obtain rfl : o' = o := by simpa [hv] using ho
  rw [hv]
  exact ⟨hclosed, hout.none, fun hd hw => ⟨hout.bytes hd hw, congrArg _ (hports.ssnk_of_encoder hw)⟩,
    fun hd hw => ⟨hout.syms hd hw, congrArg _ (hports.bsnk_of_decoder hw)⟩⟩

/-- Settles O21: each clause is what `UsesPorts` says of the commands it names. -/
theorem frameOfPorts : Obligations.FrameOfPorts := by
  intro i s t hi hs h
  obtain ⟨o, v, hv, hports, -, -⟩ := exec_host hi hs h
  obtain ⟨hin, hcsr, hdraws, -⟩ := hports.rest
  rw [hv]
  refine ⟨hin, hcsr, hdraws, ?none, ?count, ?encoder, ?decoder⟩
  case none => rintro (rfl | rfl | rfl) <;> (change v = _ at hports; rw [hports])
  case count => rintro rfl; change v = _ at hports; rw [hports]
  case encoder => rintro (rfl | rfl) <;> (change v = _ at hports; rw [hports])
  case decoder => rintro (rfl | rfl) <;> (change v = _ at hports; rw [hports])

end Sys2Proof.Machine
end

section
/-! PROOFS. COUNT over a pass that ends in `Err` (spec/40_frequency_counter.md rule R120, spec/20_memory.md
rule R74). -/

namespace Sys2Proof.Machine

/-- The state after the symbols `vs` of a pass were taken and counted, `ws` and `e` still to come. -/
def counted (vs ws : List Sym) (e : Terminator) (d : BitVec 17) (n : Freq) (s : State) : State :=
  { s with
    ft := addAll vs s.ft, distinct := d, total := n,
    env := { s.env with
      ssrc := { s.env.ssrc with cur := some ⟨ws, e⟩ }, trace := s.env.trace ++ symEvents vs } }

theorem counted_nil {s : State} {ws : List Sym} {e : Terminator} (hc : s.env.ssrc.cur = some ⟨ws, e⟩) :
    counted [] ws e s.distinct s.total s = s := by
  simp only [counted, symEvents, List.map_nil, List.append_nil, addAll, List.foldl_nil]
  rw [← hc]

/-- The loop of COUNT over symbols within the limit, whatever comes after them (rules R120 to R122). -/
theorem countLoop_prefix : ∀ (vs : List Sym) (s : State) (ws : List Sym) (e : Terminator) (n : Nat),
    s.env.ssrc.cur = some ⟨vs ++ ws, e⟩ → Fits s.ft vs →
    ∃ d f, countLoop (vs.length + n) s = countLoop n (counted vs ws e d f s)
  | [], s, ws, e, n, hc, _ => by
    refine ⟨s.distinct, s.total, ?_⟩
    rw [counted_nil (ws := ws) hc, List.length_nil, Nat.zero_add]
  | v :: vs, s, ws, e, n, hc, hf => by
    let u : State := { s with env := { s.env with
      ssrc := { s.env.ssrc with cur := some ⟨vs ++ ws, e⟩ }, trace := s.env.trace ++ [.tookSym (.item v)] } }
    have hne : ftRead v u ≠ Config.countMax := hf.head_ne
    obtain ⟨d, f, hrest⟩ := countLoop_prefix vs { u with
      ft := addOne v u.ft, distinct := if ftRead v u = 0#32 then u.distinct + 1#17 else u.distinct,
      total := u.total + 1#48 } ws e n rfl hf.tail
    refine ⟨d, f, ?_⟩
    rw [List.length_cons, Nat.add_right_comm, countLoop, srcSym_cons hc, Run.ok_bind]
    show (countStep v u >>= countLoop (vs.length + n)) = _
    rw [countStep_ok hne, Run.ok_bind, hrest]
    simp [counted, symEvents, addAll, u]

/-- COUNT over a pass within the limit that ends in `Err`: the fault is raised after the last symbol, with
`SSRC` still open (rules R74, R120). -/
theorem countBody_err {s : State} {vs : List Sym} {ps : List (Pass Sym)}
    (hp : s.env.ssrc.passes = ⟨vs, .err⟩ :: ps) (hf : Fits [] vs) :
    ∃ u, countBody s = .error (.raised .ioError u) ∧ SameScratch s u ∧
      u.env = { s.env with
        ssrc := { passes := ps, cur := some ⟨[], .err⟩ },
        trace := s.env.trace ++ [.opened .ssrc] ++ symEvents vs ++ [.tookSym .err] } := by
  let s1 := clearTables (openSsrc s)
  have hstart : s1.env.ssrc = { passes := ps, cur := some ⟨vs ++ [], .err⟩ } := by
    simp [s1, openSsrc, SrcPort.start, hp]
  have hcur : s1.env.ssrc.cur = some ⟨vs ++ [], .err⟩ := by rw [hstart]
  have hleft : s1.env.ssrc.itemsLeft = vs.length := by rw [hstart, List.append_nil]; rfl
  obtain ⟨d, f, hloop⟩ := countLoop_prefix vs s1 [] .err 1 hcur hf
  let u := note (.tookSym .err) (counted vs [] .err d f s1)
  have hend : countLoop 1 (counted vs [] .err d f s1) = .error (.raised .ioError u) := by
    rw [countLoop, srcSym_err rfl]
    rfl
  refine ⟨u, ?_, ⟨rfl, rfl, rfl, rfl, rfl, rfl⟩, ?_⟩
  · show (countLoop (s1.env.ssrc.itemsLeft + 1) s1 >>= _) = _
    rw [hleft, hloop, hend]
    rfl
  · simp [u, counted, s1, openSsrc, SrcPort.start, hp]

/-- A pass counted from an empty table is within the limit when no symbol occurs more often than a count can say. -/
theorem fits_nil {vs : List Sym} (h : ∀ v, vs.count v ≤ 4294967295) : Fits [] vs := by
  intro v
  simpa using h v

/-- Settles O25: fault entry finds `SSRC` open and nothing else. -/
theorem countIoError : Obligations.CountIoError := by
  intro s vs ps hi hs hp hv
  obtain ⟨h1, h2, h3, h4⟩ := hs
  obtain ⟨u, hu, hscratch, henv⟩ := countBody_err (s := { s with ctrl := .busy }) hp (fits_nil hv)
  have hclose : closings u = [.released .ssrc] := by simp [closings, henv, h2, h3, h4]
  obtain ⟨hexec, hfault⟩ := exec_raised (i := .count) hi hu
  refine ⟨_, hexec, hfault, ?_, ?_, ?_⟩
  · rw [faultEntry_eq]
    exact hscratch
  · rw [faultEntry_eq]
    simp [henv]
  · rw [faulted_trace, hclose, henv]
    simp [symEvents]

end Sys2Proof.Machine
end

section
/-! PROOFS. The packing rule (spec/20_memory.md rule R76): bits fill bytes from bit 7 down, and are taken out in the
same order. -/

namespace Sys2Proof.Machine

/-! ### The bits of packed bytes -/

/-- The missing bits of a byte are 0 (rule R100). -/
theorem byteOfBits_pad (l : List Bool) (n : Nat) : byteOfBits (l ++ List.replicate n false) = byteOfBits l := by
  have hget (i : Nat) : (l ++ List.replicate n false)[i]? = some true ↔ l[i]? = some true := by
    by_cases hi : i < l.length
    · rw [List.getElem?_append_left hi]
    · simp [List.getElem?_append_right (not_lt.1 hi), List.getElem?_eq_none (not_lt.1 hi),
        List.getElem?_replicate]
  simp only [byteOfBits, hget]

theorem bitsOfByte_of_eight : ∀ a b c d e f g h : Bool,
    bitsOfByte (byteOfBits [a, b, c, d, e, f, g, h]) = [a, b, c, d, e, f, g, h] := by decide

/-- A byte made of bits delivers them, then zeros (rule R76). -/
theorem bitsOfByte_byteOfBits {l : List Bool} (h : l.length ≤ 8) :
    bitsOfByte (byteOfBits l) = l ++ List.replicate (8 - l.length) false := by
  rw [← byteOfBits_pad l (8 - l.length)]
  have h8 : (l ++ List.replicate (8 - l.length) false).length = 8 := by simp; omega
  generalize l ++ List.replicate (8 - l.length) false = m at h8
  rcases chunk_cases m with hs | ⟨a, b, c, d, e, f, g, i, _ | ⟨_, _⟩, rfl⟩
  · omega
  · exact bitsOfByte_of_eight a b c d e f g i
  · simp at h8

/-- Bits packed and unpacked again are the bits, then the zeros that fill the last byte (rules R76, R100). -/
theorem bitsOf_packBits (l : List Bool) :
    bitsOf (packBits l) = l ++ List.replicate (8 * (packBits l).length - l.length) false := by
  induction l using packBits.induct with
  | case1 => rfl
  | case2 b0 b1 b2 b3 b4 b5 b6 b7 l ih =>
    have hpad : 8 * (packBits (b0 :: b1 :: b2 :: b3 :: b4 :: b5 :: b6 :: b7 :: l)).length -
        (b0 :: b1 :: b2 :: b3 :: b4 :: b5 :: b6 :: b7 :: l).length = 8 * (packBits l).length - l.length := by
      simp only [packBits, List.length_cons]
      omega
    rw [hpad, packBits, bitsOf_cons, bitsOfByte_of_eight, ih]
    rfl
  | case3 l hne hlong =>
    have hl : l.length < 8 := by
      rcases chunk_cases l with hs | ⟨a, b, c, d, e, f, g, i, m, rfl⟩
      · exact hs
      · exact absurd rfl (hlong a b c d e f g i m)
    have hp : packBits l = [byteOfBits l] := (packBits_short hl).trans (if_neg hne)
    rw [hp, bitsOf_cons, bitsOfByte_byteOfBits hl.le]
    simp [bitsOf]

/-- Bit `j` of a byte sequence is bit `7 - j mod 8` of byte `j / 8` (rule R76). -/
theorem bitsOf_getElem? : ∀ (ys : List Byte) (j : Nat),
    (bitsOf ys)[j]? = (ys[j / 8]?).map fun y => y.getLsbD (7 - j % 8)
  | [], j => by simp [bitsOf]
  | y :: ys, j => by
    rw [bitsOf_cons]
    by_cases hj : j < 8
    · rw [List.getElem?_append_left (by rwa [bitsOfByte_length]), Nat.div_eq_of_lt hj, Nat.mod_eq_of_lt hj]
      simp [bitsOfByte, hj]
    · obtain ⟨i, rfl⟩ := Nat.exists_eq_add_of_le' (not_lt.1 hj)
      rw [List.getElem?_append_right (by rw [bitsOfByte_length]; omega), bitsOfByte_length, Nat.add_sub_cancel,
        bitsOf_getElem? ys i, Nat.add_div_right i (by decide), Nat.add_mod_right]
      rfl

/-! ### Bits out -/

/-- Bits put into an empty buffer and flushed leave as packed bytes (rules R174, R175, R177). -/
theorem putCode_flushBits {s : State} {bs : List Bool} (ha : s.acc = 0#8) (hn : s.nbits = 0#3)
    (h : Room s (packBits bs).length) :
    ∃ t, putCode bs s = .ok t ∧ flushBits t = .ok (buffered [] (sent (packBits bs) s)) := by
  have hs : buffered [] s = s := by
    show ({ s with acc := 0#8, nbits := 0#3 } : State) = s
    rw [← ha, ← hn]
  rw [packBits_eq, List.length_append] at h
  have hput := putCode_sent bs [] s (by simp) (h.mono (Nat.le_add_right ..))
  rw [hs, List.nil_append] at hput
  refine ⟨_, hput, ?_⟩
  rw [flushBits_sent (leftBits_lt bs) (Room.sent _ h), ← sent_append, ← packBits_eq]

/-! ### Bits in -/

/-- With no bits left in `SHIFT` a byte is fetched, whatever `SHIFT` holds (rule R195). -/
theorem getBit_empty {s : State} {x : Byte} {ys : List Byte} {e : Terminator} (hn : s.nbitsIn = 0#4)
    (hc : s.env.bsrc.cur = some ⟨x :: ys, e⟩) : getBit s = getBit (loaded [] s) := by
  unfold getBit
  rw [if_pos hn, if_pos (show (loaded [] s).nbitsIn = 0#4 from rfl), srcByte_cons hc,
    srcByte_cons (s := loaded [] s) hc]
  rfl

/-- The bits `p` taken, the bits after them left (rule R195). -/
theorem takeBits_loaded : ∀ (p : List Bool) (s : State) (w rest : List Bool) (ys : List Byte) (e : Terminator),
    w.length < 8 → s.env.bsrc.cur = some ⟨ys, e⟩ → w ++ bitsOf ys = p ++ rest →
    ∃ w' tk ys', w'.length < 8 ∧ ys = tk ++ ys' ∧ w' ++ bitsOf ys' = rest ∧
      takeBits p.length (loaded w s) = .ok (p, loaded w' (got tk ys' e s))
  | [], s, w, rest, ys, e, hw, hc, hb => ⟨w, [], ys, hw, rfl, hb, by rw [got_nil hc]; rfl⟩
  | b :: p, s, w, rest, ys, e, hw, hc, hb => by
    obtain ⟨w1, tk1, ys1, hw1, hys, hb1, hget⟩ := getBit_next hw hc hb
    obtain ⟨w', tk, ys', hw', hys1, hb', htake⟩ :=
      takeBits_loaded p (got tk1 ys1 e s) w1 rest ys1 e hw1 (got_cur ..) hb1
    refine ⟨w', tk1 ++ tk, ys', hw', by rw [hys, hys1, List.append_assoc], hb', ?_⟩
    rw [List.length_cons, takeBits, hget]
    simp only [Run.ok_bind, htake, got_got]

/-- The first `n` bits of a stream are taken with the bytes that hold them, and no more (rules R76, R195). -/
theorem takeBits_spec {s : State} {ys : List Byte} {e : Terminator} {n : Nat} (hn : s.nbitsIn = 0#4)
    (hc : s.env.bsrc.cur = some ⟨ys, e⟩) (hl : n ≤ 8 * ys.length) :
    ∃ t, takeBits n s = .ok ((bitsOf ys).take n, t) ∧
      t.env.bsrc.cur = some ⟨ys.drop ((n + 7) / 8), e⟩ ∧
      t.bytesIn = s.bytesIn + BitVec.ofNat 64 ((n + 7) / 8) := by
  have hb : bitsOf ys = (bitsOf ys).take n ++ (bitsOf ys).drop n := (List.take_append_drop ..).symm
  have hlen : ((bitsOf ys).take n).length = n := by rw [List.length_take, bitsOf_length]; omega
  obtain ⟨w, tk, ys', hw, hys, hrest, htake⟩ := takeBits_loaded ((bitsOf ys).take n) s [] _ ys e (by simp) hc hb
  have htk := taken_length hb hys hrest hw
  rw [hlen] at htk htake
  have hdrop : ys.drop ((n + 7) / 8) = ys' := by rw [hys, ← htk, List.drop_left]
  rw [hdrop, ← htk]
  cases n with
  | zero =>
    obtain rfl : tk = [] := List.length_eq_zero_iff.1 htk
    exact ⟨s, rfl, by rw [hc, hys]; rfl, by simp⟩
  | succ n =>
    refine ⟨_, Eq.trans ?_ htake, rfl, rfl⟩
    cases ys with
    | nil => simp at hl
    | cons x ys =>
      rw [takeBits, getBit_empty hn hc]
      rfl

/-- Settles O42: packed bytes hold the bits in order, and the bits of a stream are taken in order. -/
theorem packingRule : Obligations.PackingRule := by
  refine ⟨fun s bs items ha hn hc => ?_, fun s ys e n => takeBits_spec⟩
  obtain ⟨t, hput, hflush⟩ := putCode_flushBits (bs := bs) ha hn ⟨_, hc, fun k hk => by cases hk⟩
  have hbits := bitsOf_packBits bs
  refine ⟨t, _, packBits bs, hput, hflush, by simp [buffered, sent, hc], packBits_length bs, fun j hj => ?_, hbits,
    rfl, rfl, rfl⟩
  have hbit : (bitsOf (packBits bs))[j]? = bs[j]? := by rw [hbits, List.getElem?_append_left hj]
  rw [bitsOf_getElem?, List.getElem?_eq_getElem hj, Option.map_eq_some_iff] at hbit
  obtain ⟨y, hy, hyj⟩ := hbit
  exact ⟨y, hy, by rw [hyj, List.getElem?_eq_getElem hj]⟩

end Sys2Proof.Machine
end

section
/-! PROOFS. ENCODE where the source or the sink answers `Err` (spec/20_memory.md rule R74,
spec/60_exceptions.md rule R243 (e)). -/

namespace Sys2Proof.Machine

/-- ENCODE that raises `IOError` in `u`, read off the port events: fault entry adds neither symbols nor bytes. -/
theorem exec_encode_raised {s u : State} {es : List PortEvent} (hi : s.ctrl = .idle)
    (h : encodeBody { s with ctrl := .busy } = .error (.raised .ioError u)) (ht : u.env.trace = s.env.trace ++ es) :
    ∃ t fs, exec .encode s = .next t ∧ FaultOutcome .ioError s t ∧ t.env.trace = s.env.trace ++ fs ∧
      bytesOffered fs = bytesOffered es ∧ symsTaken fs = symsTaken es := by
  obtain ⟨hexec, hfault⟩ := exec_raised (i := .encode) hi h
  obtain ⟨hsyms, hbytes, -⟩ := closings_empty u
  refine ⟨_, es ++ closings u, hexec, hfault, ?_, ?_, ?_⟩
  · rw [faulted_trace, ht, List.append_assoc]
  · rw [bytesOffered_append, hbytes, List.append_nil]
  · rw [symsTaken_append, hsyms, List.append_nil]

/-- Settles O44: the source's `Err` by `encodeBody_cut`, the sink's by `encodeBody_refused` or, for the padded last
byte, `encodeBody_last_refused`. -/
theorem encodeIoErrors : Obligations.EncodeIoErrors := by
  rintro s vs post e ps r rs hi hft hct hwf ⟨hd, -⟩ - hp hs hcodes
  simp only [← filled_length]
  let b : State := { s with ctrl := .busy }
  have hv : b.ftv = true ∧ b.ctv = true := ⟨hft, hct⟩
  refine ⟨?source, ?sink, ?last⟩
  case source =>
    rintro rfl rfl ha
    obtain ⟨u, es, hu, ht, hsyms, hbytes, -⟩ :=
      encodeBody_cut (s := b) hv hwf hd hp hs hcodes ha (.inl ⟨rfl, rfl, rfl, rfl⟩)
    obtain ⟨t, fs, hexec, hfault, htr, hb, hsy⟩ := exec_encode_raised hi hu ht
    refine ⟨t, fs, hexec, hfault, htr, hsy.trans hsyms, ?_⟩
    rw [hb, hbytes, streamOf_filled, List.take_left]
    rfl
  case sink =>
    rintro k rfl hk
    obtain ⟨u, es, n, hu, ht, hbytes, hsyms, hn⟩ := encodeBody_refused (s := b) hv hwf hd hp hs hcodes hk
    obtain ⟨t, fs, hexec, hfault, htr, hb, hsy⟩ := exec_encode_raised hi hu ht
    exact ⟨t, fs, n, hexec, hfault, htr, hb.trans hbytes, hsy.trans hsyms, hn⟩
  case last =>
    rintro k rfl rfl rfl hk
    obtain ⟨u, es, hu, ht, hbytes⟩ : ∃ u es, encodeBody b = .error (.raised .ioError u) ∧
        u.env.trace = b.env.trace ++ es ∧ bytesOffered es = offeredUpTo k (streamOf b vs) := by
      by_cases hfull : k < (filled b vs).length
      · obtain ⟨u, es, -, hu, ht, hbytes, -⟩ := encodeBody_refused (s := b) hv hwf hd hp hs hcodes hfull
        exact ⟨u, es, hu, ht, hbytes⟩
      · rw [List.append_nil] at hp
        obtain ⟨u, es, hu, ht, hbytes, -⟩ :=
          encodeBody_last_refused (s := b) hv hwf hd hp hs hcodes (not_lt.1 hfull) hk
        exact ⟨u, es, hu, ht, hbytes⟩
    obtain ⟨t, fs, hexec, hfault, htr, hb, -⟩ := exec_encode_raised hi hu ht
    exact ⟨t, fs, hexec, hfault, htr, hb.trans hbytes⟩

end Sys2Proof.Machine
end

section
/-! PROOFS. DECODE where the byte source or the symbol sink answers `Err` (spec/20_memory.md rule R74,
spec/45_bitstream_decoder.md rule R190). -/

namespace Sys2Proof.Machine

/-! ### Part of a header (rule R192) -/

section
variable {bs cs : List Byte} {n k : Nat}

/-- A field that lies in `bs` is what it was when more bytes follow. -/
theorem field_append (h : n + k ≤ bs.length) : ((bs ++ cs).drop n).take k = (bs.drop n).take k := by
  rw [List.drop_append_of_le_length (by omega), List.take_append_of_le_length (by rw [List.length_drop]; omega)]

theorem hdrCount_append (h : 4 ≤ bs.length) : hdrCount (bs ++ cs) = hdrCount bs := by
  rw [hdrCount, List.take_append_of_le_length h]
  rfl

theorem hdrSym_append (h : 6 + 6 * k ≤ bs.length) : hdrSym (bs ++ cs) k = hdrSym bs k :=
  congrArg numBE (field_append (by omega))

theorem hdrFreq_append (h : 10 + 6 * k ≤ bs.length) : hdrFreq (bs ++ cs) k = hdrFreq bs k :=
  congrArg numBE (field_append (by omega))

theorem entryFails_append (h : 10 + 6 * k ≤ bs.length) : EntryFails (bs ++ cs) k ↔ EntryFails bs k := by
  rw [EntryFails, EntryFails, hdrFreq_append h, hdrSym_append (k := k) (by omega),
    hdrSym_append (k := k - 1) (by omega)]

/-- A check that fails in the bytes so far fails whatever follows them. -/
theorem HeaderFailsAt.append (h : HeaderFailsAt bs n) : HeaderFailsAt (bs ++ cs) n := by
  obtain ⟨hn, ⟨rfl, hc⟩ | ⟨k, hk, hmax, rfl, hf, hfirst⟩⟩ := h
  · exact ⟨by rw [List.length_append]; omega, .inl ⟨rfl, by rwa [hdrCount_append hn]⟩⟩
  · have hcount : hdrCount (bs ++ cs) = hdrCount bs := hdrCount_append (by omega)
    have hfirst' : ∀ j < k, ¬ EntryFails (bs ++ cs) j := fun j hj =>
      (entryFails_append (by omega)).not.2 (hfirst j hj)
    exact ⟨by rw [List.length_append]; omega,
      .inr ⟨k, by omega, by omega, rfl, (entryFails_append hn).2 hf, hfirst'⟩⟩

end

section
variable {m : Store Count}

/-- The first field of a table's header is the number of its entries (rule R96). -/
theorem hdrCount_headerBytes (hm : ftWf m) : hdrCount (headerBytes m) = m.length := by
  have hlen : m.length ≤ 65536 := ftWf_length_le hm
  have htake : (headerBytes m).take 4 = bytesBE 4 m.length := by
    rw [headerBytes_eq, List.take_left' (bytesBE_length 4 _)]
  rw [hdrCount, htake, bytesBE, bytesBE, bytesBE, bytesBE, bytesBE, numBE_four, join32 (by omega), BitVec.toNat_ofNat]
  omega

/-- The header of a table is well-formed, since `parse_header` gets through it (rules R108, R205). -/
theorem headerBytes_ok (hm : ftWf m) (hne : m ≠ []) : HeaderOk (headerBytes m) := by
  let s : State := { State.reset with env := { Env.fresh with
    bsrc := { passes := [], cur := some ⟨headerBytes m, .eos⟩ } } }
  have hrun := parseHeader_got (s := s) hm hne (body := []) (e := .eos) (by rw [List.append_nil])
  cases parseHeader_ends (s := s) (bs := headerBytes m) (e := .eos) rfl with
  | good t run ok => exact ok
  | bad n u fails run => rw [hrun] at run; cases run
  | short u size checks run => rw [hrun] at run; cases run

/-- DECODE of a table's header cut off before its end raises what the end of the pass is in a header (rules R190,
R192). -/
theorem decodeBody_headerCut {s : State} {bs cs : List Byte} {e : Terminator} {ps : List (Pass Byte)}
    (hm : ftWf m) (hne : m ≠ []) (hbs : headerBytes m = bs ++ cs) (hcs : cs ≠ [])
    (hp : s.env.bsrc.passes = ⟨bs, e⟩ :: ps) : ∃ u, decodeBody s = .error (.raised e.headerFault u) := by
  have hok : HeaderOk (bs ++ cs) := hbs ▸ headerBytes_ok hm hne
  obtain ⟨h4, -, -, hlen, -⟩ | ⟨n, -, hfails, -⟩ | ⟨u, -, -, hu, -⟩ := decodeBody_header hp
  · have hcount : hdrCount bs = m.length := by rw [← hdrCount_append h4, ← hbs, hdrCount_headerBytes hm]
    have htotal := headerBytes_length m
    have hpos := List.length_pos_iff.2 hcs
    rw [hbs, List.length_append] at htotal
    omega
  · exact absurd hok hfails.append.not_ok
  · exact ⟨u, hu⟩

end

/-! ### The end of the pass in the body (rule R198) -/

/-- What `get_bit` raises at the event after the last byte of a pass (rule R195). -/
def Terminator.bodyFault : Terminator → FaultKind
  | .eos => .truncatedStreamError
  | .err => .ioError

theorem getBit_raises {s : State} {e : Terminator} (h : s.env.bsrc.cur = some ⟨[], e⟩) :
    ∃ u, getBit (loaded [] s) = .error (.raised e.bodyFault u) := by
  rw [getBit_end h]
  cases e <;> exact ⟨_, rfl⟩

theorem MidCode.congr {s t : State} {bs : List Bool} (h : MidCode s bs) (hns : t.ns = s.ns) (hroot : t.root = s.root) :
    MidCode t bs := by
  obtain ⟨n, hn, hd⟩ := h
  exact ⟨n, by rw [descend_congr hns, hroot]; exact hn, by rw [hns]; exact hd⟩

section
variable {s : State} {bits rest : List Bool} {bs : List Byte} {e : Terminator}

/-- The bits the walk may take: those the body holds, and one more for the event that ends it. -/
theorem walk_fuel (hc : s.env.bsrc.cur = some ⟨bs, e⟩) (hb : bitsOf bs = bits ++ rest) :
    8 * s.env.bsrc.itemsLeft + 1 = bits.length + (rest.length + 1) := by
  have hlen := congrArg List.length hb
  rw [bitsOf_length, List.length_append] at hlen
  simp only [SrcPort.itemsLeft, hc]
  omega

theorem owed_ne_zero {r : Freq} {n : Nat} (h : n < r.toNat) : r - BitVec.ofNat 48 n ≠ 0#48 := by
  intro h0
  have hr := r.isLt
  have h1 := congrArg BitVec.toNat h0
  simp only [BitVec.toNat_sub, BitVec.toNat_ofNat] at h1
  omega

/-- The walk over a body that ends while symbols are owed, after the codes of `vs` and a part of a code (rules R194,
R198). -/
theorem walkBody_cut {vs : List Sym} (h : TreeAt s) (hsp : Spells s vs bits)
    (hc : s.env.bsrc.cur = some ⟨bs, e⟩) (hb : bitsOf bs = bits ++ rest) (hm : MidCode s rest)
    (hroom : SymRoom s vs.length) (ht : vs.length < s.total.toNat) :
    ∃ u, walkBody s = .error (.raised e.bodyFault u) := by
  obtain ⟨n, hn, d, hd, htag⟩ := hm
  let s0 : State := { s with cur := s.root, remain := s.total }
  obtain ⟨w1, tk1, bs1, es, hw1, -, hb1, -, hcodes⟩ := walkLoop_codes vs s0 [] bits rest bs e (rest.length + 1)
    (h.congr rfl rfl rfl rfl rfl) ht.le (hsp.congr rfl rfl) hc rfl (by simp) hb hroom
  let s1 := walked s0.root (s0.remain - BitVec.ofNat 48 vs.length) tk1 bs1 e vs es s0
  have howed : s1.remain ≠ 0#48 := owed_ne_zero ht
  obtain ⟨w2, tk2, bs2, -, -, hb2, hinner⟩ := walkLoop_inner (s := s1) (h.congr rfl rfl rfl rfl rfl) howed rest
    s.root n w1 [] bs1 e 1 d h.root_lt rfl rfl hw1 (by rw [hb1, List.append_nil])
    ((descend_congr (s := s) (t := s1) rfl _ _).trans hn) hd htag
  obtain ⟨rfl, hbits⟩ := List.append_eq_nil_iff.1 hb2
  obtain rfl : bs2 = [] := by
    have := bitsOf_length bs2
    rw [hbits] at this
    exact List.length_eq_zero_iff.1 (by simpa using this.symm)
  obtain ⟨u, hu⟩ := getBit_raises (s := walked n s1.remain tk2 [] e [] (takes tk2) s1) (e := e) rfl
  refine ⟨u, ?_⟩
  rw [walkBody, walk_fuel hc hb]
  refine hcodes.trans (hinner.trans ?_)
  rw [walkLoop]
  refine (if_neg howed).trans ?_
  rw [hu]
  rfl

/-! ### A symbol refused -/

theorem symsOffered_append (es fs : List PortEvent) : symsOffered (es ++ fs) = symsOffered es ++ symsOffered fs :=
  List.filterMap_append ..

/-- The codes of two sequences are those of the first, then those of the second. -/
theorem spells_append {τ : State} : ∀ {a c : List Sym} {bits : List Bool},
    Spells τ (a ++ c) bits ↔ ∃ p q, Spells τ a p ∧ Spells τ c q ∧ bits = p ++ q
  | [], c, bits => by simp [Spells]
  | v :: a, c, bits => by
    simp only [List.cons_append, Spells, spells_append (a := a) (c := c)]
    constructor
    · rintro ⟨p, -, hp, ⟨q, r, hq, hr, rfl⟩, rfl⟩
      exact ⟨p ++ q, r, ⟨p, q, hp, hq, rfl⟩, hr, (List.append_assoc ..).symm⟩
    · rintro ⟨-, r, ⟨p, q, hp, hq, rfl⟩, hr, rfl⟩
      exact ⟨p, q ++ r, hp, ⟨q, r, hq, hr, rfl⟩, List.append_assoc ..⟩

/-- A step of the walk to a leaf that the sink refuses (rules R70, R196). -/
theorem walkStep_refused {b : Bool} {m : NodeIx} {d : Node} {items : List Sym} (h : TreeAt s)
    (hc : s.cur.toNat < s.nnodes.toNat) (hd : descend s s.cur [b] = some m) (hm : s.ns.get? m.toNat = some d)
    (ht : d.tag = .leaf) (hr : s.env.ssnk.cur = some ⟨items, some 0⟩) :
    walkStep b s = .error (.raised .ioError (note (.offeredSym d.sym .err) { s with cur := m })) := by
  obtain ⟨x, hx, -, hchild, hnil⟩ := (descend_one s b _ _).1 hd
  have hml : m.toNat < s.nnodes.toNat := (h.descend_lt hc hd).1
  have hread : nsRead s.cur s = .ok x := by simp [nsRead, hc, hx]
  have hread' : nsRead m { s with cur := m } = .ok d := by simp [nsRead, hml, hm]
  have hnext : (if b = true then x.right else x.left) = m := hchild
  rw [walkStep, hread, Run.ok_bind]
  dsimp only
  rw [hnext, if_neg hnil, hread', Run.ok_bind, ht]
  dsimp only
  rw [outSym, sinkSym_err (s := { s with cur := m }) hr]
  rfl

/-- One code whose symbol the sink refuses (rules R74, R196). -/
theorem walkLoop_code_refused {v : Sym} {p : Code} {w : List Bool} {items : List Sym} (k : Nat) (h : TreeAt s)
    (hrem : s.remain ≠ 0#48) (hp : CodeTo s v p) (hc : s.env.bsrc.cur = some ⟨bs, e⟩) (hcur : s.cur = s.root)
    (hw : w.length < 8) (hb : w ++ bitsOf bs = p ++ rest) (hr : s.env.ssnk.cur = some ⟨items, some 0⟩) :
    ∃ u es, walkLoop (p.length + k) (loaded w s) = .error (.raised .ioError u) ∧
      u.env.trace = s.env.trace ++ es ∧ symsOffered es = [(v, .err)] := by
  obtain ⟨n, hn, d, hd, htag, rfl⟩ := hp
  obtain rfl | ⟨q, b, rfl⟩ := List.eq_nil_or_concat' p
  · cases hn
    obtain ⟨x, hx, hxtag⟩ := h.root_internal
    obtain rfl : x = d := Option.some.inj (hx.symm.trans hd)
    rw [hxtag] at htag
    cases htag
  obtain ⟨j, hj, hjn⟩ := descend_snoc.1 hn
  have hjl := (h.descend_lt h.root_lt hj).1
  obtain ⟨x, hx, hxtag, -⟩ := (descend_one s b j n).1 hjn
  obtain ⟨w1, tk1, bs1, hw1, -, hb1, hinner⟩ := walkLoop_inner h hrem q s.root j w ([b] ++ rest) bs e (k + 1) x
    h.root_lt hc hcur hw (by rw [hb, List.append_assoc]) hj hx hxtag
  let s1 : State := walked j s.remain tk1 bs1 e [] (takes tk1) s
  obtain ⟨w2, tk2, bs2, -, -, -, hget⟩ := getBit_next (s := s1) (e := e) hw1 rfl hb1
  have hr1 : s1.env.ssnk.cur = some ⟨items, some 0⟩ := by simp [s1, walked, put_nil, hr]
  have hstep := walkStep_refused (s := loaded w2 (got tk2 bs2 e s1)) (b := b) (h.congr rfl rfl rfl rfl rfl) hjl
    ((descend_congr rfl _ _).trans hjn) hd htag hr1
  let u : State := note (.offeredSym d.sym .err) { loaded w2 (got tk2 bs2 e s1) with cur := n }
  refine ⟨u, takes tk1 ++ takes tk2 ++ [.offeredSym d.sym .err], ?_, ?_, ?_⟩
  · rw [List.length_append, List.length_singleton, Nat.add_assoc, Nat.add_comm 1 k, hinner, walkLoop]
    refine (if_neg hrem).trans ?_
    rw [hget, Run.ok_bind]
    dsimp only
    rw [hstep]
    rfl
  · simp [u, s1, loaded, got, walked, takes]
  · rw [symsOffered_append, symsOffered_append, (WalkEvents.takes tk1).offered, (WalkEvents.takes tk2).offered]
    rfl

/-- The walk over a body that begins with the codes of `a`, `v`, to a sink that takes `a` and refuses `v` (rules R74,
R194, R196). -/
theorem walkBody_refused {a c : List Sym} {v : Sym} (h : TreeAt s) (hsp : Spells s (a ++ v :: c) bits)
    (hc : s.env.bsrc.cur = some ⟨bs, e⟩) (hb : bitsOf bs = bits ++ rest)
    (hr : s.env.ssnk.cur = some ⟨[], some a.length⟩) (ht : a.length < s.total.toNat) :
    ∃ u es, walkBody s = .error (.raised .ioError u) ∧ u.env.trace = s.env.trace ++ es ∧
      symsOffered es = (a.map fun x => (x, .ok)) ++ [(v, .err)] := by
  obtain ⟨p, -, hp, ⟨q, r, hq, -, rfl⟩, rfl⟩ := spells_append.1 hsp
  let s0 : State := { s with cur := s.root, remain := s.total }
  have hbits : bitsOf bs = p ++ (q ++ (r ++ rest)) := by rw [hb, List.append_assoc, List.append_assoc]
  have hroom : SymRoom s a.length := ⟨_, hr, fun k hk => by cases hk; exact le_rfl⟩
  obtain ⟨w1, tk1, bs1, es1, hw1, -, hb1, hev, hcodes⟩ := walkLoop_codes a s0 [] p (q ++ (r ++ rest)) bs e
    ((q ++ (r ++ rest)).length + 1) (h.congr rfl rfl rfl rfl rfl) ht.le (hp.congr rfl rfl) hc rfl (by simp) hbits hroom
  let s1 := walked s0.root (s0.remain - BitVec.ofNat 48 a.length) tk1 bs1 e a es1 s0
  have hr1 : s1.env.ssnk.cur = some ⟨a, some 0⟩ := by simp [s1, s0, walked, put, hr]
  obtain ⟨u, es2, hu, htrace, hoffered⟩ := walkLoop_code_refused (s := s1) ((r ++ rest).length + 1)
    (h.congr rfl rfl rfl rfl rfl) (owed_ne_zero ht) (hq.congr rfl rfl) rfl rfl hw1 hb1 hr1
  refine ⟨u, es1 ++ es2, ?_, ?_, ?_⟩
  · rw [walkBody, walk_fuel hc hbits]
    refine hcodes.trans ?_
    rw [List.length_append, Nat.add_assoc]
    exact hu
  · rw [htrace, ← List.append_assoc]
    rfl
  · rw [symsOffered_append, hev.offered, hoffered]

end

/-! ### DECODE -/

section
variable {s τ : State} {m : Store Count} {body : List Byte} {e : Terminator} {ps : List (Pass Byte)}
  {rs : List (Option Nat)} {bits rest : List Bool}

theorem decodeReady_total (τ s : State) (body : List Byte) (e : Terminator) (hm : ftWf m) :
    (decodeReady m τ body e s).total.toNat = countSum m := by
  show (BitVec.ofNat 48 (countSum m)).toNat = _
  rw [BitVec.toNat_ofNat]
  exact Nat.mod_eq_of_lt (countSum_lt hm)

theorem decodeReady_ssnk {r : Option Nat} (m : Store Count) (τ : State) (body : List Byte) (e : Terminator)
    (hs : s.env.ssnk.scripts = r :: rs) : (decodeReady m τ body e s).env.ssnk.cur = some ⟨[], r⟩ := by
  simp [decodeReady, got, openSsnk, openBsrc, note, SnkPort.start, hs]

theorem decodeReady_trace (m : Store Count) (τ : State) (body : List Byte) (e : Terminator) (s : State) :
    (decodeReady m τ body e s).env.trace =
      s.env.trace ++ ([.opened .bsrc, .opened .ssnk] ++ takes (headerBytes m)) := by
  simp [decodeReady, got, openSsnk, openBsrc, note, takes]

/-- DECODE of a body that ends while symbols are owed, to a sink that takes those before (rule R198). -/
theorem decodeBody_cut {r : Option Nat} {vs : List Sym} (hp : s.env.bsrc.passes = ⟨headerBytes m ++ body, e⟩ :: ps)
    (hs : s.env.ssnk.scripts = r :: rs) (hb : BodyStarts m τ body vs bits rest) (hn : vs.length < countSum m)
    (hm : MidCode τ rest) (ha : Accepts r vs.length) : ∃ u, decodeBody s = .error (.raised e.bodyFault u) := by
  obtain ⟨hwf, hne, hτ, hsp, hbits⟩ := hb
  obtain ⟨hT, hd⟩ := decodeBody_prefix (s := s) hwf hne hτ hp
  obtain ⟨u, hu⟩ := walkBody_cut hT (hsp.congr rfl rfl) rfl hbits (hm.congr rfl rfl)
    ⟨_, decodeReady_ssnk m τ body e hs, ha⟩ (by rwa [decodeReady_total τ s body e hwf])
  refine ⟨u, ?_⟩
  rw [hd, hu]
  rfl

/-- DECODE to a sink that refuses symbol `v` after taking `a` (rules R74, R196). -/
theorem decodeBody_refused {a c : List Sym} {v : Sym} (hp : s.env.bsrc.passes = ⟨headerBytes m ++ body, e⟩ :: ps)
    (hs : s.env.ssnk.scripts = some a.length :: rs) (hb : BodyStarts m τ body (a ++ v :: c) bits rest)
    (hn : a.length < countSum m) :
    ∃ u es, decodeBody s = .error (.raised .ioError u) ∧ u.env.trace = s.env.trace ++ es ∧
      symsOffered es = (a.map fun x => (x, .ok)) ++ [(v, .err)] := by
  obtain ⟨hwf, hne, hτ, hsp, hbits⟩ := hb
  obtain ⟨hT, hd⟩ := decodeBody_prefix (s := s) hwf hne hτ hp
  obtain ⟨u, es, hu, htrace, hoffered⟩ := walkBody_refused hT (hsp.congr rfl rfl) rfl hbits
    (decodeReady_ssnk m τ body e hs) (by rwa [decodeReady_total τ s body e hwf])
  refine ⟨u, [.opened .bsrc, .opened .ssnk] ++ takes (headerBytes m) ++ es, ?_, ?_, ?_⟩
  · rw [hd, hu]
    rfl
  · rw [htrace, decodeReady_trace, List.append_assoc]
  · rw [symsOffered_append, symsOffered_append, (WalkEvents.takes _).offered, hoffered]
    rfl

end

/-- Settles O51: the source's `Err` in the header by `decodeBody_headerCut` and in the body by `decodeBody_cut`, the
sink's by `decodeBody_refused`. -/
theorem decodeIoErrors : Obligations.DecodeIoErrors := by
  refine ⟨?header, ?body, ?sink⟩
  case header =>
    intro s m bs cs ps hi hm hne hbs hcs hp
    obtain ⟨u, hu⟩ := decodeBody_headerCut (s := { s with ctrl := .busy }) hm hne hbs hcs hp
    exact ⟨_, exec_raised (i := .decode) hi hu⟩
  case body =>
    intro s τ m body ps r rs vs bits rest hi hp hs hb hn hm ha
    obtain ⟨u, hu⟩ := decodeBody_cut (s := { s with ctrl := .busy }) hp hs hb hn hm ha
    exact ⟨_, exec_raised (i := .decode) hi hu⟩
  case sink =>
    intro s τ m body e ps k rs vs bits rest hi _ hp hs hb hlen hk
    have hvs : vs = vs.take k ++ vs[k] :: vs.drop (k + 1) := by
      rw [← List.drop_eq_getElem_cons hk, List.take_append_drop]
    have hka : (vs.take k).length = k := List.length_take_of_le hk.le
    rw [hvs] at hb
    obtain ⟨u, es, hu, htrace, hoffered⟩ := decodeBody_refused (s := { s with ctrl := .busy }) hp
      (by rw [hka]; exact hs) hb (by omega)
    obtain ⟨hexec, hfault⟩ := exec_raised (i := .decode) hi hu
    obtain ⟨-, -, hclosings⟩ := closings_empty u
    refine ⟨_, es ++ closings u, hexec, hfault, ?_, ?_⟩
    · rw [faulted_trace, htrace, List.append_assoc]
    · rw [symsOffered_append, hclosings, List.append_nil, hoffered, List.getElem?_eq_getElem hk]
      rfl

end Sys2Proof.Machine
end

section
/-! PROOFS. The words of the command port (spec/30_encoding.md rules R91 to R93): which word is which command, and
what becomes of a word in each value of `STATE`. -/

namespace Sys2Proof.Machine

/-! ### Words and commands (rules R92, R93) -/

theorem decode_encode (i : Instr) : decode (encode i) = .command i := by
  cases i <;> rfl

/-- Exactly the encoded word of a command decodes to it. -/
theorem decode_eq_command_iff {w : Byte} {i : Instr} : decode w = .command i ↔ w = encode i := by
  constructor
  · intro h
    obtain ⟨j, hj, hw⟩ | hill := decode_cases w
    · obtain rfl : j = i := Decoded.command.inj (hj.symm.trans h)
      exact hw
    · rw [hill] at h
      cases h
  · rintro rfl
    exact decode_encode i

/-- The mask of every row takes all eight bits of the word. -/
theorem masked_eq_iff (w : Byte) (i : Instr) : w &&& 0xFF#8 = encode i ↔ decode w = .command i := by
  have hmask : w &&& 0xFF#8 = w := BitVec.and_allOnes
  rw [hmask, decode_eq_command_iff]

/-- Settles O1: the mask keeps the word, and exactly the encoded word decodes to its command. -/
theorem commandWords : Obligations.CommandWords :=
  ⟨fun _ _ _ => decode_eq_command_iff, fun w =>
    ⟨masked_eq_iff w .clr, masked_eq_iff w .count, masked_eq_iff w .build, masked_eq_iff w .gen,
      masked_eq_iff w .encode, masked_eq_iff w .decode, masked_eq_iff w .compress, masked_eq_iff w .decompress⟩⟩

/-! ### A word in `IDLE` and in `FAULTED` (rule R91) -/

section
variable {s : State} {w : Byte}

/-- An illegal word in `IDLE` raises `IllegalCommand` and leaves the host's moves alone (rule R237). -/
theorem acceptWord_illegal_idle (hi : s.ctrl = .idle) (hw : decode w = .illegalWord w) :
    ∃ t, acceptWord w s = .next t ∧ FaultOutcome .illegalCommand s t ∧ t.env.inbox = s.env.inbox := by
  refine ⟨recordOutcome (.fault .illegalCommand) (faultEntry .illegalCommand s), ?_,
    faultOutcome_of_raised rfl rfl rfl, ?_⟩
  · rw [acceptWord_illegal hw, illegalWord, hi]
  · rw [faultEntry_eq]
    rfl

/-- In `FAULTED` every word but CLR's is dropped, illegal or not. -/
theorem acceptWord_faulted (hf : s.ctrl = .faulted) (hw : w ≠ 0x01#8) : acceptWord w s = .next s := by
  obtain ⟨i, hd, rfl⟩ | hill := decode_cases w
  · have hi : i ≠ .clr := by
      rintro rfl
      exact hw rfl
    rw [acceptWord_command hd, exec_faulted hf hi]
  · rw [acceptWord_illegal hill, illegalWord, hf]

end

/-- Settles O2: an illegal word is none of the eight, so not CLR's. -/
theorem illegalWords : Obligations.IllegalWords := by
  refine ⟨decode_illegal_iff, fun s w hw => ⟨fun hi => ?idle, fun hf => ?faulted⟩⟩
  case idle =>
    obtain ⟨t, ht, hfault, -⟩ := acceptWord_illegal_idle hi ((decode_illegal_iff w).2 hw)
    exact ⟨t, by rw [step_presentWord w (by simp [hi]), ht], hfault⟩
  case faulted =>
    have hne : w ≠ 0x01#8 := by
      rintro rfl
      revert hw
      decide
    rw [step_presentWord w (by simp [hf]), acceptWord_faulted hf hne]

/-- Settles O4: each clause is what `acceptWord` makes of the word once it is taken; in `BUSY` it is not taken. -/
theorem wordAcceptance : Obligations.WordAcceptance := by
  intro s w ms hin
  refine ⟨fun hb => ?busy, fun hf hw => ?clr, fun hf hw => ?dropped, fun i hi hd => ?command, fun hi hd => ?illegal⟩
  case busy => exact step_wait hin (by simp [mustWait, hb])
  case clr =>
    have hd : decode w = .command .clr := decode_eq_command_iff.2 hw
    rw [step_word hin (by simp [hf]), acceptWord_command hd]
  case dropped =>
    rw [step_word hin (by simp [hf])]
    exact acceptWord_faulted hf hw
  case command => rw [step_word hin (by simp [hi]), acceptWord_command hd]
  case illegal =>
    obtain ⟨t, ht, hfault, hmoves⟩ :=
      acceptWord_illegal_idle (s := { s with env := { s.env with inbox := ms } }) hi hd
    exact ⟨t, by rw [step_word hin (by simp [hi]), ht], hfault, hmoves⟩

end Sys2Proof.Machine
end

section
/-! PROOFS. The fields of the header (spec/30_encoding.md rules R96 to R98, R101, R108): how they are sent and taken,
and that a well-formed header is the header of one table. -/

namespace Sys2Proof.Machine

/-! ### The four helpers (rule R101) -/

/-- Sending bytes leaves the table alone, so `emit_header()` goes on with the table it began with (rule R172). -/
theorem emitHeader_entries (s : State) :
    emitHeader s = (put32be (s.distinct.setWidth 32) s >>= emitEntries s.ft) := by
  show (put32be _ s >>= fun t => emitEntries t.ft t) = _
  cases hr : put32be (s.distinct.setWidth 32) s with
  | error x => rfl
  | ok u =>
    have hft : u.ft = s.ft := by
      rw [((outBytes_keeps _ s).ok u hr).eq]
    rw [Run.ok_bind, Run.ok_bind, hft]

/-- Bytes to a sink that answers `Ok` for ever are appended and counted (rule R176). -/
theorem outBytes_open {s : State} {items : List Byte} (bs : List Byte) (hc : s.env.bsnk.cur = some ⟨items, none⟩) :
    outBytes bs s = .ok (sent bs s) ∧ (sent bs s).env.bsnk.cur = some ⟨items ++ bs, none⟩ :=
  ⟨outBytes_sent bs s ⟨_, hc, fun k hk => by cases hk⟩, by simp [sent, hc]⟩

/-- Settles O12: each helper sends or takes its bytes one after the other. -/
theorem fieldAssembly : Obligations.FieldAssembly := by
  refine ⟨?header, ?put32, ?put16, ?refused, ?get32, ?get16, ?ended, ?failed⟩
  case header =>
    intro s
    have hd : 0#15 ++ s.distinct = s.distinct.setWidth 32 := (BitVec.setWidth_eq_append (by decide)).symm
    rw [hd, emitHeader_entries]
  case put32 =>
    intro s v items hc
    obtain ⟨hrun, hcur⟩ := outBytes_open (bytes32 v) hc
    exact ⟨_, hrun, rfl, hcur⟩
  case put16 =>
    intro s v items hc
    obtain ⟨hrun, hcur⟩ := outBytes_open (bytes16 v) hc
    exact ⟨_, hrun, rfl, hcur⟩
  case refused =>
    intro s b items hc
    refine ⟨note (.offeredByte b .err) s, ?_, rfl⟩
    rw [outByte, sinkByte_err hc]
    rfl
  case get32 =>
    intro s b0 b1 b2 b3 bs e hc
    refine ⟨_, _, get32be_got hc, rfl, rfl, ?_⟩
    simp only [toNat_append_byte]
    omega
  case get16 =>
    intro s b0 b1 bs e hc
    exact ⟨_, _, get16be_got hc, rfl, rfl, toNat_append_byte b0 b1⟩
  case ended => exact fun s hc => ⟨gotAll [] .eos s, hdrByte_ends hc, by simp [gotAll, got]⟩
  case failed => exact fun s hc => ⟨gotAll [] .err s, hdrByte_ends hc, by simp [gotAll, got]⟩

/-! ### The fields of a table's header (rules R96 to R98) -/

theorem numBE_bytesBE_two {v : Nat} (hv : v < 2 ^ 16) : numBE (bytesBE 2 v) = v := by
  rw [bytesBE, bytesBE, bytesBE, numBE_two, join16 hv, BitVec.toNat_ofNat, Nat.mod_eq_of_lt hv]

theorem numBE_bytesBE_four {v : Nat} (hv : v < 2 ^ 32) : numBE (bytesBE 4 v) = v := by
  rw [bytesBE, bytesBE, bytesBE, bytesBE, bytesBE, numBE_four, join32 hv, BitVec.toNat_ofNat, Nat.mod_eq_of_lt hv]

section
variable {m : Store Count} {k : Nat} {p : Nat × Count}

/-- Entry `k` lies after the count field and the `k` entries before it. -/
theorem headerBytes_drop (h : m[k]? = some p) (body : List Byte) :
    ∃ rest, (headerBytes m ++ body).drop (4 + 6 * k) = entryBytes p ++ rest := by
  obtain ⟨hk, hp⟩ := List.getElem?_eq_some_iff.1 h
  have hm : m = m.take k ++ p :: m.drop (k + 1) := by
    rw [← hp, ← List.drop_eq_getElem_cons hk, List.take_append_drop]
  have hflat : m.flatMap entryBytes =
      (m.take k).flatMap entryBytes ++ (entryBytes p ++ (m.drop (k + 1)).flatMap entryBytes) := by
    rw [← List.flatMap_cons, ← List.flatMap_append, ← hm]
  have hlen : (bytesBE 4 m.length ++ (m.take k).flatMap entryBytes).length = 4 + 6 * k := by
    rw [List.length_append, bytesBE_length, entries_length, List.length_take_of_le hk.le]
  refine ⟨(m.drop (k + 1)).flatMap entryBytes ++ body, ?_⟩
  have hsplit : headerBytes m ++ body = (bytesBE 4 m.length ++ (m.take k).flatMap entryBytes) ++
      (entryBytes p ++ ((m.drop (k + 1)).flatMap entryBytes ++ body)) := by
    rw [headerBytes_eq, hflat]
    simp only [List.append_assoc]
  rw [hsplit, List.drop_left' hlen]

theorem hdrSym_table (hm : ftWf m) (h : m[k]? = some p) (body : List Byte) :
    hdrSym (headerBytes m ++ body) k = p.1 := by
  obtain ⟨rest, hrest⟩ := headerBytes_drop h body
  have hp : p.1 < 65536 := hm.2.1 p (List.mem_of_getElem? h)
  rw [hdrSym, hrest, entryBytes, List.append_assoc, List.take_left' (bytesBE_length 2 _), numBE_bytesBE_two hp]

theorem hdrFreq_table (h : m[k]? = some p) (body : List Byte) :
    hdrFreq (headerBytes m ++ body) k = p.2.toNat := by
  obtain ⟨rest, hrest⟩ := headerBytes_drop h body
  have hdrop : (headerBytes m ++ body).drop (6 + 6 * k) = bytesBE 4 p.2.toNat ++ rest := by
    rw [show 6 + 6 * k = 4 + 6 * k + 2 by omega, ← List.drop_drop, hrest, entryBytes, List.append_assoc,
      List.drop_left' (bytesBE_length 2 _)]
  rw [hdrFreq, hdrop, List.take_left' (bytesBE_length 4 _), numBE_bytesBE_four p.2.isLt]

theorem hdrCount_table (hm : ftWf m) (body : List Byte) : hdrCount (headerBytes m ++ body) = m.length := by
  rw [hdrCount_append (by rw [headerBytes_length]; omega), hdrCount_headerBytes hm]

end

/-- A byte sequence begins with the header of at most one table. -/
theorem headerBytes_inj {m m' : Store Count} {body body' : List Byte} (hm : ftWf m) (hm' : ftWf m')
    (h : headerBytes m ++ body = headerBytes m' ++ body') : m = m' ∧ body = body' := by
  have hlen : m.length = m'.length := by rw [← hdrCount_table hm body, h, hdrCount_table hm' body']
  obtain rfl : m = m' := by
    refine List.ext_getElem hlen fun k hk hk' => ?_
    have hg := List.getElem?_eq_getElem hk
    have hg' := List.getElem?_eq_getElem hk'
    refine Prod.ext ?_ (BitVec.eq_of_toNat_eq ?_)
    · rw [← hdrSym_table hm hg body, h, hdrSym_table hm' hg' body']
    · rw [← hdrFreq_table hg body, h, hdrFreq_table hg' body']
  exact ⟨rfl, List.append_cancel_left h⟩

/-! ### The table of a well-formed header (rule R108) -/

theorem bytesBE_two (a b : Byte) : bytesBE 2 (a ++ b).toNat = [a, b] := by
  simp only [toNat_append_byte, bytesBE, List.cons.injEq, and_true]
  exact ⟨by bv_omega, by bv_omega⟩

theorem bytesBE_four (a b c d : Byte) : bytesBE 4 (a ++ b ++ c ++ d).toNat = [a, b, c, d] := by
  simp only [toNat_append_byte, bytesBE, List.cons.injEq, and_true]
  exact ⟨by bv_omega, by bv_omega, by bv_omega, by bv_omega⟩

/-- Entry `k` of a header, as a table lists it. -/
def hdrEntry (bs : List Byte) (k : Nat) : Nat × Count := (hdrSym bs k, BitVec.ofNat 32 (hdrFreq bs k))

/-- The first `n` entries of a header, as a table lists them. -/
def hdrTable (bs : List Byte) (n : Nat) : Store Count := (List.range n).map (hdrEntry bs)

@[simp] theorem hdrTable_length (bs : List Byte) (n : Nat) : (hdrTable bs n).length = n := by simp [hdrTable]

section
variable {bs : List Byte}

/-- The fields of an entry are 16 and 32 bits wide. -/
theorem hdrEntry_lt {k : Nat} (h : 10 + 6 * k ≤ bs.length) : hdrSym bs k < 2 ^ 16 ∧ hdrFreq bs k < 2 ^ 32 := by
  obtain ⟨a, b, c, d, e, f, -, hsym, hfreq⟩ := entry_bytes h
  exact ⟨hsym ▸ (a ++ b).isLt, hfreq ▸ (c ++ d ++ e ++ f).isLt⟩

/-- The bytes of entry `k` are those of the entry read from them. -/
theorem entryBytes_hdrEntry {k : Nat} (h : 10 + 6 * k ≤ bs.length) :
    bs.drop (4 + 6 * k) = entryBytes (hdrEntry bs k) ++ bs.drop (4 + 6 * (k + 1)) := by
  obtain ⟨a, b, c, d, e, f, hdrop, hsym, hfreq⟩ := entry_bytes h
  rw [hdrop, hdrEntry, entryBytes, hsym, hfreq, BitVec.ofNat_toNat, BitVec.setWidth_eq, bytesBE_two, bytesBE_four]
  rfl

/-- The first `n` entries of a header are the bytes after its count field. -/
theorem entries_hdrTable : ∀ n : Nat, 4 + 6 * n ≤ bs.length →
    bs.drop 4 = (hdrTable bs n).flatMap entryBytes ++ bs.drop (4 + 6 * n)
  | 0, _ => rfl
  | n + 1, h => by
    rw [entries_hdrTable n (by omega), entryBytes_hdrEntry (k := n) (by omega)]
    simp [hdrTable, List.range_succ]

/-- Symbols that rise from each entry to the next rise over any distance. -/
theorem hdrSym_lt_hdrSym {n i j : Nat} (h : ∀ k < n, 1 ≤ k → hdrSym bs (k - 1) < hdrSym bs k) (hij : i < j)
    (hj : j < n) : hdrSym bs i < hdrSym bs j := by
  induction j, hij using Nat.le_induction with
  | base => exact h (i + 1) hj (by omega)
  | succ j _ ih => exact (ih (by omega)).trans (h (j + 1) hj (by omega))

/-- The table of a well-formed header is in canonical form, and the header is its header. -/
theorem HeaderOk.table (h : HeaderOk bs) :
    ftWf (hdrTable bs (hdrCount bs)) ∧ hdrTable bs (hdrCount bs) ≠ [] ∧
    bs = headerBytes (hdrTable bs (hdrCount bs)) ++ bs.drop (4 + 6 * hdrCount bs) := by
  obtain ⟨h4, hpos, -, hlen, hfreq, hsym⟩ := h
  refine ⟨⟨?sorted, ?below, ?counts⟩, ?nonempty, ?bytes⟩
  case sorted =>
    refine List.pairwise_map.2 ((List.pairwise_lt_range (n := hdrCount bs)).imp_of_mem fun _ hj hij => ?_)
    exact hdrSym_lt_hdrSym hsym hij (List.mem_range.1 hj)
  case below =>
    intro p hp
    obtain ⟨k, hk, rfl⟩ := List.mem_map.1 hp
    have hk := List.mem_range.1 hk
    exact (hdrEntry_lt (by omega)).1
  case counts =>
    intro p hp
    obtain ⟨k, hk, rfl⟩ := List.mem_map.1 hp
    have hk := List.mem_range.1 hk
    have hlt := (hdrEntry_lt (bs := bs) (k := k) (by omega)).2
    have hpos := hfreq k hk
    intro h0
    have h0 := congrArg BitVec.toNat h0
    simp only [hdrEntry, BitVec.toNat_ofNat] at h0
    omega
  case nonempty => exact List.ne_nil_of_length_pos (by rw [hdrTable_length]; exact hpos)
  case bytes =>
    obtain ⟨a, b, c, d, hbs, hd⟩ := count_bytes h4
    have hcount : bytesBE 4 (hdrTable bs (hdrCount bs)).length = [a, b, c, d] := by
      rw [hdrTable_length, hd, bytesBE_four]
    rw [headerBytes_eq, hcount, List.append_assoc, ← entries_hdrTable _ hlen]
    exact hbs

/-- `parse_header` gets through a stream exactly when its header is well-formed (rule R192). -/
theorem parseHeader_ok_iff {s : State} {e : Terminator} (hc : s.env.bsrc.cur = some ⟨bs, e⟩) :
    (∃ t, parseHeader s = .ok t) ↔ HeaderOk bs := by
  have hraised {x : Exit} (hx : parseHeader s = .error x) : ¬ ∃ t, parseHeader s = .ok t := by
    rintro ⟨t, ht⟩
    rw [hx] at ht
    cases ht
  cases parseHeader_ends hc with
  | good t run ok => exact iff_of_true ⟨t, run⟩ ok
  | bad n u fails run => exact iff_of_false (hraised run) fails.not_ok
  | short u size checks run =>
    refine iff_of_false (hraised run) ?_
    rintro ⟨h4, -, -, hlen, -⟩
    omega

end

/-- The header of a table is well-formed whatever follows it, since `parse_header` gets through it (rule R205). -/
theorem headerBytes_append_ok {m : Store Count} (hm : ftWf m) (hne : m ≠ []) (body : List Byte) :
    HeaderOk (headerBytes m ++ body) := by
  let s : State := { State.reset with env := { Env.fresh with
    bsrc := { passes := [], cur := some ⟨headerBytes m ++ body, .eos⟩ } } }
  have hc : s.env.bsrc.cur = some ⟨headerBytes m ++ body, .eos⟩ := rfl
  exact (parseHeader_ok_iff hc).1 ⟨_, parseHeader_got hm hne hc⟩

/-- Settles O13: a well-formed header is read back as its table, and a table's header is parsed. -/
theorem headerWellFormed : Obligations.HeaderWellFormed := by
  refine ⟨fun s bs => parseHeader_ok_iff, fun bs => ⟨fun h => ?_, ?_⟩, fun m m' body body' => headerBytes_inj⟩
  · obtain ⟨hwf, hne, hbs⟩ := h.table
    exact ⟨_, _, hwf, hne, hbs⟩
  · rintro ⟨m, body, hwf, hne, rfl⟩
    exact headerBytes_append_ok hwf hne body

end Sys2Proof.Machine
end

section
/-! PROOFS. The stream ENCODE writes (spec/30_encoding.md rules R95 to R100, R107, spec/44_bitstream_encoder.md rules
R170, R180, R181). -/

namespace Sys2Proof.Machine

/-- Settles O40: the pseudocode's result, `STATE` back at `IDLE` and the outcome recorded. -/
theorem encodeResult : Obligations.EncodeResult := by
  rintro s vs ps r rs hi hft hct hwf ⟨hd, -⟩ hp hs hcodes ha
  obtain ⟨es, hrun, hsyms, hbytes⟩ :=
    encodeBody_spec (s := { s with ctrl := .busy }) ⟨hft, hct⟩ hwf hd hp hs hcodes ha
  refine ⟨_, es, ?_, rfl, hsyms, hbytes⟩
  rw [exec_idle hi, bodyOf, hrun, conclude_ok, finish, ← hi]
  rfl

/-! ### The size of the stream (rule R180) -/

theorem codeBits_length (s : State) (vs : List Sym) :
    (codeBits s vs).length = (vs.map fun v => (ctRead v s).length).sum := List.length_flatMap ..

theorem streamOf_length (s : State) (vs : List Sym) : (streamOf s vs).length =
    4 + 6 * s.ft.length + ((vs.map fun v => (ctRead v s).length).sum + 7) / 8 := by
  rw [streamOf, List.length_append, headerBytes_length, packBits_length, codeBits_length]

/-- The symbols a table counts, each as often as its count says, in ascending order. -/
def expansion (m : Store Count) : List Sym := m.flatMap fun p => List.replicate p.2.toNat (BitVec.ofNat 16 p.1)

theorem count_expansion (w : Sym) : ∀ {m : Store Count}, m.Sorted → m.Below Config.alphabet →
    (expansion m).count w = ((m.get? w.toNat).getD 0#32).toNat
  | [], _, _ => rfl
  | (a, c) :: m, hs, hb => by
    obtain ⟨ha, hs'⟩ := List.pairwise_cons.1 hs
    have hlt : a < 65536 := hb (a, c) (List.mem_cons_self ..)
    have ih := count_expansion w hs' fun p hp => hb p (List.mem_cons_of_mem _ hp)
    have hcons : (expansion ((a, c) :: m)).count w =
        (List.replicate c.toNat (BitVec.ofNat 16 a)).count w + (expansion m).count w := List.count_append ..
    rw [hcons, ih, Store.get?_cons, List.count_replicate]
    by_cases hw : w.toNat = a
    · subst hw
      rw [Store.get?_eq_none_of_lt ha]
      simp
    · have hne : BitVec.ofNat 16 a ≠ w := by
        rintro rfl
        exact hw (by rw [BitVec.toNat_ofNat, Nat.mod_eq_of_lt hlt])
      simp [hw, hne]

/-- A pass that has the counts of the table is a rearrangement of its symbols. -/
theorem perm_expansion {s : State} {vs : List Sym} (hm : ftWf s.ft)
    (h : ∀ v, vs.count v = (ftRead v s).toNat) : vs.Perm (expansion s.ft) :=
  List.perm_iff_count.2 fun v => (h v).trans (count_expansion v hm.1 hm.2.1).symm

/-- A sum over the table's symbols, each as often as it is counted. -/
theorem sum_expansion (f : Sym → Nat) (m : Store Count) :
    ((expansion m).map f).sum = (m.map fun p => p.2.toNat * f (BitVec.ofNat 16 p.1)).sum := by
  induction m with
  | nil => rfl
  | cons p m ih =>
    have hcons : expansion (p :: m) = List.replicate p.2.toNat (BitVec.ofNat 16 p.1) ++ expansion m := rfl
    rw [hcons, List.map_append, List.sum_append, ih]
    simp

/-- Settles O41: the output is `streamOf`, whose fields are those of the table's header. -/
theorem streamLayout : Obligations.StreamLayout := by
  intro s vs ps r rs hi hft hct hwf hT hp hs hcodes ha
  obtain ⟨t, es, hexec, ht, -, -⟩ := encodeResult s vs ps r rs hi hft hct hwf hT hp hs hcodes ha
  refine ⟨t, streamOf s vs, hexec, by rw [ht], ?count, fun k p hk => ⟨?sym, ?freq⟩, by rw [ht], ?size,
    fun hv => ?sum⟩
  case count => rw [streamOf, hdrCount_table hwf, hT.1]
  case sym => exact hdrSym_table hwf hk _
  case freq => exact hdrFreq_table hk _
  case size => rw [hT.1, streamOf_length]
  case sum => rw [((perm_expansion hwf hv).map _).sum_eq, sum_expansion]

end Sys2Proof.Machine
end

section
/-! PROOFS. `count_step`, and COUNT over a pass that ends in `End` (spec/40_frequency_counter.md rules R120 to
R125). -/

namespace Sys2Proof.Machine

/-- Settles O23: at the limit `count_step` raises; below the limit it writes the table with one more of the symbol. -/
theorem countStepRule : Obligations.CountStepRule := by
  intro v s
  refine ⟨countStep_max, fun h => ⟨_, countStep_ok h, ?counted, fun w hw => ?others, rfl, rfl, rfl⟩⟩
  case counted => simpa [ftRead] using addOne_read h v
  case others => exact BitVec.eq_of_toNat_eq (by simpa [ftRead, hw.symm] using addOne_read h w)

/-! ### The table of a pass -/

/-- A count that is not 0 is a listed one. -/
theorem Store.get?_eq_some_of_getD {m : Store Count} {a : Nat} {c : Count} (hc : c ≠ 0#32)
    (h : (m.get? a).getD 0#32 = c) : m.get? a = some c := by
  cases hg : m.get? a with
  | none => exact absurd (by simpa [hg] using h.symm) hc
  | some d => simpa [hg] using h

/-- Two canonical tables with the same counts are equal. -/
theorem ftWf.ext {m m' : Store Count} (hm : ftWf m) (hm' : ftWf m')
    (h : ∀ v : Sym, (m.get? v.toNat).getD 0#32 = (m'.get? v.toNat).getD 0#32) : m = m' := by
  have listed {l l' : Store Count} (hl : ftWf l)
      (h : ∀ v : Sym, (l.get? v.toNat).getD 0#32 = (l'.get? v.toNat).getD 0#32) {a : Nat} {c : Count}
      (hg : l.get? a = some c) : l'.get? a = some c := by
    have ha : (BitVec.ofNat 16 a).toNat = a := Nat.mod_eq_of_lt (Store.below_of_get? hl.2.1 hg)
    have hv := h (BitVec.ofNat 16 a)
    rw [ha, hg] at hv
    exact Store.get?_eq_some_of_getD (hl.get?_ne_zero hg) hv.symm
  exact Store.ext hm.1 hm'.1 fun a => Option.ext fun c => ⟨listed hm h, listed hm' fun v => (h v).symm⟩

/-- The indexes a memory lists are those at which it has an entry. -/
theorem Store.mem_map_fst_iff {α : Type} {m : Store α} (hm : m.Sorted) {a : Nat} :
    a ∈ m.map Prod.fst ↔ m.get? a ≠ none := by
  simp [Option.ne_none_iff_exists', Store.get?_eq_some_iff hm]

/-- A canonical table lists exactly the different values of a pass whose counts it holds (rule R35). -/
theorem card_toFinset_of_counts {m : Store Count} {vs : List Sym} (hm : ftWf m)
    (h : ∀ v : Sym, ((m.get? v.toNat).getD 0#32).toNat = vs.count v) : vs.toFinset.card = m.length := by
  have hmem (v : Sym) : v ∈ vs ↔ v.toNat ∈ m.map Prod.fst := by
    rw [Store.mem_map_fst_iff hm.1, ← List.count_pos_iff, ← h v, Ne, ← getD_eq_zero_iff hm, ← BitVec.toNat_inj,
      Nat.pos_iff_ne_zero]
    rfl
  have hkeys : vs.toFinset.image BitVec.toNat = (m.map Prod.fst).toFinset := by
    ext a
    simp only [Finset.mem_image, List.mem_toFinset]
    constructor
    · rintro ⟨v, hv, rfl⟩
      exact (hmem v).1 hv
    · intro ha
      obtain ⟨p, hp, rfl⟩ := List.mem_map.1 ha
      have hv : (BitVec.ofNat 16 p.1).toNat = p.1 := Nat.mod_eq_of_lt (hm.2.1 p hp)
      exact ⟨BitVec.ofNat 16 p.1, (hmem _).2 (by rwa [hv]), hv⟩
  have hnodup : (m.map Prod.fst).Nodup := List.pairwise_map.2 (hm.1.imp Nat.ne_of_lt)
  rw [← Finset.card_image_of_injective _ fun _ _ => BitVec.eq_of_toNat_eq, hkeys,
    List.toFinset_card_of_nodup hnodup, List.length_map]

section
variable {vs ws : List Sym} (hf : Fits [] vs)
include hf

/-- The table of a pass is canonical. -/
theorem Fits.table_wf : ftWf (addAll vs []) := addAll_wf ⟨.nil, by simp, by simp⟩ hf

/-- The table of a pass holds its counts (rule R124). -/
theorem Fits.table_read (v : Sym) : (((addAll vs []).get? v.toNat).getD 0#32).toNat = vs.count v := by
  simpa using addAll_read hf v

theorem Fits.table_length : (addAll vs []).length = vs.toFinset.card :=
  (card_toFinset_of_counts hf.table_wf hf.table_read).symm

theorem Fits.table_sum : countSum (addAll vs []) = vs.length := by
  let s : State := { State.reset with ft := addAll vs [] }
  have hperm : vs.Perm (expansion (addAll vs [])) :=
    perm_expansion (s := s) hf.table_wf fun v => (hf.table_read v).symm
  have hlen := sum_expansion (fun _ => 1) (addAll vs [])
  simpa [countSum, ← hperm.length_eq] using hlen.symm

theorem Fits.perm (hp : ws.Perm vs) : Fits [] ws := fun v => by
  rw [hp.count_eq]
  exact hf v

/-- The order of the symbols of a pass has no effect on its table (rule R124). -/
theorem Fits.table_perm (hp : ws.Perm vs) : addAll ws [] = addAll vs [] := by
  have hw := hf.perm hp
  refine hw.table_wf.ext hf.table_wf fun v => BitVec.eq_of_toNat_eq ?_
  rw [hw.table_read, hf.table_read, hp.count_eq]

end

/-! ### The whole of COUNT -/

/-- The host's side after COUNT took a pass `vs` that ends in `End`, `ps` the passes after it. -/
def tookPass (vs : List Sym) (ps : List (Pass Sym)) (e : Env) : Env :=
  { e with
    ssrc := { passes := ps, cur := none },
    trace := e.trace ++ [.opened .ssrc] ++ symEvents vs ++ [.tookSym .eos, .released .ssrc] }

/-- The state with `m` as its valid table and nothing built from it. -/
def withTable (m : Store Count) (s : State) : State :=
  { s with
    ftv := true, trv := false, ctv := false,
    distinct := BitVec.ofNat 17 m.length, total := BitVec.ofNat 48 (countSum m),
    nnodes := 0#17, hsize := 0#17, root := Config.nil, ft := m, ns := [], hp := [], ct := [] }

theorem withTable_distinct {m : Store Count} (hm : ftWf m) (s : State) :
    (withTable m s).distinct.toNat = m.length :=
  Nat.mod_eq_of_lt (lt_of_le_of_lt (ftWf_length_le hm) (by decide))

theorem withTable_total {m : Store Count} (hm : ftWf m) (s : State) :
    (withTable m s).total.toNat = countSum m := Nat.mod_eq_of_lt (countSum_lt hm)

/-- COUNT's pseudocode over a pass within the limit that ends in `End` (rules R120, R124, R125). -/
theorem countBody_eos {s : State} {vs : List Sym} {ps : List (Pass Sym)}
    (hp : s.env.ssrc.passes = ⟨vs, .eos⟩ :: ps) (hf : Fits [] vs) :
    countBody s = .ok (if vs = [] then .empty else .done,
      withTable (addAll vs []) { s with env := tookPass vs ps s.env }) := by
  let s1 := clearTables (openSsrc s)
  let u := withTable (addAll vs []) { s with env := tookPass vs ps s.env }
  have hstart : s1.env.ssrc = { passes := ps, cur := some ⟨vs, .eos⟩ } := by
    simp [s1, openSsrc, SrcPort.start, hp]
  have hleft : s1.env.ssrc.itemsLeft = vs.length := by rw [hstart]; rfl
  obtain ⟨d, n, hloop, hcounts⟩ := countLoop_eos vs s1 (vs.length + 1) (Nat.lt_succ_self _)
    (by rw [hstart]) ⟨.nil, by simp [s1], by simp [s1]⟩ hf
  obtain ⟨hd, hn⟩ := hcounts ⟨rfl, rfl⟩
  have hd : d = u.distinct := BitVec.eq_of_toNat_eq (hd.trans (withTable_distinct hf.table_wf _).symm)
  have hn : n = u.total := BitVec.eq_of_toNat_eq (hn.trans (withTable_total hf.table_wf _).symm)
  have hempty : u.distinct = 0#17 ↔ vs = [] := by
    rw [← BitVec.toNat_inj, withTable_distinct hf.table_wf, hf.table_length]
    simp
  subst hd hn
  show (countLoop (s1.env.ssrc.itemsLeft + 1) s1 >>= _) = _
  rw [hleft, hloop, Run.ok_bind]
  simp only [releaseSsrc_distinct, hempty]
  simp [u, s1, withTable, tookPass, releaseSsrc, openSsrc, note, clearTables, dropCodes, dropTree,
    SrcPort.start, SrcPort.stop, hp]

/-- COUNT in `IDLE` over such a pass: `STATE` back at `IDLE` and the outcome recorded. -/
theorem exec_count_eos {s : State} {vs : List Sym} {ps : List (Pass Sym)} (hi : s.ctrl = .idle)
    (hp : s.env.ssrc.passes = ⟨vs, .eos⟩ :: ps) (hf : Fits [] vs) :
    exec .count s = .next (recordOutcome (if vs = [] then .empty else .done)
      (withTable (addAll vs []) { s with env := tookPass vs ps s.env })) := by
  rw [exec_idle hi, bodyOf, countBody_eos (s := { s with ctrl := .busy }) hp hf, conclude_ok, finish, ← hi]
  rfl

/-- Settles O24: the state is the one with the table of the pass, which a permuted pass has too. -/
theorem countResult : Obligations.CountResult := by
  intro s vs ps hi hp hv
  have hf : Fits [] vs := fits_nil hv
  refine ⟨_, exec_count_eos hi hp hf, hf.table_read, ?distinct, ?total, fun _ => rfl, ?state, fun ws hw => ?order⟩
  case distinct => exact (withTable_distinct hf.table_wf s).trans hf.table_length
  case total => exact (withTable_total hf.table_wf s).trans hf.table_sum
  case state => rfl
  case order =>
    refine ⟨_, exec_count_eos (vs := ws) (ps := ps) hi rfl (hf.perm hw), ?_⟩
    rw [hf.table_perm hw]
    rfl

end Sys2Proof.Machine
end

section
/-! PROOFS. The priority queue (spec/41_priority_queue.md rules R131 to R139): the order on nodes, and what
`pq_insert` and `pq_extract_min` make of a queue that is a heap. -/

namespace Sys2Proof.Machine

/-! ### The order on nodes (rule R131) -/

/-- A node can be read exactly if it is in use and has a value. -/
theorem nsRead_eq_ok_iff {s : State} {n : NodeIx} {d : Node} :
    nsRead n s = .ok d ↔ n.toNat < s.nnodes.toNat ∧ s.ns.get? n.toNat = some d := by
  unfold nsRead
  by_cases hn : n.toNat < s.nnodes.toNat
  · cases s.ns.get? n.toNat <;> simp [hn]
  · simp [hn]

/-- A node that can be read is one the queue can hold. -/
theorem listed_of_nsRead {s : State} {n : NodeIx} {d : Node} (h : nsRead n s = .ok d) : Listed s n := by
  obtain ⟨hn, hd⟩ := nsRead_eq_ok_iff.1 h
  exact ⟨hn, by simp [hd]⟩

theorem nodeLess_iff {s : State} {a b : NodeIx} {x y : Node} (hx : nsRead a s = .ok x)
    (hy : nsRead b s = .ok y) :
    nodeLess s a b = true ↔ x.freq.toNat < y.freq.toNat ∨ x.freq = y.freq ∧ a.toNat < b.toNat := by
  simp [nodeLess, (nsRead_eq_ok_iff.1 hx).2, (nsRead_eq_ok_iff.1 hy).2, keyLess]

theorem nodeLess_asymm {s : State} {a b : NodeIx} (h : nodeLess s a b = true) : nodeLess s b a = false :=
  Bool.eq_false_iff.2 fun h' => by simpa [nodeLess_irrefl] using nodeLess_trans h h'

/-- Settles O28: `less` compares the keys `(freq, index)`; two nodes with the same key are the same node. -/
theorem lessIsStrictTotal : Obligations.LessIsStrictTotal := by
  intro s a b x y hx hy
  have ha := listed_of_nsRead hx
  have hb := listed_of_nsRead hy
  refine ⟨less_eq ha hb, nodeLess_iff hx hy, fun hab => ⟨nodeLess_asymm, fun h => ?total⟩,
    nodeLess_irrefl s a, fun c => nodeLess_trans⟩
  case total => exact nodeLess_total hb ha hab.symm (Bool.eq_false_iff.1 h)

/-! ### `pq_insert` -/

/-- Settles O29: the layout of the heap goes up by one node, and the layout after is a heap of nodes in use. -/
theorem pqInsertKeepsHeap : Obligations.PqInsertKeepsHeap := by
  intro s n hs hcap hn hv hnew
  obtain ⟨f, hq, hok, hheap⟩ := hs.layout
  rw [hq.queueList_eq] at hnew ⊢
  obtain ⟨hp, g, hrun, hq', hperm, hheap'⟩ := pqInsert_spec hq hok hheap hcap ⟨hn, hv⟩ hnew
  refine ⟨_, hrun, ?heap, hq'.size, ?nodes, rfl⟩
  case heap => exact heapOk_of_layout hq' (hok.cons ⟨hn, hv⟩ hnew hperm rfl rfl) (hheap'.congr rfl)
  case nodes => rwa [hq'.queueList_eq]

/-! ### `pq_extract_min` -/

/-- From a heap that is not empty `pq_extract_min` takes a node before all that are left (rules R135, R137). -/
theorem HeapOk.extractMin {s : State} (hs : HeapOk s) (hne : s.hsize ≠ 0#17) :
    ∃ m t, pqExtractMin s = .ok (m, t) ∧ HeapOk t ∧ t.hsize.toNat + 1 = s.hsize.toNat ∧
      (m :: queueList t).Perm (queueList s) ∧ (∀ n ∈ queueList t, nodeLess s m n = true) ∧
      t = { s with hp := t.hp, hsize := t.hsize } := by
  obtain ⟨f, hq, hok, hheap⟩ := hs.layout
  have hpos : s.hsize.toNat ≠ 0 := fun h => hne (BitVec.eq_of_toNat_eq h)
  obtain ⟨k, hk⟩ := Nat.exists_eq_succ_of_ne_zero hpos
  rw [hk] at hq hok hheap ⊢
  obtain ⟨hp, g, hrun, hq', hperm, hheap', hleast⟩ := pqExtractMin_spec hq hok hheap
  refine ⟨_, _, hrun, ?heap, congrArg Nat.succ hq'.size, ?nodes, ?least, rfl⟩
  case heap => exact heapOk_of_layout hq' (hok.tail hperm rfl rfl) (hheap'.congr rfl)
  case nodes => rwa [hq'.queueList_eq, hq.queueList_eq]
  case least => rwa [hq'.queueList_eq]

/-- Of the same nodes only one is before all the others (rule R138). -/
theorem least_unique {s : State} {m m' : NodeIx} {l l' : List NodeIx} (hp : (m :: l).Perm (m' :: l'))
    (hm : ∀ n ∈ l, nodeLess s m n = true) (hm' : ∀ n ∈ l', nodeLess s m' n = true) : m = m' := by
  by_contra hne
  have h : m' ∈ l := (List.mem_cons.1 (hp.mem_iff.2 (by simp))).resolve_left (Ne.symm hne)
  have h' : m ∈ l' := (List.mem_cons.1 (hp.mem_iff.1 (by simp))).resolve_left hne
  simpa [nodeLess_asymm (hm m' h)] using hm' m h'

/-- The queue of a heap is as long as `HSIZE` says (rule R130). -/
theorem HeapOk.length_queueList {s : State} (h : HeapOk s) : (queueList s).length = s.hsize.toNat := by
  obtain ⟨-, -, -, hlen, -⟩ := h
  exact hlen

/-- Settles O30: `pq_extract_min` takes the least node, and a heap of the same nodes has the same least node. -/
theorem pqExtractsLeast : Obligations.PqExtractsLeast := by
  intro s hs hne
  obtain ⟨m, t, hrun, ht, hsize, hperm, hleast, hframe⟩ := hs.extractMin hne
  refine ⟨m, t, hrun, ht, hsize, hperm, hleast, hframe, fun s' hs' hns hsame => ?layout⟩
  have hne' : s'.hsize ≠ 0#17 := fun h => by
    have hlen := hsame.length_eq
    rw [hs'.length_queueList, hs.length_queueList, h] at hlen
    exact hne (BitVec.eq_of_toNat_eq hlen.symm)
  obtain ⟨m', t', hrun', -, -, hperm', hleast', -⟩ := hs'.extractMin hne'
  simp only [nodeLess_congr hns] at hleast'
  obtain rfl : m = m' := least_unique (hperm.trans (hsame.symm.trans hperm'.symm)) hleast hleast'
  exact ⟨t', hrun'⟩

end Sys2Proof.Machine
end

section
/-! PROOFS. BUILD (spec/42_tree_builder.md rules R145 to R155): the state it leaves, the shape of its tree, the
order of the merges, and the tables of no symbol and of one. -/

namespace Sys2Proof.Machine

/-! ### The state after BUILD -/

/-- In `IDLE` a command whose pseudocode runs to its end gives the next state it reached. -/
theorem exec_of_body {i : Instr} {s u : State} {o : CmdOutcome} (hi : s.ctrl = .idle)
    (h : bodyOf i { s with ctrl := .busy } = .ok (o, u)) : exec i s = .next (finish o u) := by
  rw [exec_idle hi, h, conclude_ok]

/-- `t` is what BUILD leaves of `s` when the table is not empty (rules R149, R150, R155). -/
structure Built (s t : State) : Prop where
  tree : TreeAt t
  greedy : 2 ≤ s.ft.length → TreeGreedy t
  single : ∀ p, s.ft = [p] → t.ns = [(0, leafNode (BitVec.ofNat 16 p.1) p.2),
    (1, internalNode (p.2.setWidth 48) 0#17 Config.nil)]
  eq : t = { s with
    trv := true, ctv := false, nnodes := t.nnodes, hsize := 0#17, root := t.root, ns := t.ns,
    hp := [], ct := [], env := { s.env with outcomes := s.env.outcomes ++ [.done] } }

theorem Built.ft_eq {s t : State} (h : Built s t) : t.ft = s.ft := by rw [h.eq]

theorem Built.total_eq {s t : State} (h : Built s t) : t.total = s.total := by rw [h.eq]

theorem exec_build {s : State} (h : BuildReady s) : ∃ t, exec .build s = .next t ∧ Built s t := by
  obtain ⟨hi, hv, hft, hT, hd⟩ := h
  obtain ⟨u, hrun, hok, hsort, hbelow, hgreedy, hsingle, heq⟩ :=
    buildBody_spec (s := { s with ctrl := .busy }) hv hft hT hd
  have hftu : u.ft = s.ft := by rw [heq]
  refine ⟨_, exec_of_body hi hrun, ⟨hok, hftu ▸ hft, hsort, hbelow⟩, hgreedy, hsingle, ?frame⟩
  case frame =>
    rw [heq]
    simp [finish, recordOutcome, hi]

/-- Settles O31: what BUILD leaves is the table's tree, and the rest is a frame equation. -/
theorem buildResult : Obligations.BuildResult := by
  intro s hs
  obtain ⟨t, hrun, ht⟩ := exec_build hs
  exact ⟨t, hrun, ht.tree.ok, ht.eq⟩

/-- Settles O33: the forest BUILD grows has the two least roots under every internal node. -/
theorem buildMergesLeast : Obligations.BuildMergesLeast := by
  intro s hs h2
  obtain ⟨t, hrun, ht⟩ := exec_build hs
  exact ⟨t, hrun, ht.greedy h2⟩

/-- Settles O34: an empty table ends BUILD when the tree and the codes are dropped. -/
theorem buildEmpty : Obligations.BuildEmpty := by
  intro s hi hv hd
  have hrun : buildBody { s with ctrl := .busy } =
      .ok (.empty, dropCodes (dropTree { s with ctrl := .busy })) := by
    rw [buildBody_eq, if_pos hv, if_pos hd]
  rw [exec_of_body (i := .build) hi hrun]
  simp [finish, recordOutcome, dropCodes, dropTree, hi]

/-- Settles O36: BUILD reads nothing but the table, so equal tables give equal node stores. -/
theorem buildReproducible : Obligations.BuildReproducible := by
  intro s s' ⟨hi, hv, hft, hT, hd⟩ ⟨hi', hv', hft', hT', hd'⟩ heq
  obtain ⟨u, hrun, -⟩ := buildBody_spec (s := { s with ctrl := .busy }) hv hft hT hd
  obtain ⟨u', hrun', -⟩ := buildBody_spec (s := { s' with ctrl := .busy }) hv' hft' hT' hd'
  obtain ⟨hns, hnn, hroot, -, -⟩ := buildBody_alike (s := { s with ctrl := .busy })
    (s' := { s' with ctrl := .busy }) heq hd hd' hrun hrun'
  exact ⟨_, _, exec_of_body hi hrun, exec_of_body hi' hrun', hns, hnn, hroot⟩

/-! ### The order of the merges (rule R153 (d)) -/

/-- A link that is not `NIL` is a step of a path. -/
theorem edge_of_childCount {s : State} {j m : NodeIx} {d : Node} (hd : s.ns.get? j.toNat = some d)
    (hm : m ≠ Config.nil) (hc : childCount d m.toNat ≠ 0) : ∃ b, descend s j [b] = some m := by
  unfold childCount at hc
  have ht : d.tag = .internal := by
    by_contra ht
    exact hc (if_neg ht)
  rw [if_pos ht] at hc
  by_cases hl : d.left.toNat = m.toNat
  · exact ⟨false, (descend_one s false j m).2 ⟨d, hd, ht, BitVec.eq_of_toNat_eq hl, hm⟩⟩
  · have hr : d.right.toNat = m.toNat := by
      by_contra hr
      simp [hl, hr] at hc
    exact ⟨true, (descend_one s true j m).2 ⟨d, hd, ht, BitVec.eq_of_toNat_eq hr, hm⟩⟩

theorem ne_children_of_childCount {d : Node} {m : Nat} (ht : d.tag = .internal) (hc : childCount d m = 0) :
    m ≠ d.left.toNat ∧ m ≠ d.right.toNat := by
  rw [childCount, if_pos ht] at hc
  constructor <;> rintro rfl <;> simp at hc

/-- Of two nodes in order, the first is not the more frequent (rule R131). -/
theorem freq_le_of_nodeLess {s : State} {a b : NodeIx} {x y : Node} (h : nodeLess s a b = true)
    (hx : s.ns.get? a.toNat = some x) (hy : s.ns.get? b.toNat = some y) : x.freq.toNat ≤ y.freq.toNat := by
  simp only [nodeLess, hx, hy, keyLess_iff] at h
  omega

section
variable {s : State} (h : TreeAt s)
include h

theorem TreeAt.ne_nil {m : NodeIx} (hm : m.toNat < s.nnodes.toNat) : m ≠ Config.nil := by
  rintro rfl
  have := h.size_le.2
  change 131071 < _ at hm
  omega

/-- No other node has a link to the child of a node (rule R44 (e)). -/
theorem TreeAt.childCount_other {b : Bool} {n m j : NodeIx} {d : Node} (hm : m.toNat < s.nnodes.toNat)
    (he : descend s n [b] = some m) (hj : j ≠ n) (hd : s.ns.get? j.toNat = some d) :
    childCount d m.toNat = 0 := by
  by_contra hc
  obtain ⟨c, hcm⟩ := edge_of_childCount hd (h.ne_nil hm) hc
  exact hj (h.edge_unique hm hcm he).1

/-- With two symbols or more every internal node is a merge of the two least nodes (rule R149). -/
theorem TreeAt.merge (hg : TreeGreedy s) (h2 : 2 ≤ s.ft.length) {n : Nat} (hn : n < s.nnodes.toNat)
    (hl : s.ft.length ≤ n) : InternalAt s s.ft.length n := by
  obtain ⟨-, -, hint, -, -⟩ := h.ok
  obtain ⟨d, hd, ht, hsym, hlinks⟩ := hint n hn hl
  rw [if_neg (by omega)] at hlinks
  obtain ⟨hleft, hright, x, hx, y, hy, hf⟩ := hlinks
  obtain ⟨d', hd', hless, hleast⟩ := hg n hn hl
  obtain rfl : d = d' := Option.some.inj (hd.symm.trans hd')
  exact ⟨d, x, y, hd, ht, hsym, hleft, hright, hx, hy, hf, hless, hleast⟩

/-- A child of the node after `n` is `n` itself or was in the queue when `n` took its children, and is then at
least as frequent as the second of these. -/
theorem TreeAt.later_child (hg : TreeGreedy s) (h2 : 2 ≤ s.ft.length) {b : Bool} {n : Nat} {n' m : NodeIx}
    {d y z : Node} (hl : s.ft.length ≤ n) (hn : n + 1 < s.nnodes.toNat) (hn' : n'.toNat = n + 1)
    (hd : s.ns.get? n = some d) (hy : s.ns.get? d.right.toNat = some y)
    (he : descend s n' [b] = some m) (hm : m.toNat < n + 1) (hz : s.ns.get? m.toNat = some z) :
    m.toNat = n ∨ y.freq.toNat ≤ z.freq.toNat := by
  by_cases hmn : m.toNat = n
  · exact .inl hmn
  right
  have hmlt : m.toNat < s.nnodes.toNat := by omega
  have hsz := h.size_le.2
  have hfree : ∀ j ≤ n, ∀ c, s.ns.get? j = some c → childCount c m.toNat = 0 := by
    intro j hj c hc
    have hjt : (BitVec.ofNat 17 j).toNat = j := by simp; omega
    refine h.childCount_other hmlt he (j := BitVec.ofNat 17 j) (fun hjn => ?_) (by rw [hjt]; exact hc)
    rw [hjn, hn'] at hjt
    omega
  obtain ⟨d', -, -, hd', ht, -, -, -, -, -, -, -, hleast⟩ := h.merge hg h2 (by omega) hl
  obtain rfl : d = d' := Option.some.inj (hd.symm.trans hd')
  obtain ⟨hml, hmr⟩ := ne_children_of_childCount ht (hfree n le_rfl d hd)
  have hless : nodeLess s d.right (BitVec.ofNat 17 m.toNat) = true := by
    refine hleast m.toNat (by omega) hml hmr fun j hj hlj => ?_
    obtain ⟨c, hc, -⟩ := h.internalAt (n := j) (by omega) hlj
    exact ⟨c, hc, hfree j hj.le c hc⟩
  rw [BitVec.ofNat_toNat, BitVec.setWidth_eq] at hless
  exact freq_le_of_nodeLess hless hy hz

/-- A merge is at least as frequent as the one before it: it has that one as a child, or two children that were
left in the queue. -/
theorem TreeAt.freq_succ (hg : TreeGreedy s) (h2 : 2 ≤ s.ft.length) {n : Nat} {d e : Node}
    (hl : s.ft.length ≤ n) (hn : n + 1 < s.nnodes.toNat) (hd : s.ns.get? n = some d)
    (he : s.ns.get? (n + 1) = some e) : d.freq.toNat ≤ e.freq.toNat := by
  obtain ⟨d', x, y, hd', -, -, -, -, hx, hy, hdf, hless, -⟩ := h.merge hg h2 (by omega) hl
  obtain rfl : d = d' := Option.some.inj (hd.symm.trans hd')
  obtain ⟨e', u, v, he', ht, -, hleft, hright, hu, hv, hef, -, -⟩ := h.merge hg h2 hn (by omega)
  obtain rfl : e = e' := Option.some.inj (he.symm.trans he')
  have hxy := freq_le_of_nodeLess hless hx hy
  have hsz := h.size_le.2
  have hn' : (BitVec.ofNat 17 (n + 1)).toNat = n + 1 := by simp; omega
  have hedge : ∀ b, (childOf b e).toNat < n + 1 →
      descend s (BitVec.ofNat 17 (n + 1)) [b] = some (childOf b e) := fun b hb =>
    (descend_one s b _ _).2 ⟨e, by rw [hn']; exact he, ht, rfl, h.ne_nil (by omega)⟩
  rcases h.later_child hg h2 hl hn hn' hd hy (hedge false hleft) hleft hu with hln | hyu
  · change e.left.toNat = n at hln
    rw [hln, hd] at hu
    cases hu
    omega
  rcases h.later_child hg h2 hl hn hn' hd hy (hedge true hright) hright hv with hrn | hyv
  · change e.right.toNat = n at hrn
    rw [hrn, hd] at hv
    cases hv
    omega
  omega

/-- Frequencies of internal nodes do not decrease in order of creation (rule R153 (d)). -/
theorem TreeAt.freq_mono (hg : 2 ≤ s.ft.length → TreeGreedy s) {m n : Nat} {x : Node}
    (hl : s.ft.length ≤ m) (hmn : m ≤ n) (hx : s.ns.get? m = some x) :
    n < s.nnodes.toNat → ∀ y, s.ns.get? n = some y → x.freq.toNat ≤ y.freq.toNat := by
  induction n, hmn using Nat.le_induction with
  | base =>
    intro _ y hy
    rw [Option.some.inj (hx.symm.trans hy)]
  | succ n hmn ih =>
    intro hn z hz
    have h2 : 2 ≤ s.ft.length := by
      have hsize := h.size.1
      have hlen := h.len.1
      split at hsize <;> omega
    obtain ⟨y, hy, -⟩ := h.internalAt (n := n) (by omega) (by omega)
    exact (ih (by omega) y hy).trans (h.freq_succ (hg h2) h2 (by omega) hn hy hz)

/-! ### The shape of the tree (rule R153) -/

/-- Two symbols: the one internal node has the lesser leaf on the left (rule R153 (e)). -/
theorem TreeAt.two_symbols (hg : TreeGreedy s) {p q : Nat × Count} (hft : s.ft = [p, q]) :
    ∃ d ∈ s.ns.get? 2, (p.2.toNat ≤ q.2.toNat → d.left = 0#17 ∧ d.right = 1#17) ∧
      (q.2.toNat < p.2.toNat → d.left = 1#17 ∧ d.right = 0#17) := by
  have hlen : s.ft.length = 2 := by rw [hft]; rfl
  have hsize : s.nnodes.toNat = 3 := by rw [h.size.1, hlen]; rfl
  obtain ⟨d, x, y, hd, -, -, hl, hr, hx, hy, -, hless, -⟩ := h.merge hg hlen.ge (n := 2) (by omega) (by omega)
  obtain ⟨-, hleaves, -, -, -⟩ := h.ok
  have h0 : s.ns.get? (0#17).toNat = some (leafNode (BitVec.ofNat 16 p.1) p.2) := by
    rw [show (0#17).toNat = 0 from rfl, hleaves 0 (by omega), hft]; rfl
  have h1 : s.ns.get? (1#17).toNat = some (leafNode (BitVec.ofNat 16 q.1) q.2) := by
    rw [show (1#17).toNat = 1 from rfl, hleaves 1 (by omega), hft]; rfl
  have hor : ∀ m : NodeIx, m.toNat < 2 → m = 0#17 ∨ m = 1#17 := fun m hm => by
    have : m.toNat = 0 ∨ m.toNat = 1 := by omega
    exact this.imp BitVec.eq_of_toNat_eq BitVec.eq_of_toNat_eq
  have hpq : (leafNode (BitVec.ofNat 16 p.1) p.2).freq.toNat = p.2.toNat := setWidth48_toNat p.2
  have hqq : (leafNode (BitVec.ofNat 16 q.1) q.2).freq.toNat = q.2.toNat := setWidth48_toNat q.2
  refine ⟨d, hd, ?_⟩
  rcases hor _ hl with hl | hl <;> rcases hor _ hr with hr | hr <;> rw [hl, hr] at hless ⊢
  · rw [nodeLess_irrefl] at hless
    cases hless
  · have := freq_le_of_nodeLess hless h0 h1
    exact ⟨fun _ => ⟨rfl, rfl⟩, fun hlt => by omega⟩
  · simp only [nodeLess, h0, h1, keyLess_iff, hpq, hqq] at hless
    refine ⟨fun hle => ?_, fun _ => ⟨rfl, rfl⟩⟩
    simp at hless
    omega
  · rw [nodeLess_irrefl] at hless
    cases hless

/-- No path is longer than the number of internal nodes (rule R153 (f)). -/
theorem TreeAt.path_length_le {p : Code} {n : NodeIx} (hp : descend s s.root p = some n) :
    p.length ≤ max 1 (s.ft.length - 1) := by
  have hlen := h.path_length h.root_lt hp
  obtain ⟨hsize, hroot⟩ := h.size
  split at hsize <;> omega

end

/-- Settles O32: items (a) to (f) of rule R153, each from the tree BUILD leaves. -/
theorem buildShape : Obligations.BuildShape := by
  intro s hs
  obtain ⟨t, hrun, ht⟩ := exec_build hs
  have hT := ht.tree
  obtain ⟨-, hleaves, -, -, htotal⟩ := hT.ok
  obtain ⟨hsize, hroot⟩ := hT.size
  have hle := hT.size_le
  have hgreedy : 2 ≤ t.ft.length → TreeGreedy t := by rw [ht.ft_eq]; exact ht.greedy
  refine ⟨t, hrun, ?_⟩
  rw [← ht.total_eq, ← ht.ft_eq]
  refine ⟨fun h2 => ⟨?nnodes, ?root, hleaves, ?internals, htotal⟩, ?one, ?paths, ?order, ?two,
    fun p n => hT.path_length_le, hT.ok⟩
  case nnodes => rw [hsize, if_neg (by omega)]
  case root =>
    rw [if_neg (by omega)] at hsize
    omega
  case internals =>
    intro n hn hl
    obtain ⟨d, hd, htag, -⟩ := hT.internalAt hn hl
    exact ⟨d, hd, htag⟩
  case one =>
    intro p hp
    have hns := ht.single p (ht.ft_eq ▸ hp)
    rw [hp, List.length_singleton, if_pos rfl] at hsize
    have hroot1 : t.root = 1#17 := BitVec.eq_of_toNat_eq (by rw [hsize] at hroot; simpa using hroot)
    refine ⟨BitVec.eq_of_toNat_eq hsize, hroot1, hns, ?_⟩
    rw [hroot1]
    exact (descend_one t false 1#17 0#17).2 ⟨_, by rw [hns]; rfl, rfl, rfl, by decide⟩
  case paths =>
    intro k hk
    refine hT.path (BitVec.ofNat 17 k) ?_
    rw [BitVec.toNat_ofNat, Nat.mod_eq_of_lt (by omega)]
    omega
  case order =>
    intro m n hl hmn hn
    obtain ⟨x, hx, -⟩ := hT.internalAt (n := m) (by omega) hl
    obtain ⟨y, hy, -⟩ := hT.internalAt hn (by omega)
    exact ⟨x, hx, y, hy, hT.freq_mono hgreedy hl hmn hx hn y hy⟩
  case two =>
    intro p q hpq
    exact hT.two_symbols (hgreedy (by rw [hpq]; exact le_rfl)) hpq

/-! ### One symbol (rule R150) -/

/-- GEN on a leaf under a wrapper: it pops the wrapper, then the leaf, whose code is one 0 bit. -/
theorem genBody_wrapper {s : State} {v : Sym} {c : Count} {f : Freq} (hv : s.trv = true)
    (hn : s.nnodes = 2#17) (hr : s.root = 1#17)
    (hns : s.ns = [(0, leafNode v c), (1, internalNode f 0#17 Config.nil)]) :
    genBody s = .ok (.done, { s with ctv := true, ct := [(v.toNat, [false])] }) := by
  have hwrap : nsRead 1#17 (dropCodes s) = .ok (internalNode f 0#17 Config.nil) := by
    simp [nsRead, dropCodes, hn, hns, Store.get?]
  have hleaf : nsRead 0#17 (dropCodes s) = .ok (leafNode v c) := by
    simp [nsRead, dropCodes, hn, hns, Store.get?]
  have hreq : require s.trv s = .ok () := by rw [hv]; rfl
  have hloop : genLoop 2 [(1#17, [])] (dropCodes s) = .ok (ctWrite v [false] (dropCodes s)) := by
    rw [genLoop, hwrap]
    change genLoop 1 [(0#17, [false])] (dropCodes s) = _
    rw [genLoop, hleaf]
    rfl
  rw [genBody, hreq]
  simp only [Run.ok_bind]
  rw [show (dropCodes s).nnodes.toNat = 2 by simp [dropCodes, hn], show (dropCodes s).root = 1#17 from hr, hloop]
  rfl

/-- BUILD on a table of one symbol, whatever its count: the leaf under the wrapper. -/
theorem buildBody_single {s : State} {p : Nat × Count} (hv : s.ftv = true) (hd : s.distinct ≠ 0#17)
    (hft : s.ft = [p]) : buildBody s = .ok (.done, { s with
      trv := true, ctv := false, nnodes := 2#17, hsize := 0#17, root := 1#17, hp := [], ct := [],
      ns := [(0, leafNode (BitVec.ofNat 16 p.1) p.2),
        (1, internalNode (p.2.setWidth 48) 0#17 Config.nil)] }) := by
  rw [buildBody_eq, if_pos hv, if_neg hd,
    growTree_one (s := dropCodes (dropTree s)) ⟨rfl, rfl, rfl, rfl⟩ hft]
  rfl

/-- Settles O35: the two phases of BUILD run on a table of one symbol, then GEN on the wrapper. -/
theorem buildDegenerate : Obligations.BuildDegenerate := by
  intro s v f hi hv hd hft
  have hbuild := buildBody_single (s := { s with ctrl := .busy }) hv (by simp [hd]) hft
  rw [BitVec.ofNat_toNat, BitVec.setWidth_eq] at hbuild
  refine ⟨_, _, exec_of_body (i := .build) hi hbuild, rfl, rfl, rfl, rfl,
    exec_of_body (i := .gen) rfl (genBody_wrapper rfl rfl rfl rfl), fun w => ?codes⟩
  case codes =>
    show (Store.get? [(v.toNat, [false])] w.toNat).getD [] = _
    by_cases hw : w = v
    · simp [hw, Store.get?]
    · rw [if_neg hw]
      simp [Store.get?, BitVec.toNat_inj, hw]

end Sys2Proof.Machine
end

section
/-! PROOFS. GEN and the code table it writes (spec/43_code_generator.md rules R160 to R166): a code for every present
symbol, none a prefix of another's, their Kraft sum and their lengths. -/

namespace Sys2Proof.Machine

/-! ### Present symbols -/

/-- The symbols with a count are those the table lists. -/
theorem ftRead_ne_zero_iff {s : State} (h : ftWf s.ft) {v : Sym} :
    ftRead v s ≠ 0#32 ↔ ∃ c, (v.toNat, c) ∈ s.ft := by
  rw [ftRead, Ne, getD_eq_zero_iff h, ← Ne, Option.ne_none_iff_exists']
  exact exists_congr fun c => Store.get?_eq_some_iff h.1

/-- A listed index is a symbol's number. -/
theorem ftWf.toNat_sym {m : Store Count} (h : ftWf m) {p : Nat × Count} (hp : p ∈ m) :
    (BitVec.ofNat 16 p.1).toNat = p.1 := Nat.mod_eq_of_lt (h.2.1 p hp)

theorem ftWf.present {s : State} (h : ftWf s.ft) {p : Nat × Count} (hp : p ∈ s.ft) :
    ftRead (BitVec.ofNat 16 p.1) s ≠ 0#32 :=
  (ftRead_ne_zero_iff h).2 ⟨p.2, by rw [h.toNat_sym hp]; exact hp⟩

/-! ### Paths to leaves -/

/-- No path goes on below a leaf. -/
theorem descend_leaf {s : State} {n m : NodeIx} {d : Node} (hd : s.ns.get? n.toNat = some d) (ht : d.tag = .leaf) :
    ∀ {p : Code}, descend s n p = some m → p = []
  | [], _ => rfl
  | b :: p, hp => by simp [descend, hd, ht] at hp

/-- A path to a symbol's leaf is the beginning of no other symbol's path (rule R164 (b)). -/
theorem CodeTo.eq_of_prefix {s : State} {v w : Sym} {p q : Code} (hp : CodeTo s v p) (hq : CodeTo s w q)
    (hpq : p <+: q) : v = w := by
  obtain ⟨r, rfl⟩ := hpq
  obtain ⟨n, hn, d, hd, htag, rfl⟩ := hp
  obtain ⟨m, hm, e, he, -, rfl⟩ := hq
  rw [descend_append, hn, Option.bind_some] at hm
  obtain rfl := descend_leaf hd htag hm
  cases hm
  rw [Option.some.inj (hd.symm.trans he)]

section
variable {s : State} (h : TreeAt s)
include h

/-- A path of a symbol leads to the node that has the symbol's place in the table (rule R44 (b)). -/
theorem TreeAt.codeTo_iff {v : Sym} {p : Code} :
    CodeTo s v p ↔ ∃ n, descend s s.root p = some n ∧ ∃ c, s.ft[n.toNat]? = some (v.toNat, c) := by
  constructor
  · rintro ⟨n, hn, d, hd, htag, rfl⟩
    obtain ⟨q, hq, hleaf⟩ := h.leafAt ((h.leaf_iff (h.descend_lt h.root_lt hn).1 hd).1 htag)
    obtain rfl : d = leafNode (BitVec.ofNat 16 q.1) q.2 := Option.some.inj (hd.symm.trans hleaf)
    refine ⟨n, hn, q.2, ?_⟩
    rw [hq, leafNode, h.ft.toNat_sym (List.mem_of_getElem? hq)]
  · rintro ⟨n, hn, c, hc⟩
    obtain ⟨hlt, -⟩ := List.getElem?_eq_some_iff.1 hc
    obtain ⟨q, hq, hleaf⟩ := h.leafAt hlt
    obtain rfl : (v.toNat, c) = q := Option.some.inj (hc.symm.trans hq)
    exact ⟨n, hn, _, hleaf, rfl, by simp [leafNode]⟩

/-- The symbols with a path are the present ones. -/
theorem TreeAt.exists_codeTo_iff {v : Sym} : (∃ p, CodeTo s v p) ↔ ftRead v s ≠ 0#32 := by
  rw [ftRead_ne_zero_iff h.ft]
  constructor
  · rintro ⟨p, hp⟩
    obtain ⟨n, -, c, hc⟩ := h.codeTo_iff.1 hp
    exact ⟨c, List.mem_of_getElem? hc⟩
  · rintro ⟨c, hc⟩
    obtain ⟨k, hk⟩ := List.mem_iff_getElem?.1 hc
    obtain ⟨hlt, -⟩ := List.getElem?_eq_some_iff.1 hk
    have hkn : (BitVec.ofNat 17 k).toNat = k := by
      have := h.len.2
      rw [BitVec.toNat_ofNat]
      omega
    obtain ⟨p, hp, -⟩ := h.path (BitVec.ofNat 17 k) (by rw [hkn]; exact hlt.trans h.size_le.1)
    exact ⟨p, h.codeTo_iff.2 ⟨_, hp, c, by rw [hkn]; exact hk⟩⟩

end

/-! ### The codes of the leaves -/

/-- The codes of the leaves of a subtree, in the order GEN pops them. -/
def leafCodes (s : State) (k : Nat) (n : NodeIx) (p : Code) : List Code :=
  ((treeWalk s k n p).filter fun x => x.1.toNat < s.ft.length).map Prod.snd

/-- Below a node with two children are the leaves below the one and below the other. -/
theorem leafCodes_internal {s : State} {k : Nat} {n : NodeIx} {p : Code} {d : Node} (hd : s.ns.get? n.toNat = some d)
    (ht : d.tag = .internal) (hn : s.ft.length ≤ n.toNat) (hl : d.left ≠ Config.nil) (hr : d.right ≠ Config.nil) :
    leafCodes s (k + 1) n p = leafCodes s k d.left (p ++ [false]) ++ leafCodes s k d.right (p ++ [true]) := by
  simp [leafCodes, treeWalk, hd, ht, hn, hl, hr]

/-- The Kraft sum of a list of codes. -/
def kraftSum (l : List Code) : ℚ := (l.map fun p => (1 / 2 : ℚ) ^ p.length).sum

theorem kraftSum_append (l m : List Code) : kraftSum (l ++ m) = kraftSum l + kraftSum m := by simp [kraftSum]

theorem kraftSum_perm {l m : List Code} (h : l.Perm m) : kraftSum l = kraftSum m := (h.map _).sum_eq

section
variable {s : State} (h : TreeAt s)
include h

theorem TreeAt.leafCodes_leaf {k : Nat} {n : NodeIx} {p : Code} (hn : n.toNat < s.ft.length) :
    leafCodes s (k + 1) n p = [p] := by
  obtain ⟨q, -, hd⟩ := h.leafAt hn
  simp [leafCodes, treeWalk, hd, hn, leafNode]

/-- With two symbols or more every internal node has two children, so the codes below a node share out the node's own
weight (rule R164 (d)). -/
theorem TreeAt.kraftSum_leafCodes (h1 : s.ft.length ≠ 1) : ∀ (k : Nat) (n : NodeIx) (p : Code), n.toNat < k →
    n.toNat < s.nnodes.toNat → kraftSum (leafCodes s k n p) = (1 / 2) ^ p.length
  | 0, n, p, hk, _ => by omega
  | k + 1, n, p, hk, hn => by
    by_cases hlt : n.toNat < s.ft.length
    · rw [h.leafCodes_leaf hlt]
      simp [kraftSum]
    · obtain ⟨d, hd, ht, hleft, hl, hright, hr⟩ := h.internalAt hn (by omega)
      have hr : d.right ≠ Config.nil := fun he => h1 (hr.1 he)
      have hright := hright hr
      rw [leafCodes_internal hd ht (by omega) hl hr, kraftSum_append,
        TreeAt.kraftSum_leafCodes h1 k d.left _ (by omega) (by omega),
        TreeAt.kraftSum_leafCodes h1 k d.right _ (by omega) (by omega)]
      simp only [List.length_append, List.length_singleton, pow_succ]
      ring

theorem TreeAt.mem_leafCodes {k : Nat} (hk : s.root.toNat < k) {q : Code} :
    q ∈ leafCodes s k s.root [] ↔ ∃ v, CodeTo s v q := by
  simp only [leafCodes, List.mem_map, List.mem_filter, Prod.exists, exists_eq_right, decide_eq_true_eq, h.codeTo_iff,
    h.mem_walk k s.root [] hk h.root_lt, List.nil_append, exists_eq_left']
  constructor
  · rintro ⟨n, hn, hlt⟩
    obtain ⟨p, hp, -⟩ := h.leafAt hlt
    refine ⟨BitVec.ofNat 16 p.1, n, hn, p.2, ?_⟩
    rw [hp, h.ft.toNat_sym (List.mem_of_getElem? hp)]
  · rintro ⟨v, n, hn, c, hc⟩
    exact ⟨n, hn, (List.getElem?_eq_some_iff.1 hc).1⟩

theorem TreeAt.leafCodes_nodup {k : Nat} (hk : s.root.toNat < k) : (leafCodes s k s.root []).Nodup := by
  have hmem := h.mem_walk k s.root [] hk h.root_lt
  refine List.Nodup.map_on ?_ ((h.walk_nodup k s.root [] hk h.root_lt).filter _)
  simp only [List.nil_append, exists_eq_left'] at hmem
  rintro ⟨n, q⟩ hn ⟨m, q'⟩ hm (rfl : q = q')
  have hn := (hmem n q).1 (List.mem_filter.1 hn).1
  have hm := (hmem m q).1 (List.mem_filter.1 hm).1
  rw [Option.some.inj (hn.symm.trans hm)]

/-! ### The code table -/

variable (hc : CodesOk s)
include hc

/-- A symbol has a code exactly when it is present (rule R162). -/
theorem TreeAt.ctRead_ne_nil_iff {v : Sym} : ctRead v s ≠ [] ↔ ftRead v s ≠ 0#32 := by
  rw [← h.exists_codeTo_iff]
  constructor
  · exact fun hv => ⟨_, (hc v _).1 ⟨hv, rfl⟩⟩
  · rintro ⟨p, hp⟩
    obtain ⟨hne, rfl⟩ := (hc v p).2 hp
    exact hne

/-- The code of a present symbol is a path to its leaf. -/
theorem TreeAt.codeTo_ctRead {v : Sym} (hv : ftRead v s ≠ 0#32) : CodeTo s v (ctRead v s) :=
  (hc v _).1 ⟨(h.ctRead_ne_nil_iff hc).2 hv, rfl⟩

/-- The code of a present symbol is the beginning of no other symbol's code (rule R164 (b)). -/
theorem TreeAt.eq_of_ctRead_prefix {v w : Sym} (hv : ftRead v s ≠ 0#32) (hw : ftRead w s ≠ 0#32)
    (hvw : ctRead v s <+: ctRead w s) : v = w :=
  (h.codeTo_ctRead hc hv).eq_of_prefix (h.codeTo_ctRead hc hw) hvw

/-- Different present symbols have different codes (rule R164 (e)). -/
theorem TreeAt.ctRead_inj {v w : Sym} (hv : ftRead v s ≠ 0#32) (hw : ftRead w s ≠ 0#32)
    (he : ctRead v s = ctRead w s) : v = w :=
  h.eq_of_ctRead_prefix hc hv hw (he ▸ List.prefix_rfl)

/-- The length of a code is at least 1 and at most the number of internal nodes (rule R165). -/
theorem TreeAt.ctRead_length {v : Sym} (hv : ftRead v s ≠ 0#32) :
    1 ≤ (ctRead v s).length ∧ (ctRead v s).length ≤ max 1 (s.ft.length - 1) := by
  obtain ⟨n, hn, -⟩ := h.codeTo_ctRead hc hv
  exact ⟨List.length_pos_iff.2 ((h.ctRead_ne_nil_iff hc).2 hv), h.path_length_le hn⟩

/-- The codes of the listed symbols are the codes of the leaves, each once. -/
theorem TreeAt.codes_perm_leafCodes {k : Nat} (hk : s.root.toNat < k) :
    (s.ft.map fun p => ctRead (BitVec.ofNat 16 p.1) s).Perm (leafCodes s k s.root []) := by
  have hnodup : (s.ft.map fun p => ctRead (BitVec.ofNat 16 p.1) s).Nodup := by
    refine List.pairwise_map.2 (h.ft.1.imp_of_mem fun {p q} hp hq hlt he => ?_)
    have hsym := h.ctRead_inj hc (h.ft.present hp) (h.ft.present hq) he
    have := congrArg BitVec.toNat hsym
    rw [h.ft.toNat_sym hp, h.ft.toNat_sym hq] at this
    omega
  refine (List.perm_ext_iff_of_nodup hnodup (h.leafCodes_nodup hk)).2 fun q => ?_
  rw [h.mem_leafCodes hk, List.mem_map]
  constructor
  · rintro ⟨p, hp, rfl⟩
    exact ⟨_, h.codeTo_ctRead hc (h.ft.present hp)⟩
  · rintro ⟨v, hv⟩
    obtain ⟨c, hmem⟩ := (ftRead_ne_zero_iff h.ft).1 (h.exists_codeTo_iff.1 ⟨q, hv⟩)
    exact ⟨_, hmem, by simpa using ((hc v q).2 hv).2⟩

/-- The Kraft sum of the code table (rule R164 (d)): a single code has one bit; otherwise the codes share out the
weight of the root. -/
theorem TreeAt.kraftSum_codes : (s.ft.map fun p => (1 / 2 : ℚ) ^ (ctRead (BitVec.ofNat 16 p.1) s).length).sum =
    if s.ft.length = 1 then 1 / 2 else 1 := by
  split
  case isTrue h1 =>
    obtain ⟨p, hp⟩ := List.length_eq_one_iff.1 h1
    have hlen := h.ctRead_length hc (h.ft.present (p := p) (by simp [hp]))
    rw [h1] at hlen
    simp [hp, show (ctRead (BitVec.ofNat 16 p.1) s).length = 1 by omega]
  case isFalse h1 =>
    have hperm := kraftSum_perm (h.codes_perm_leafCodes hc h.root_lt)
    rw [h.kraftSum_leafCodes h1 _ s.root [] h.root_lt h.root_lt, List.length_nil, pow_zero, kraftSum,
      List.map_map] at hperm
    exact hperm

end

/-! ### The state after GEN -/

/-- `t` is what GEN leaves of `s` (rules R162, R166). -/
structure Coded (s t : State) : Prop where
  tree : TreeAt t
  codes : CodesOk t
  eq : t = { s with ctv := true, ct := t.ct, env := { s.env with outcomes := s.env.outcomes ++ [.done] } }

theorem Coded.ft_eq {s t : State} (h : Coded s t) : t.ft = s.ft := by rw [h.eq]

theorem Coded.ftRead_eq {s t : State} (h : Coded s t) (v : Sym) : ftRead v t = ftRead v s := by
  rw [ftRead, h.ft_eq, ftRead]

theorem exec_gen {s : State} (h : GenReady s) : ∃ t, exec .gen s = .next t ∧ Coded s t := by
  obtain ⟨hi, hv, ⟨hft, -, ⟨hsort, hbelow⟩, -⟩, hok⟩ := h
  have hT : TreeAt s := ⟨hok, hft, hsort, hbelow⟩
  obtain ⟨ct, hrun, hcodes⟩ := genBody_spec (s := { s with ctrl := .busy }) (hT.congr rfl rfl rfl rfl rfl) hv
  refine ⟨_, exec_of_body (i := .gen) hi hrun, hT.congr rfl rfl rfl rfl rfl, hcodes.congr rfl rfl rfl, ?frame⟩
  case frame => simp [finish, recordOutcome, hi]

/-- Settles O37: GEN's traversal writes the path of every leaf, and a symbol has a leaf exactly when it is present. -/
theorem genResult : Obligations.GenResult := by
  intro s hs
  obtain ⟨t, hrun, ht⟩ := exec_gen hs
  refine ⟨t, hrun, ht.codes, fun v => ?_, ht.eq⟩
  rw [ht.tree.ctRead_ne_nil_iff ht.codes, ht.ftRead_eq]

/-- Settles O38: codes are paths to leaves, below which no path goes on; the Kraft sum is shared out from the root. -/
theorem codesPrefixFree : Obligations.CodesPrefixFree := by
  intro s hs
  obtain ⟨t, hrun, ht⟩ := exec_gen hs
  have hT := ht.tree
  refine ⟨t, hrun, ?_⟩
  simp only [← ht.ftRead_eq, ← ht.ft_eq]
  refine ⟨fun v hv => ?unique, fun v w hv hw hne hvw => ?prefixFree, fun v hv => ?nonempty,
    hT.kraftSum_codes ht.codes, fun v w hv hw he => ?different⟩
  case unique =>
    exact ⟨ctRead v t, ⟨(hT.ctRead_ne_nil_iff ht.codes).2 hv, hT.codeTo_ctRead ht.codes hv, rfl⟩,
      fun p hp => hp.2.2.symm⟩
  case prefixFree => exact hne (hT.eq_of_ctRead_prefix ht.codes hv hw hvw)
  case nonempty => exact (hT.ctRead_ne_nil_iff ht.codes).2 hv
  case different => exact hT.ctRead_inj ht.codes hv hw he

/-- Settles O39: a path has at least one step and takes each internal node at most once. -/
theorem codeLengthBound : Obligations.CodeLengthBound := by
  intro s hs ⟨hdistinct, _⟩
  obtain ⟨t, hrun, ht⟩ := exec_gen hs
  refine ⟨t, hrun, fun v hv => ?_⟩
  rw [hdistinct, ← ht.ft_eq]
  exact ht.tree.ctRead_length ht.codes (by rwa [ht.ftRead_eq])

end Sys2Proof.Machine
end

section
/-! PROOFS. `parse_header` after `emit_header` (spec/45_bitstream_decoder.md rule R205), and DECODE and DECOMPRESS of a
stream that begins with a header and the codes of its symbols (rules R190 to R204). -/

namespace Sys2Proof.Machine

/-- A host that answers `Ok` for ever has room for any number of items. -/
theorem accepts_none (n : Nat) : Accepts none n := fun k hk => by cases hk

/-! ### The header's table (rule R205) -/

/-- Settles O45: `emit_header` sends the header of the table, and `parse_header` reads a table's header as that table. -/
theorem headerFidelity : Obligations.HeaderFidelity := by
  intro s hft ⟨hdistinct, htotal⟩ hne
  constructor
  · intro items hc
    have hroom : Room s (headerBytes s.ft).length := ⟨_, hc, accepts_none _⟩
    exact ⟨_, emitHeader_sent hft hdistinct hroom, by simp [sent, hc]⟩
  · intro u body e hc
    refine ⟨_, parseHeader_got hft hne hc, rfl, fun v => rfl, ?distinct, ?total, rfl, ?bytesIn, rfl⟩
    case distinct => simp [got, ← hdistinct]
    case total => simp [got, ← htotal]
    case bytesIn => simp [got, headerBytes_length]

/-! ### DECODE of a whole body -/

/-- Settles O46: the pseudocode's result, `STATE` back at `IDLE` and the outcome recorded. -/
theorem decodeResult : Obligations.DecodeResult := by
  intro s τ m body e ps r rs vs bits rest hi hp hs hb hn ha
  obtain ⟨w, es, hrun, hev⟩ := decodeBody_spec (s := { s with ctrl := .busy }) hp hs hb hn ha
  refine ⟨_, es, exec_of_body (i := .decode) hi hrun, ?state, hev.taken, hev.offered⟩
  case state => simp [finish, recordOutcome, hi]

/-- The pseudocode of DECOMPRESS is that of DECODE from the cleared state, on the same ports (rule R213). -/
theorem bodyOf_decoder {i : Instr} (hi : i = .decode ∨ i = .decompress) (s : State) :
    ∃ s', s'.env = s.env ∧ bodyOf i s = decodeBody s' := by
  obtain rfl | rfl := hi
  · exact ⟨s, rfl, rfl⟩
  · exact ⟨clearAll s, rfl, rfl⟩

/-- DECODE and DECOMPRESS of a body that begins with the codes of `TOTAL` symbols, to a host that takes them. -/
theorem exec_decoder {i : Instr} {s τ : State} {m : Store Count} {body : List Byte} {e : Terminator}
    {ps : List (Pass Byte)} {r : Option Nat} {rs : List (Option Nat)} {vs : List Sym} {bits rest : List Bool}
    (hi : i = .decode ∨ i = .decompress) (hidle : s.ctrl = .idle)
    (hp : s.env.bsrc.passes = ⟨headerBytes m ++ body, e⟩ :: ps) (hs : s.env.ssnk.scripts = r :: rs)
    (hb : BodyStarts m τ body vs bits rest) (hn : vs.length = countSum m) (ha : Accepts r vs.length) :
    ∃ w, exec i s = .next w ∧ w.env.outcomes = s.env.outcomes ++ [.done] ∧
      w.env.ssnk.outputs = s.env.ssnk.outputs ++ [vs] := by
  obtain ⟨s', henv, hbody⟩ := bodyOf_decoder hi { s with ctrl := .busy }
  change s'.env = s.env at henv
  obtain ⟨w, es, hrun, -⟩ := decodeBody_spec (s := s') (by rwa [henv]) (by rwa [henv]) hb hn ha
  refine ⟨_, exec_of_body hidle (hbody.trans hrun), ?_, ?_⟩
  · simp [finish, recordOutcome, henv]
  · simp [finish, recordOutcome, henv]

end Sys2Proof.Machine
end

section
/-! PROOFS. The round trip (spec/45_bitstream_decoder.md rule R203): COMPRESS and the script of its parts hold one
code, whose stream begins with the header and the codes that DECODE reads. -/

namespace Sys2Proof.Machine

/-! ### One code for one tree -/

/-- `g` holds the table `m`, the tree of `τ` and the code table of that tree. -/
structure HoldsCode (m : Store Count) (τ g : State) : Prop where
  table : g.ft = m
  tree : TreeAt g
  codes : CodesOk g
  ns_eq : g.ns = τ.ns
  root_eq : g.root = τ.root

/-- A tree has one code table (rule R162). -/
theorem CodesOk.ctRead_eq {s t : State} (hs : CodesOk s) (ht : CodesOk t) (hns : t.ns = s.ns) (hroot : t.root = s.root)
    (v : Sym) : ctRead v t = ctRead v s := by
  by_cases hv : ctRead v t = []
  · by_contra hne
    have hcode := (hs v _).1 ⟨fun h0 => hne (hv.trans h0.symm), rfl⟩
    exact hne ((ht v _).2 (hcode.congr hns hroot)).2
  · have hcode := (ht v _).1 ⟨hv, rfl⟩
    exact ((hs v _).2 (hcode.congr hns.symm hroot.symm)).2.symm

section
variable {m : Store Count} {τ g g' : State} {x : List Sym}

/-- The stream of a sequence is fixed by the table and its tree. -/
theorem HoldsCode.streamOf_eq (h : HoldsCode m τ g) (h' : HoldsCode m τ g') : streamOf g x = streamOf g' x := by
  have hcodes : ∀ v, ctRead v g = ctRead v g' :=
    h'.codes.ctRead_eq h.codes (h.ns_eq.trans h'.ns_eq.symm) (h.root_eq.trans h'.root_eq.symm)
  simp only [streamOf, codeBits, hcodes, h.table, h'.table]

/-- Every symbol of a counted pass is present in its table. -/
theorem Fits.present {s : State} (hf : Fits [] x) (hs : s.ft = addAll x []) {v : Sym} (hv : v ∈ x) :
    ftRead v s ≠ 0#32 := by
  have hcount : (ftRead v s).toNat = x.count v := by rw [ftRead, hs, hf.table_read]
  intro h0
  rw [h0] at hcount
  exact (List.count_pos_iff.2 hv).ne hcount

theorem Fits.table_ne_nil (hf : Fits [] x) (hx : x ≠ []) : addAll x [] ≠ [] := by
  intro h0
  have hsum := hf.table_sum
  rw [h0] at hsum
  exact hx (List.length_eq_zero_iff.1 hsum.symm)

/-- Every symbol of the counted pass has a code. -/
theorem HoldsCode.has_code (h : HoldsCode (addAll x []) τ g) (hf : Fits [] x) : ∀ v ∈ x, ctRead v g ≠ [] :=
  fun _ hv => (h.tree.ctRead_ne_nil_iff h.codes).2 (hf.present h.table hv)

/-- The code bits of symbols that have codes spell the symbols in the tree (rule R99). -/
theorem spells_codeBits (h : CodesOk g) : ∀ {vs : List Sym}, (∀ v ∈ vs, ctRead v g ≠ []) → Spells g vs (codeBits g vs)
  | [], _ => rfl
  | v :: vs, hv =>
    ⟨ctRead v g, codeBits g vs, (h v _).1 ⟨hv v (List.mem_cons_self ..), rfl⟩,
      spells_codeBits h fun w hw => hv w (List.mem_cons_of_mem _ hw), codeBits_cons g v vs⟩

/-- After the header the stream of a counted pass begins with the codes of its symbols, whatever follows it. -/
theorem HoldsCode.bodyStarts (h : HoldsCode (addAll x []) τ g) (hτ : BuiltFrom (addAll x []) τ) (hf : Fits [] x)
    (hx : x ≠ []) (more : List Byte) : ∃ rest,
      BodyStarts (addAll x []) τ (packBits (codeBits g x) ++ more) x (codeBits g x) rest := by
  have hspells := (spells_codeBits h.codes (h.has_code hf)).congr h.ns_eq.symm h.root_eq.symm
  let bits := codeBits g x
  let pad := List.replicate (8 * (packBits bits).length - bits.length) false
  have hbits : bitsOf (packBits bits ++ more) = bits ++ (pad ++ bitsOf more) := by
    rw [← List.append_assoc, ← bitsOf_packBits]
    exact List.flatMap_append ..
  exact ⟨_, hf.table_wf, hf.table_ne_nil hx, hτ, hspells, hbits⟩

end

/-! ### The script of the parts -/

section
variable {m : Store Count} (hm : ftWf m) (s : State)
include hm

theorem withTable_tableOk : TableOk (withTable m s) := ⟨withTable_distinct hm s, withTable_total hm s⟩

theorem withTable_distinct_ne_zero (hne : m ≠ []) : (withTable m s).distinct ≠ 0#17 := fun h0 =>
  hne (List.length_eq_zero_iff.1 ((withTable_distinct hm s).symm.trans (congrArg BitVec.toNat h0)))

end

/-- GEN finds what BUILD leaves of a canonical table. -/
theorem Built.genReady {s t : State} (h : Built s t) (hi : s.ctrl = .idle) : GenReady t := by
  have hct : t.ct = [] := by rw [h.eq]
  have hhp : t.hp = [] := by rw [h.eq]
  refine ⟨by rw [h.eq]; exact hi, by rw [h.eq], ⟨h.tree.ft, ?codes, ⟨h.tree.sorted, h.tree.below⟩, ?heap⟩, h.tree.ok⟩
  case codes => simp [ctWf, hct]
  case heap => simp [hhp]

/-- BUILD and GEN leave the code of the table, and the rest as it was (rules R155, R166). -/
theorem exec_build_gen {c : State} (hc : BuildReady c) :
    ∃ τ g, exec .build c = .next τ ∧ exec .gen τ = .next g ∧ HoldsCode c.ft τ g ∧ g = { c with
      trv := true, ctv := true, nnodes := g.nnodes, hsize := 0#17, root := g.root, ns := g.ns, hp := [], ct := g.ct,
      env := { c.env with outcomes := g.env.outcomes } } := by
  obtain ⟨τ, hbuild, hτ⟩ := exec_build hc
  obtain ⟨g, hgen, hg⟩ := exec_gen (hτ.genReady hc.1)
  refine ⟨τ, g, hbuild, hgen, ⟨hg.ft_eq.trans hτ.ft_eq, hg.tree, hg.codes, ?ns, ?root⟩, ?frame⟩
  case ns => rw [hg.eq]
  case root => rw [hg.eq]
  case frame => rw [hg.eq, hτ.eq]

section
variable {s : State} {x : List Sym} {ps : List (Pass Sym)} {rs : List (Option Nat)}

/-- COUNT, BUILD, GEN and ENCODE write the stream of the pass under the code of its table. -/
theorem execAll_script (hi : s.ctrl = .idle) (hp : s.env.ssrc.passes = ⟨x, .eos⟩ :: ⟨x, .eos⟩ :: ps)
    (hs : s.env.bsnk.scripts = none :: rs) (hf : Fits [] x) (hx : x ≠ []) :
    ∃ τ g t, BuiltFrom (addAll x []) τ ∧ HoldsCode (addAll x []) τ g ∧
      execAll [.count, .build, .gen, .encode] s = .next t ∧
      t.env.bsnk.outputs = s.env.bsnk.outputs ++ [streamOf g x] := by
  let taken : State := { s with env := tookPass x (⟨x, .eos⟩ :: ps) s.env }
  let c := recordOutcome (if x = [] then .empty else .done) (withTable (addAll x []) taken)
  have hcount : exec .count s = .next c := exec_count_eos hi hp hf
  have hT : TableOk c := withTable_tableOk hf.table_wf taken
  have hc : BuildReady c :=
    ⟨hi, rfl, hf.table_wf, hT, withTable_distinct_ne_zero hf.table_wf taken (hf.table_ne_nil hx)⟩
  obtain ⟨τ, g, hbuild, hgen, hcode, hg⟩ := exec_build_gen hc
  have hidle : g.ctrl = .idle := by rw [hg]; exact hi
  have hTg : TableOk g := by rw [hg]; exact hT
  have hssrc : g.env.ssrc.passes = ⟨x, .eos⟩ :: ps := by rw [hg]; rfl
  have hbsnk : g.env.bsnk = s.env.bsnk := by rw [hg]; rfl
  obtain ⟨t, es, hencode, ht, -, -⟩ := encodeResult g x ps none rs hidle (by rw [hg]; rfl) (by rw [hg])
    hcode.tree.ft hTg hssrc (by rwa [hbsnk]) (hcode.has_code hf) (accepts_none _)
  refine ⟨τ, g, t, ⟨c, hc, rfl, hbuild⟩, hcode, ?script, ?output⟩
  case script => simp only [execAll, hcount, hbuild, hgen, hencode]
  case output => rw [ht, ← hbsnk]

/-! ### COMPRESS -/

/-- The pseudocode of BUILD and GEN leaves the code of the tree, and the rest as it was (rules R155, R166). -/
theorem BuiltFrom.build_gen {m : Store Count} {τ c : State} (hτ : BuiltFrom m τ) (hwf : ftWf m) (hne : m ≠ [])
    (hv : c.ftv = true) (hft : c.ft = m) (hT : TableOk c) :
    ∃ b g, buildBody c = .ok (.done, b) ∧ genBody b = .ok (.done, g) ∧ HoldsCode m τ g ∧ g = { c with
      trv := true, ctv := true, nnodes := τ.nnodes, hsize := 0#17, root := τ.root, ns := τ.ns, hp := [],
      ct := g.ct } := by
  obtain ⟨b, hbuild, htree, rfl⟩ := hτ.build hwf hne hv hft hT
  obtain ⟨ct, hgen, hcodes⟩ := genBody_spec htree rfl
  exact ⟨_, _, hbuild, hgen, ⟨hft, htree.congr rfl rfl rfl rfl rfl, hcodes, rfl, rfl⟩, rfl⟩

/-- The pseudocode of COMPRESS writes the stream of the pass under the code of its table. -/
theorem compressBody_stream {τ : State} (hp : s.env.ssrc.passes = ⟨x, .eos⟩ :: ⟨x, .eos⟩ :: ps)
    (hs : s.env.bsnk.scripts = none :: rs) (hf : Fits [] x) (hx : x ≠ []) (hτ : BuiltFrom (addAll x []) τ) :
    ∃ g u, HoldsCode (addAll x []) τ g ∧ compressBody s = .ok (.done, u) ∧
      u.env.bsnk.outputs = s.env.bsnk.outputs ++ [streamOf g x] := by
  let taken : State := { clearAll s with env := tookPass x (⟨x, .eos⟩ :: ps) s.env }
  let c := withTable (addAll x []) taken
  have hcount : countBody (clearAll s) = .ok (if x = [] then .empty else .done, c) := countBody_eos hp hf
  have hT : TableOk c := withTable_tableOk hf.table_wf taken
  have hne := hf.table_ne_nil hx
  have hd : c.distinct ≠ 0#17 := withTable_distinct_ne_zero hf.table_wf taken hne
  obtain ⟨b, g, hbuild, hgen, hcode, hg⟩ := hτ.build_gen hf.table_wf hne (c := c) rfl rfl hT
  have hgd : g.distinct.toNat = g.ft.length := by rw [hg]; exact hT.1
  have hssrc : g.env.ssrc.passes = ⟨x, .eos⟩ :: ps := by rw [hg]; rfl
  have hbsnk : g.env.bsnk = s.env.bsnk := by rw [hg]; rfl
  obtain ⟨es, hencode, -, -⟩ := encodeBody_spec (s := g) ⟨by rw [hg]; rfl, by rw [hg]⟩ hcode.tree.ft hgd hssrc
    (by rwa [hbsnk]) (hcode.has_code hf) (accepts_none _)
  have hrun : compressBody s = encodeBody g := by
    rw [compressBody, hcount, Run.ok_bind]
    refine (if_neg hd).trans ?_
    rw [hbuild, Run.ok_bind]
    dsimp only
    rw [hgen, Run.ok_bind]
  exact ⟨g, _, hcode, hrun.trans hencode, by rw [← hbsnk]⟩

end

/-- Settles O55: the script and COMPRESS hold codes of the tree BUILD makes of the counts, so they write one stream;
its header gives DECODE the counts, hence the tree, and its body begins with the codes of the input in that tree. -/
theorem roundTrip : Obligations.RoundTrip := by
  intro s x ps rs hi hp hs hx hcount
  have hf : Fits [] x := fits_nil hcount
  obtain ⟨τ, g, t', hτ, hg, hscript, hout'⟩ := execAll_script hi hp hs hf hx
  obtain ⟨g', u, hg', hrun, hout⟩ := compressBody_stream (s := { s with ctrl := .busy }) hp hs hf hx hτ
  refine ⟨streamOf g x, finish .done u, t', exec_of_body (i := .compress) hi hrun, ?compress, hscript, hout', ?decode⟩
  case compress =>
    rw [hg.streamOf_eq hg']
    exact hout
  case decode =>
    intro i v more e qs ks hdec hidle hpasses hroom
    obtain ⟨rest, hbody⟩ := hg.bodyStarts hτ hf hx more
    rw [streamOf, hg.table, List.append_assoc] at hpasses
    exact exec_decoder hdec hidle hpasses hroom hbody hf.table_sum.symm (accepts_none _)

end Sys2Proof.Machine
end

section
/-! PROOFS. CLR, and what the host reads of a command's outcome (spec/46_system_commands.md rules R211, R214). -/

namespace Sys2Proof.Machine

/-- Settles O19: CLR is carried out in `IDLE` and in `FAULTED` alike, and leaves only the scratch registers and the
ports as they were. -/
theorem clrResult : Obligations.ClrResult := by
  intro s hs
  rw [exec_clr hs]
  rfl

/-! ### The outcome of a command (rule R214) -/

theorem emptyBit_eq_true_iff {s : State} : emptyBit s = true ↔ s.ftv = true ∧ s.distinct = 0#17 := by
  simp [emptyBit]

theorem emptyBit_of_distinct {s : State} (h : s.distinct ≠ 0#17) : emptyBit s = false := by
  simp [emptyBit, h]

@[simp] theorem emptyBit_finish (o : CmdOutcome) (s : State) : emptyBit (finish o s) = emptyBit s := rfl

theorem FaultKind.code_inj {k k' : FaultKind} : k.code = k'.code ↔ k = k' := by
  cases k <;> cases k' <;> decide

/-- The outcome of a command that runs to its end is what `EMPTY` shows after it. -/
def Shows (o : CmdOutcome) (u : State) : Prop :=
  o = .empty ∧ emptyBit u = true ∨ o = .done ∧ emptyBit u = false

/-- The table a command ends with decides its outcome (rules R126, R151, R212); GEN and ENCODE find one that is not
empty, by rule R47. -/
theorem bodyOf_shows {i : Instr} {s u : State} {o : CmdOutcome} (hs : FlagsOk s) (h : bodyOf i s = .ok (o, u)) :
    Shows o u := by
  obtain ⟨hct, htr, -⟩ := hs
  cases i with
  | clr => cases h; exact .inr ⟨rfl, rfl⟩
  | count =>
    have hE := (countBody_end s).ok _ h
    have hv : u.ftv = true := by rw [show u = _ from hE.eq]
    have ho : o = if u.distinct = 0#17 then .empty else .done := hE.outcome
    by_cases hd : u.distinct = 0#17
    · exact .inl ⟨ho.trans (if_pos hd), emptyBit_eq_true_iff.2 ⟨hv, hd⟩⟩
    · exact .inr ⟨ho.trans (if_neg hd), emptyBit_of_distinct hd⟩
  | build =>
    have hE := (buildBody_end s).ok _ h
    obtain ⟨ho, hd, hu⟩ | ⟨ho, hd, -⟩ := hE.outcome
    · dsimp only at hu
      rw [hu]
      exact .inl ⟨ho, emptyBit_eq_true_iff.2 ⟨hE.valid, hd⟩⟩
    · exact .inr ⟨ho, emptyBit_of_distinct (by rw [show u = _ from hE.eq]; exact hd)⟩
  | gen =>
    have hE := (genBody_end s).ok _ h
    obtain ⟨-, hd⟩ := htr hE.valid
    exact .inr ⟨hE.outcome, emptyBit_of_distinct (by rw [show u = _ from hE.eq]; exact hd)⟩
  | encode =>
    have hE := (encodeBody_end s).ok _ h
    obtain ⟨-, hd⟩ := htr (hct hE.valid.2)
    exact .inr ⟨hE.outcome, emptyBit_of_distinct (by rw [show u = _ from hE.eq]; exact hd)⟩
  | decode =>
    have hE := (decodeBody_end s).ok _ h
    exact .inr ⟨hE.outcome, emptyBit_of_distinct hE.distinct⟩
  | compress =>
    have hE := (compressBody_end s).ok _ h
    obtain ⟨ho, hd, -⟩ | ⟨ho, hd, -⟩ := hE.outcome
    · have hv : u.ftv = true := by rw [show u = _ from hE.eq]
      exact .inl ⟨ho, emptyBit_eq_true_iff.2 ⟨hv, hd⟩⟩
    · exact .inr ⟨ho, emptyBit_of_distinct hd⟩
  | decompress =>
    have hE := (decompressBody_end s).ok _ h
    exact .inr ⟨hE.outcome, emptyBit_of_distinct hE.distinct⟩

/-- Settles O10: a command that runs to its end leaves `IDLE` and the outcome `EMPTY` shows; a fault leaves `FAULTED`
and its code, and no two kinds have one code. -/
theorem outcomeVisible : Obligations.OutcomeVisible := by
  intro i s t hi ⟨hct, htr, _⟩ h
  rw [exec_idle hi] at h
  obtain ⟨o, u, hu, rfl⟩ | ⟨k, u, hu, rfl⟩ := conclude_next h
  case inl =>
    have hshows : Shows o u := bodyOf_shows (s := { s with ctrl := .busy }) ⟨hct, htr, by simp⟩ hu
    obtain ⟨-, -, -, hout⟩ := ((bodyOf_ports i { s with ctrl := .busy }).ok _ hu).rest
    refine ⟨o, congrArg (· ++ [o]) hout, ?_⟩
    obtain ⟨rfl, he⟩ | ⟨rfl, he⟩ := hshows <;> simp [he]
  case inr =>
    obtain ⟨-, -, hout, -⟩ := exec_raised hi hu
    exact ⟨.fault k, hout, by simp, by simp, fun k' => by simp [FaultKind.code_inj]⟩

end Sys2Proof.Machine
end

section
/-! PROOFS. What no pseudocode looks at: `FAULT`, the record of outcomes and, but for ENCODE's own count of the bytes
it sends, `BYTES_OUT` (spec/10_state.md rule R23, log 14). Each stretch of pseudocode does to a state in which these are
changed what it does to the state. -/

namespace Sys2Proof.Machine

/-! ### Relabelled states -/

/-- A change of `BYTES_OUT`, `FAULT` and the record of outcomes. -/
structure Relabel where
  bytesOut : BitVec 64 → BitVec 64 := id
  fault : BitVec 4 → BitVec 4 := id
  outcomes : List CmdOutcome → List CmdOutcome := id

namespace Relabel
variable (φ : Relabel) {α β : Type}

/-- The state after the change. -/
def on (s : State) : State :=
  { s with
    bytesOut := φ.bytesOut s.bytesOut, fault := φ.fault s.fault,
    env := { s.env with outcomes := φ.outcomes s.env.outcomes } }

/-- The same result with every state in it changed; `g` says how the answer changes. -/
def run (g : α → α) : Run α → Run α
  | .ok a => .ok (g a)
  | .error (.raised k u) => .error (.raised k (φ.on u))
  | .error (.fault r) => .error (.fault r)
  | .error (.refused r) => .error (.refused r)

/-- The change of a result that is a value and a state. -/
def pair (r : α × State) : α × State := (r.1, φ.on r.2)

/-- A piece of pseudocode does to a changed state what it does to the state, changed. -/
def Keeps (f : State → Run State) : Prop := ∀ s, f (φ.on s) = φ.run φ.on (f s)

/-- The same for a piece that also answers a value. -/
def KeepsTo (f : State → Run (α × State)) : Prop := ∀ s, f (φ.on s) = φ.run φ.pair (f s)

variable {φ}

theorem run_bind {g : α → α} {h : β → β} {m m' : Run α} {k k' : α → Run β} (hm : m' = φ.run g m)
    (hk : ∀ a, k' (g a) = φ.run h (k a)) : m' >>= k' = φ.run h (m >>= k) := by
  subst hm
  rcases m with (_ | _ | _) | a
  · rfl
  · rfl
  · rfl
  · exact hk a

/-- What only reads answers the same. -/
theorem run_bind_read {h : β → β} {m : Run α} {k k' : α → Run β} (hm : ∀ k u, m ≠ .error (.raised k u))
    (hk : ∀ a, k' a = φ.run h (k a)) : m >>= k' = φ.run h (m >>= k) := by
  rcases m with (⟨k, u⟩ | _ | _) | a
  · exact absurd rfl (hm k u)
  · rfl
  · rfl
  · exact hk a

/-- A test that the change leaves alone. -/
theorem run_ite {g : α → α} {c : Prop} [Decidable c] {m m' l l' : Run α} (hm : m' = φ.run g m) (hl : l' = φ.run g l) :
    (if c then m' else l') = φ.run g (if c then m else l) := by
  by_cases hc : c
  · rwa [if_pos hc, if_pos hc]
  · rwa [if_neg hc, if_neg hc]

/-! ### Ports -/

@[simp] theorem on_ssrc (s : State) : (φ.on s).env.ssrc = s.env.ssrc := rfl
@[simp] theorem on_bsrc (s : State) : (φ.on s).env.bsrc = s.env.bsrc := rfl
@[simp] theorem on_bsnk (s : State) : (φ.on s).env.bsnk = s.env.bsnk := rfl
@[simp] theorem on_ssnk (s : State) : (φ.on s).env.ssnk = s.env.ssnk := rfl

theorem srcSym_keeps : φ.KeepsTo srcSym := by
  intro s
  unfold srcSym
  rw [on_ssrc]
  cases s.env.ssrc.take <;> rfl

theorem srcByte_keeps : φ.KeepsTo srcByte := by
  intro s
  unfold srcByte
  rw [on_bsrc]
  cases s.env.bsrc.take <;> rfl

theorem sinkByte_keeps (b : Byte) : φ.KeepsTo (sinkByte b) := by
  intro s
  unfold sinkByte
  rw [on_bsnk]
  cases s.env.bsnk.offer b <;> rfl

theorem sinkSym_keeps (v : Sym) : φ.KeepsTo (sinkSym v) := by
  intro s
  unfold sinkSym
  rw [on_ssnk]
  cases s.env.ssnk.offer v <;> rfl

/-! ### COUNT -/

theorem countStep_keeps (v : Sym) : φ.Keeps (countStep v) := by
  intro s
  by_cases hm : ftRead v s = Config.countMax
  · rw [countStep_max hm]
    exact countStep_max hm
  · rw [countStep_ok hm]
    exact countStep_ok hm

theorem countLoop_keeps : ∀ n : Nat, φ.Keeps (countLoop n)
  | 0 => fun _ => rfl
  | n + 1 => fun s => run_bind (srcSym_keeps s) fun
    | (.err, _) => rfl
    | (.eos, _) => rfl
    | (.item v, u) => run_bind (countStep_keeps v u) (countLoop_keeps n)

theorem countBody_keeps : φ.KeepsTo countBody := fun s =>
  run_bind (countLoop_keeps _ (clearTables (openSsrc s))) fun _ => rfl

/-! ### BUILD -/

theorem growTree_keeps : φ.Keeps growTree := by
  intro s
  have hgraft : growTree (φ.on s) = Except.map (graft (φ.on s)) (growTree s) := growTree_graft (φ.on s) s rfl
  have hbuilds := growTree_builds s
  rw [hgraft]
  rcases hrun : growTree s with (⟨k, u⟩ | _ | _) | u
  · exact absurd (hbuilds.raised k u hrun).2 (by simp)
  · rfl
  · rfl
  · have hu : u = _ := (hbuilds.ok u hrun).eq
    show Except.ok (graft (φ.on s) u) = .ok (φ.on u)
    rw [hu]
    rfl

theorem buildBody_keeps : φ.KeepsTo buildBody := by
  intro s
  rw [buildBody_eq, buildBody_eq s]
  exact run_ite (run_ite rfl (run_bind (growTree_keeps (dropCodes (dropTree s))) fun _ => rfl)) rfl

/-! ### GEN -/

theorem require_keeps (c : Bool) (s : State) : require c (φ.on s) = φ.run id (require c s) := by
  cases c <;> rfl

theorem genLoop_keeps : ∀ (n : Nat) (st : List (NodeIx × Code)), φ.Keeps (genLoop n st)
  | _, [] => fun s => by unfold genLoop; rfl
  | 0, _ :: _ => fun _ => rfl
  | n + 1, (m, p) :: st => fun s => by
    refine run_bind_read (nsRead_silent m s) fun d => ?_
    cases d.tag with
    | leaf => exact genLoop_keeps n st (ctWrite d.sym p s)
    | internal => exact genLoop_keeps n _ s

theorem genBody_keeps : φ.KeepsTo genBody := fun s =>
  run_bind (require_keeps s.trv s) fun _ => run_bind (genLoop_keeps _ _ (dropCodes s)) fun _ => rfl

/-! ### DECODE -/

theorem hdrByte_keeps : φ.KeepsTo hdrByte := fun s =>
  run_bind (srcByte_keeps s) fun
    | (.err, _) => rfl
    | (.eos, _) => rfl
    | (.item _, _) => rfl

theorem get16be_keeps : φ.KeepsTo get16be := fun s =>
  run_bind (hdrByte_keeps s) fun r => run_bind (hdrByte_keeps r.2) fun _ => rfl

theorem get32be_keeps : φ.KeepsTo get32be := fun s =>
  run_bind (hdrByte_keeps s) fun r0 => run_bind (hdrByte_keeps r0.2) fun r1 =>
    run_bind (hdrByte_keeps r1.2) fun r2 => run_bind (hdrByte_keeps r2.2) fun _ => rfl

theorem headerEntries_keeps : ∀ (n : Nat) (prev : Option Sym), φ.Keeps (headerEntries n prev)
  | 0, _ => fun _ => rfl
  | n + 1, _ => fun s =>
    run_bind (get16be_keeps s) fun (v, u) => run_bind (get32be_keeps u) fun (f, w) =>
      run_ite rfl (run_ite rfl (headerEntries_keeps n (some v)
        { ftWrite v f w with total := (ftWrite v f w).total + f.setWidth 48 }))

theorem parseHeader_keeps : φ.Keeps parseHeader := fun s =>
  run_bind (get32be_keeps (clearTables s)) fun (_, u) =>
    run_ite rfl (run_bind (headerEntries_keeps _ _ u) fun _ => rfl)

theorem getBit_keeps : φ.KeepsTo getBit := fun s =>
  run_ite (hl := rfl) <| run_bind (srcByte_keeps s) fun
    | (.err, _) => rfl
    | (.eos, _) => rfl
    | (.item _, _) => rfl

theorem outSym_keeps (v : Sym) : φ.Keeps (outSym v) := fun s =>
  run_bind (sinkSym_keeps v s) fun
    | (.ok, _) => rfl
    | (.err, _) => rfl

theorem walkStep_keeps (b : Bool) : φ.Keeps (walkStep b) := by
  intro s
  refine run_bind_read (nsRead_silent s.cur s) fun d => ?_
  refine run_ite rfl (run_bind_read (nsRead_silent _ { s with cur := childOf b d }) fun x => ?_)
  cases x.tag with
  | leaf => exact run_bind (outSym_keeps x.sym { s with cur := childOf b d }) fun _ => rfl
  | internal => rfl

theorem walkLoop_keeps : ∀ n : Nat, φ.Keeps (walkLoop n)
  | 0 => fun _ => rfl
  | n + 1 => fun s =>
    run_ite rfl (run_bind (getBit_keeps s) fun r => run_bind (walkStep_keeps r.1 r.2) (walkLoop_keeps n))

theorem walkBody_keeps : φ.Keeps walkBody := fun s =>
  walkLoop_keeps _ { s with cur := s.root, remain := s.total, shift := 0#8, nbitsIn := 0#4 }

theorem decodeBody_keeps : φ.KeepsTo decodeBody := fun s =>
  run_bind (parseHeader_keeps { openSsnk (openBsrc s) with bytesIn := 0#64 }) fun t =>
    run_bind (buildBody_keeps t) fun r => run_bind (walkBody_keeps r.2) fun _ => rfl

/-! ### ENCODE -/

section
variable (hb : φ.bytesOut = id)
include hb

theorem outByte_keeps (x : Byte) : φ.Keeps (outByte x) := fun s =>
  run_bind (sinkByte_keeps x s) fun
    | (.ok, _) => by simp only [pair, run, on, hb, id_eq]
    | (.err, _) => rfl

theorem outBytes_keeps : ∀ xs : List Byte, φ.Keeps (outBytes xs)
  | [] => fun _ => rfl
  | x :: xs => fun s => run_bind (outByte_keeps hb x s) (outBytes_keeps xs)

theorem emitEntries_keeps : ∀ m : Store Count, φ.Keeps (emitEntries m)
  | [] => fun _ => rfl
  | (_, f) :: m => fun s => run_bind (outBytes_keeps hb _ s) fun u =>
    run_bind (outBytes_keeps hb (bytes32 f) u) (emitEntries_keeps m)

theorem emitHeader_keeps : φ.Keeps emitHeader := fun s =>
  run_bind (outBytes_keeps hb _ s) fun u => emitEntries_keeps hb u.ft u

theorem putBit_keeps (b : Bool) : φ.Keeps (putBit b) := fun s =>
  run_ite (run_bind (outByte_keeps hb _ s) fun _ => rfl) rfl

theorem putCode_keeps : ∀ p : Code, φ.Keeps (putCode p)
  | [] => fun _ => rfl
  | b :: p => fun s => run_bind (putBit_keeps hb b s) (putCode_keeps p)

theorem flushBits_keeps : φ.Keeps flushBits := fun s =>
  run_ite rfl (run_bind (outByte_keeps hb _ s) fun _ => rfl)

theorem packLoop_keeps : ∀ n : Nat, φ.Keeps (packLoop n)
  | 0 => fun _ => rfl
  | n + 1 => fun s => run_bind (srcSym_keeps s) fun
    | (.err, _) => rfl
    | (.eos, _) => rfl
    | (.item v, u) => run_ite rfl (run_bind (putCode_keeps hb (ctRead v u) u) (packLoop_keeps n))

theorem packBody_keeps : φ.Keeps packBody := fun s =>
  run_bind (packLoop_keeps hb _ { s with acc := 0#8, nbits := 0#3 }) (flushBits_keeps hb)

theorem encodeBody_keeps : φ.KeepsTo encodeBody := fun s => by
  refine run_bind (require_keeps (s.ftv && s.ctv) s) fun _ => ?_
  let u : State := { openBsnk (openSsrc s) with bytesOut := 0#64 }
  have hu : ({ openBsnk (openSsrc (φ.on s)) with bytesOut := 0#64 } : State) = φ.on u := by simp [u, on, hb]
  dsimp only
  rw [hu]
  exact run_bind (emitHeader_keeps hb u) fun v => run_bind (packBody_keeps hb v) fun _ => rfl

end

/-! ### Whole commands -/

section
variable (hb : φ.bytesOut = id) (hf : φ.fault = id)
include hb hf

theorem on_clearAll (s : State) : φ.on (clearAll s) = clearAll (φ.on s) := by
  simp only [on, hb, hf]
  rfl

theorem compressBody_keeps : φ.KeepsTo compressBody := by
  intro s
  unfold compressBody
  rw [← on_clearAll hb hf]
  refine run_bind (countBody_keeps (clearAll s)) fun (_, u) => ?_
  exact run_ite rfl (run_bind (buildBody_keeps u) fun r => run_bind (genBody_keeps r.2) fun r =>
    encodeBody_keeps hb r.2)

/-- No command reads the record of outcomes (log 14). -/
theorem bodyOf_keeps (i : Instr) : φ.KeepsTo (bodyOf i) := by
  cases i with
  | clr =>
    intro s
    show Except.ok (_, clearAll (φ.on s)) = _
    rw [← on_clearAll hb hf]
    rfl
  | count => exact countBody_keeps
  | build => exact buildBody_keeps
  | gen => exact genBody_keeps
  | encode => exact encodeBody_keeps hb
  | decode => exact decodeBody_keeps
  | compress => exact compressBody_keeps hb hf
  | decompress =>
    intro s
    show decodeBody (clearAll (φ.on s)) = _
    rw [← on_clearAll hb hf]
    exact decodeBody_keeps _

end

end Relabel
end Sys2Proof.Machine
end

section
/-! PROOFS. The composites and the commands they are made of (spec/46_system_commands.md rules R212, R213, R215). -/

namespace Sys2Proof.Machine

/-! ### DECOMPRESS and DECODE (rule R213) -/

/-- The one change CLR makes that DECODE does not make itself. -/
def clearCounters : Relabel where
  bytesOut := fun _ => 0#64
  fault := fun _ => 0#4

/-- What `parse_header` clears is of no account to it (rule R191). -/
theorem parseHeader_congr {s t : State} (h : clearTables s = clearTables t) : parseHeader s = parseHeader t := by
  rw [parseHeader, parseHeader, h]

/-- Whatever else CLR clears, DECODE clears too, when it sets `BYTES_IN` and parses the header. -/
theorem decodeBody_clearAll (s : State) : decodeBody (clearAll s) = decodeBody (clearCounters.on s) := by
  have hclear : clearTables { openSsnk (openBsrc (clearAll s)) with bytesIn := 0#64 } =
      clearTables { openSsnk (openBsrc (clearCounters.on s)) with bytesIn := 0#64 } := rfl
  rw [decodeBody, decodeBody]
  dsimp only
  rw [parseHeader_congr hclear]

/-- DECOMPRESS runs as DECODE does, with `BYTES_OUT` and `FAULT` cleared throughout. -/
theorem decompressBody_eq (s : State) : decompressBody s = clearCounters.run clearCounters.pair (decodeBody s) :=
  (decodeBody_clearAll s).trans (Relabel.decodeBody_keeps s)

/-- Settles O47: DECOMPRESS runs as DECODE does, with `BYTES_OUT` and `FAULT` cleared throughout. -/
theorem decompressResult : Obligations.DecompressResult := by
  intro s τ m body e ps r rs vs bits rest hi hp hs hb hn ha
  obtain ⟨w, es, hrun, -⟩ := decodeBody_spec (s := { s with ctrl := .busy }) hp hs hb hn ha
  have hrun' := decompressBody_eq { s with ctrl := .busy }
  rw [hrun] at hrun'
  exact ⟨_, _, exec_of_body (i := .decode) hi hrun, exec_of_body (i := .decompress) hi hrun', rfl, rfl⟩

/-! ### Scripts (rule R215) -/

/-- The pseudocode of commands issued one after the other, after a command with outcome and state `r`. -/
def script : List Instr → CmdOutcome × State → Run (CmdOutcome × State)
  | [], r => .ok r
  | i :: is, r => bodyOf i r.2 >>= script is

theorem script_singleton (i : Instr) (r : CmdOutcome × State) : script [i] r = bodyOf i r.2 := by
  show bodyOf i r.2 >>= pure = _
  exact bind_pure _

section
variable {φ : Relabel} (hb : φ.bytesOut = id) (hf : φ.fault = id)
include hb hf

theorem Relabel.script_keeps : ∀ (is : List Instr) (r : CmdOutcome × State),
    script is (φ.pair r) = φ.run φ.pair (script is r)
  | [], _ => rfl
  | i :: is, r => Relabel.run_bind (Relabel.bodyOf_keeps hb hf i r.2) (Relabel.script_keeps is)

/-- What comes of a command does not show a change of the record of outcomes. -/
theorem forgetIn_conclude_run (m : Run (CmdOutcome × State)) :
    forgetIn (conclude (φ.run φ.pair m)) = forgetIn (conclude m) := by
  obtain ⟨b, f, g⟩ := φ
  obtain rfl : b = id := hb
  obtain rfl : f = id := hf
  rcases m with (⟨k, u⟩ | _ | _) | _
  · simp only [Relabel.run, conclude_raised, faultEntry_eq]
    rfl
  · rfl
  · rfl
  · rfl

end

/-- The pseudocode leaves `STATE` as it is: `IDLE` and `FAULTED` are written when it has ended. -/
theorem bodyOf_ctrl {i : Instr} {s u : State} {o : CmdOutcome} (h : bodyOf i s = .ok (o, u)) : u.ctrl = s.ctrl := by
  cases i with
  | clr => cases h; rfl
  | count => rw [show u = _ from ((countBody_end s).ok _ h).eq]
  | build => rw [show u = _ from ((buildBody_end s).ok _ h).eq]
  | gen => rw [show u = _ from ((genBody_end s).ok _ h).eq]
  | encode => rw [show u = _ from ((encodeBody_end s).ok _ h).eq]
  | decode => rw [show u = _ from ((decodeBody_end s).ok _ h).eq]
  | compress => rw [show u = _ from ((compressBody_end s).ok _ h).eq]
  | decompress => rw [show u = _ from ((decompressBody_end s).ok _ h).eq]; rfl

/-- In `FAULTED` the words of a script without CLR are dropped one after the other (rule R91). -/
theorem execAll_faulted {s : State} (hs : s.ctrl = .faulted) :
    ∀ {is : List Instr}, .clr ∉ is → execAll is s = .next s
  | [], _ => rfl
  | i :: is, h => by
    rw [execAll, exec_faulted hs (List.ne_of_not_mem_cons h).symm]
    exact execAll_faulted hs (List.not_mem_of_not_mem_cons h)

/-- A script without CLR, issued when a command has ended, runs its pseudocode as one piece does: each command goes on
from the state the one before it left, and one that faults ends the script. -/
theorem execAll_finish : ∀ (is : List Instr) (o : CmdOutcome) (s : State), s.ctrl = .busy → .clr ∉ is →
    forgetIn (execAll is (finish o s)) = forgetIn (conclude (script is (o, s)))
  | [], _, _, _, _ => rfl
  | i :: is, o, s, hs, hclr => by
    have his := List.not_mem_of_not_mem_cons hclr
    let φ : Relabel := { outcomes := (· ++ [o]) }
    have hstart : ({ finish o s with ctrl := .busy } : State) = φ.on s := by
      rw [← hs]
      rfl
    have hbody : exec i (finish o s) = conclude (φ.run φ.pair (bodyOf i s)) := by
      rw [exec_idle (finish_ctrl s o), hstart, Relabel.bodyOf_keeps rfl rfl]
    rw [execAll, hbody, script]
    rcases hrun : bodyOf i s with (⟨k, u⟩ | _ | _) | ⟨o', u⟩
    · show forgetIn (execAll is (recordOutcome _ (faultEntry k (φ.on u)))) = _
      rw [execAll_faulted rfl his]
      exact forgetIn_conclude_run (φ := φ) rfl rfl (.error (.raised k u))
    · rfl
    · rfl
    · show forgetIn (execAll is (finish o' (φ.on u))) = _
      have hscript : script is (o', φ.on u) = φ.run φ.pair (script is (o', u)) := Relabel.script_keeps rfl rfl is (o', u)
      rw [execAll_finish is o' (φ.on u) ((bodyOf_ctrl hrun).trans hs) his, hscript]
      exact forgetIn_conclude_run rfl rfl _

/-- A script that begins with CLR. -/
theorem execAll_clr {is : List Instr} {s : State} (hi : s.ctrl = .idle) (his : .clr ∉ is) :
    forgetIn (execAll (.clr :: is) s) = forgetIn (conclude (script is (.done, clearAll { s with ctrl := .busy }))) := by
  rw [execAll, exec_clr (by simp [hi])]
  exact execAll_finish is .done (clearAll { s with ctrl := .busy }) rfl his

/-! ### COMPRESS and its script -/

/-- The loop of COUNT ends only at the `End` of a pass no symbol of which passes the limit (rules R74, R120, R123). -/
theorem countLoop_ok : ∀ (n : Nat) {s t : State} {vs : List Sym} {e : Terminator},
    s.env.ssrc.cur = some ⟨vs, e⟩ → countLoop n s = .ok t → e = .eos ∧ Fits s.ft vs
  | 0, _, _, _, _, _, h => by cases h
  | n + 1, s, t, [], .eos, hc, h => ⟨rfl, fun v => Nat.le_of_lt_succ (BitVec.isLt _)⟩
  | n + 1, s, t, [], .err, hc, h => by
    rw [countLoop, srcSym_err hc] at h
    cases h
  | n + 1, s, t, v :: vs, e, hc, h => by
    let s1 : State := { s with env := { s.env with
      ssrc := { s.env.ssrc with cur := some ⟨vs, e⟩ }, trace := s.env.trace ++ [.tookSym (.item v)] } }
    rw [countLoop, srcSym_cons hc] at h
    obtain ⟨u, hu, h⟩ := Run.bind_eq_ok.1 (show (countStep v s1 >>= countLoop n) = .ok t from h)
    by_cases hm : ftRead v s1 = Config.countMax
    · rw [countStep_max hm] at hu
      cases hu
    · rw [countStep_ok hm] at hu
      cases hu
      obtain ⟨he, hfit⟩ := countLoop_ok n (vs := vs) (e := e) rfl h
      refine ⟨he, fun w => ?_⟩
      have hw := hfit w
      rw [addOne_read hm] at hw
      rw [List.count_cons]
      simpa [s1, Nat.add_assoc, Nat.add_comm, Nat.add_left_comm] using hw

/-- COUNT that ends has found an empty table exactly when its pass was empty. -/
theorem countBody_distinct {s u : State} {o : CmdOutcome} {vs : List Sym} {e : Terminator} {ps : List (Pass Sym)}
    (hp : s.env.ssrc.passes = ⟨vs, e⟩ :: ps) (h : countBody s = .ok (o, u)) : u.distinct = 0#17 ↔ vs = [] := by
  obtain ⟨t, ht, -⟩ := Run.bind_eq_ok.1 h
  obtain ⟨rfl, hf⟩ := countLoop_ok (vs := vs) (e := e) _ (by simp [openSsrc, SrcPort.start, hp]) ht
  rw [countBody_eos hp hf] at h
  cases h
  rw [← BitVec.toNat_inj, withTable_distinct hf.table_wf, hf.table_length]
  simp

/-- COMPRESS of an input that is not empty is the five steps of its script (rule R212). -/
theorem compressBody_script {s : State} {vs : List Sym} {e : Terminator} {ps : List (Pass Sym)}
    (hp : s.env.ssrc.passes = ⟨vs, e⟩ :: ps) (hne : vs ≠ []) :
    compressBody s = script [.count, .build, .gen, .encode] (.done, clearAll s) := by
  show (countBody (clearAll s) >>= _) = countBody (clearAll s) >>= _
  cases hrun : countBody (clearAll s) with
  | error x => rfl
  | ok r =>
    have hd : r.2.distinct ≠ 0#17 := mt (countBody_distinct (s := clearAll s) hp hrun).1 hne
    refine (if_neg hd).trans ?_
    show _ = buildBody r.2 >>= fun b => genBody b.2 >>= script [.encode]
    rw [show script [.encode] = fun g => encodeBody g.2 from funext (script_singleton .encode)]

/-- COMPRESS of an empty input ends with COUNT (rule R212). -/
theorem compressBody_empty {s : State} {e : Terminator} {ps : List (Pass Sym)}
    (hp : s.env.ssrc.passes = ⟨[], e⟩ :: ps) : compressBody s = script [.count] (.done, clearAll s) := by
  show (countBody (clearAll s) >>= _) = countBody (clearAll s) >>= _
  cases hrun : countBody (clearAll s) with
  | error x => rfl
  | ok r =>
    have hd : r.2.distinct = 0#17 := (countBody_distinct (s := clearAll s) hp hrun).2 rfl
    refine (if_pos hd).trans ?_
    have ho : r.1 = if r.2.distinct = 0#17 then .empty else .done := ((countBody_end _).ok r hrun).outcome
    rw [if_pos hd] at ho
    rw [← ho]
    rfl

/-- DECOMPRESS is CLR and DECODE (rule R213). -/
theorem decompressBody_script (s : State) : decompressBody s = script [.decode] (.done, clearAll s) := by
  rw [script_singleton]
  rfl

/-- A composite against CLR and the script of its parts. -/
theorem exec_composite {i : Instr} {is : List Instr} {s : State} (hi : s.ctrl = .idle) (his : .clr ∉ is)
    (hbody : bodyOf i { s with ctrl := .busy } = script is (.done, clearAll { s with ctrl := .busy })) :
    forgetIn (exec i s) = forgetIn (execAll (.clr :: is) s) := by
  rw [exec_idle hi, execAll_clr hi his, hbody]

/-- Settles O52: a composite runs CLR and the pseudocode of its parts as one piece, which is what comes of issuing them
one by one; COMPRESS stops after COUNT exactly when its input is empty. -/
theorem compositeExpansion : Obligations.CompositeExpansion := by
  refine ⟨fun s vs e ps hi hp => ⟨fun hne => ?some, ?none⟩, fun s hi => ?decompress⟩
  case some => exact exec_composite hi (by decide) (compressBody_script hp hne)
  case none =>
    rintro rfl
    exact exec_composite hi (by decide) (compressBody_empty hp)
  case decompress => exact exec_composite hi (by decide) (decompressBody_script _)

/-! ### COMPRESS of an input presented twice (rule R212) -/

/-- The pseudocode of COMPRESS up to ENCODE: the table of the pass, its tree and its codes. -/
theorem compressBody_coded {s : State} {vs : List Sym} {ps : List (Pass Sym)}
    (hp : s.env.ssrc.passes = ⟨vs, .eos⟩ :: ps) (hf : Fits [] vs) (hne : vs ≠ []) :
    ∃ τ g, HoldsCode (addAll vs []) τ g ∧ compressBody s = encodeBody g ∧
      g = { withTable (addAll vs []) { clearAll s with env := tookPass vs ps s.env } with
        trv := true, ctv := true, nnodes := g.nnodes, root := g.root, ns := g.ns, ct := g.ct } := by
  let c := withTable (addAll vs []) { clearAll s with env := tookPass vs ps s.env }
  have hcount : countBody (clearAll s) = .ok (if vs = [] then .empty else .done, c) := countBody_eos hp hf
  have hT : TableOk c := withTable_tableOk hf.table_wf _
  have hd : c.distinct ≠ 0#17 := withTable_distinct_ne_zero hf.table_wf _ (hf.table_ne_nil hne)
  have hready : BuildReady { c with ctrl := .idle } := ⟨rfl, rfl, hf.table_wf, hT, hd⟩
  obtain ⟨τ, hτ, -⟩ := exec_build hready
  obtain ⟨b, g, hbuild, hgen, hcode, hg⟩ := BuiltFrom.build_gen ⟨_, hready, rfl, hτ⟩ hf.table_wf
    (hf.table_ne_nil hne) (c := c) rfl rfl hT
  refine ⟨τ, g, hcode, ?run, hg.trans (by rw [hg]; rfl)⟩
  case run =>
    rw [compressBody_script hp hne]
    show (countBody (clearAll s) >>= script [.build, .gen, .encode]) = _
    rw [hcount, Run.ok_bind]
    show (buildBody c >>= script [.gen, .encode]) = _
    rw [hbuild, Run.ok_bind]
    show (genBody b >>= script [.encode]) = _
    rw [hgen, Run.ok_bind, script_singleton]
    rfl

/-- Settles O54: COMPRESS is ENCODE of the input under the codes of its own counts. -/
theorem compressResult : Obligations.CompressResult := by
  intro s vs ps rs hi hp hs hne hcount
  have hf : Fits [] vs := fits_nil hcount
  obtain ⟨τ, g, hcode, hrun, hg⟩ := compressBody_coded (s := { s with ctrl := .busy }) hp hf hne
  have hT : TableOk g := by rw [hg]; exact withTable_tableOk hf.table_wf { s with ctrl := .busy }
  have hssrc : g.env.ssrc.passes = ⟨vs, .eos⟩ :: ps := by rw [hg]; rfl
  have hbsnk : g.env.bsnk = s.env.bsnk := by rw [hg]; rfl
  obtain ⟨es, hencode, -⟩ := encodeBody_spec (s := g) ⟨by rw [hg]; rfl, by rw [hg]⟩ hcode.tree.ft hT.1 hssrc
    (by rwa [hbsnk]) (hcode.has_code hf) (accepts_none _)
  refine ⟨_, exec_of_body (i := .compress) hi (hrun.trans hencode), rfl, ?fault, ?counts, ?total, hT, hcode.tree.ok,
    hcode.codes.congr rfl rfl rfl, ?ftv, ?trv, ?ctv, ?bytesIn, rfl, ?bsnk, rfl, ?outcomes⟩
  case counts =>
    intro v
    show ((g.ft.get? v.toNat).getD 0#32).toNat = _
    rw [hcode.table, hf.table_read]
  case total =>
    show g.total.toNat = _
    rw [hT.2, hcode.table, hf.table_sum]
  case bsnk =>
    show ({ scripts := rs, cur := none, outputs := g.env.bsnk.outputs ++ [streamOf g vs] } : SnkPort Byte) = _
    rw [hbsnk]
    rfl
  case outcomes =>
    show g.env.outcomes ++ [.done] = _
    rw [hg]
    rfl
  all_goals
    rw [hg]
    rfl

end Sys2Proof.Machine
end

section
/-! PROOFS. Fault entry, and which command raises which fault when (spec/60_exceptions.md rules R231, R238, R240,
R245). -/

namespace Sys2Proof.Machine

/-! ### Fault entry (rule R240) -/

/-- Settles O14: fault entry is one update, which adds the closing brackets of the open ports. -/
theorem faultEntryRule : Obligations.FaultEntryRule := by
  intro k s
  refine ⟨faultEntry_faultedWith k s, by simp [SameScratch], rfl, rfl, ⟨closings s, ?trace, .refl _⟩, ?env⟩
  case trace => rw [faultEntry_eq]
  case env => rw [faultEntry_eq]

/-! ### How a command ends (rules R231, R273) -/

/-- The outcomes but faults that a command can have (rule R273). -/
def endsOf : Instr → List CmdOutcome
  | .count => [.done, .empty]
  | .build => [.done, .empty]
  | .compress => [.done, .empty]
  | .clr => [.done]
  | .gen => [.done]
  | .encode => [.done]
  | .decode => [.done]
  | .decompress => [.done]

/-- A command's pseudocode ends with one of its outcomes or raises one of its faults. -/
theorem bodyOf_ends (i : Instr) (s : State) :
    Post (bodyOf i s) (fun r => r.1 ∈ endsOf i) (fun k _ => k ∈ faultsOf i) := by
  cases i with
  | clr => exact Post.of_ok (by simp [endsOf])
  | count =>
    refine (countBody_end s).mono (fun r h => ?_) fun _ _ h => h.2.2
    rw [h.outcome]
    split <;> simp [endsOf]
  | build =>
    refine (buildBody_end s).mono (fun r h => ?_) fun k _ h => by simp [faultsOf, h.2.1]
    obtain ⟨ho, -⟩ | ⟨ho, -⟩ := h.outcome <;> simp [ho, endsOf]
  | gen =>
    exact (genBody_end s).mono (fun r h => by simp [h.outcome, endsOf]) fun k _ h => by simp [faultsOf, h.2.1]
  | encode =>
    refine (encodeBody_end s).mono (fun r h => by simp [h.outcome, endsOf]) fun k _ h => ?_
    have hk := h.1.2.2
    simp only [List.mem_cons, List.not_mem_nil, or_false] at hk
    obtain rfl | rfl | rfl := hk <;> decide
  | decode => exact (decodeBody_end s).mono (fun r h => by simp [h.outcome, endsOf]) fun _ _ h => h.2.2
  | compress =>
    refine (compressBody_end s).mono (fun r h => ?_) fun _ _ h => h.2.2
    obtain ⟨ho, -⟩ | ⟨ho, -⟩ := h.outcome <;> simp [ho, endsOf]
  | decompress => exact (decompressBody_end s).mono (fun r h => by simp [h.outcome, endsOf]) fun _ _ h => h.2.2

section
variable {i : Instr} {s t : State}

/-- The one outcome recorded of a command in `IDLE`: one of its own, or a fault of its column with its code in
`FAULT`. -/
theorem exec_outcome (hi : s.ctrl = .idle) (h : exec i s = .next t) :
    ∃ o, t.env.outcomes = s.env.outcomes ++ [o] ∧
      (o ∈ endsOf i ∨ ∃ k ∈ faultsOf i, o = .fault k ∧ t.fault = k.code) := by
  rw [exec_idle hi] at h
  have hends := bodyOf_ends i { s with ctrl := .busy }
  obtain ⟨o, u, hu, rfl⟩ | ⟨k, u, hu, rfl⟩ := conclude_next h
  · obtain ⟨-, -, -, hout⟩ := ((bodyOf_ports i { s with ctrl := .busy }).ok _ hu).rest
    exact ⟨o, congrArg (· ++ [o]) hout, .inl (hends.ok _ hu)⟩
  · obtain ⟨-, -, hout, -⟩ := exec_raised hi hu
    exact ⟨.fault k, hout, .inr ⟨k, hends.raised k u hu, rfl, rfl⟩⟩

theorem empty_mem_endsOf : CmdOutcome.empty ∈ endsOf i ↔ i = .count ∨ i = .build ∨ i = .compress := by
  cases i <;> simp [endsOf]

theorem fault_not_mem_endsOf (k : FaultKind) : CmdOutcome.fault k ∉ endsOf i := by
  cases i <;> simp [endsOf]

end

/-- Settles O15: the recorded outcome is no outcome but a fault, so it is one of the command's column. -/
theorem faultTable : Obligations.FaultTable := by
  refine ⟨by decide, fun i s t k hi h ho => ?_⟩
  obtain ⟨o, ho', hmem⟩ := exec_outcome hi h
  obtain rfl : o = .fault k := by simpa [ho'] using ho
  obtain hmem | ⟨k', hk', he, hcode⟩ := hmem
  · exact absurd hmem (fault_not_mem_endsOf k)
  · cases he
    exact ⟨hk', hcode⟩

/-! ### A failed `require` (rule R238) -/

/-- The flags a command requires are not set: BUILD's, GEN's, ENCODE's. -/
abbrev Unready (i : Instr) (s : State) : Prop :=
  i = .build ∧ s.ftv = false ∨ i = .gen ∧ s.trv = false ∨ i = .encode ∧ (s.ftv = false ∨ s.ctv = false)

/-- The fault is raised before anything is done. -/
theorem bodyOf_unready {i : Instr} {s : State} (h : Unready i s) :
    bodyOf i s = .error (.raised .sequenceError s) := by
  obtain ⟨rfl, hv⟩ | ⟨rfl, hv⟩ | ⟨rfl, hv⟩ := h
  · rw [bodyOf, buildBody_eq, if_neg (by simp [hv])]
  · rw [bodyOf, genBody, hv, require_false, Run.error_bind]
  · have hv : (s.ftv && s.ctv) = false := Bool.and_eq_false_iff.2 hv
    rw [bodyOf, encodeBody, hv, require_false, Run.error_bind]

/-- Settles O16: fault entry in the state the command began in finds no port open. -/
theorem sequenceErrors : Obligations.SequenceErrors := by
  rintro i s hi ⟨h1, h2, h3, h4⟩ hready
  let b : State := { s with ctrl := .busy }
  obtain ⟨hexec, hfault⟩ := exec_raised hi (bodyOf_unready (s := b) hready)
  have hnone : closings b = [] := by simp [closings, b, h1, h2, h3, h4]
  refine ⟨_, hexec, hfault, ?trace, ?scratch⟩
  case trace => rw [faulted_trace, hnone, List.append_nil]
  case scratch => simp [SameScratch, b]

/-! ### The ways out of `FAULTED` (rule R245) -/

theorem resetCore_values (s : State) : ResetValues (resetCore s) := by simp [ResetValues, TablesClear]

theorem wordThenReset_values {w : Byte} {k : Nat} {s t : State} (h : wordThenReset w k s = .next t) :
    ResetValues t := by
  unfold wordThenReset at h
  split at h <;> cases h
  exact resetCore_values _

/-- Settles O17: of the words only CLR's is carried out, and a CSR read writes the host's record alone. -/
theorem waysOutOfFaulted : Obligations.WaysOutOfFaulted := by
  intro s t m ms hf hin h
  have hwait : mustWait m s = false := by cases m <;> simp [mustWait, hf]
  rw [step_move hin hwait] at h
  cases m with
  | word w =>
    by_cases hw : w = 0x01#8
    · subst hw
      rw [hostMove, acceptWord_command rfl, exec_clr (by simp [hf])] at h
      cases h
      exact ⟨fun _ => by simp [ResetValues, TablesClear], fun hne => absurd rfl hne⟩
    · rw [hostMove, acceptWord_faulted (s := { s with env := { s.env with inbox := ms } }) hf hw] at h
      cases h
      exact ⟨by simp [hw], fun _ _ _ => ⟨hf, rfl, rfl, rfl⟩⟩
  | readCsr n =>
    cases h
    exact ⟨by simp, fun _ _ _ => ⟨hf, rfl, rfl, rfl⟩⟩
  | reset =>
    cases h
    exact ⟨fun _ => resetCore_values _, fun _ hne => absurd rfl hne⟩
  | wordThenReset w k => exact ⟨fun _ => wordThenReset_values h, fun _ _ hne => absurd rfl (hne w k)⟩

/-! ### An input of no symbols (rule R234) -/

/-- COMPRESS of an input of no symbols is COUNT from the cleared state (rule R212). -/
theorem bodyOf_counter {i : Instr} {s : State} {ps : List (Pass Sym)} (hi : i = .count ∨ i = .compress)
    (hf : s.fault = 0#4) (hp : s.env.ssrc.passes = ⟨[], .eos⟩ :: ps) :
    ∃ c, c.env = s.env ∧ c.fault = 0#4 ∧ bodyOf i s = countBody c := by
  obtain rfl | rfl := hi
  · exact ⟨s, rfl, hf, rfl⟩
  · refine ⟨clearAll s, rfl, rfl, ?_⟩
    rw [bodyOf, compressBody_empty hp, script_singleton]
    rfl

/-- Settles O53: the table COUNT leaves of an empty pass lists no symbol, and the other five commands have no outcome
`Empty`. -/
theorem emptyInput : Obligations.EmptyInput := by
  refine ⟨fun i s ps hi hidle hf hp => ?signal, fun i s t hidle h ho => ?only⟩
  case signal =>
    obtain ⟨c, henv, hfc, hbody⟩ := bodyOf_counter (s := { s with ctrl := .busy }) hi hf hp
    change c.env = s.env at henv
    have hrun := countBody_eos (s := c) (by rwa [henv]) (fits_nil (vs := []) (by simp))
    refine ⟨_, exec_of_body hidle (hbody.trans hrun), rfl, hfc, rfl, rfl, rfl, ?_, ?_, ?_⟩ <;>
      simp [withTable, tookPass, symEvents, henv]
  case only =>
    obtain ⟨o, ho', hmem⟩ := exec_outcome hidle h
    obtain rfl : o = .empty := by simpa [ho'] using ho
    obtain hmem | ⟨k, -, he, -⟩ := hmem
    · exact empty_mem_endsOf.1 hmem
    · cases he

end Sys2Proof.Machine
end

section
/-! PROOFS. COUNT past the limit of a count, and ENCODE at a symbol without a code (spec/60_exceptions.md rules R239,
R242). -/

namespace Sys2Proof.Machine

/-! ### COUNT (rules R123, R239) -/

/-- COUNT at the symbol that passes the limit: the fault is raised when the symbol is taken, with `SSRC` still open. -/
theorem countBody_capacity {s : State} {pre post : List Sym} {v : Sym} {e : Terminator} {ps : List (Pass Sym)}
    (hp : s.env.ssrc.passes = ⟨pre ++ v :: post, e⟩ :: ps) (hf : Fits [] pre) (hv : pre.count v = 4294967295) :
    ∃ u, countBody s = .error (.raised .capacityError u) ∧ SameScratch s u ∧
      u.env = { s.env with
        ssrc := { passes := ps, cur := some ⟨post, e⟩ },
        trace := s.env.trace ++ [.opened .ssrc] ++ symEvents pre ++ [.tookSym (.item v)] } := by
  let s1 := clearTables (openSsrc s)
  have hstart : s1.env.ssrc = { passes := ps, cur := some ⟨pre ++ v :: post, e⟩ } := by
    simp [s1, openSsrc, SrcPort.start, hp]
  have hcur : s1.env.ssrc.cur = some ⟨pre ++ v :: post, e⟩ := by rw [hstart]
  have hleft : s1.env.ssrc.itemsLeft + 1 = pre.length + (post.length + 1 + 1) := by
    simp [SrcPort.itemsLeft, hcur, Nat.add_assoc]
  obtain ⟨d, f, hloop⟩ := countLoop_prefix pre s1 (v :: post) e (post.length + 1 + 1) hcur hf
  let c := counted pre (v :: post) e d f s1
  let u : State := { c with env := { c.env with
    ssrc := { c.env.ssrc with cur := some ⟨post, e⟩ }, trace := c.env.trace ++ [.tookSym (.item v)] } }
  have hmax : ftRead v u = Config.countMax := BitVec.eq_of_toNat_eq (by
    show (((addAll pre []).get? v.toNat).getD 0#32).toNat = _
    rw [hf.table_read, hv]
    rfl)
  have hend : countLoop (post.length + 1 + 1) c = .error (.raised .capacityError u) := by
    rw [countLoop, srcSym_cons (vs := post) (t := e) rfl, Run.ok_bind]
    show (countStep v u >>= _) = _
    rw [countStep_max hmax, Run.error_bind]
  refine ⟨u, ?run, ⟨rfl, rfl, rfl, rfl, rfl, rfl⟩, ?env⟩
  case run =>
    show (countLoop (s1.env.ssrc.itemsLeft + 1) s1 >>= _) = _
    rw [hleft, hloop, hend, Run.error_bind]
  case env => simp [u, c, counted, s1, openSsrc, SrcPort.start, hp]

/-- Settles O26: fault entry finds `SSRC` open and nothing else. -/
theorem countCapacity : Obligations.CountCapacity := by
  rintro s pre post v e ps hi ⟨h1, h2, h3, h4⟩ hp hv hpre
  obtain ⟨u, hu, hscratch, henv⟩ := countBody_capacity (s := { s with ctrl := .busy }) hp (fits_nil hpre) hv
  have hclose : closings u = [.released .ssrc] := by simp [closings, henv, h2, h3, h4]
  obtain ⟨hexec, hfault⟩ := exec_raised (i := .count) hi hu
  refine ⟨_, hexec, hfault, ?scratch, ?passes, ?trace⟩
  case scratch =>
    rw [faultEntry_eq]
    exact hscratch
  case passes =>
    rw [faultEntry_eq]
    simp [henv]
  case trace =>
    rw [faulted_trace, hclose, henv]
    simp [symEvents]

/-! ### ENCODE (rules R179, R242) -/

/-- Settles O43: ENCODE is cut at the symbol, with the header and the bytes the codes before it fill sent. -/
theorem encodeNoCode : Obligations.EncodeNoCode := by
  rintro s pre post v e ps r rs hi hft hct hwf ⟨hd, -⟩ - hp hs hcodes hv ha
  rw [← filled_length] at ha ⊢
  let b : State := { s with ctrl := .busy }
  obtain ⟨u, es, hu, ht, hsyms, hbytes, hpasses, hscripts⟩ := encodeBody_cut (s := b) ⟨hft, hct⟩ hwf hd hp hs hcodes ha
    (.inr ⟨v, post, rfl, hv, rfl, rfl⟩)
  obtain ⟨hexec, hfault⟩ := exec_raised (i := .encode) hi hu
  obtain ⟨hnoSyms, hnoBytes, -⟩ := closings_empty u
  refine ⟨_, es ++ closings u, hexec, hfault, ?passes, ?scripts, ?trace, ?syms, ?bytes⟩
  case passes =>
    rw [faultEntry_eq]
    exact hpasses
  case scripts =>
    rw [faultEntry_eq]
    exact hscripts
  case trace => rw [faulted_trace, ht, List.append_assoc]
  case syms => rw [symsTaken_append, hnoSyms, List.append_nil, hsyms]
  case bytes =>
    rw [bytesOffered_append, hnoBytes, List.append_nil, hbytes, streamOf_filled, List.take_left]
    rfl

end Sys2Proof.Machine
end

section
/-! PROOFS. How DECODE ends in a fault (spec/45_bitstream_decoder.md rules R192, R198, R199, spec/60_exceptions.md rules
R235, R236, R241): in a header that is not well-formed where the header says, and else in the walk, which always ends. -/

namespace Sys2Proof.Machine

/-! ### The faults of the walk (rules R194 to R199) -/

/-- The faults of the walk in a tree of `n` symbols: only the tree of one symbol has an absent child to choose. -/
inductive WalkFault (n : Nat) : FaultKind → Prop
  | io : WalkFault n .ioError
  | truncated : WalkFault n .truncatedStreamError
  | invalid (single : n = 1) : WalkFault n .invalidCodeError

/-- A stretch of the walk ends as `Q` says or raises one of those faults: the model's own stops are not met. -/
def Walks {α : Type} (n : Nat) (Q : α → Prop) (m : Run α) : Prop :=
  (∃ a, m = .ok a ∧ Q a) ∨ ∃ k u, m = .error (.raised k u) ∧ WalkFault n k

section
variable {α β : Type} {n : Nat}

theorem Walks.of_ok {Q : α → Prop} {a : α} (h : Q a) : Walks n Q (.ok a) := .inl ⟨a, rfl, h⟩

theorem Walks.of_raised {Q : α → Prop} {k : FaultKind} (u : State) (h : WalkFault n k) :
    Walks n Q (.error (.raised k u)) := .inr ⟨k, u, rfl, h⟩

theorem Walks.bind {Q : α → Prop} {P : β → Prop} {m : Run α} {f : α → Run β} (h : Walks n Q m)
    (hf : ∀ a, Q a → Walks n P (f a)) : Walks n P (m >>= f) := by
  obtain ⟨a, rfl, ha⟩ | ⟨k, u, rfl, hk⟩ := h
  · exact hf a ha
  · exact .of_raised u hk

end

/-- The bits still to come, those in `SHIFT` and those of the bytes not yet taken. -/
def BitsLeft (bits : List Bool) (s : State) : Prop :=
  ∃ w bs e, w.length < 8 ∧ loaded w s = s ∧ s.env.bsrc.cur = some ⟨bs, e⟩ ∧ w ++ bitsOf bs = bits

theorem BitsLeft.congr {bits : List Bool} {s t : State} (h : BitsLeft bits s) (h1 : t.shift = s.shift)
    (h2 : t.nbitsIn = s.nbitsIn) (h3 : t.env.bsrc = s.env.bsrc) : BitsLeft bits t := by
  obtain ⟨w, bs, e, hw, hload, hc, hb⟩ := h
  refine ⟨w, bs, e, hw, ?_, by rw [h3, hc], hb⟩
  rw [loaded, show byteOfBits w = t.shift from (congrArg State.shift hload).trans h1.symm,
    show BitVec.ofNat 4 w.length = t.nbitsIn from (congrArg State.nbitsIn hload).trans h2.symm]

/-- The state of the walk between two bits: the cursor at an internal node of the tree of `n` symbols, the bits still
to come, the symbol sink open. -/
structure Walking (n : Nat) (bits : List Bool) (s : State) : Prop where
  tree : TreeAt s
  size : s.ft.length = n
  cursor : s.cur.toNat < s.nnodes.toNat
  inner : ∃ d, s.ns.get? s.cur.toNat = some d ∧ d.tag = .internal
  source : BitsLeft bits s
  sink : ∃ t, s.env.ssnk.cur = some t

section
variable {s : State} {b : Bool} {bits : List Bool} {n : Nat}

theorem Terminator.bodyFault_walk (e : Terminator) (n : Nat) : WalkFault n e.bodyFault := by
  cases e
  · exact .truncated
  · exact .io

/-- With no bit left `get_bit` raises the fault of the event that ends the pass (rules R195, R198). -/
theorem Walking.getBit_end (h : Walking n [] s) (Q : Bool × State → Prop) : Walks n Q (getBit s) := by
  obtain ⟨w, bs, e, -, hload, hc, hb⟩ := h.source
  obtain ⟨rfl, hbs⟩ := List.append_eq_nil_iff.1 hb
  obtain rfl : bs = [] := by
    have hlen := bitsOf_length bs
    rw [hbs] at hlen
    exact List.length_eq_zero_iff.1 (by simpa using hlen.symm)
  obtain ⟨u, hu⟩ := getBit_raises hc
  rw [← hload, hu]
  exact .of_raised u (e.bodyFault_walk n)

/-- While bits are left `get_bit` delivers the next one (rule R195). -/
theorem Walking.getBit_next (h : Walking n (b :: bits) s) : ∃ u, getBit s = .ok (b, u) ∧ Walking n bits u := by
  obtain ⟨w, bs, e, hw, hload, hc, hb⟩ := h.source
  obtain ⟨w', tk, bs', hw', -, hb', hget⟩ := Machine.getBit_next hw hc hb
  rw [hload] at hget
  have hleft : BitsLeft bits (loaded w' (got tk bs' e s)) := ⟨w', bs', e, hw', rfl, rfl, hb'⟩
  exact ⟨_, hget, h.tree.congr rfl rfl rfl rfl rfl, h.size, h.cursor, h.inner, hleft, h.sink⟩

/-- A step of the walk to an absent child (rule R199). -/
theorem walkStep_nil {d : Node} (hc : s.cur.toNat < s.nnodes.toNat) (hd : s.ns.get? s.cur.toNat = some d)
    (hn : childOf b d = Config.nil) : walkStep b s = .error (.raised .invalidCodeError s) := by
  have hread : nsRead s.cur s = .ok d := by simp [nsRead, hc, hd]
  rw [walkStep, hread, Run.ok_bind]
  exact if_pos hn

/-- Only the tree of one symbol has a node with an absent child. -/
theorem TreeAt.single_of_nil (h : TreeAt s) {n : Nat} {d : Node} (hn : n < s.nnodes.toNat)
    (hd : s.ns.get? n = some d) (ht : d.tag = .internal) (hc : childOf b d = Config.nil) : s.ft.length = 1 := by
  have hl : s.ft.length ≤ n := by
    by_contra hlt
    obtain ⟨p, -, hp⟩ := h.leafAt (not_le.1 hlt)
    rw [hd] at hp
    cases hp
    cases ht
  obtain ⟨d', hd', -, -, hleft, -, hright⟩ := h.internalAt hn hl
  obtain rfl : d' = d := Option.some.inj (hd'.symm.trans hd)
  cases b with
  | false => exact absurd hc hleft
  | true => exact hright.1 hc

/-- A step of the walk (rules R196, R199): the child is absent, an internal node, or a leaf whose symbol the sink takes
or refuses. -/
theorem Walking.step (h : Walking n bits s) (b : Bool) : Walks n (Walking n bits) (walkStep b s) := by
  obtain ⟨d, hd, ht⟩ := h.inner
  by_cases hnil : childOf b d = Config.nil
  · rw [walkStep_nil h.cursor hd hnil]
    exact .of_raised s (.invalid (h.size ▸ h.tree.single_of_nil h.cursor hd ht hnil))
  have hdesc : descend s s.cur [b] = some (childOf b d) := (descend_one ..).2 ⟨d, hd, ht, rfl, hnil⟩
  have hlt := (h.tree.descend_lt h.cursor hdesc).1
  obtain ⟨x, hx, -⟩ := h.tree.listed hlt
  cases hxt : x.tag with
  | internal =>
    rw [walkStep_internal h.tree h.cursor hdesc hx hxt]
    exact .of_ok ⟨h.tree.congr rfl rfl rfl rfl rfl, h.size, hlt, ⟨x, hx, hxt⟩, h.source.congr rfl rfl rfl, h.sink⟩
  | leaf =>
    obtain ⟨⟨items, room⟩, hsink⟩ := h.sink
    by_cases hroom : room = some 0
    · subst hroom
      rw [walkStep_refused h.tree h.cursor hdesc hx hxt hsink]
      exact .of_raised _ .io
    · have hone : SymRoom s 1 := ⟨_, hsink, fun k hk => Nat.one_le_iff_ne_zero.2 fun h0 => hroom (h0 ▸ hk)⟩
      rw [walkStep_leaf h.tree h.cursor hdesc hx hxt hone]
      exact .of_ok ⟨h.tree.congr rfl rfl rfl rfl rfl, h.size, h.tree.root_lt, h.tree.root_internal,
        h.source.congr rfl rfl rfl, ⟨_, congrArg (Option.map _) hsink⟩⟩

end

/-- The loop of the walk ends, with a bit of its bound to spare for the end of the pass. -/
theorem walkLoop_ends {n : Nat} : ∀ (k : Nat) {bits : List Bool} {s : State}, Walking n bits s → bits.length < k →
    Walks n (fun _ => True) (walkLoop k s)
  | 0, _, _, _, hk => absurd hk (Nat.not_lt_zero _)
  | k + 1, bits, s, h, hk => by
    rw [walkLoop]
    by_cases hrem : s.remain = 0#48
    · rw [if_pos hrem]
      exact .of_ok trivial
    rw [if_neg hrem]
    cases bits with
    | nil => exact (h.getBit_end fun _ => False).bind fun _ hf => hf.elim
    | cons b bits =>
      obtain ⟨u, hget, hu⟩ := h.getBit_next
      rw [hget, Run.ok_bind]
      exact (hu.step b).bind fun v hv => walkLoop_ends k hv (Nat.lt_of_succ_lt_succ hk)

/-- The walk over any body ends. -/
theorem walkBody_ends {s : State} {bs : List Byte} {e : Terminator} {t : Txn Sym} (h : TreeAt s)
    (hc : s.env.bsrc.cur = some ⟨bs, e⟩) (hsink : s.env.ssnk.cur = some t) :
    Walks s.ft.length (fun _ => True) (walkBody s) :=
  walkLoop_ends _ (bits := bitsOf bs) (s := { s with cur := s.root, remain := s.total, shift := 0#8, nbitsIn := 0#4 })
    ⟨h.congr rfl rfl rfl rfl rfl, rfl, h.root_lt, h.root_internal, ⟨[], bs, e, by simp, rfl, hc, rfl⟩, ⟨t, hsink⟩⟩
    (by simp [SrcPort.itemsLeft, hc, bitsOf_length])

/-! ### DECODE of a well-formed header -/

/-- Every table in canonical form but the empty one has a tree. -/
theorem exists_builtFrom {m : Store Count} (hm : ftWf m) (hne : m ≠ []) : ∃ τ, BuiltFrom m τ := by
  have hready : BuildReady (withTable m State.reset) :=
    ⟨rfl, rfl, hm, withTable_tableOk hm _, withTable_distinct_ne_zero hm _ hne⟩
  obtain ⟨τ, hτ, -⟩ := exec_build hready
  exact ⟨τ, _, hready, rfl, hτ⟩

section
variable {s : State} {bs : List Byte} {e : Terminator} {ps : List (Pass Byte)}

/-- With a well-formed header DECODE ends, or raises a fault of the walk in the tree of its table (rules R190, R194). -/
theorem decodeBody_wellFormed (hp : s.env.bsrc.passes = ⟨bs, e⟩ :: ps) (hok : HeaderOk bs) :
    Walks (hdrCount bs) (fun _ => True) (decodeBody s) := by
  obtain ⟨hwf, hne, hbs⟩ := hok.table
  have hlen := hdrTable_length bs (hdrCount bs)
  generalize hdrTable bs (hdrCount bs) = m at *
  obtain ⟨τ, hτ⟩ := exists_builtFrom hwf hne
  rw [hbs] at hp
  obtain ⟨hT, hrun⟩ := decodeBody_prefix (s := s) hwf hne hτ hp
  have hwalk := walkBody_ends hT (bs := bs.drop (4 + 6 * hdrCount bs)) (e := e) rfl
    (t := ⟨[], s.env.ssnk.scripts.headD none⟩) rfl
  rw [← hlen, hrun]
  exact hwalk.bind fun u _ => .of_ok trivial

/-- The outcome of DECODE with a well-formed header. -/
theorem exec_decode_wellFormed (hi : s.ctrl = .idle) (hp : s.env.bsrc.passes = ⟨bs, e⟩ :: ps) (hok : HeaderOk bs) :
    ∃ t o, exec .decode s = .next t ∧ t.env.outcomes = s.env.outcomes ++ [o] ∧
      ∀ k, o = .fault k → WalkFault (hdrCount bs) k := by
  obtain ⟨⟨o, u⟩, hu, -⟩ | ⟨k, u, hu, hk⟩ := decodeBody_wellFormed (s := { s with ctrl := .busy }) hp hok
  · obtain rfl : o = .done := ((decodeBody_end _).ok _ hu).outcome
    obtain ⟨-, -, -, hout⟩ := ((bodyOf_ports .decode _).ok _ hu).rest
    exact ⟨_, .done, exec_of_body (i := .decode) hi hu, congrArg (· ++ [CmdOutcome.done]) hout, by simp⟩
  · obtain ⟨hexec, -, hout, -⟩ := exec_raised (i := .decode) hi hu
    exact ⟨_, .fault k, hexec, hout, fun k' hk' => by cases hk'; exact hk⟩

end

/-! ### DECODE of a header that is not well-formed (rule R235) -/

theorem bytesTaken_append (es fs : List PortEvent) : bytesTaken (es ++ fs) = bytesTaken es ++ bytesTaken fs :=
  List.filterMap_append ..

theorem bytesTaken_closings (u : State) : bytesTaken (closings u) = [] := by
  refine List.filterMap_eq_nil_iff.2 fun e he => ?_
  have ht := closings_brackets u e he
  cases e <;> simp_all [PortEvent.transfer]

/-- DECODE that raises `k` in `u`, read off the bytes taken: fault entry takes none. -/
theorem exec_decode_raised {k : FaultKind} {s u : State} {es : List PortEvent} (hi : s.ctrl = .idle)
    (h : decodeBody { s with ctrl := .busy } = .error (.raised k u)) (ht : u.env.trace = s.env.trace ++ es) :
    ∃ t fs, exec .decode s = .next t ∧ FaultOutcome k s t ∧ t.env.trace = s.env.trace ++ fs ∧
      bytesTaken fs = bytesTaken es := by
  obtain ⟨hexec, hfault⟩ := exec_raised (i := .decode) hi h
  refine ⟨_, es ++ closings u, hexec, hfault, ?_, ?_⟩
  · rw [faulted_trace, ht, List.append_assoc]
  · rw [bytesTaken_append, bytesTaken_closings, List.append_nil]

/-- Settles O48: `parse_header` ends at the first check that fails or at the end of the pass, and after a well-formed
header only the walk can raise a fault. -/
theorem decodeCorruptHeader : Obligations.DecodeCorruptHeader := by
  refine ⟨fun s bs ps hi hp => ?exactly, fun s bs e ps n hi hp hn => ?check, fun s bs ps hi hp hbad hchecks => ?cut⟩
  case exactly =>
    by_cases hok : HeaderOk bs
    · obtain ⟨t, o, hexec, hout, hwalk⟩ := exec_decode_wellFormed hi hp hok
      refine ⟨t, hexec, fun h => absurd hok h, fun _ hcorrupt => ?_⟩
      obtain rfl : o = .fault .corruptHeaderError := by simpa [hout] using hcorrupt
      cases hwalk _ rfl
    · obtain h | ⟨n, u, -, hu, -⟩ | ⟨u, -, -, hu, -⟩ := decodeBody_header (s := { s with ctrl := .busy }) hp
      · exact absurd h hok
      all_goals
        obtain ⟨hexec, hfault⟩ := exec_raised (i := .decode) hi hu
        exact ⟨_, hexec, fun _ => hfault, fun h => absurd h hok⟩
  case check =>
    obtain h | ⟨n', u, hn', hu, ht⟩ | ⟨u, -, h, -⟩ := decodeBody_header (s := { s with ctrl := .busy }) hp
    · exact absurd h hn.not_ok
    · obtain rfl := hn'.unique hn
      obtain ⟨t, fs, hexec, hfault, htrace, htaken⟩ := exec_decode_raised hi hu ht
      exact ⟨t, fs, hexec, hfault, htrace, htaken.trans (WalkEvents.takes _).taken⟩
    · exact absurd hn (h n)
  case cut =>
    obtain h | ⟨n, -, hn, -⟩ | ⟨u, -, -, hu, ht⟩ := decodeBody_header (s := { s with ctrl := .busy }) hp
    · exact absurd h hbad
    · exact absurd hn (hchecks n)
    · obtain ⟨t, fs, hexec, hfault, htrace, htaken⟩ := exec_decode_raised hi hu ht
      refine ⟨t, fs, hexec, hfault, htrace, htaken.trans ?_⟩
      rw [bytesTaken_append, bytesTaken_append, (WalkEvents.takes bs).taken]
      rfl

/-! ### A body that ends too soon (rule R236) -/

/-- Settles O49: the walk is cut at the `End` of the pass. -/
theorem decodeTruncated : Obligations.DecodeTruncated := by
  intro s τ m body ps r rs vs bits rest hi hp hs hb hn hm ha
  obtain ⟨u, hu⟩ := decodeBody_cut (s := { s with ctrl := .busy }) hp hs hb hn hm ha
  exact ⟨_, exec_raised (i := .decode) hi hu⟩

/-! ### The absent child (rule R241) -/

/-- The tree of one symbol: its leaf under the wrapper, which has no right child (rule R150). -/
def wrapped (v : Sym) (f : Count) : Store Node :=
  [(0, leafNode v f), (1, internalNode (f.setWidth 48) 0#17 Config.nil)]

/-- The code of the one symbol is a 0 bit. -/
theorem codeTo_wrapped {τ : State} {v : Sym} {f : Count} (hns : τ.ns = wrapped v f) (hr : τ.root = 1#17) :
    CodeTo τ v [false] := by
  refine ⟨0#17, ?_, leafNode v f, by rw [hns]; rfl, rfl, rfl⟩
  rw [descend_one]
  exact ⟨internalNode (f.setWidth 48) 0#17 Config.nil, by rw [hns, hr]; rfl, rfl, rfl, by decide⟩

theorem spells_replicate {τ : State} {v : Sym} (h : CodeTo τ v [false]) :
    ∀ j : Nat, Spells τ (List.replicate j v) (List.replicate j false)
  | 0 => rfl
  | j + 1 => ⟨[false], List.replicate j false, h, spells_replicate h j, rfl⟩

section
variable {v : Sym} {f : Count} (hf : f ≠ 0#32)
include hf

theorem ftWf_single : ftWf [(v.toNat, f)] :=
  ⟨List.pairwise_singleton .., by simpa using v.isLt, by simpa using hf⟩

/-- BUILD of one symbol makes that tree. -/
theorem builtFrom_single : ∃ τ, BuiltFrom [(v.toNat, f)] τ ∧ τ.ns = wrapped v f ∧ τ.root = 1#17 := by
  obtain ⟨τ, b, hb, hbm, hτ⟩ := exists_builtFrom (ftWf_single hf) (by simp)
  refine ⟨τ, ⟨b, hb, hbm, hτ⟩, ?_⟩
  obtain ⟨hi, hv, -, -, hd⟩ := hb
  have hbuild := exec_of_body (i := .build) hi (buildBody_single (s := { b with ctrl := .busy }) hv hd hbm)
  rw [hτ] at hbuild
  cases hbuild
  simp [wrapped]

end

/-- The walk of zeros and a 1 in the tree of one symbol, to a sink that takes a symbol for each zero. -/
theorem walkBody_invalid {s : State} {v : Sym} {f : Count} {bs : List Byte} {e : Terminator} {j : Nat}
    {rest : List Bool} (h : TreeAt s) (hns : s.ns = wrapped v f) (hr : s.root = 1#17)
    (hc : s.env.bsrc.cur = some ⟨bs, e⟩) (hb : bitsOf bs = List.replicate j false ++ true :: rest)
    (hroom : SymRoom s j) (ht : j < s.total.toNat) : ∃ u, walkBody s = .error (.raised .invalidCodeError u) := by
  let s0 : State := { s with cur := s.root, remain := s.total }
  have hj : (List.replicate j v).length = j := List.length_replicate
  have hsp : Spells s0 (List.replicate j v) (List.replicate j false) :=
    (spells_replicate (codeTo_wrapped hns hr) j).congr rfl rfl
  obtain ⟨w1, tk1, bs1, es, hw1, -, hb1, -, hcodes⟩ := walkLoop_codes (List.replicate j v) s0 [] (List.replicate j false)
    (true :: rest) bs e ((true :: rest).length + 1) (h.congr rfl rfl rfl rfl rfl) (by rw [hj]; exact ht.le) hsp hc rfl
    (by simp) hb (by rw [hj]; exact hroom)
  let s1 := walked s0.root (s0.remain - BitVec.ofNat 48 (List.replicate j v).length) tk1 bs1 e (List.replicate j v) es s0
  have howed : s1.remain ≠ 0#48 := owed_ne_zero (by rw [hj]; exact ht)
  obtain ⟨w2, tk2, bs2, -, -, -, hget⟩ := getBit_next (s := s1) hw1 rfl hb1
  have hstep := walkStep_nil (s := loaded w2 (got tk2 bs2 e s1)) (b := true)
    (d := internalNode (f.setWidth 48) 0#17 Config.nil) h.root_lt
    (by show s.ns.get? s.root.toNat = _; rw [hns, hr]; rfl) rfl
  refine ⟨loaded w2 (got tk2 bs2 e s1), ?_⟩
  rw [walkBody, walk_fuel hc hb]
  refine hcodes.trans ?_
  rw [walkLoop]
  refine (if_neg howed).trans ?_
  rw [hget, Run.ok_bind]
  dsimp only
  rw [hstep, Run.error_bind]

/-- Settles O50: in the tree of one symbol a 1 bit chooses the absent child, and no other tree has one. -/
theorem decodeInvalidCode : Obligations.DecodeInvalidCode := by
  refine ⟨fun s v f body e ps r rs j rest hi hf hp hs hb hj ha => ?single, fun s t bs e ps hi hp hexec ho => ?only⟩
  case single =>
    let b : State := { s with ctrl := .busy }
    have hm : ftWf [(v.toNat, f)] := ftWf_single hf
    obtain ⟨τ, hτ, hns, hr⟩ := builtFrom_single (v := v) hf
    obtain ⟨hT, hrun⟩ := decodeBody_prefix (s := b) hm (by simp) hτ hp
    obtain ⟨u, hu⟩ := walkBody_invalid hT hns hr rfl hb ⟨_, decodeReady_ssnk _ τ body e hs, ha⟩
      (by rw [decodeReady_total τ b body e hm]; simpa [countSum] using hj)
    exact ⟨_, exec_raised (i := .decode) hi (by rw [bodyOf, hrun, hu, Run.error_bind])⟩
  case only =>
    by_cases hok : HeaderOk bs
    · obtain ⟨t', o, hexec', hout, hwalk⟩ := exec_decode_wellFormed hi hp hok
      obtain rfl : t' = t := Host.Outcome.next.inj (hexec'.symm.trans hexec)
      obtain rfl : o = .fault .invalidCodeError := by simpa [hout] using ho
      cases hwalk _ rfl with
      | invalid single => exact ⟨hok, single⟩
    · obtain h | ⟨n, u, -, hu, -⟩ | ⟨u, -, -, hu, -⟩ := decodeBody_header (s := { s with ctrl := .busy }) hp
      · exact absurd h hok
      all_goals
        obtain ⟨hexec', -, hout, -⟩ := exec_raised (i := .decode) hi hu
        obtain rfl := Host.Outcome.next.inj (hexec'.symm.trans hexec)
        rw [hout] at ho
        cases e <;> simp [Terminator.headerFault] at ho

end Sys2Proof.Machine
end

section
/-! PROOFS. Ports to which the host presents nothing (log 2): opening one is opening it with the stream listed that the
model chooses. -/

namespace Sys2Proof.Machine

theorem SrcPort.start_unlisted {α : Type} {p : SrcPort α} (h : p.passes = []) :
    p.start = SrcPort.start { p with passes := [⟨[], .err⟩] } := by
  simp [SrcPort.start, unlistedPass, h]

theorem SnkPort.start_unlisted {α : Type} {p : SnkPort α} (h : p.scripts = []) :
    p.start = SnkPort.start { p with scripts := [none] } := by
  simp [SnkPort.start, h]

section
variable {s t : State}

theorem openSsrc_unlisted (h : s.env.ssrc.passes = []) : openSsrc s = openSsrc { s with env := { s.env with
    ssrc := { s.env.ssrc with passes := [⟨[], .err⟩] } } } := by
  rw [openSsrc, SrcPort.start_unlisted h]
  rfl

theorem openBsrc_unlisted (h : s.env.bsrc.passes = []) : openBsrc s = openBsrc { s with env := { s.env with
    bsrc := { s.env.bsrc with passes := [⟨[], .err⟩] } } } := by
  rw [openBsrc, SrcPort.start_unlisted h]
  rfl

/-- COUNT begins by opening `SSRC`, and sees the state before only through that. -/
theorem countBody_congr (h : openSsrc s = openSsrc t) : countBody s = countBody t := by
  rw [countBody, countBody, h]

/-- DECODE begins by opening `BSRC`, and sees the state before only through that. -/
theorem decodeBody_congr (h : openBsrc s = openBsrc t) : decodeBody s = decodeBody t := by
  rw [decodeBody, decodeBody, h]

theorem countBody_unlisted (h : s.env.ssrc.passes = []) : ∃ u, countBody s = .error (.raised .ioError u) := by
  obtain ⟨u, hu, -⟩ := countBody_err (s := { s with env := { s.env with
    ssrc := { s.env.ssrc with passes := [⟨[], .err⟩] } } }) rfl (fits_nil fun _ => Nat.zero_le _)
  exact ⟨u, (countBody_congr (openSsrc_unlisted h)).trans hu⟩

/-- With no byte the header is cut before its first field. -/
theorem decodeBody_unlisted (h : s.env.bsrc.passes = []) : ∃ u, decodeBody s = .error (.raised .ioError u) := by
  rw [decodeBody_congr (openBsrc_unlisted h)]
  obtain ⟨hlen, -⟩ | ⟨n, -, ⟨hlen, hn⟩, -⟩ | ⟨u, -, -, hu, -⟩ := decodeBody_header (s := { s with env := { s.env with
    bsrc := { s.env.bsrc with passes := [⟨[], .err⟩] } } }) rfl
  · exact absurd hlen (by decide)
  · obtain ⟨rfl, -⟩ | ⟨k, -, -, rfl, -⟩ := hn
    · exact absurd hlen (by decide)
    · simp at hlen
  · exact ⟨u, hu⟩

end

/-- Settles O27: COUNT and DECODE meet the `Err` at once, and the rest is what opening a port makes of an empty list. -/
theorem unlistedStreams : Obligations.UnlistedStreams := by
  refine ⟨fun s hi h => ?count, fun s hi h => ?decode, fun s => openSsrc_unlisted, fun s => openBsrc_unlisted,
    fun s h => ?bsnk, fun s h => ?ssnk⟩
  case count =>
    obtain ⟨u, hu⟩ := countBody_unlisted (s := { s with ctrl := .busy }) h
    exact ⟨_, exec_raised (i := .count) hi hu⟩
  case decode =>
    obtain ⟨u, hu⟩ := decodeBody_unlisted (s := { s with ctrl := .busy }) h
    exact ⟨_, exec_raised (i := .decode) hi hu⟩
  case bsnk => rw [openBsnk, SnkPort.start_unlisted h]; rfl
  case ssnk => rw [openSsnk, SnkPort.start_unlisted h]; rfl

end Sys2Proof.Machine
end

section
/-! PROOFS. The model's own stops are not reached (spec/70_reset_and_hazards.md rule R271, log 10): each stretch of
pseudocode, begun with its ports open and its tables in order, ends or raises a fault of HCC. -/

namespace Sys2Proof.Machine

/-- A stretch of pseudocode ends as `Q` says or raises a fault of HCC: it does not stop the model. -/
def Answers {α : Type} (Q : α → Prop) (m : Run α) : Prop :=
  (∃ a, m = .ok a ∧ Q a) ∨ ∃ k u, m = .error (.raised k u)

section
variable {α β : Type} {Q : α → Prop} {P : β → Prop} {m : Run α} {f : α → Run β}

theorem Answers.of_ok {a : α} (h : Q a) : Answers Q (.ok a) := .inl ⟨a, rfl, h⟩

theorem Answers.of_raised (k : FaultKind) (u : State) : Answers Q (.error (.raised k u)) := .inr ⟨k, u, rfl⟩

theorem Answers.bind (h : Answers Q m) (hf : ∀ a, m = .ok a → Q a → Answers P (f a)) : Answers P (m >>= f) := by
  obtain ⟨a, rfl, ha⟩ | ⟨k, u, rfl⟩ := h
  · exact hf a rfl ha
  · exact .of_raised k u

theorem Walks.answers {n : Nat} (h : Walks n Q m) : Answers Q m := by
  obtain hok | ⟨k, u, hu, -⟩ := h
  · exact .inl hok
  · exact .inr ⟨k, u, hu⟩

end

/-! ### COUNT -/

/-- The bound of the loop is one more than the symbols of the pass, for the event that ends it. -/
theorem countLoop_answers : ∀ (n : Nat) {s : State} {vs : List Sym} {e : Terminator},
    s.env.ssrc.cur = some ⟨vs, e⟩ → vs.length < n → Answers (fun _ => True) (countLoop n s)
  | 0, _, _, _, _, hn => absurd hn (Nat.not_lt_zero _)
  | n + 1, s, [], .eos, hc, _ => by
    rw [countLoop, srcSym_eos hc]
    exact .of_ok trivial
  | n + 1, s, [], .err, hc, _ => by
    rw [countLoop, srcSym_err hc]
    exact .of_raised _ _
  | n + 1, s, v :: vs, e, hc, hn => by
    rw [countLoop, srcSym_cons hc, Run.ok_bind]
    generalize hu : ({ s with env := { s.env with
      ssrc := { s.env.ssrc with cur := some ⟨vs, e⟩ }, trace := s.env.trace ++ [.tookSym (.item v)] } } : State) = u
    have hcu : u.env.ssrc.cur = some ⟨vs, e⟩ := by rw [← hu]
    show Answers _ (countStep v u >>= countLoop n)
    by_cases hm : ftRead v u = Config.countMax
    · rw [countStep_max hm]
      exact .of_raised _ _
    · rw [countStep_ok hm]
      exact countLoop_answers n (vs := vs) (e := e) hcu (Nat.lt_of_succ_lt_succ hn)

theorem countBody_answers (s : State) : Answers (fun _ => True) (countBody s) :=
  (countLoop_answers _ (s := clearTables (openSsrc s)) rfl (Nat.lt_succ_self _)).bind fun _ _ _ => .of_ok trivial

/-! ### BUILD and GEN -/

theorem buildBody_answers {s : State} (hs : TablesOk s) : Answers (fun _ => True) (buildBody s) := by
  by_cases hv : s.ftv = true
  · by_cases hd : s.distinct = 0#17
    · rw [buildBody_eq, if_pos hv, if_pos hd]
      exact .of_ok trivial
    · obtain ⟨t, ht, -⟩ := buildBody_spec hv hs.wf.1 hs.table hd
      rw [ht]
      exact .of_ok trivial
  · rw [buildBody_eq, if_neg hv]
    exact .of_raised _ _

theorem genBody_answers {s : State} (hs : TablesOk s) : Answers (fun _ => True) (genBody s) := by
  cases hv : s.trv with
  | false =>
    rw [genBody, hv]
    exact .of_raised _ _
  | true =>
    obtain ⟨ct, hct, -⟩ := genBody_spec (hs.treeAt hv) hv
    rw [hct]
    exact .of_ok trivial

/-! ### ENCODE -/

/-- ENCODE's ports are open, with `vs` and `e` of the pass still to come. -/
structure Packing (vs : List Sym) (e : Terminator) (s : State) : Prop where
  source : s.env.ssrc.cur = some ⟨vs, e⟩
  sink : ∃ t, s.env.bsnk.cur = some t

section
variable {s : State} {vs : List Sym} {e : Terminator}

theorem Packing.outByte (h : Packing vs e s) (x : Byte) : Answers (Packing vs e) (outByte x s) := by
  obtain ⟨⟨items, room⟩, hc⟩ := h.sink
  rcases room with _ | _ | k
  · rw [Machine.outByte, sinkByte_ok hc]
    exact .of_ok ⟨h.source, _, rfl⟩
  · rw [Machine.outByte, sinkByte_err hc]
    exact .of_raised _ _
  · rw [Machine.outByte, sinkByte_room hc]
    exact .of_ok ⟨h.source, _, rfl⟩

theorem Packing.outBytes : ∀ (xs : List Byte) {s : State}, Packing vs e s → Answers (Packing vs e) (outBytes xs s)
  | [], _, h => .of_ok h
  | x :: xs, _, h => (h.outByte x).bind fun _ _ h => Packing.outBytes xs h

theorem Packing.emitEntries : ∀ (m : Store Count) {s : State}, Packing vs e s →
    Answers (Packing vs e) (emitEntries m s)
  | [], _, h => .of_ok h
  | (_, f) :: m, _, h => (h.outBytes _).bind fun _ _ h => (h.outBytes (bytes32 f)).bind fun _ _ h =>
    Packing.emitEntries m h

theorem Packing.emitHeader (h : Packing vs e s) : Answers (Packing vs e) (emitHeader s) :=
  (h.outBytes _).bind fun u _ h => h.emitEntries u.ft

theorem Packing.putBit (h : Packing vs e s) (b : Bool) : Answers (Packing vs e) (putBit b s) := by
  unfold Machine.putBit
  split
  · exact (h.outByte _).bind fun _ _ h => .of_ok ⟨h.source, h.sink⟩
  · exact .of_ok ⟨h.source, h.sink⟩

theorem Packing.putCode : ∀ (p : Code) {s : State}, Packing vs e s → Answers (Packing vs e) (putCode p s)
  | [], _, h => .of_ok h
  | b :: p, _, h => (h.putBit b).bind fun _ _ h => Packing.putCode p h

theorem Packing.flushBits (h : Packing vs e s) : Answers (fun _ => True) (flushBits s) := by
  unfold Machine.flushBits
  split
  · exact .of_ok trivial
  · exact (h.outByte _).bind fun _ _ _ => .of_ok trivial

end

/-- The bound of the loop is one more than the symbols of the pass, for the event that ends it. -/
theorem Packing.packLoop : ∀ (n : Nat) {s : State} {vs : List Sym} {e : Terminator}, Packing vs e s → vs.length < n →
    Answers (fun u => ∃ e, Packing [] e u) (packLoop n s)
  | 0, _, _, _, _, hn => absurd hn (Nat.not_lt_zero _)
  | n + 1, s, [], .eos, h, _ => by
    rw [Machine.packLoop, srcSym_eos h.source]
    exact .of_ok ⟨.eos, h.source, h.sink⟩
  | n + 1, s, [], .err, h, _ => by
    rw [Machine.packLoop, srcSym_err h.source]
    exact .of_raised _ _
  | n + 1, s, v :: vs, e, h, hn => by
    rw [Machine.packLoop, srcSym_cons h.source, Run.ok_bind]
    dsimp only
    split
    · exact .of_raised _ _
    · have hu : Packing vs e { s with env := { s.env with
          ssrc := { s.env.ssrc with cur := some ⟨vs, e⟩ }, trace := s.env.trace ++ [.tookSym (.item v)] } } :=
        ⟨rfl, h.sink⟩
      exact (hu.putCode _).bind fun _ _ h => Packing.packLoop n h (Nat.lt_of_succ_lt_succ hn)

theorem Packing.packBody {s : State} {vs : List Sym} {e : Terminator} (h : Packing vs e s) :
    Answers (fun _ => True) (packBody s) := by
  have hn : vs.length < s.env.ssrc.itemsLeft + 1 := by simp [SrcPort.itemsLeft, h.source]
  have hs : Packing vs e { s with acc := 0#8, nbits := 0#3 } := ⟨h.source, h.sink⟩
  exact (hs.packLoop _ hn).bind fun _ _ ⟨_, h⟩ => h.flushBits

theorem encodeBody_answers (s : State) : Answers (fun _ => True) (encodeBody s) := by
  unfold encodeBody
  cases s.ftv && s.ctv with
  | false => exact .of_raised _ _
  | true =>
    have hopen : Packing (s.env.ssrc.passes.headD unlistedPass).items (s.env.ssrc.passes.headD unlistedPass).term
        { openBsnk (openSsrc s) with bytesOut := 0#64 } := ⟨rfl, _, rfl⟩
    exact hopen.emitHeader.bind fun _ _ h => h.packBody.bind fun _ _ _ => .of_ok trivial

/-! ### DECODE and the composites -/

theorem decodeBody_answers (s : State) : Answers (fun _ => True) (decodeBody s) := by
  cases hp : s.env.bsrc.passes with
  | nil =>
    obtain ⟨u, hu⟩ := decodeBody_unlisted hp
    exact .inr ⟨_, u, hu⟩
  | cons pass ps =>
    obtain ⟨bs, e⟩ := pass
    obtain hok | ⟨-, u, -, hu, -⟩ | ⟨u, -, -, hu, -⟩ := decodeBody_header hp
    · exact (decodeBody_wellFormed hp hok).answers
    · exact .inr ⟨_, u, hu⟩
    · exact .inr ⟨_, u, hu⟩

/-- COUNT leaves its tables in order, so BUILD and GEN find theirs so (rules R212, R35, R39). -/
theorem compressBody_answers (s : State) : Answers (fun _ => True) (compressBody s) := by
  refine (countBody_answers (clearAll s)).bind fun c hc _ => ?_
  have htc : TablesOk c.2 := countBody_tables hc
  dsimp only
  split
  · exact .of_ok trivial
  · refine (buildBody_answers htc).bind fun b hb _ => ?_
    exact (genBody_answers (buildBody_tables htc hb)).bind fun g _ _ => encodeBody_answers g.2

theorem bodyOf_answers {s : State} (hs : TablesOk s) (i : Instr) : Answers (fun _ => True) (bodyOf i s) := by
  cases i with
  | clr => exact .of_ok trivial
  | count => exact countBody_answers s
  | build => exact buildBody_answers hs
  | gen => exact genBody_answers hs
  | encode => exact encodeBody_answers s
  | decode => exact decodeBody_answers s
  | compress => exact compressBody_answers s
  | decompress => exact decodeBody_answers (clearAll s)

/-! ### Every move of the host -/

section
variable {s : State} (hs : TablesOk s)
include hs

theorem TablesOk.exec_next (i : Instr) : ∃ t, exec i s = .next t := by
  cases hc : s.ctrl with
  | idle =>
    rw [exec_idle hc]
    obtain ⟨⟨o, u⟩, hu, -⟩ | ⟨k, u, hu⟩ := bodyOf_answers (s := { s with ctrl := .busy }) (hs.congr rfl) i
    · exact ⟨_, by rw [hu, conclude_ok]⟩
    · exact ⟨_, by rw [hu, conclude_raised]⟩
  | busy => exact ⟨s, exec_busy hc⟩
  | faulted =>
    by_cases hi : i = .clr
    · subst hi
      exact ⟨_, exec_clr (by simp [hc])⟩
    · exact ⟨s, exec_faulted hc hi⟩

theorem TablesOk.acceptWord_next (w : Byte) : ∃ t, acceptWord w s = .next t := by
  obtain ⟨i, hd, -⟩ | hd := decode_cases w
  · rw [acceptWord_command hd]
    exact hs.exec_next i
  · rw [acceptWord_illegal hd, illegalWord]
    cases s.ctrl <;> exact ⟨_, rfl⟩

theorem TablesOk.hostMove_next (m : HostMove) : ∃ t, hostMove m s = .next t := by
  cases m with
  | word w => exact hs.acceptWord_next w
  | readCsr n => exact ⟨_, rfl⟩
  | reset => exact ⟨_, rfl⟩
  | wordThenReset w k =>
    obtain ⟨t, ht⟩ := hs.acceptWord_next w
    exact ⟨_, by rw [hostMove, wordThenReset, ht]⟩

theorem TablesOk.step_next : ∃ t, step s = .next t := by
  cases hin : s.env.inbox with
  | nil => exact ⟨s, step_none hin⟩
  | cons m ms =>
    cases hw : mustWait m s with
    | true => exact ⟨s, step_wait hin hw⟩
    | false =>
      rw [step_move hin hw]
      exact (TablesOk.stable.take s ms hs).hostMove_next m

end

/-- Settles O60: with tables, tree and codes in order no move of the host stops the model, a command leaves control in
order, and its outcome is recorded. -/
theorem everyCommandEnds : Obligations.EveryCommandEnds := by
  intro s hs
  obtain ⟨hc, -, ht⟩ := inv_iff.1 hs
  refine ⟨ht.step_next, fun i hi => ?_⟩
  obtain ⟨t, h⟩ := ht.exec_next i
  obtain ⟨o, ho, -⟩ := exec_outcome hi h
  exact ⟨t, o, h, (ControlOk.stable.exec hc h).ctrl, ho⟩

end Sys2Proof.Machine
end

section
/-! PROOFS. Reset, between commands and in the middle of one (spec/70_reset_and_hazards.md rules R260, R262). -/

namespace Sys2Proof.Machine

/-- Settles O6: the move is answered by `resetCore`, which keeps of the state before only what the host lists and has
seen. -/
theorem resetMove : Obligations.ResetMove := by
  intro s ms hin
  exact ⟨_, step_reset hin, resetCore_values _, rfl, rfl, ⟨rfl, rfl, rfl, rfl⟩, rfl, rfl, rfl, rfl,
    fun hms => step_none hms⟩

/-! ### The record of port events and the outputs (rules R71, R72) -/

/-- The host's record has grown by the events `es`, and a sink has a new output only if its `Commit` is among them. -/
structure Recorded (es : List PortEvent) (a b : Env) : Prop where
  trace : b.trace = a.trace ++ es
  bytes : .committed .bsnk ∉ es → b.bsnk.outputs = a.bsnk.outputs
  syms : .committed .ssnk ∉ es → b.ssnk.outputs = a.ssnk.outputs

section
variable {a b : Env} {es : List PortEvent}

theorem Recorded.nil (ht : b.trace = a.trace) (hb : b.bsnk = a.bsnk) (hs : b.ssnk = a.ssnk) : Recorded [] a b :=
  ⟨ht.trans (List.append_nil _).symm, fun _ => by rw [hb], fun _ => by rw [hs]⟩

theorem Calm.recorded (h : Calm a b) : ∃ es, Recorded es a b := by
  obtain ⟨es, ht, -⟩ := h.trace
  exact ⟨es, ht, fun _ => h.bytesOut, fun _ => h.symsOut⟩

theorem Recorded.of_commit_bsnk (ht : b.trace = a.trace ++ es ++ [.committed .bsnk]) (hs : b.ssnk = a.ssnk) :
    Recorded (es ++ [.committed .bsnk]) a b :=
  ⟨by rw [ht, List.append_assoc], fun hn => absurd (by simp) hn, fun _ => by rw [hs]⟩

theorem Recorded.of_commit_ssnk (ht : b.trace = a.trace ++ es ++ [.committed .ssnk]) (hb : b.bsnk = a.bsnk) :
    Recorded (es ++ [.committed .ssnk]) a b :=
  ⟨by rw [ht, List.append_assoc], fun _ => by rw [hb], fun hn => absurd (by simp) hn⟩

end

section
variable {i : Instr} {o : CmdOutcome} {s t u : State}

theorem bodyOf_recorded (h : bodyOf i s = .ok (o, u)) : ∃ es, Recorded es s.env u.env := by
  have hports := (bodyOf_ports i s).ok _ h
  cases i with
  | clr => cases h; exact ⟨[], .nil rfl rfl rfl⟩
  | count => exact ((countBody_end s).ok _ h).calm.recorded
  | build =>
    have hu : u.env = s.env := hports
    exact ⟨[], .nil (by rw [hu]) (by rw [hu]) (by rw [hu])⟩
  | gen =>
    have hu : u.env = s.env := hports
    exact ⟨[], .nil (by rw [hu]) (by rw [hu]) (by rw [hu])⟩
  | encode =>
    obtain ⟨-, -, es, -, -, ht, -⟩ := ((encodeBody_end s).ok _ h).output
    exact ⟨_, .of_commit_bsnk ht (hports.ssnk_of_encoder (.inl rfl))⟩
  | decode =>
    obtain ⟨-, -, es, -, -, ht, -⟩ := ((decodeBody_end s).ok _ h).output
    exact ⟨_, .of_commit_ssnk ht (hports.bsnk_of_decoder (.inl rfl))⟩
  | compress =>
    obtain ⟨-, -, -, -, -, hcalm, -⟩ | ⟨-, -, -, -, -, -, -, es, -, -, ht, -⟩ := ((compressBody_end s).ok _ h).outcome
    · exact hcalm.recorded
    · exact ⟨_, .of_commit_bsnk ht (hports.ssnk_of_encoder (.inr rfl))⟩
  | decompress =>
    obtain ⟨-, -, es, -, -, ht, -⟩ := ((decompressBody_end s).ok _ h).output
    exact ⟨_, .of_commit_ssnk ht (hports.bsnk_of_decoder (.inr rfl))⟩

/-- Fault entry adds the closing brackets of the open ports and no output (rule R240). -/
theorem Calm.recorded_fault {a : Env} (h : Calm a u.env) (k : FaultKind) :
    ∃ es, Recorded es a (recordOutcome (.fault k) (faultEntry k u)).env := by
  obtain ⟨es, ht, -⟩ := h.trace
  refine ⟨es ++ closings u, ?trace, fun _ => ?bytes, fun _ => ?syms⟩
  case trace => rw [faulted_trace, ht, List.append_assoc]
  case bytes => rw [faultEntry_eq, ← h.bytesOut]; rfl
  case syms => rw [faultEntry_eq, ← h.symsOut]; rfl

theorem exec_recorded (h : exec i s = .next t) : ∃ es, Recorded es s.env t.env := by
  cases hc : s.ctrl with
  | idle =>
    rw [exec_idle hc] at h
    obtain ⟨o, u, hu, rfl⟩ | ⟨k, u, hu, rfl⟩ := conclude_next h
    · obtain ⟨es, ht, hb, hs⟩ := bodyOf_recorded hu
      exact ⟨es, ht, hb, hs⟩
    · exact (bodyOf_raised_calm hu).recorded_fault k
  | busy =>
    rw [exec_busy hc] at h
    cases h
    exact ⟨[], .nil rfl rfl rfl⟩
  | faulted =>
    by_cases hi : i = .clr
    · subst hi
      rw [exec_clr (by simp [hc])] at h
      cases h
      exact ⟨[], .nil rfl rfl rfl⟩
    · rw [exec_faulted hc hi] at h
      cases h
      exact ⟨[], .nil rfl rfl rfl⟩

theorem acceptWord_recorded {w : Byte} (h : acceptWord w s = .next t) : ∃ es, Recorded es s.env t.env := by
  obtain ⟨i, hd, -⟩ | hd := decode_cases w
  · rw [acceptWord_command hd] at h
    exact exec_recorded h
  · rw [acceptWord_illegal hd, illegalWord] at h
    split at h <;> cases h
    · exact (Calm.refl s.env).recorded_fault _
    · exact ⟨[], .nil rfl rfl rfl⟩
    · exact ⟨[], .nil rfl rfl rfl⟩

end

/-! ### A command cut off by reset (rule R262, log 15) -/

section
variable {a b : Env} {es : List PortEvent}

theorem Recorded.newEvents (h : Recorded es a b) : b.trace.drop a.trace.length = es := by
  rw [h.trace, List.drop_left]

theorem Recorded.cutOff (h : Recorded es a b) (k : Nat) : Recorded (es.take k) a (cutOff k a b) := by
  refine ⟨?trace, fun hn => ?bytes, fun hn => ?syms⟩
  case trace => rw [Machine.cutOff, h.newEvents]
  case bytes => rw [Machine.cutOff, h.newEvents]; exact if_neg hn
  case syms => rw [Machine.cutOff, h.newEvents]; exact if_neg hn

/-- Cut off after its last port event the command has made its outputs. -/
theorem Recorded.cutOff_outputs (h : Recorded es a b) {k : Nat} (hk : es.take k = es) :
    (Machine.cutOff k a b).bsnk.outputs = b.bsnk.outputs ∧ (Machine.cutOff k a b).ssnk.outputs = b.ssnk.outputs := by
  rw [Machine.cutOff, h.newEvents, hk]
  exact ⟨ite_eq_left_iff.2 fun hn => (h.bytes hn).symm, ite_eq_left_iff.2 fun hn => (h.syms hn).symm⟩

end

/-- Settles O7: the next state is `resetCore` of the state whose record is cut after `k` of the command's events. -/
theorem resetCutsCommand : Obligations.ResetCutsCommand := by
  intro s t w k ms hin hb hw
  obtain ⟨es, hrec⟩ := acceptWord_recorded hw
  have hcut := hrec.cutOff k
  have hstep := step_move hin (by simp [mustWait, hb])
  rw [hostMove, wordThenReset, hw] at hstep
  refine ⟨_, es.take k, es.drop k, hstep, resetCore_values _, rfl, rfl, ⟨rfl, rfl, rfl, rfl⟩, ?whole, hcut.trace,
    ?length, hcut.bytes, hcut.syms, fun hds => hrec.cutOff_outputs ?all⟩
  case whole => rw [hrec.trace, List.append_assoc, List.take_append_drop]
  case length => rw [List.take_append_drop, List.length_take]
  case all => simpa [hds] using List.take_append_drop k es

end Sys2Proof.Machine
end

section
/-! PROOFS. The six scratch registers carry nothing from one command to the next (spec/10_state.md rule R23,
spec/70_reset_and_hazards.md rule R264): the pseudocode of the packer sets `ACC` and `NBITS` before it reads them, that
of the walk `SHIFT`, `NBITS_IN`, `CUR` and `REMAIN`, and no other pseudocode reads any of the six. The scheme is that of
`Relabel`, for registers that some pseudocode does read. -/

namespace Sys2Proof.Machine

/-! ### Scrambled scratch registers -/

/-- A change of the scratch registers. -/
structure Scramble where
  acc : Byte → Byte := id
  nbits : BitVec 3 → BitVec 3 := id
  shift : Byte → Byte := id
  nbitsIn : BitVec 4 → BitVec 4 := id
  cur : NodeIx → NodeIx := id
  remain : Freq → Freq := id

namespace Scramble
variable (φ : Scramble) {α β : Type}

/-- The state after the change. -/
def on (s : State) : State :=
  { s with
    acc := φ.acc s.acc, nbits := φ.nbits s.nbits, shift := φ.shift s.shift, nbitsIn := φ.nbitsIn s.nbitsIn,
    cur := φ.cur s.cur, remain := φ.remain s.remain }

/-- The same result with the state in it changed; `g` says how the answer changes. -/
def run (g : α → α) : Run α → Run α
  | .ok a => .ok (g a)
  | .error (.raised k u) => .error (.raised k (φ.on u))
  | .error (.fault r) => .error (.fault r)
  | .error (.refused r) => .error (.refused r)

/-- The change of a result that is a value and a state. -/
def pair (r : α × State) : α × State := (r.1, φ.on r.2)

/-- A piece of pseudocode does to a changed state what it does to the state, changed. -/
def Keeps (f : State → Run State) : Prop := ∀ s, f (φ.on s) = φ.run φ.on (f s)

/-- The same for a piece that also answers a value. -/
def KeepsTo (f : State → Run (α × State)) : Prop := ∀ s, f (φ.on s) = φ.run φ.pair (f s)

variable {φ}

theorem run_bind {g : α → α} {h : β → β} {m m' : Run α} {k k' : α → Run β} (hm : m' = φ.run g m)
    (hk : ∀ a, k' (g a) = φ.run h (k a)) : m' >>= k' = φ.run h (m >>= k) := by
  subst hm
  rcases m with (_ | _ | _) | a
  · rfl
  · rfl
  · rfl
  · exact hk a

/-- What only reads answers the same. -/
theorem run_bind_read {h : β → β} {m : Run α} {k k' : α → Run β} (hm : ∀ k u, m ≠ .error (.raised k u))
    (hk : ∀ a, k' a = φ.run h (k a)) : m >>= k' = φ.run h (m >>= k) := by
  rcases m with (⟨k, u⟩ | _ | _) | a
  · exact absurd rfl (hm k u)
  · rfl
  · rfl
  · exact hk a

/-- A test that the change leaves alone. -/
theorem run_ite {g : α → α} {c : Prop} [Decidable c] {m m' l l' : Run α} (hm : m' = φ.run g m) (hl : l' = φ.run g l) :
    (if c then m' else l') = φ.run g (if c then m else l) := by
  by_cases hc : c
  · rwa [if_pos hc, if_pos hc]
  · rwa [if_neg hc, if_neg hc]

/-! ### What reads no scratch register -/

theorem on_env (s : State) : (φ.on s).env = s.env := rfl

theorem srcSym_keeps : φ.KeepsTo srcSym := by
  intro s
  unfold srcSym
  rw [on_env]
  cases s.env.ssrc.take <;> rfl

theorem srcByte_keeps : φ.KeepsTo srcByte := by
  intro s
  unfold srcByte
  rw [on_env]
  cases s.env.bsrc.take <;> rfl

theorem outByte_keeps (x : Byte) : φ.Keeps (outByte x) := by
  intro s
  unfold outByte sinkByte
  rw [on_env]
  rcases s.env.bsnk.offer x with _ | ⟨_ | _, p⟩ <;> rfl

theorem outSym_keeps (v : Sym) : φ.Keeps (outSym v) := by
  intro s
  unfold outSym sinkSym
  rw [on_env]
  rcases s.env.ssnk.offer v with _ | ⟨_ | _, p⟩ <;> rfl

theorem countStep_keeps (v : Sym) : φ.Keeps (countStep v) := by
  intro s
  by_cases hm : ftRead v s = Config.countMax
  · rw [countStep_max hm]
    exact countStep_max hm
  · rw [countStep_ok hm]
    exact countStep_ok hm

theorem countLoop_keeps : ∀ n : Nat, φ.Keeps (countLoop n)
  | 0 => fun _ => rfl
  | n + 1 => fun s => run_bind (srcSym_keeps s) fun
    | (.err, _) => rfl
    | (.eos, _) => rfl
    | (.item v, u) => run_bind (countStep_keeps v u) (countLoop_keeps n)

theorem countBody_keeps : φ.KeepsTo countBody := fun s =>
  run_bind (countLoop_keeps _ (clearTables (openSsrc s))) fun _ => rfl

theorem growTree_keeps : φ.Keeps growTree := by
  intro s
  have hgraft : growTree (φ.on s) = Except.map (graft (φ.on s)) (growTree s) := growTree_graft (φ.on s) s rfl
  have hbuilds := growTree_builds s
  rw [hgraft]
  rcases hrun : growTree s with (⟨k, u⟩ | _ | _) | u
  · exact absurd (hbuilds.raised k u hrun).2 (by simp)
  · rfl
  · rfl
  · have hu : u = _ := (hbuilds.ok u hrun).eq
    show Except.ok (graft (φ.on s) u) = .ok (φ.on u)
    rw [hu]
    rfl

theorem buildBody_keeps : φ.KeepsTo buildBody := by
  intro s
  rw [buildBody_eq, buildBody_eq s]
  exact run_ite (run_ite rfl (run_bind (growTree_keeps (dropCodes (dropTree s))) fun _ => rfl)) rfl

theorem require_keeps (c : Bool) (s : State) : require c (φ.on s) = φ.run id (require c s) := by
  cases c <;> rfl

theorem genLoop_keeps : ∀ (n : Nat) (st : List (NodeIx × Code)), φ.Keeps (genLoop n st)
  | _, [] => fun s => by unfold genLoop; rfl
  | 0, _ :: _ => fun _ => rfl
  | n + 1, (m, p) :: st => fun s => by
    refine run_bind_read (nsRead_silent m s) fun d => ?_
    cases d.tag with
    | leaf => exact genLoop_keeps n st (ctWrite d.sym p s)
    | internal => exact genLoop_keeps n _ s

theorem genBody_keeps : φ.KeepsTo genBody := fun s =>
  run_bind (require_keeps s.trv s) fun _ => run_bind (genLoop_keeps _ _ (dropCodes s)) fun _ => rfl

theorem hdrByte_keeps : φ.KeepsTo hdrByte := fun s =>
  run_bind (srcByte_keeps s) fun
    | (.err, _) => rfl
    | (.eos, _) => rfl
    | (.item _, _) => rfl

theorem get16be_keeps : φ.KeepsTo get16be := fun s =>
  run_bind (hdrByte_keeps s) fun r => run_bind (hdrByte_keeps r.2) fun _ => rfl

theorem get32be_keeps : φ.KeepsTo get32be := fun s =>
  run_bind (hdrByte_keeps s) fun r0 => run_bind (hdrByte_keeps r0.2) fun r1 =>
    run_bind (hdrByte_keeps r1.2) fun r2 => run_bind (hdrByte_keeps r2.2) fun _ => rfl

theorem headerEntries_keeps : ∀ (n : Nat) (prev : Option Sym), φ.Keeps (headerEntries n prev)
  | 0, _ => fun _ => rfl
  | n + 1, _ => fun s =>
    run_bind (get16be_keeps s) fun (v, u) => run_bind (get32be_keeps u) fun (f, w) =>
      run_ite rfl (run_ite rfl (headerEntries_keeps n (some v)
        { ftWrite v f w with total := (ftWrite v f w).total + f.setWidth 48 }))

theorem parseHeader_keeps : φ.Keeps parseHeader := fun s =>
  run_bind (get32be_keeps (clearTables s)) fun (_, u) =>
    run_ite rfl (run_bind (headerEntries_keeps _ _ u) fun _ => rfl)

theorem outBytes_keeps : ∀ xs : List Byte, φ.Keeps (outBytes xs)
  | [] => fun _ => rfl
  | x :: xs => fun s => run_bind (outByte_keeps x s) (outBytes_keeps xs)

theorem emitEntries_keeps : ∀ m : Store Count, φ.Keeps (emitEntries m)
  | [] => fun _ => rfl
  | (_, f) :: m => fun s => run_bind (outBytes_keeps _ s) fun u =>
    run_bind (outBytes_keeps (bytes32 f) u) (emitEntries_keeps m)

theorem emitHeader_keeps : φ.Keeps emitHeader := fun s =>
  run_bind (outBytes_keeps _ s) fun u => emitEntries_keeps u.ft u

/-! ### The packer reads `ACC` and `NBITS` (rules R173 to R177) -/

/-- The change that leaves `ACC` and `NBITS` alone. -/
def sparePacker (φ : Scramble) : Scramble := { φ with acc := id, nbits := id }

theorem putBit_keeps (b : Bool) : φ.sparePacker.Keeps (putBit b) := fun s =>
  run_ite (run_bind (outByte_keeps _ s) fun _ => rfl) rfl

theorem putCode_keeps : ∀ p : Code, φ.sparePacker.Keeps (putCode p)
  | [] => fun _ => rfl
  | b :: p => fun s => run_bind (putBit_keeps b s) (putCode_keeps p)

theorem flushBits_keeps : φ.sparePacker.Keeps flushBits := fun s =>
  run_ite rfl (run_bind (outByte_keeps _ s) fun _ => rfl)

theorem packLoop_keeps : ∀ n : Nat, φ.sparePacker.Keeps (packLoop n)
  | 0 => fun _ => rfl
  | n + 1 => fun s => run_bind (srcSym_keeps s) fun
    | (.err, _) => rfl
    | (.eos, _) => rfl
    | (.item v, u) => run_ite rfl (run_bind (putCode_keeps (ctRead v u) u) (packLoop_keeps n))

/-- `pack_body` sets the two registers first, so a change of them is forgotten. -/
theorem packBody_spares (s : State) : packBody (φ.on s) = φ.sparePacker.run φ.sparePacker.on (packBody s) :=
  run_bind (packLoop_keeps _ { s with acc := 0#8, nbits := 0#3 }) flushBits_keeps

/-! ### The walk reads `SHIFT`, `NBITS_IN`, `CUR` and `REMAIN` (rules R194 to R197) -/

/-- The change that leaves the registers of the walk alone. -/
def spareWalk (φ : Scramble) : Scramble := { φ with shift := id, nbitsIn := id, cur := id, remain := id }

theorem getBit_keeps : φ.spareWalk.KeepsTo getBit := fun s =>
  run_ite (hl := rfl) <| run_bind (srcByte_keeps s) fun
    | (.err, _) => rfl
    | (.eos, _) => rfl
    | (.item _, _) => rfl

theorem walkStep_keeps (b : Bool) : φ.spareWalk.Keeps (walkStep b) := by
  intro s
  refine run_bind_read (nsRead_silent s.cur s) fun d => ?_
  refine run_ite rfl (run_bind_read (nsRead_silent _ { s with cur := childOf b d }) fun x => ?_)
  cases x.tag with
  | leaf => exact run_bind (outSym_keeps (φ := φ.spareWalk) x.sym { s with cur := childOf b d }) fun _ => rfl
  | internal => rfl

theorem walkLoop_keeps : ∀ n : Nat, φ.spareWalk.Keeps (walkLoop n)
  | 0 => fun _ => rfl
  | n + 1 => fun s =>
    run_ite rfl (run_bind (getBit_keeps s) fun r => run_bind (walkStep_keeps r.1 r.2) (walkLoop_keeps n))

/-- `walk_body` sets the four registers first, so a change of them is forgotten. -/
theorem walkBody_spares (s : State) : walkBody (φ.on s) = φ.spareWalk.run φ.spareWalk.on (walkBody s) :=
  walkLoop_keeps _ { s with cur := s.root, remain := s.total, shift := 0#8, nbitsIn := 0#4 }

/-! ### Whole commands -/

/-- Two results that differ in the scratch registers alone. -/
def Alike (m m' : Run (α × State)) : Prop := ∃ ψ : Scramble, m' = ψ.run ψ.pair m

theorem alike_bind {g : α → α} {m m' : Run α} {k k' : α → Run (β × State)} (hm : m' = φ.run g m)
    (hk : ∀ a, Alike (k a) (k' (g a))) : Alike (m >>= k) (m' >>= k') := by
  subst hm
  rcases m with (_ | _ | _) | a
  · exact ⟨φ, rfl⟩
  · exact ⟨φ, rfl⟩
  · exact ⟨φ, rfl⟩
  · exact hk a

theorem alike_ite {c : Prop} [Decidable c] {m m' l l' : Run (α × State)} (hm : Alike m m') (hl : Alike l l') :
    Alike (if c then m else l) (if c then m' else l') := by
  by_cases hc : c
  · rwa [if_pos hc, if_pos hc]
  · rwa [if_neg hc, if_neg hc]

theorem encodeBody_alike (s : State) : Alike (encodeBody s) (encodeBody (φ.on s)) :=
  alike_bind (require_keeps (s.ftv && s.ctv) s) fun _ =>
    alike_bind (emitHeader_keeps { openBsnk (openSsrc s) with bytesOut := 0#64 }) fun u =>
      ⟨φ.sparePacker, run_bind (packBody_spares u) fun _ => rfl⟩

theorem decodeBody_alike (s : State) : Alike (decodeBody s) (decodeBody (φ.on s)) :=
  alike_bind (parseHeader_keeps { openSsnk (openBsrc s) with bytesIn := 0#64 }) fun t =>
    alike_bind (buildBody_keeps t) fun r => ⟨φ.spareWalk, run_bind (walkBody_spares r.2) fun _ => rfl⟩

/-- The commands that begin with CLR, begun where CLR leaves states that differ in the scratch registers alone. -/
theorem bodyOf_alike {i : Instr} {s t : State} (hi : i = .clr ∨ i = .compress ∨ i = .decompress)
    (h : clearAll t = φ.on (clearAll s)) : Alike (bodyOf i s) (bodyOf i t) := by
  obtain rfl | rfl | rfl := hi
  · show Alike (.ok (CmdOutcome.done, clearAll s)) (.ok (CmdOutcome.done, clearAll t))
    rw [h]
    exact ⟨φ, rfl⟩
  · show Alike (compressBody s) (compressBody t)
    rw [compressBody, compressBody, h]
    refine alike_bind (countBody_keeps (clearAll s)) fun (_, u) => ?_
    exact alike_ite ⟨φ, rfl⟩ (alike_bind (buildBody_keeps u) fun r => alike_bind (genBody_keeps r.2) fun r =>
      encodeBody_alike r.2)
  · show Alike (decodeBody (clearAll s)) (decodeBody (clearAll t))
    rw [h]
    exact decodeBody_alike (clearAll s)

/-- What comes of a command does not show a change of the scratch registers: no fault entry reads one. -/
theorem Alike.forget {m m' : Run (CmdOutcome × State)} (h : Alike m m') :
    forgetScratchIn (conclude m') = forgetScratchIn (conclude m) := by
  obtain ⟨ψ, rfl⟩ := h
  rcases m with (⟨k, u⟩ | _ | _) | _
  · simp only [run, conclude_raised, faultEntry_eq]
    rfl
  · rfl
  · rfl
  · rfl

/-- The change that gives every state the scratch registers of `t`. -/
def toScratchOf (t : State) : Scramble where
  acc := fun _ => t.acc
  nbits := fun _ => t.nbits
  shift := fun _ => t.shift
  nbitsIn := fun _ => t.nbitsIn
  cur := fun _ => t.cur
  remain := fun _ => t.remain

/-- CLR leaves of the state before only the scratch registers and the host's side (rule R211). -/
theorem clearAll_eq_on {s t : State} (hctrl : t.ctrl = s.ctrl) (henv : t.env = s.env) :
    clearAll t = (toScratchOf t).on (clearAll s) := by
  simp only [clearAll, clearTables, dropCodes, dropTree, on, toScratchOf, hctrl, henv]

end Scramble

/-- Settles O22: the three commands begin with CLR, and what runs after it reads no scratch register it has not set. -/
theorem noStaleState : Obligations.NoStaleState := by
  intro i s s' hs hs' henv hi
  have hclear := Scramble.clearAll_eq_on (s := { s with ctrl := .busy }) (t := { s' with ctrl := .busy }) rfl henv
  rw [exec_idle hs, exec_idle hs']
  exact (Scramble.bodyOf_alike hi hclear).forget

end Sys2Proof.Machine
end
